-- ==== Sys2Proof/Word.lean ====
section
/-! DEFINITION. Word.lean: the word, byte and binary32 types (00_scope.md R8, R10; 20_memory.md R80). -/

namespace Sys2Proof

/-- A 32-bit word, bit 0 least significant (00_scope.md R8). -/
abbrev Word := BitVec 32

/-- A byte of a host's memory image (20_memory.md R85). -/
abbrev Byte := BitVec 8

/-- An IEEE 754 binary32 value held in a 32-bit word: bit 31 the sign, bits 30:23 the biased
exponent, bits 22:0 the fraction (00_scope.md R10). -/
abbrev F32 := BitVec 32

/-- A 20-bit byte address of the register bus (20_memory.md R80). -/
abbrev Addr := BitVec 20

end Sys2Proof
end

