-- ==== Sys2Proof/Config.lean ====
section
/-! DEFINITION. Config.lean: the implementation parameters at this hardware's default values
(00_scope.md R7), the binary32 constants the rules use (R22), and the free values: the choices the
spec leaves open, as constants with no body. -/

namespace Sys2Proof.Config

/-- `NV`: number of voices in the voice bank; legal range 1..64 (R7). DESIGN CHOICE: the default
(log entry 1). -/
def numVoices : Nat := 20

/-- `N_MAX`: capacity of each block buffer in samples; legal range 1..16384 (R7, log entry 1). -/
def bufSize : Nat := 4096

/-- `DL_CAP`: capacity of the delay-line memory in samples; legal range 1..65536 (R7, log entry 1). -/
def delayCap : Nat := 65536

/-- `RETRY_MAX`: most u1 draws per Box-Muller pair; legal range 1..255 (R7, log entry 1). -/
def retryMax : Nat := 8

/-- `SEED_RESET`: PRNG state after reset; any nonzero word (R7, log entry 1). -/
def seedReset : Word := 0x12345678#32

/-- `SR_RESET` = 44100.0: sample rate after reset; finite and > 0 (R7, R22, log entry 1). -/
def srReset : F32 := 0x472C4400#32

/-- The ID register's constant, ASCII "NCO1" (10_state.md R31). -/
def idValue : Word := 0x4E434F31#32

/-- `THR` = 0.001 rounded to binary32: the voice near-silence threshold (R7, R22). -/
def thr : F32 := 0x3A83126F#32

/-- `EPS` = 2^-23: the Box-Muller rejection bound (R7, R22). -/
def eps : F32 := 0x34000000#32

/-- `TWO_PI_F` = 2π rounded to binary32 (R7, R22). -/
def twoPi : F32 := 0x40C90FDB#32

/-! ## Free values (no body: no proof can see one)

`FN_SIN`, `FN_COS`, `FN_LN` and `FN_EXP10` are configuration fields of which a model may assume only
00_scope.md R21. Inside its domain each is faithfully rounded (R21(d)): for each argument it gives
one of the two binary32 neighbours of the exact value. Which of the two is the free part (log entry
7); outside the domain the whole result is free (93_implementation_defined.md I3, log entry 8). -/

/-- Whether FN_SIN gives the upper of the two neighbours of sin x (R21(d)). -/
opaque sinRoundsUp : F32 → Bool

/-- Whether a zero that FN_SIN gives under R21(d), for -0.0 or as the neighbour of sin x toward zero at
±2^-149, is -0.0: the spec gives it no sign (log entry 9). -/
opaque sinZeroIsNeg : F32 → Bool

/-- Whether FN_COS gives the upper of the two neighbours of cos x (R21(d)). -/
opaque cosRoundsUp : F32 → Bool

/-- Whether FN_LN gives the upper of the two neighbours of ln x (R21(d)). -/
opaque lnRoundsUp : F32 → Bool

/-- Whether FN_EXP10 gives the upper of the two neighbours of 10^x (R21(d)). -/
opaque exp10RoundsUp : F32 → Bool

/-- FN_SIN outside its domain: any f32 value, fixed per argument (R21, I3). -/
opaque sinOutside : F32 → F32

/-- FN_COS outside its domain: any f32 value, fixed per argument (R21, I3). -/
opaque cosOutside : F32 → F32

/-- FN_LN outside its domain and outside R21(e): any f32 value, fixed per argument (R21, I3). -/
opaque lnOutside : F32 → F32

/-- FN_LN for 0 < x < 2^-24, below the domain of R21(d): R21(e) still makes the result negative.
This is the position of the result among the negative values. -/
opaque lnBelow : F32 → Nat

/-- FN_EXP10 outside its domain: any f32 value, fixed per argument (R21, I3). -/
opaque exp10Outside : F32 → F32

/-- What the n-th read made while a command runs returns, for the addresses whose content is
unspecified then (20_memory.md R87(g), 93_implementation_defined.md I1; log entry 5). -/
opaque busyRead : Nat → Word

end Sys2Proof.Config
end

