-- ==== Sys2Proof/Syntax.lean ====
section
/-! DEFINITION. Syntax.lean: the commands of BC-CORE, one constructor per row of
spec/opcode_table.json (30_encoding.md R112, R117). -/

namespace Sys2Proof

/-- Oscillator kind, the K field: 0 PRI, 1 DET, 2 LFO; 3 is illegal (30_encoding.md R111). -/
inductive OscKind where
  | pri
  | det
  | lfo
  deriving DecidableEq, Repr

/-- Waveform kind: 0 triangle, 1 sine, 2 square; 3 is reserved (10_state.md R47). -/
inductive Wave where
  | triangle
  | sine
  | square
  deriving DecidableEq, Repr

/-- The voice field V, six bits; it must be below NV where used (30_encoding.md R111). -/
abbrev VoiceNo := BitVec 6

/-- A command. Its operands are the fields its form uses (30_encoding.md R112, R114); an operand
wider than IMM travels in ARG0 and is no part of the command word (R113, R115). -/
inductive Instr where
  /-- NOP, form Z (46_control.md R330). -/
  | nop
  /-- PREPARE, form N, IMM = maxBlockSize (46_control.md R331). -/
  | prepare (m : BitVec 16)
  /-- RESET, form Z (46_control.md R332). -/
  | reset
  /-- PUSH_PARAMS, form Z (46_control.md R333). -/
  | pushParams
  /-- OSC_SET_SR, form VK (40_oscillator.md R150). -/
  | oscSetSr (v : VoiceNo) (k : OscKind)
  /-- OSC_SET_FREQ, form VK (40_oscillator.md R151). -/
  | oscSetFreq (v : VoiceNo) (k : OscKind)
  /-- OSC_PROCESS, form VK (40_oscillator.md R152). -/
  | oscProcess (v : VoiceNo) (k : OscKind)
  /-- OSC_SET_PW, form VK (40_oscillator.md R153). -/
  | oscSetPw (v : VoiceNo) (k : OscKind)
  /-- OSC_SET_WAVE, form VKW (40_oscillator.md R154). -/
  | oscSetWave (v : VoiceNo) (k : OscKind) (w : Wave)
  /-- OSC_READ, form VK (40_oscillator.md R155). -/
  | oscRead (v : VoiceNo) (k : OscKind)
  /-- DL_SET_SIZE, form Z (41_delay.md R172). -/
  | dlSetSize
  /-- DL_SET_DELAY, form Z (41_delay.md R173). -/
  | dlSetDelay
  /-- DL_SET_FEEDBACK, form Z (41_delay.md R174). -/
  | dlSetFeedback
  /-- DL_PROCESS, form Z (41_delay.md R176). -/
  | dlProcess
  /-- DL_READ, form Z (41_delay.md R177). -/
  | dlRead
  /-- NOISE_UNIFORM, form N (42_noise.md R206). -/
  | noiseUniform (n : BitVec 16)
  /-- NOISE_GAUSS, form N (42_noise.md R207). -/
  | noiseGauss (n : BitVec 16)
  /-- ENV_NOTE_ON, form V (43_envelope.md R236). -/
  | envNoteOn (v : VoiceNo)
  /-- ENV_NOTE_OFF, form V (43_envelope.md R237). -/
  | envNoteOff (v : VoiceNo)
  /-- ENV_NEXT, form V (43_envelope.md R239). -/
  | envNext (v : VoiceNo)
  /-- ENV_READ, form V (43_envelope.md R240). -/
  | envRead (v : VoiceNo)
  /-- ENV_RESET, form V (43_envelope.md R238). -/
  | envReset (v : VoiceNo)
  /-- NOTE_ON, form NOTE; the velocity is carried and not used (44_voice.md R266, R273). -/
  | noteOn (note velocity : BitVec 7)
  /-- NOTE_OFF, form NOTEOFF (44_voice.md R274). -/
  | noteOff (note : BitVec 7)
  /-- VOICE_RENDER, form V (44_voice.md R275). -/
  | voiceRender (v : VoiceNo)
  /-- BANK_RENDER, form N (44_voice.md R276). -/
  | bankRender (n : BitVec 16)
  /-- VOICE_READ, form V (44_voice.md R277). -/
  | voiceRead (v : VoiceNo)
  /-- QUANTIZE, form N, IMM = bit depth (45_block.md R311). -/
  | quantize (b : BitVec 16)
  /-- DECIMATE, form N (45_block.md R312). -/
  | decimate (n : BitVec 16)
  /-- NOISE_MIX, form N (45_block.md R313). -/
  | noiseMix (n : BitVec 16)
  /-- NOISE_SCALE, form N (45_block.md R314). -/
  | noiseScale (n : BitVec 16)
  /-- BLOCK, form N (45_block.md R315). -/
  | block (n : BitVec 16)
  deriving DecidableEq, Repr

end Sys2Proof
end

