-- ==== Sys2Proof/Machine/State.lean ====
section
/-! DEFINITION. Machine/State.lean: everything the spec gives BC-CORE to hold (10_state.md R30-R56,
30_encoding.md R110), the host's pending transactions, and the state after reset
(70_reset_and_hazards.md R380). -/

namespace Sys2Proof.Machine

/-- The error causes recorded in STATUS.CAUSE, codes 0..8 in order (60_exceptions.md R350). -/
inductive Cause where
  | none
  | illegalOpcode
  | illegalField
  | argRange
  | notPrepared
  | dlGeometry
  | busErr
  | cmdBusy
  | busyWrite
  deriving DecidableEq, Repr

/-- The fields of STATUS but BUSY, which is 1 exactly while a command is running
(10_state.md R33, R52). -/
structure Status where
  done : Bool
  prepared : Bool
  err : Bool
  fault : Bool
  noteDrop : Bool
  cause : Cause
  deriving DecidableEq, Repr

/-- The fields of CTRL; its other bits read 0 and ignore writes (10_state.md R32, R45). -/
structure Ctrl where
  irqEn : Bool
  noiseMode : Bool
  deriving DecidableEq, Repr

/-- The seven knob registers, raw f32 words (10_state.md R30, R42). -/
structure Knobs where
  detune : F32
  noise : F32
  rate : F32
  bits : F32
  detuneOn : F32
  detuneMix : F32
  lfoSpeed : F32
  deriving DecidableEq, Repr

/-- The four ENV_* registers, raw f32 words shared by every voice (10_state.md R44). -/
structure EnvRegs where
  attack : F32
  decay : F32
  sustain : F32
  release : F32
  deriving DecidableEq, Repr

/-- What a command captures at its issue: ARG0, CTRL, the knobs and the ENV_* registers
(30_encoding.md R110(2)). -/
structure Snapshot where
  arg0 : Word
  ctrl : Ctrl
  knobs : Knobs
  env : EnvRegs
  deriving DecidableEq, Repr

/-- A command that has been issued and has not completed: the captured word and the snapshot
(30_encoding.md R110). -/
structure Running where
  word : Word
  snap : Snapshot
  deriving DecidableEq, Repr

/-- An oscillator (10_state.md R46). -/
structure Osc where
  phase : F32
  delta : F32
  sr : F32
  freq : F32
  pw : F32
  wave : Wave
  deriving DecidableEq, Repr

/-- Envelope stages, coded 0..4 in order (10_state.md R48). -/
inductive Stage where
  | idle
  | attack
  | decay
  | sustain
  | release
  deriving DecidableEq, Repr

/-- An envelope generator (10_state.md R48). -/
structure Env where
  stage : Stage
  level : F32
  aRate : F32
  dRate : F32
  sus : F32
  rRate : F32
  deriving DecidableEq, Repr

/-- A voice: its three oscillators, its envelope and its own fields (10_state.md R46, R48, R49). -/
structure Voice where
  pri : Osc
  det : Osc
  lfo : Osc
  env : Env
  playing : Bool
  releasing : Bool
  note : BitVec 7
  base : F32
  sr : F32
  damt : F32
  dmix : F32
  don : Bool
  deriving DecidableEq, Repr

/-- The delay line but for its memory DLM, which stands with the other memories (10_state.md R50). -/
structure Delay where
  size : Nat
  widx : Nat
  ridx : F32
  fb : F32
  deriving DecidableEq, Repr

/-- The four word memories OUT0, OUT1, NOISE and DLM at their bus addresses (20_memory.md R83), as
(byte address, byte) pairs: addresses strictly rising, no pair whose byte is 0, which is what an
unlisted address reads as (every word resets to +0.0: 10_state.md R50, R56). -/
abbrev Memory := List Host.Cell

/-- Width of a bus transaction; only full words are legal (20_memory.md R82). -/
inductive Width where
  | byte
  | half
  | word
  deriving DecidableEq, Repr

/-- What the host can do to BC-CORE: one bus transaction (20_memory.md R80) or a pulse on the
hardware reset input (70_reset_and_hazards.md R381). -/
inductive HostAction where
  | read (width : Width) (addr : Addr)
  | write (width : Width) (addr : Addr) (value : Word)
  | hardReset
  deriving DecidableEq, Repr

/-- A host action still to come. `early` says, should a command be running when it comes first in the
host's order, whether it takes effect before that command's completion or after it: the interleaving
that the spec leaves open (70_reset_and_hazards.md R395, 93_implementation_defined.md I8; log entry
2). -/
structure HostEvent where
  early : Bool
  action : HostAction
  deriving DecidableEq, Repr

/-- The machine state. `host`, `readData` and `draws` are the model's own (log entries 3, 5, 6);
every other field is the spec's. -/
structure State where
  /-- CTRL (R32). -/
  ctrl : Ctrl
  /-- STATUS but BUSY (R33). -/
  status : Status
  /-- The command being executed, if any: STATUS.BUSY (R33, R52, R110). -/
  running : Option Running
  /-- ARG0 (R36). -/
  arg0 : Word
  /-- RESULT0 (R37). -/
  result0 : Word
  /-- RESULT1 (R37). -/
  result1 : Word
  /-- The PRNG state, NOISE_SEED (R38, R51). -/
  rng : Word
  /-- SAMPLE_RATE (R40). -/
  sampleRate : F32
  /-- MAX_BLOCK (R40). -/
  maxBlock : Word
  /-- The knob registers (R42). -/
  knobs : Knobs
  /-- The ENV_* registers (R44). -/
  envRegs : EnvRegs
  /-- The voices 0..NV-1, in order (R46-R49). -/
  voices : List Voice
  /-- The delay line's indices and gain (R50). -/
  dl : Delay
  /-- OUT0, OUT1, NOISE and DLM (R50, R56). -/
  mem : Memory
  /-- Host actions still to come, first to last (R88; log entry 3). -/
  host : List HostEvent
  /-- The word the latest bus read returned to the host (R80; log entry 6). -/
  readData : Word
  /-- How many free values the reads made while busy have used (R87(g); log entry 5). -/
  draws : Nat
  deriving DecidableEq, Repr

/-- Why the machine stops with a fault. No rule of the spec stops BC-CORE (60_exceptions.md R357):
its own errors and its fault-class cause DL_GEOMETRY are recorded in STATUS and the machine goes
on. -/
inductive Fault where
  /-- Raised by a command on a voice V < NV when the state's voice list is too short to hold it.
  Every reachable state holds NV voices, so no run from reset raises it. Safe (log entry 12). -/
  | noSuchVoice
  deriving DecidableEq, Repr

/-- Why an instruction has no meaning. Every command of BC-CORE has one. -/
inductive Refusal where
  /-- Raised by an arm of exec whose instruction is not modelled; no arm is. Safe. -/
  | notModelled (mnemonic : String)
  deriving DecidableEq, Repr

/-- What a command answers. -/
abbrev Result := Host.Outcome State Fault Refusal

/-! ## Reset (70_reset_and_hazards.md R380) -/

/-- An oscillator after reset, of the given waveform (10_state.md R46). -/
def Osc.reset (w : Wave) : Osc :=
  { phase := 0#32, delta := 0#32, sr := Config.srReset, freq := 0#32, pw := 0x3F000000#32, wave := w }

/-- An envelope after reset (10_state.md R48). -/
def Env.reset : Env :=
  { stage := .idle, level := 0#32, aRate := 0#32, dRate := 0#32, sus := 0#32, rRate := 0#32 }

/-- A voice after reset: PRI and DET triangle, LFO sine (10_state.md R46, R49). -/
def Voice.reset : Voice :=
  { pri := Osc.reset .triangle, det := Osc.reset .triangle, lfo := Osc.reset .sine, env := Env.reset,
    playing := false, releasing := false, note := 0#7, base := 0#32, sr := Config.srReset,
    damt := 0#32, dmix := 0#32, don := false }

/-- The delay line after reset (10_state.md R50). -/
def Delay.reset : Delay := { size := 0, widx := 0, ridx := 0#32, fb := 0#32 }

/-- STATUS after reset (10_state.md R33). -/
def Status.reset : Status :=
  { done := false, prepared := false, err := false, fault := false, noteDrop := false, cause := .none }

/-- The knobs after reset (10_state.md R30). -/
def Knobs.reset : Knobs :=
  { detune := 0#32, noise := 0#32, rate := 0#32, bits := 0x42000000#32, detuneOn := 0#32,
    detuneMix := 0#32, lfoSpeed := 0#32 }

/-- The ENV_* registers after reset (10_state.md R30). -/
def EnvRegs.reset : EnvRegs :=
  { attack := 0x3DCCCCCD#32, decay := 0x3DCCCCCD#32, sustain := 0x3F800000#32,
    release := 0x3DCCCCCD#32 }

/-- The machine right after reset (70_reset_and_hazards.md R380, R381): idle, every piece of state at
its reset value, and no host action pending (log entry 3). -/
def State.reset : State :=
  { ctrl := { irqEn := false, noiseMode := false }
    status := Status.reset
    running := none
    arg0 := 0#32
    result0 := 0#32
    result1 := 0#32
    rng := Config.seedReset
    sampleRate := Config.srReset
    maxBlock := 0#32
    knobs := Knobs.reset
    envRegs := EnvRegs.reset
    voices := List.replicate Config.numVoices Voice.reset
    dl := Delay.reset
    mem := []
    host := []
    readData := 0#32
    draws := 0 }

end Sys2Proof.Machine
end

