-- ==== Sys2Proof/Machine/Flags.lean ====
section
/-! DEFINITION. Machine/Flags.lean: the STATUS and CTRL words and how STATUS changes (10_state.md
R32-R34, R45; 60_exceptions.md R350-R356, R360). These are BC-CORE's only flags beside each voice's
playing and releasing (10_state.md R54). -/

namespace Sys2Proof.Machine

/-- The code of a cause (60_exceptions.md R350). -/
def Cause.code : Cause → BitVec 8
  | .none => 0#8
  | .illegalOpcode => 1#8
  | .illegalField => 2#8
  | .argRange => 3#8
  | .notPrepared => 4#8
  | .dlGeometry => 5#8
  | .busErr => 6#8
  | .cmdBusy => 7#8
  | .busyWrite => 8#8

/-- The code of an envelope stage (10_state.md R48). -/
def Stage.code : Stage → BitVec 3
  | .idle => 0#3
  | .attack => 1#3
  | .decay => 2#3
  | .sustain => 3#3
  | .release => 4#3

/-- One bit. -/
def bit (b : Bool) : BitVec 1 := BitVec.ofBool b

/-- The STATUS word: CAUSE in 15:8, NOTE_DROP 5, FAULT 4, ERR 3, PREPARED 2, DONE 1, BUSY 0, the
reserved bits 0 (10_state.md R33, R45). -/
def Status.word (busy : Bool) (st : Status) : Word :=
  ((((((((0#16 ++ st.cause.code) ++ 0#2) ++ bit st.noteDrop) ++ bit st.fault) ++ bit st.err) ++
    bit st.prepared) ++ bit st.done) ++ bit busy)

/-- The CTRL word: NOISE_MODE 1, IRQ_EN 0, the reserved bits 0 (10_state.md R32, R45). -/
def Ctrl.word (c : Ctrl) : Word := (0#30 ++ bit c.noiseMode) ++ bit c.irqEn

/-- The CTRL fields a write of w stores; bits 31:2 are ignored (10_state.md R32). -/
def Ctrl.ofWord (w : Word) : Ctrl := { irqEn := w.getLsbD 0, noiseMode := w.getLsbD 1 }

/-- A bus write of w to STATUS: write 1 to clear (10_state.md R34). -/
def Status.writeClear (st : Status) (w : Word) : Status :=
  { done := st.done && !w.getLsbD 1
    prepared := st.prepared
    err := st.err && !w.getLsbD 3
    fault := st.fault && !w.getLsbD 4
    noteDrop := st.noteDrop && !w.getLsbD 5
    cause := if w.getLsbD 3 then .none else st.cause }

/-- `raise Error(c)`'s record: the first cause since ERR was 0 is kept, ERR is set
(60_exceptions.md R351). -/
def Status.recordError (st : Status) (c : Cause) : Status :=
  { st with cause := if st.err then st.cause else c, err := true }

/-- `raise Fault(c)`'s record: as for an error, and FAULT is set (60_exceptions.md R352). -/
def Status.recordFault (st : Status) (c : Cause) : Status :=
  { st.recordError c with fault := true }

/-- STATUS.BUSY: a command is running (10_state.md R33, R52). -/
def State.busy (s : State) : Bool := s.running.isSome

/-- The STATUS word the bus reads (10_state.md R33). -/
def State.statusWord (s : State) : Word := s.status.word s.busy

/-- The interrupt line IRQ = CTRL.IRQ_EN AND STATUS.DONE (60_exceptions.md R360). -/
def State.irq (s : State) : Bool := s.ctrl.irqEn && s.status.done

/-- Record an error in STATUS (60_exceptions.md R351). -/
def State.recordError (s : State) (c : Cause) : State := { s with status := s.status.recordError c }

/-- Record a fault-class error in STATUS (60_exceptions.md R352). -/
def State.recordFault (s : State) (c : Cause) : State := { s with status := s.status.recordFault c }

/-- Completion: BUSY <- 0 and DONE <- 1 (30_encoding.md R110, 60_exceptions.md R356). -/
def State.complete (s : State) : State :=
  { s with running := none, status := { s.status with done := true } }

end Sys2Proof.Machine
end

