-- ==== Sys2Proof/Machine/Memory.lean ====
section
/-! DEFINITION. Machine/Memory.lean: the four word memories, read and written by byte, by word and by
block (20_memory.md R83, R85, R95). -/

namespace Sys2Proof.Machine

/-! ## Bytes -/

/-- What an unlisted address reads as: the reset contents, +0.0 everywhere (10_state.md R50, R56). -/
def unlistedByte : Byte := 0#8

/-- The byte at an address. -/
def Memory.readByte : Memory → Nat → Byte
  | [], _ => unlistedByte
  | (a', b) :: m, a => if a = a' then b else Memory.readByte m a

/-- A pair put in front, unless its byte is what an unlisted address reads as. -/
def Memory.put (a : Nat) (b : Byte) (m : Memory) : Memory := if b = unlistedByte then m else (a, b) :: m

/-- Write the byte at an address, keeping the canonical form. -/
def Memory.writeByte : Memory → Nat → Byte → Memory
  | [], a, b => Memory.put a b []
  | (a', b') :: m, a, b =>
    if a < a' then Memory.put a b ((a', b') :: m)
    else if a = a' then Memory.put a b m
    else (a', b') :: Memory.writeByte m a b

/-- The canonical form: addresses strictly rising from `lo` on, no byte equal to the unlisted one. -/
def Memory.wfFrom : Nat → Memory → Bool
  | _, [] => true
  | lo, (a, b) :: m => decide (lo ≤ a) && decide (b ≠ unlistedByte) && Memory.wfFrom (a + 1) m

/-- The canonical form of a memory. -/
def Memory.wf (m : Memory) : Bool := Memory.wfFrom 0 m

/-! ## Words, little-endian (20_memory.md R85) -/

/-- The word whose four bytes start at an address. -/
def Memory.readWord (m : Memory) (a : Nat) : Word :=
  ((m.readByte (a + 3) ++ m.readByte (a + 2)) ++ m.readByte (a + 1)) ++ m.readByte a

/-- Write a word's four bytes from an address on. -/
def Memory.writeWord (m : Memory) (a : Nat) (w : Word) : Memory :=
  (((m.writeByte a (w.extractLsb' 0 8)).writeByte (a + 1) (w.extractLsb' 8 8)).writeByte (a + 2)
    (w.extractLsb' 16 8)).writeByte (a + 3) (w.extractLsb' 24 8)

/-! ## Blocks of words -/

/-- The words 0..n-1 from a base address on. -/
def Memory.readBlock (m : Memory) (base n : Nat) : List Word :=
  (List.range n).map fun i => m.readWord (base + 4 * i)

/-- Write a list of words from a base address on, in order. -/
def Memory.writeBlock : Memory → Nat → List Word → Memory
  | m, _, [] => m
  | m, base, w :: ws => Memory.writeBlock (m.writeWord base w) (base + 4) ws

/-- Zero every byte whose address lies in lo..hi-1. -/
def Memory.clearRange (m : Memory) (lo hi : Nat) : Memory :=
  m.filter fun c => decide (c.1 < lo) || decide (hi ≤ c.1)

/-! ## Windows of the address map (20_memory.md R83) -/

/-- The three block buffers (10_state.md R56). -/
inductive Buf where
  | out0
  | out1
  | noise
  deriving DecidableEq, Repr

/-- The base address of a block buffer's window. -/
def bufBase : Buf → Nat
  | .out0 => 0x10000
  | .out1 => 0x20000
  | .noise => 0x30000

/-- The base address of the delay-line memory's window. -/
def dlmBase : Nat := 0x40000

/-- The end of the delay-line memory's window. -/
def dlmEnd : Nat := dlmBase + 4 * Config.delayCap

/-- Words 0..n-1 of a block buffer. -/
def State.buf (s : State) (b : Buf) (n : Nat) : List F32 := s.mem.readBlock (bufBase b) n

/-- Write a list of words to a block buffer from index 0 on; the other words keep their values
(20_memory.md R95). -/
def State.setBuf (s : State) (b : Buf) (ws : List F32) : State :=
  { s with mem := s.mem.writeBlock (bufBase b) ws }

/-- Word i of the delay-line memory DLM. -/
def State.dlm (s : State) (i : Nat) : F32 := s.mem.readWord (dlmBase + 4 * i)

/-- Write word i of the delay-line memory DLM. -/
def State.setDlm (s : State) (i : Nat) (w : F32) : State :=
  { s with mem := s.mem.writeWord (dlmBase + 4 * i) w }

end Sys2Proof.Machine
end

