-- ==== Sys2Proof/Machine/Float.lean ====
section
/-! DEFINITION. Machine/Float.lean: binary32 arithmetic (00_scope.md R10-R19). A finite value is held
exactly as an integer count of 2^-149 (the least subnormal); an operation computes its exact result
over the integers and rounds once. -/

namespace Sys2Proof.Machine

/-! ## Parts of a binary32 value (R10) -/

/-- Bits 30:0 as a number: the biased exponent and the fraction. It grows with the magnitude. -/
def mag (x : F32) : Nat := x.toNat % 2 ^ 31

/-- Bit 31: the sign. -/
def isNeg (x : F32) : Bool := x.msb

/-- The magnitude bits of infinity. -/
def infMag : Nat := 0x7F800000

/-- NaN: the exponent is all ones and the fraction is not zero. -/
def isNaN (x : F32) : Bool := decide (infMag < mag x)

/-- ±infinity. -/
def isInf (x : F32) : Bool := decide (mag x = infMag)

/-- Neither NaN nor infinite. -/
def isFinite (x : F32) : Bool := decide (mag x < infMag)

/-- The canonical quiet NaN (R12). -/
def qNaN : F32 := 0x7FC00000#32

/-- +0.0. -/
def posZero : F32 := 0#32

/-- -0.0. -/
def negZero : F32 := 0x80000000#32

/-- 1.0 (R22). -/
def one : F32 := 0x3F800000#32

/-- 0.5 (R22). -/
def half : F32 := 0x3F000000#32

/-- -0.5 (R22). -/
def negHalf : F32 := 0xBF000000#32

/-- The binary32 value of the given sign and magnitude bits. -/
def ofMag (neg : Bool) (m : Nat) : F32 := BitVec.ofNat 32 (m + (if neg then 2 ^ 31 else 0))

/-- Infinity of the given sign. -/
def infOf (neg : Bool) : F32 := ofMag neg infMag

/-- Magnitude of a finite value in units of 2^-149: a subnormal is its fraction; a normal value is
(2^23 + fraction) times 2^(biased exponent - 1) (R10). -/
def unitsOfMag (m : Nat) : Nat :=
  if m / 2 ^ 23 = 0 then m else (2 ^ 23 + m % 2 ^ 23) * 2 ^ (m / 2 ^ 23 - 1)

/-- Magnitude of a finite value in units of 2^-149. -/
def units (x : F32) : Nat := unitsOfMag (mag x)

/-- The exact value of a finite binary32 in units of 2^-149. -/
def val (x : F32) : Int := if isNeg x then -(units x : Int) else (units x : Int)

/-! ## Rounding -/

/-- How a magnitude is narrowed: to nearest with ties to even (R11), or to one neighbour. -/
inductive Rounding where
  | nearestEven
  | towardZero
  | awayFromZero
  deriving DecidableEq, Repr

/-- Exponent of the spacing of binary32 values at the magnitude p/q units: 0 below 2^24 units. -/
def spacingExp (p q : Nat) : Nat := Nat.log2 (p / q) - 23

/-- The integer that p/d narrows to. -/
def roundQuotient (mode : Rounding) (p d : Nat) : Nat :=
  let n := p / d
  let r := p % d
  match mode with
  | .nearestEven => if 2 * r < d ∨ (2 * r = d ∧ n % 2 = 0) then n else n + 1
  | .towardZero => n
  | .awayFromZero => if r = 0 then n else n + 1

/-- The largest magnitude a rounding mode answers: overflow gives infinity, but for rounding toward
zero (R11). -/
def topMag : Rounding → Nat
  | .nearestEven => infMag
  | .towardZero => infMag - 1
  | .awayFromZero => infMag

/-- The magnitude bits of the exact magnitude p/q (q > 0) in units of 2^-149, rounded once. A carry
out of the fraction runs into the exponent field, as it should. -/
def roundMag (mode : Rounding) (p q : Nat) : Nat :=
  let e := spacingExp p q
  min (e * 2 ^ 23 + roundQuotient mode p (q * 2 ^ e)) (topMag mode)

/-- Round the exact magnitude p/q units, with a sign, to nearest even (R11). -/
def roundNE (neg : Bool) (p q : Nat) : F32 := ofMag neg (roundMag .nearestEven p q)

/-! ## Arithmetic (R11, R12, R16) -/

/-- `fadd`: an exact sum of zero is -0.0 only when both operands are negative (R11). -/
def fadd (a b : F32) : F32 :=
  if isNaN a || isNaN b then qNaN
  else if isInf a then (if isInf b && (isNeg a != isNeg b) then qNaN else infOf (isNeg a))
  else if isInf b then infOf (isNeg b)
  else
    let s := val a + val b
    if s = 0 then (if isNeg a && isNeg b then negZero else posZero)
    else roundNE (decide (s < 0)) s.natAbs 1

/-- The value with its sign bit inverted. -/
def fneg (x : F32) : F32 := x ^^^ 0x80000000#32

/-- `fsub`: the IEEE difference a - b is the sum of a and b with b's sign inverted (R11). -/
def fsub (a b : F32) : F32 := fadd a (fneg b)

/-- `fmul` (R11). -/
def fmul (a b : F32) : F32 :=
  let neg := isNeg a != isNeg b
  if isNaN a || isNaN b then qNaN
  else if isInf a then (if mag b = 0 then qNaN else infOf neg)
  else if isInf b then (if mag a = 0 then qNaN else infOf neg)
  else roundNE neg (units a * units b) (2 ^ 149)

/-- `fdiv`: x/±0 is ±infinity for nonzero x and NaN for x = 0 (R11). -/
def fdiv (a b : F32) : F32 :=
  let neg := isNeg a != isNeg b
  if isNaN a || isNaN b then qNaN
  else if isInf a then (if isInf b then qNaN else infOf neg)
  else if isInf b then ofMag neg 0
  else if mag b = 0 then (if mag a = 0 then qNaN else infOf neg)
  else roundNE neg (units a * 2 ^ 149) (units b)

/-- The integer square root of n found bit by bit from bit k-1 down: the largest r' with r'² ≤ n
that extends r. -/
def isqrtBits (n : Nat) : Nat → Nat → Nat
  | 0, r => r
  | k + 1, r => if (r + 2 ^ k) * (r + 2 ^ k) ≤ n then isqrtBits n k (r + 2 ^ k) else isqrtBits n k r

/-- Integer square root of n < 2^428. -/
def isqrt (n : Nat) : Nat := isqrtBits n 214 0

/-- `fsqrt`, correctly rounded (R16). An inexact root s < √n < s + 1 has far more bits than a
binary32 fraction, so rounding s + 1/2 in its place gives the same result. -/
def fsqrt (x : F32) : F32 :=
  if isNaN x then qNaN
  else if mag x = 0 then x
  else if isNeg x then qNaN
  else if isInf x then x
  else
    let n := units x * 2 ^ 149
    let s := isqrt n
    if s * s = n then roundNE false s 1 else roundNE false (2 * s + 1) 2

/-- `fabs`: clears bit 31, exact, keeps NaN bits (R14). -/
def fabs (x : F32) : F32 := x &&& 0x7FFFFFFF#32

/-- `fmod`: the exact remainder of truncating division, with the sign of x (R15). The spec defines
it for finite y ≠ 0 only and no command calls it with another y; there the model gives NaN
(log entry 16). -/
def fmod (x y : F32) : F32 :=
  if isNaN x || isInf x then qNaN
  else if isFinite y && (mag y != 0) then ofMag (isNeg x) (roundMag .nearestEven (units x % units y) 1)
  else qNaN

/-! ## Comparisons (R13) -/

/-- A number that orders non-NaN values as the reals do; the two zeros get the same one. -/
def orderKey (x : F32) : Int := if isNeg x then -(mag x : Int) else (mag x : Int)

/-- a < b; false if either is NaN. -/
def flt (a b : F32) : Bool := !isNaN a && !isNaN b && decide (orderKey a < orderKey b)

/-- a <= b; false if either is NaN. -/
def fle (a b : F32) : Bool := !isNaN a && !isNaN b && decide (orderKey a ≤ orderKey b)

/-- a > b. -/
def fgt (a b : F32) : Bool := flt b a

/-- a >= b. -/
def fge (a b : F32) : Bool := fle b a

/-- a == b; false if either is NaN. -/
def feq (a b : F32) : Bool := !isNaN a && !isNaN b && decide (orderKey a = orderKey b)

/-! ## Conversions and clamps (R17-R19) -/

/-- `trunc_int`: the integer nearest to a finite x in the direction of zero (R17). -/
def truncInt (x : F32) : Int := Int.tdiv (val x) (2 ^ 149)

/-- `ffloor`: the largest integer ≤ x, for finite x ≥ 0 (R17). -/
def ffloor (x : F32) : Nat := units x / 2 ^ 149

/-- `i2f`: the binary32 value equal to n, for n < 2^24 (R18). -/
def i2f (n : Nat) : F32 := roundNE false (n * 2 ^ 149) 1

/-- `clamp`: lo if x is NaN or x < lo, hi if x > hi, else x with its bits unchanged (R19). -/
def clamp (x lo hi : F32) : F32 :=
  if isNaN x || flt x lo then lo else if fgt x hi then hi else x

/-- `clampLow0`: +0.0 if x is NaN or x < 0, else x (R19). -/
def clampLow0 (x : F32) : F32 := if isNaN x || flt x posZero then posZero else x

/-- 2^e as a binary32 value, for -126 ≤ e ≤ 127. -/
def pow2 (e : Int) : F32 := ofMag false ((e + 127).toNat * 2 ^ 23)

/-- A finite sample rate above zero (30_encoding.md R116). -/
def rateOk (sr : F32) : Bool := isFinite sr && fgt sr posZero

end Sys2Proof.Machine
end

