-- ==== Sys2Proof/Machine/Operands.lean ====
section
/-! DEFINITION. Machine/Operands.lean: what a command reads as operands beside its own fields: the
snapshot of ARG0, CTRL, the knobs and the ENV_* registers (30_encoding.md R110, R115), the knob
conversions (10_state.md R43) and the conditioning of the ENV_* values (43_envelope.md R231). -/

namespace Sys2Proof.Machine

/-- What a command issued now would capture (30_encoding.md R110(2)). -/
def State.snapNow (s : State) : Snapshot :=
  { arg0 := s.arg0, ctrl := s.ctrl, knobs := s.knobs, env := s.envRegs }

/-- The operands of the command that completes: the snapshot taken at its issue. Where no command is
running, what an issue at this moment would capture (log entry 11). -/
def State.operands (s : State) : Snapshot :=
  match s.running with
  | some r => r.snap
  | none => s.snapNow

/-- The knobs as a command uses them (10_state.md R43). -/
structure KnobValues where
  detune : F32
  noise : F32
  rate : Nat
  bits : Nat
  detuneOn : Bool
  detuneMix : F32
  lfoSpeed : F32
  deriving DecidableEq, Repr

/-- 20.0, 100.0 (R22), 50.0, 32.0 and 400.0, the upper ends of the knob ranges (10_state.md R42). -/
def twenty : F32 := 0x41A00000#32
/-- 100.0. -/
def hundred : F32 := 0x42C80000#32
/-- 50.0. -/
def fifty : F32 := 0x42480000#32
/-- 32.0. -/
def thirtyTwo : F32 := 0x42000000#32
/-- 400.0. -/
def fourHundred : F32 := 0x43C80000#32

/-- The conversion of the knob registers (10_state.md R43). -/
def Knobs.convert (k : Knobs) : KnobValues :=
  { detune := clamp k.detune posZero twenty
    noise := clamp k.noise posZero hundred
    rate := (truncInt (clamp k.rate posZero fifty)).toNat
    bits := (truncInt (clamp k.bits one thirtyTwo)).toNat
    detuneOn := fge k.detuneOn half
    detuneMix := clamp k.detuneMix posZero one
    lfoSpeed := clamp k.lfoSpeed posZero fourHundred }

/-- A' of 43_envelope.md R231. -/
def EnvRegs.attackTime (e : EnvRegs) : F32 := clampLow0 e.attack

/-- D' of 43_envelope.md R231. -/
def EnvRegs.decayTime (e : EnvRegs) : F32 := clampLow0 e.decay

/-- S' of 43_envelope.md R231. -/
def EnvRegs.sustainLevel (e : EnvRegs) : F32 := clamp e.sustain posZero one

/-- R' of 43_envelope.md R231. -/
def EnvRegs.releaseTime (e : EnvRegs) : F32 := clampLow0 e.release

end Sys2Proof.Machine
end

