-- ==== Sys2Proof/Machine/Ops.lean ====
section
/-! DEFINITION. Machine/Ops.lean: the operations the commands share. Taking an exception on BC-CORE is
recording a cause and completing (60_exceptions.md R351, R352, R356); there is no trap entry and so
no return from one (R357, R358). -/

namespace Sys2Proof.Machine

/-! ## Completion and errors -/

/-- Normal end of a command (30_encoding.md R110). -/
def finish (s : State) : Result := .next s.complete

/-- End of a command that produces RESULT0 only (10_state.md R37). -/
def finish0 (r0 : Word) (s : State) : Result := finish { s with result0 := r0 }

/-- End of a command that produces RESULT0 and RESULT1 (10_state.md R37). -/
def finish2 (r0 r1 : Word) (s : State) : Result := finish { s with result0 := r0, result1 := r1 }

/-- `raise Error(c)`: the command has no effect but on STATUS, and still completes
(60_exceptions.md R351, R356). -/
def raise (c : Cause) (s : State) : Result := finish (s.recordError c)

/-- `raise Fault(c)`: the same, and FAULT is set (60_exceptions.md R352, R356). -/
def raiseFault (c : Cause) (s : State) : Result := finish (s.recordFault c)

/-! ## Checks, in the order of 30_encoding.md R119 -/

/-- The PREPARED check (R119). -/
def whenPrepared (s : State) (k : Result) : Result :=
  if s.status.prepared then k else raise .notPrepared s

/-- An operand range check (R116). -/
def whenInRange (ok : Bool) (s : State) (k : Result) : Result :=
  if ok then k else raise .argRange s

/-- A sample count n of a buffer command: n ≤ N_MAX (R116). -/
def whenCount (n : BitVec 16) (s : State) (k : Result) : Result :=
  whenInRange (decide (n.toNat ≤ Config.bufSize)) s k

/-! ## Voices and oscillators -/

/-- Run a command on voice V: V ≥ NV is ILLEGAL_FIELD (30_encoding.md R118(c)). -/
def withVoice (v : VoiceNo) (s : State) (f : Voice → Result) : Result :=
  if v.toNat < Config.numVoices then
    match s.voices[v.toNat]? with
    | some x => f x
    | none => .fault .noSuchVoice
  else raise .illegalField s

/-- Replace voice V. -/
def State.setVoice (s : State) (v : VoiceNo) (x : Voice) : State :=
  { s with voices := s.voices.set v.toNat x }

/-- Apply a change to every voice. -/
def State.mapVoices (s : State) (f : Voice → Voice) : State := { s with voices := s.voices.map f }

/-- The oscillator of kind k of a voice: osc(v,k) (10_state.md R46). -/
def Voice.osc (x : Voice) : OscKind → Osc
  | .pri => x.pri
  | .det => x.det
  | .lfo => x.lfo

/-- Replace the oscillator of kind k of a voice. -/
def Voice.setOsc (x : Voice) : OscKind → Osc → Voice
  | .pri, o => { x with pri := o }
  | .det, o => { x with det := o }
  | .lfo, o => { x with lfo := o }

/-- The number of voices with playing = 1. -/
def State.playingCount (s : State) : Nat := s.voices.countP (·.playing)

/-! ## Reset -/

/-- Every piece of the spec's state at its reset value (70_reset_and_hazards.md R380). The host's
pending actions and read response, and the count of free values, are not BC-CORE's state and stay
(log entry 13). -/
def State.resetCore (s : State) : State :=
  { State.reset with host := s.host, readData := s.readData, draws := s.draws }

end Sys2Proof.Machine
end

