-- ==== Sys2Proof/Machine/Bus.lean ====
section
/-! DEFINITION. Machine/Bus.lean: the register bus (20_memory.md R80-R96, 10_state.md R30-R45): the
address map, reads and writes with their busy rules, and the host's other action, the hardware reset
(70_reset_and_hazards.md R381). -/

namespace Sys2Proof.Machine

/-! ## Address map -/

/-- The bus registers (10_state.md R30). -/
inductive Reg where
  | id
  | ctrl
  | status
  | cmd
  | arg0
  | result0
  | result1
  | noiseSeed
  | voiceActiveLo
  | voiceActiveHi
  | sampleRate
  | maxBlock
  | numVoices
  | bufSize
  | dlCapacity
  | dlSize
  | pDetune
  | pNoise
  | pRate
  | pBits
  | pDetuneOn
  | pDetuneMix
  | pLfoSpeed
  | tailLen
  | envAttack
  | envDecay
  | envSustain
  | envRelease
  | dlFeedback
  deriving DecidableEq, Repr

/-- The byte offset of a register (10_state.md R30). -/
def Reg.offset : Reg → Nat
  | .id => 0x000
  | .ctrl => 0x004
  | .status => 0x008
  | .cmd => 0x00C
  | .arg0 => 0x010
  | .result0 => 0x014
  | .result1 => 0x018
  | .noiseSeed => 0x01C
  | .voiceActiveLo => 0x020
  | .voiceActiveHi => 0x024
  | .sampleRate => 0x028
  | .maxBlock => 0x02C
  | .numVoices => 0x030
  | .bufSize => 0x034
  | .dlCapacity => 0x038
  | .dlSize => 0x03C
  | .pDetune => 0x040
  | .pNoise => 0x044
  | .pRate => 0x048
  | .pBits => 0x04C
  | .pDetuneOn => 0x050
  | .pDetuneMix => 0x054
  | .pLfoSpeed => 0x058
  | .tailLen => 0x05C
  | .envAttack => 0x060
  | .envDecay => 0x064
  | .envSustain => 0x068
  | .envRelease => 0x06C
  | .dlFeedback => 0x070

/-- Every register, in address order. -/
def allRegs : List Reg :=
  [.id, .ctrl, .status, .cmd, .arg0, .result0, .result1, .noiseSeed, .voiceActiveLo, .voiceActiveHi,
   .sampleRate, .maxBlock, .numVoices, .bufSize, .dlCapacity, .dlSize] ++
  [.pDetune, .pNoise, .pRate, .pBits, .pDetuneOn, .pDetuneMix, .pLfoSpeed, .tailLen, .envAttack,
   .envDecay, .envSustain, .envRelease, .dlFeedback]

/-- What a mapped address names: a register, a word of a block buffer, or a word of DLM
(20_memory.md R83). -/
inductive Target where
  | reg (r : Reg)
  | buf (b : Buf) (i : Nat)
  | dlm (i : Nat)
  deriving DecidableEq, Repr

/-- The word index an address has in a window of n words from base on, if it lies there. -/
def windowIndex (base n a : Nat) : Option Nat :=
  if base ≤ a ∧ a < base + 4 * n then some ((a - base) / 4) else none

/-- The target of an aligned byte address; none if it is unmapped (20_memory.md R83). -/
def targetAt (a : Nat) : Option Target :=
  match allRegs.find? (fun r => r.offset == a) with
  | some r => some (.reg r)
  | none =>
    match windowIndex (bufBase .out0) Config.bufSize a with
    | some i => some (.buf .out0 i)
    | none =>
      match windowIndex (bufBase .out1) Config.bufSize a with
      | some i => some (.buf .out1 i)
      | none =>
        match windowIndex (bufBase .noise) Config.bufSize a with
        | some i => some (.buf .noise i)
        | none =>
          match windowIndex dlmBase Config.delayCap a with
          | some i => some (.dlm i)
          | none => none

/-- The target of a transaction: none for a partial width (R82), a misaligned address (R81) and an
unmapped one (R83). -/
def targetOf (w : Width) (a : Addr) : Option Target :=
  if w = .word ∧ a.toNat % 4 = 0 then targetAt a.toNat else none

/-! ## Reads -/

/-- Bit v of a voice-activity word: voice base + v is playing; 0 from NV on (10_state.md R39). -/
def activeBits (xs : List Voice) (base : Nat) : Word :=
  BitVec.ofNat 32 ((List.range 32).foldl
    (fun n v => if ((xs[base + v]?).map (·.playing)).getD false then n + 2 ^ v else n) 0)

/-- The content of a register as the bus reads it while idle (10_state.md R30-R44). -/
def State.readReg (s : State) : Reg → Word
  | .id => Config.idValue
  | .ctrl => s.ctrl.word
  | .status => s.statusWord
  | .cmd => 0#32
  | .arg0 => s.arg0
  | .result0 => s.result0
  | .result1 => s.result1
  | .noiseSeed => s.rng
  | .voiceActiveLo => activeBits s.voices 0
  | .voiceActiveHi => activeBits s.voices 32
  | .sampleRate => s.sampleRate
  | .maxBlock => s.maxBlock
  | .numVoices => BitVec.ofNat 32 Config.numVoices
  | .bufSize => BitVec.ofNat 32 Config.bufSize
  | .dlCapacity => BitVec.ofNat 32 Config.delayCap
  | .dlSize => BitVec.ofNat 32 s.dl.size
  | .pDetune => s.knobs.detune
  | .pNoise => s.knobs.noise
  | .pRate => s.knobs.rate
  | .pBits => s.knobs.bits
  | .pDetuneOn => s.knobs.detuneOn
  | .pDetuneMix => s.knobs.detuneMix
  | .pLfoSpeed => s.knobs.lfoSpeed
  | .tailLen => 0#32
  | .envAttack => s.envRegs.attack
  | .envDecay => s.envRegs.decay
  | .envSustain => s.envRegs.sustain
  | .envRelease => s.envRegs.release
  | .dlFeedback => s.dl.fb

/-- The content of a target as the bus reads it while idle. -/
def State.readTarget (s : State) : Target → Word
  | .reg r => s.readReg r
  | .buf b i => s.mem.readWord (bufBase b + 4 * i)
  | .dlm i => s.dlm i

/-- Registers whose content is unspecified while a command runs (20_memory.md R87(g)). -/
def Reg.openWhileBusy : Reg → Bool
  | .result0 => true
  | .result1 => true
  | .noiseSeed => true
  | .voiceActiveLo => true
  | .voiceActiveHi => true
  | .sampleRate => true
  | .maxBlock => true
  | .dlSize => true
  | .dlFeedback => true
  | .id => false
  | .ctrl => false
  | .status => false
  | .cmd => false
  | .arg0 => false
  | .numVoices => false
  | .bufSize => false
  | .dlCapacity => false
  | .pDetune => false
  | .pNoise => false
  | .pRate => false
  | .pBits => false
  | .pDetuneOn => false
  | .pDetuneMix => false
  | .pLfoSpeed => false
  | .tailLen => false
  | .envAttack => false
  | .envDecay => false
  | .envSustain => false
  | .envRelease => false

/-- Targets whose content is unspecified while a command runs (20_memory.md R87(e)-(g)). -/
def Target.openWhileBusy : Target → Bool
  | .reg r => r.openWhileBusy
  | .buf _ _ => true
  | .dlm _ => true

/-- A bus read: a bus error reads 0 and is recorded (R84); an unspecified content is a free value and
changes no state of BC-CORE (R87(g), 93_implementation_defined.md I1); any other read has no side
effect (R86). -/
def State.busRead (s : State) (w : Width) (a : Addr) : State :=
  match targetOf w a with
  | some t =>
    if s.busy && t.openWhileBusy then
      { s with readData := Config.busyRead s.draws, draws := s.draws + 1 }
    else { s with readData := s.readTarget t }
  | none => { s.recordError .busErr with readData := 0#32 }

/-! ## Writes -/

/-- A write of c to CMD: issue while idle; while busy it is dropped with CMD_BUSY (10_state.md R35,
30_encoding.md R110). -/
def State.issue (s : State) (c : Word) : State :=
  if s.busy then s.recordError .cmdBusy else { s with running := some ⟨c, s.snapNow⟩ }

/-- A write to state the engine owns: ignored with BUSY_WRITE while a command runs
(20_memory.md R87(b)). -/
def State.writeIdle (s : State) (idle : State) : State :=
  if s.busy then s.recordError .busyWrite else idle

/-- The PRNG state a write of w to NOISE_SEED stores: 0 maps to SEED_RESET (10_state.md R38). -/
def seedOf (w : Word) : Word := if w = 0#32 then Config.seedReset else w

/-- A write of w to a register (10_state.md R30-R44, 20_memory.md R84, R87). -/
def State.writeReg (s : State) (r : Reg) (w : Word) : State :=
  match r with
  | .ctrl => { s with ctrl := Ctrl.ofWord w }
  | .status => { s with status := s.status.writeClear w }
  | .cmd => s.issue w
  | .arg0 => { s with arg0 := w }
  | .noiseSeed => s.writeIdle { s with rng := seedOf w }
  | .pDetune => { s with knobs := { s.knobs with detune := w } }
  | .pNoise => { s with knobs := { s.knobs with noise := w } }
  | .pRate => { s with knobs := { s.knobs with rate := w } }
  | .pBits => { s with knobs := { s.knobs with bits := w } }
  | .pDetuneOn => { s with knobs := { s.knobs with detuneOn := w } }
  | .pDetuneMix => { s with knobs := { s.knobs with detuneMix := w } }
  | .pLfoSpeed => { s with knobs := { s.knobs with lfoSpeed := w } }
  | .envAttack => { s with envRegs := { s.envRegs with attack := w } }
  | .envDecay => { s with envRegs := { s.envRegs with decay := w } }
  | .envSustain => { s with envRegs := { s.envRegs with sustain := w } }
  | .envRelease => { s with envRegs := { s.envRegs with release := w } }
  | .id => s.recordError .busErr
  | .result0 => s.recordError .busErr
  | .result1 => s.recordError .busErr
  | .voiceActiveLo => s.recordError .busErr
  | .voiceActiveHi => s.recordError .busErr
  | .sampleRate => s.recordError .busErr
  | .maxBlock => s.recordError .busErr
  | .numVoices => s.recordError .busErr
  | .bufSize => s.recordError .busErr
  | .dlCapacity => s.recordError .busErr
  | .dlSize => s.recordError .busErr
  | .tailLen => s.recordError .busErr
  | .dlFeedback => s.recordError .busErr

/-- A write of v to a target; the DLM window is read-only (20_memory.md R83, R84). -/
def State.writeTarget (s : State) (t : Target) (v : Word) : State :=
  match t with
  | .reg r => s.writeReg r v
  | .buf b i => s.writeIdle { s with mem := s.mem.writeWord (bufBase b + 4 * i) v }
  | .dlm _ => s.recordError .busErr

/-- A bus write: a bus error changes nothing and is recorded (20_memory.md R84). -/
def State.busWrite (s : State) (w : Width) (a : Addr) (v : Word) : State :=
  match targetOf w a with
  | some t => s.writeTarget t v
  | none => s.recordError .busErr

/-! ## Host actions -/

/-- One host action. A hardware reset acts at once and abandons a running command, with no completion
(70_reset_and_hazards.md R381). -/
def State.hostAct (s : State) : HostAction → State
  | .read w a => s.busRead w a
  | .write w a v => s.busWrite w a v
  | .hardReset => s.resetCore

end Sys2Proof.Machine
end

