-- ==== Sys2Proof/Machine/Transcend.lean ====
section
/-! DEFINITION. Machine/Transcend.lean: FN_SIN, FN_COS, FN_LN and FN_EXP10 (00_scope.md R20, R21).
Inside its domain each is faithfully rounded: the model computes an exact rational enclosure of the
real result, narrow enough that its two ends round outward to the two binary32 neighbours, and a
constant with no body chooses one of the two (log entry 7). Outside the domain the whole result is
such a constant (log entry 8). -/

namespace Sys2Proof.Machine

/-- A fraction num/den with den > 0. -/
structure Frac where
  num : Int
  den : Nat
  deriving DecidableEq, Repr

/-- Sum of two fractions. -/
def fracAdd (a b : Frac) : Frac := ⟨a.num * b.den + b.num * a.den, a.den * b.den⟩

/-- Product of two fractions. -/
def fracMul (a b : Frac) : Frac := ⟨a.num * b.num, a.den * b.den⟩

/-- Negation of a fraction. -/
def fracNeg (a : Frac) : Frac := ⟨-a.num, a.den⟩

/-- Reciprocal of a positive fraction. -/
def fracInv (a : Frac) : Frac := ⟨a.den, a.num.toNat⟩

/-- The fraction of an integer. -/
def fracInt (n : Int) : Frac := ⟨n, 1⟩

/-- The exact value of a finite binary32, as a fraction. -/
def fracOf (x : F32) : Frac := ⟨val x, 2 ^ 149⟩

/-- 1 + r(k) z (1 + r(k+1) z (1 + …)), n levels deep: a power series in z whose successive
coefficients have the ratios r. -/
def nestedSeries (r : Nat → Frac) (z : Frac) : Nat → Nat → Frac
  | 0, _ => fracInt 1
  | n + 1, k => fracAdd (fracInt 1) (fracMul (fracMul (r k) z) (nestedSeries r z n (k + 1)))

/-- Round outward, downward: the largest binary32 value ≤ a. A zero gets the sign of a here; of the
FN_* results only FN_SIN's can be a zero so rounded, and fnSin leaves its sign free (log entry 9). -/
def roundDown (a : Frac) : F32 :=
  ofMag (decide (a.num < 0))
    (roundMag (if a.num < 0 then .awayFromZero else .towardZero) (a.num.natAbs * 2 ^ 149) a.den)

/-- Round outward, upward: the least binary32 value ≥ a. For the sign of a zero see roundDown. -/
def roundUp (a : Frac) : F32 :=
  ofMag (decide (a.num < 0))
    (roundMag (if a.num < 0 then .towardZero else .awayFromZero) (a.num.natAbs * 2 ^ 149) a.den)

/-- The faithful results for a real number enclosed between lo and hi: its lower or its upper
neighbour, as `up` says (R21(d)). -/
def faithful (up : Bool) (lo hi : Frac) : F32 := if up then roundUp hi else roundDown lo

/-- r, but for the sign of a zero, which `neg` gives (log entry 9). -/
def withZeroSign (neg : Bool) (r : F32) : F32 :=
  if mag r = 0 then (if neg then negZero else posZero) else r

/-! ## Sine and cosine, |x| ≤ 8 -/

/-- Terms 0..N of the series of sin: Σ (-1)^n x^(2n+1)/(2n+1)!. -/
def sinPartial (x : Frac) (N : Nat) : Frac :=
  fracMul x (nestedSeries (fun k => ⟨-1, (2 * k + 2) * (2 * k + 3)⟩) (fracMul x x) N 0)

/-- Terms 0..N of the series of cos: Σ (-1)^n x^(2n)/(2n)!. -/
def cosPartial (x : Frac) (N : Nat) : Frac :=
  nestedSeries (fun k => ⟨-1, (2 * k + 1) * (2 * k + 2)⟩) (fracMul x x) N 0

/-- A lower bound of sin x for |x| ≤ 8: a partial sum that ends on a negative term (x ≥ 0) or on a
positive term (x < 0) of the alternating series. -/
def sinLower (x : Frac) : Frac := sinPartial x (if x.num < 0 then 40 else 39)

/-- An upper bound of sin x for |x| ≤ 8. -/
def sinUpper (x : Frac) : Frac := sinPartial x (if x.num < 0 then 39 else 40)

/-- A lower bound of cos x for |x| ≤ 8. -/
def cosLower (x : Frac) : Frac := cosPartial x 39

/-- An upper bound of cos x for |x| ≤ 8. -/
def cosUpper (x : Frac) : Frac := cosPartial x 40

/-! ## Logarithm -/

/-- 2^-250, above the error of the logarithm series cut after 81 terms. -/
def lnSlack : Frac := ⟨1, 2 ^ 250⟩

/-- Terms 0..80 of 2 artanh t = 2 Σ t^(2n+1)/(2n+1): a lower bound of ln((1+t)/(1-t)) for
0 ≤ t ≤ 1/3, less than 2^-250 below it. -/
def lnSeries (t : Frac) : Frac :=
  fracMul (fracInt 2)
    (fracMul t (nestedSeries (fun k => ⟨2 * k + 1, 2 * k + 3⟩) (fracMul t t) 80 0))

/-- A lower bound of ln 2 = 2 artanh(1/3). -/
def ln2Lower : Frac := lnSeries ⟨1, 3⟩

/-- An upper bound of ln 2. -/
def ln2Upper : Frac := fracAdd ln2Lower lnSlack

/-- For u ≥ 2^23 units: the exponent e with 2^e ≤ u < 2^(e+1). -/
def lnExp (u : Nat) : Nat := Nat.log2 u

/-- (m - 1)/(m + 1) for the significand m = u/2^e, which a binary32 magnitude holds in 24 bits. -/
def lnArg (u : Nat) : Frac :=
  ⟨(u / 2 ^ (lnExp u - 23) : Nat) - 2 ^ 23, u / 2 ^ (lnExp u - 23) + 2 ^ 23⟩

/-- A lower bound of ln x for x = u · 2^-149: ln m + (e - 149) ln 2. -/
def lnLower (u : Nat) : Frac :=
  fracAdd (lnSeries (lnArg u))
    (fracMul (fracInt ((lnExp u : Int) - 149)) (if lnExp u < 149 then ln2Upper else ln2Lower))

/-- An upper bound of ln x for x = u · 2^-149. -/
def lnUpper (u : Nat) : Frac :=
  fracAdd (fracAdd (lnSeries (lnArg u)) lnSlack)
    (fracMul (fracInt ((lnExp u : Int) - 149)) (if lnExp u < 149 then ln2Lower else ln2Upper))

/-! ## Powers of ten, -7 ≤ x ≤ 1 -/

/-- A fraction cut down to a multiple of 2^-256. -/
def cutDown (a : Frac) : Frac := ⟨Int.fdiv (a.num * 2 ^ 256) a.den, 2 ^ 256⟩

/-- A fraction raised to a multiple of 2^-256. -/
def cutUp (a : Frac) : Frac := ⟨Int.fdiv (a.num * 2 ^ 256) a.den + 1, 2 ^ 256⟩

/-- 10.0 in units of 2^-149. -/
def tenUnits : Nat := 10 * 2 ^ 149

/-- Terms 0..128 of the exponential series. -/
def expSeries (y : Frac) : Frac := nestedSeries (fun k => ⟨1, k + 1⟩) y 128 0

/-- 2^-190, above the error of the exponential series cut after 129 terms for 0 ≤ y ≤ 17. -/
def expSlack : Frac := ⟨1, 2 ^ 190⟩

/-- A lower bound of 10^a, 0 ≤ a ≤ 7. -/
def pow10Lower (a : Frac) : Frac := expSeries (fracMul a (cutDown (lnLower tenUnits)))

/-- An upper bound of 10^a, 0 ≤ a ≤ 7. -/
def pow10Upper (a : Frac) : Frac :=
  fracAdd (expSeries (fracMul a (cutUp (lnUpper tenUnits)))) expSlack

/-- A lower bound of 10^x; a negative x goes through 10^-x. -/
def exp10Lower (x : Frac) : Frac :=
  if x.num < 0 then fracInv (pow10Upper (fracNeg x)) else pow10Lower x

/-- An upper bound of 10^x. -/
def exp10Upper (x : Frac) : Frac :=
  if x.num < 0 then fracInv (pow10Lower (fracNeg x)) else pow10Upper x

/-! ## The configuration fields (R20, R21) -/

/-- 8.0, the end of the domain of FN_SIN and FN_COS (R21(d)). -/
def eight : F32 := 0x41000000#32

/-- -7.0, the low end of the domain of FN_EXP10 (R21(d)). -/
def negSeven : F32 := 0xC0E00000#32

/-- 10.0. -/
def ten : F32 := 0x41200000#32

/-- 2^-24, the low end of the domain of FN_LN (R21(d)). -/
def lnFloor : F32 := 0x33800000#32

/-- FN_SIN (R20, R21). Of a zero result only FN_SIN(+0.0) has its sign from the spec; the sign of the
zero for -0.0, and of the zero neighbour at ±2^-149, is free (log entry 9). -/
def fnSin (x : F32) : F32 :=
  if isNaN x then qNaN
  else if x = posZero then posZero
  else if x = negZero then withZeroSign (Config.sinZeroIsNeg x) posZero
  else if fle (fabs x) eight then
    withZeroSign (Config.sinZeroIsNeg x)
      (faithful (Config.sinRoundsUp x) (sinLower (fracOf x)) (sinUpper (fracOf x)))
  else Config.sinOutside x

/-- FN_COS (R20, R21): exactly 1.0 at both zeros, where the exact result is representable. -/
def fnCos (x : F32) : F32 :=
  if isNaN x then qNaN
  else if mag x = 0 then one
  else if fle (fabs x) eight then
    faithful (Config.cosRoundsUp x) (cosLower (fracOf x)) (cosUpper (fracOf x))
  else Config.cosOutside x

/-- FN_LN (R20, R21): negative for every 0 < x < 1 (R21(e)), below the domain of R21(d) too. -/
def fnLn (x : F32) : F32 :=
  if isNaN x then qNaN
  else if x = one then posZero
  else if isFinite x && fle lnFloor x then
    faithful (Config.lnRoundsUp x) (lnLower (units x)) (lnUpper (units x))
  else if flt posZero x && flt x lnFloor then ofMag true (1 + Config.lnBelow x % infMag)
  else Config.lnOutside x

/-- FN_EXP10 (R20, R21): exactly 1.0 at both zeros and 10.0 at 1.0, where the exact result is
representable. -/
def fnExp10 (x : F32) : F32 :=
  if isNaN x then qNaN
  else if mag x = 0 then one
  else if x = one then ten
  else if fle negSeven x && fle x one then
    faithful (Config.exp10RoundsUp x) (exp10Lower (fracOf x)) (exp10Upper (fracOf x))
  else Config.exp10Outside x

end Sys2Proof.Machine
end

