-- ==== Sys2Proof/Machine/Noise.lean ====
section
/-! DEFINITION. Machine/Noise.lean: the xorshift32 generator, its uniform and Box-Muller outputs and
the NOISE_UNIFORM and NOISE_GAUSS commands (42_noise.md). The PRNG state is passed from draw to
draw; the Box-Muller pair lives inside one pass (R205). -/

namespace Sys2Proof.Machine

/-- `next()`: one draw; the new state is the value drawn (R200). -/
def xorshift (x : Word) : Word :=
  let a := x ^^^ (x <<< 13)
  let b := a ^^^ (a >>> 17)
  b ^^^ (b <<< 5)

/-- `next() >> 8`, a 24-bit integer, from the value drawn (R201). -/
def top24 (x : Word) : Nat := x.toNat / 2 ^ 8

/-- `uniform_pm1` of the drawn 24-bit integer: k 2^-23 - 1, exact (R201). -/
def uniformOf (k : Nat) : F32 := fsub (fmul (i2f k) (pow2 (-23))) one

/-- n uniform variates from a PRNG state, and the state after them (R201, R206). -/
def uniformFill : Nat → Word → List F32 × Word
  | 0, x => ([], x)
  | n + 1, x =>
    let rest := uniformFill n (xorshift x)
    (uniformOf (top24 (xorshift x)) :: rest.1, rest.2)

/-- `draw_u1`: a rejected draw consumes one PRNG step; an exhausted budget gives 1.0 (R202). The first
argument is the number of draws left. -/
def drawU1 : Nat → Word → F32 × Word
  | 0, x => (one, x)
  | n + 1, x =>
    let c := fmul (i2f (top24 (xorshift x) + 1)) (pow2 (-24))
    if fgt c Config.eps then (c, xorshift x) else drawU1 n (xorshift x)

/-- `draw_u2` (R203). -/
def drawU2 (x : Word) : F32 × Word := (fmul (i2f (top24 (xorshift x))) (pow2 (-24)), xorshift x)

/-- -2.0 (R22). -/
def negTwo : F32 := 0xC0000000#32

/-- The Box-Muller pair of u1 and u2, one rounding per step (R204). -/
def boxMuller (u1 u2 : F32) : F32 × F32 :=
  let r := fsqrt (fmul negTwo (fnLn u1))
  let th := fmul Config.twoPi u2
  (fmul r (fnCos th), fmul r (fnSin th))

/-- `gauss_pair` with a retry budget, and the PRNG state after it (R204). -/
def gaussPair (retries : Nat) (x : Word) : (F32 × F32) × Word :=
  let u1 := drawU1 retries x
  let u2 := drawU2 u1.2
  (boxMuller u1.1 u2.1, u2.2)

/-- `gauss_fill`: z0 on even positions, z1 on odd ones; for odd n the last z1 is dropped (R205).
Answers the n values and the PRNG state after them. -/
def gaussFill (retries : Nat) : Nat → Word → List F32 × Word
  | 0, x => ([], x)
  | 1, x => ([(gaussPair retries x).1.1], (gaussPair retries x).2)
  | n + 2, x =>
    let p := gaussPair retries x
    let rest := gaussFill retries n p.2
    (p.1.1 :: p.1.2 :: rest.1, rest.2)

/-- n noise values of the kind NOISE_MODE names: 0 Gaussian, 1 uniform (10_state.md R32). -/
def noiseFill (uniform : Bool) (n : Nat) (x : Word) : List F32 × Word :=
  if uniform then uniformFill n x else gaussFill Config.retryMax n x

/-- Fill NOISE[0..n-1] and advance the PRNG (R206, R207). -/
def State.fillNoise (s : State) (uniform : Bool) (n : Nat) : State :=
  let f := noiseFill uniform n s.rng
  { s.setBuf .noise f.1 with rng := f.2 }

/-! ## Commands -/

/-- NOISE_UNIFORM (R206). -/
def execNoiseUniform (n : BitVec 16) (s : State) : Result :=
  whenCount n s (finish (s.fillNoise true n.toNat))

/-- NOISE_GAUSS (R207). -/
def execNoiseGauss (n : BitVec 16) (s : State) : Result :=
  whenCount n s (finish (s.fillNoise false n.toNat))

end Sys2Proof.Machine
end

