-- ==== Sys2Proof/Machine/Envelope.lean ====
section
/-! DEFINITION. Machine/Envelope.lean: the linear ADSR envelope and the ENV_* commands
(43_envelope.md). -/

namespace Sys2Proof.Machine

/-- `env_reset`: the rates and the latched sustain level stay (R238). -/
def Env.toIdle (e : Env) : Env := { e with stage := .idle, level := posZero }

/-- The attack rate a trigger computes (R232). -/
def attackRate (r : EnvRegs) (sr : F32) : F32 :=
  if fgt r.attackTime posZero then fdiv one (fmul r.attackTime sr) else posZero

/-- The decay rate a trigger computes (R232). -/
def decayRate (r : EnvRegs) (sr : F32) : F32 :=
  if fgt r.decayTime posZero then fdiv (fsub one r.sustainLevel) (fmul r.decayTime sr) else posZero

/-- `env_trigger`: a stage whose rate is not positive is skipped; an attack starts from the current
level (R232). -/
def Env.trigger (e : Env) (r : EnvRegs) (sr : F32) : Env :=
  let e1 := { e with aRate := attackRate r sr, dRate := decayRate r sr, sus := r.sustainLevel }
  if fgt e1.aRate posZero then { e1 with stage := .attack }
  else if fgt e1.dRate posZero then { e1 with level := one, stage := .decay }
  else { e1 with level := r.sustainLevel, stage := .sustain }

/-- `env_release`: the rate is taken from the level at the release; an idle envelope is unchanged and
a release time of 0 resets it (R233). -/
def Env.noteOff (e : Env) (r : EnvRegs) (sr : F32) : Env :=
  if e.stage = .idle then e
  else if fgt r.releaseTime posZero then
    { e with rRate := fdiv e.level (fmul r.releaseTime sr), stage := .release }
  else e.toIdle

/-- One step of ATTACK, R234's pseudocode: the step that completes it leaves the level at 1.0. Where it
enters SUSTAIN, R235 would have the level at sus at once, which the next step makes it (DESIGN CHOICE,
log entry 17). -/
def Env.stepAttack (e : Env) : Env :=
  let l := fadd e.level e.aRate
  if fge l one then
    { e with level := one, stage := if fgt e.dRate posZero then .decay else .sustain }
  else { e with level := l }

/-- One step of DECAY (R234). -/
def Env.stepDecay (e : Env) : Env :=
  let l := fsub e.level e.dRate
  if fle l e.sus then { e with level := e.sus, stage := .sustain } else { e with level := l }

/-- One step of RELEASE: a level that is not above 0, NaN included, resets the envelope (R234). -/
def Env.stepRelease (e : Env) : Env :=
  let l := fsub e.level e.rRate
  if fgt l posZero then { e with level := l } else e.toIdle

/-- The envelope after one sample (R234). -/
def Env.advance (e : Env) : Env :=
  match e.stage with
  | .idle => e
  | .attack => e.stepAttack
  | .decay => e.stepDecay
  | .sustain => { e with level := e.sus }
  | .release => e.stepRelease

/-- The value `env_next` returns: +0.0 when IDLE, else the level after the step (R234). -/
def Env.output (e : Env) : F32 :=
  match e.stage with
  | .idle => posZero
  | .attack => e.advance.level
  | .decay => e.advance.level
  | .sustain => e.advance.level
  | .release => e.advance.level

/-! ## Commands, on env(V) alone: the voice's flags are neither read nor changed -/

/-- Replace the envelope of voice V. -/
def State.setEnv (s : State) (v : VoiceNo) (x : Voice) (e : Env) : State :=
  s.setVoice v { x with env := e }

/-- ENV_NOTE_ON (R236). -/
def execEnvNoteOn (v : VoiceNo) (s : State) : Result :=
  withVoice v s fun x => finish (s.setEnv v x (x.env.trigger s.operands.env x.sr))

/-- ENV_NOTE_OFF (R237). -/
def execEnvNoteOff (v : VoiceNo) (s : State) : Result :=
  withVoice v s fun x => finish (s.setEnv v x (x.env.noteOff s.operands.env x.sr))

/-- ENV_RESET (R238). -/
def execEnvReset (v : VoiceNo) (s : State) : Result :=
  withVoice v s fun x => finish (s.setEnv v x x.env.toIdle)

/-- ENV_NEXT: RESULT1 is the stage after the step (R239). -/
def execEnvNext (v : VoiceNo) (s : State) : Result :=
  withVoice v s fun x =>
    finish2 x.env.output (x.env.advance.stage.code.zeroExtend 32) (s.setEnv v x x.env.advance)

/-- ENV_READ (R240). -/
def execEnvRead (v : VoiceNo) (s : State) : Result :=
  withVoice v s fun x => finish2 x.env.level (x.env.stage.code.zeroExtend 32) s

end Sys2Proof.Machine
end

