-- ==== Sys2Proof/Machine/Oscillator.lean ====
section
/-! DEFINITION. Machine/Oscillator.lean: the phase accumulator, its shapers and the OSC_* commands
(40_oscillator.md). -/

namespace Sys2Proof.Machine

/-! ## Functions -/

/-- `osc_set_sr`: the delta is not recomputed (R141). -/
def Osc.setSr (o : Osc) (sr : F32) : Osc := { o with sr := sr }

/-- `osc_set_freq` (R142). -/
def Osc.setFreq (o : Osc) (f : F32) : Osc := { o with freq := f, delta := fdiv f o.sr }

/-- The one conditional wrap step on the sum s of phase and delta, with its rounding guard (R143). -/
def wrapPhase (s : F32) : F32 :=
  if fge s one then fsub s one
  else if flt s posZero then
    if fge (fadd s one) one then posZero else fadd s one
  else s

/-- `osc_advance` (R143). -/
def Osc.advance (o : Osc) : Osc := { o with phase := wrapPhase (fadd o.phase o.delta) }

/-- The triangle shaper (R145). -/
def shapeTri (p : F32) : F32 := fsub (fabs (fsub p half)) half

/-- The sine shaper (R146). -/
def shapeSin (p : F32) : F32 := fnSin (fmul p Config.twoPi)

/-- The square shaper (R147). -/
def shapeSq (p pw : F32) : F32 := if fle p pw then half else negHalf

/-- The shaping function the wave field selects, of the current phase (R140, R148). -/
def Osc.shape (o : Osc) : F32 :=
  match o.wave with
  | .triangle => shapeTri o.phase
  | .sine => shapeSin o.phase
  | .square => shapeSq o.phase o.pw

/-- `osc_process`: advance, then shape the new phase (R148). Answers the oscillator and its output. -/
def Osc.process (o : Osc) : Osc × F32 := (o.advance, o.advance.shape)

/-! ## Commands -/

/-- OSC_SET_SR (R150). -/
def execOscSetSr (v : VoiceNo) (k : OscKind) (s : State) : Result :=
  withVoice v s fun x =>
    whenInRange (rateOk s.operands.arg0) s
      (finish (s.setVoice v (x.setOsc k ((x.osc k).setSr s.operands.arg0))))

/-- OSC_SET_FREQ (R151). -/
def execOscSetFreq (v : VoiceNo) (k : OscKind) (s : State) : Result :=
  withVoice v s fun x =>
    finish (s.setVoice v (x.setOsc k ((x.osc k).setFreq s.operands.arg0)))

/-- OSC_PROCESS (R152). -/
def execOscProcess (v : VoiceNo) (k : OscKind) (s : State) : Result :=
  withVoice v s fun x =>
    let r := (x.osc k).process
    finish2 r.2 r.1.phase (s.setVoice v (x.setOsc k r.1))

/-- OSC_SET_PW: any f32, not clamped (R153). -/
def execOscSetPw (v : VoiceNo) (k : OscKind) (s : State) : Result :=
  withVoice v s fun x =>
    finish (s.setVoice v (x.setOsc k { x.osc k with pw := s.operands.arg0 }))

/-- OSC_SET_WAVE: the phase is not reset (R154). -/
def execOscSetWave (v : VoiceNo) (k : OscKind) (w : Wave) (s : State) : Result :=
  withVoice v s fun x =>
    finish (s.setVoice v (x.setOsc k { x.osc k with wave := w }))

/-- OSC_READ (R155). -/
def execOscRead (v : VoiceNo) (k : OscKind) (s : State) : Result :=
  withVoice v s fun x => finish2 (x.osc k).phase (x.osc k).delta s

end Sys2Proof.Machine
end

