-- ==== Sys2Proof/Machine/VoiceBank.lean ====
section
/-! DEFINITION. Machine/VoiceBank.lean: a voice's render step, note on and off, voice allocation and
the voice and bank commands (44_voice.md). -/

namespace Sys2Proof.Machine

/-! ## One voice -/

/-- Voice states, derived from the flags (R261). -/
inductive VoiceState where
  | idle
  | sounding
  | releasing
  deriving DecidableEq, Repr

/-- The state of a voice (R261, 10_state.md R49). -/
def Voice.state (x : Voice) : VoiceState :=
  if !x.playing then .idle else if x.releasing then .releasing else .sounding

/-- Deactivation: both flags cleared and the envelope reset (R262). -/
def Voice.deactivate (x : Voice) : Voice :=
  { x with playing := false, releasing := false, env := x.env.toIdle }

/-- The detune frequency a render step sets: base - (l + 1) damt, for the LFO output l (R262). -/
def Voice.detuneFreq (x : Voice) (l : F32) : F32 := fsub x.base (fmul (fadd l one) x.damt)

/-- The detune mix p (1 - dmix) + d dmix (R262). -/
def mixDetune (p d dmix : F32) : F32 := fadd (fmul p (fsub one dmix)) (fmul d dmix)

/-- What one render step answers: the voice after it, its sample and the envelope value. -/
structure Rendered where
  voice : Voice
  sample : F32
  envValue : F32
  deriving DecidableEq, Repr

/-- The render step of a playing voice, in the order of R262: LFO, detune frequency, PRI, DET, mix,
envelope, then the near-silence test. The deactivating sample is still emitted. -/
def Voice.renderPlaying (x : Voice) : Rendered :=
  let lfo := x.lfo.process
  let pri := x.pri.process
  let det := (x.det.setFreq (x.detuneFreq lfo.2)).process
  let e := x.env.output
  let sig := if x.don then mixDetune pri.2 det.2 x.dmix else pri.2
  let y : Voice := { x with lfo := lfo.1, pri := pri.1, det := det.1, env := x.env.advance }
  { voice := if x.releasing && flt e Config.thr then y.deactivate else y
    sample := fmul sig e
    envValue := e }

/-- `voice_render_sample`: an idle voice gives +0.0 and does not change (R262). -/
def Voice.renderSample (x : Voice) : Rendered :=
  if x.playing then x.renderPlaying else { voice := x, sample := posZero, envValue := posZero }

/-- The samples of up to n renders of one voice, ending with the one it deactivates on; an idle voice
gives none (the inner loop of R276). -/
def Voice.renderRun : Nat → Voice → Voice × List F32
  | 0, x => (x, [])
  | n + 1, x =>
    if x.playing then
      let r := x.renderSample
      let rest := Voice.renderRun n r.voice
      (rest.1, r.sample :: rest.2)
    else (x, [])

/-- `voice_note_on`: the oscillator phases are not reset (R266). -/
def Voice.noteOn (x : Voice) (n : BitVec 7) (r : EnvRegs) : Voice :=
  { x with
    note := n
    base := noteFreq n
    pri := x.pri.setFreq (noteFreq n)
    env := x.env.toIdle.trigger r x.sr
    playing := true
    releasing := false }

/-- `voice_note_off` (R267). -/
def Voice.noteOff (x : Voice) (r : EnvRegs) : Voice :=
  { x with releasing := true, env := x.env.noteOff r x.sr }

/-- The push of the control parameters to one voice (46_control.md R333; R272). -/
def Voice.push (x : Voice) (k : KnobValues) : Voice :=
  { x with
    damt := k.detune
    dmix := k.detuneMix
    don := k.detuneOn
    lfo := x.lfo.setFreq k.lfoSpeed }

/-! ## Allocation (R268) -/

/-- The lowest-numbered voice with playing = 0, counting from i. -/
def firstIdle : Nat → List Voice → Option Nat
  | _, [] => none
  | i, x :: xs => if x.playing then firstIdle (i + 1) xs else some i

/-- The releasing voice with the smallest envelope level, ties to the lowest number, counting from i;
`best` is the choice so far with its level. -/
def nearestReleased : Nat → Option (Nat × F32) → List Voice → Option (Nat × F32)
  | _, best, [] => best
  | i, best, x :: xs =>
    if x.playing && x.releasing then
      match best with
      | none => nearestReleased (i + 1) (some (i, x.env.level)) xs
      | some (j, l) =>
        nearestReleased (i + 1) (if flt x.env.level l then some (i, x.env.level) else some (j, l)) xs
    else nearestReleased (i + 1) best xs

/-- `alloc()`: an idle voice, else the most nearly released one (stolen), else none (R268). -/
def allocVoice (xs : List Voice) : Option (Nat × Bool) :=
  match firstIdle 0 xs with
  | some v => some (v, false)
  | none =>
    match nearestReleased 0 none xs with
    | some (v, _) => some (v, true)
    | none => none

/-- A voice that a NOTE_OFF of note n releases (R269). -/
def Voice.matchesOff (n : BitVec 7) (x : Voice) : Bool :=
  x.playing && !x.releasing && decide (x.note = n)

/-! ## The bank -/

/-- The list of sums of a buffer's words with one voice's samples; words beyond the samples keep their
values (R276). -/
def addSamples : List F32 → List F32 → List F32
  | w :: ws, y :: ys => fadd w y :: addSamples ws ys
  | ws, [] => ws
  | [], _ => []

/-- Voice-major rendering of n samples of every voice into a buffer's words (R276). Answers the voices
after it and the words of OUT0 and OUT1, which get the same additions. -/
def renderVoices (n : Nat) : List Voice → List F32 × List F32 → List Voice × (List F32 × List F32)
  | [], o => ([], o)
  | x :: xs, o =>
    let r := Voice.renderRun n x
    let rest := renderVoices n xs (addSamples o.1 r.2, addSamples o.2 r.2)
    (r.1 :: rest.1, rest.2)

/-- The body of BANK_RENDER (R276). -/
def State.renderBank (s : State) (n : Nat) : State :=
  let r := renderVoices n s.voices (s.buf .out0 n, s.buf .out1 n)
  (({ s with voices := r.1 }).setBuf .out0 r.2.1).setBuf .out1 r.2.2

/-- `push_params` (46_control.md R333). -/
def State.pushParams (s : State) (k : KnobValues) : State := s.mapVoices (·.push k)

/-! ## Commands -/

/-- NOTE_ON; the velocity is not used (R273, R266). -/
def execNoteOn (note velocity : BitVec 7) (s : State) : Result :=
  let _ := velocity
  whenPrepared s
    (match allocVoice s.voices with
    | none => finish2 0xFFFFFFFF#32 0#32 { s with status := { s.status with noteDrop := true } }
    | some (v, stolen) =>
      finish2 (BitVec.ofNat 32 v) (if stolen then 1#32 else 0#32)
        { s with voices := s.voices.modify v (·.noteOn note s.operands.env) })

/-- NOTE_OFF: RESULT0 counts the voices released (R274). -/
def execNoteOff (note : BitVec 7) (s : State) : Result :=
  whenPrepared s
    (finish0 (BitVec.ofNat 32 (s.voices.countP (Voice.matchesOff note)))
      (s.mapVoices fun x => if x.matchesOff note then x.noteOff s.operands.env else x))

/-- VOICE_RENDER (R275). -/
def execVoiceRender (v : VoiceNo) (s : State) : Result :=
  withVoice v s fun x =>
    whenPrepared s
      (finish2 x.renderSample.sample x.renderSample.envValue (s.setVoice v x.renderSample.voice))

/-- BANK_RENDER: the buffers are added to, not cleared (R276). -/
def execBankRender (n : BitVec 16) (s : State) : Result :=
  whenPrepared s (whenCount n s (finish (s.renderBank n.toNat)))

/-- RESULT0 of VOICE_READ: playing, releasing in bit 1, note in 14:8, stage in 18:16 (R277). -/
def Voice.readWord (x : Voice) : Word :=
  (((((0#13 ++ x.env.stage.code) ++ 0#1) ++ x.note) ++ 0#6) ++ bit x.releasing) ++ bit x.playing

/-- VOICE_READ: PREPARED is not needed (R277). -/
def execVoiceRead (v : VoiceNo) (s : State) : Result :=
  withVoice v s fun x => finish2 x.readWord x.base s

end Sys2Proof.Machine
end

