-- ==== Sys2Proof/Machine/Block.lean ====
section
/-! DEFINITION. Machine/Block.lean: the noise gain, the quantizer, the decimator, the noise mix and the
block processor, with their commands (45_block.md). -/

namespace Sys2Proof.Machine

/-! ## Stage functions -/

/-- 120.0 (R22). -/
def hundredTwenty : F32 := 0x42F00000#32

/-- -120.0 (R22). -/
def negHundredTwenty : F32 := 0xC2F00000#32

/-- The decibels of a noise amount: -120 + (120 a) / 100 (R300). -/
def noiseDb (a : F32) : F32 := fadd negHundredTwenty (fdiv (fmul hundredTwenty a) hundred)

/-- `noise_gain` (R300). -/
def noiseGain (a : F32) : F32 := clamp (fnExp10 (fdiv (noiseDb a) twenty)) posZero one

/-- `quant`: x truncated toward zero to a multiple of 2^-b (R301). -/
def quant (x : F32) (b : Nat) : F32 := fsub x (fmod x (pow2 (-(b : Int))))

/-- `decimate` on a buffer's words: each index takes the word at the last multiple of R; R ≤ 1 changes
nothing (R302). -/
def holdSamples (ws : List F32) (R : Nat) : List F32 :=
  if R ≤ 1 then ws else (List.range ws.length).map fun i => ws.getD (i - i % R) 0#32

/-- NOISE after the mix: NOISE[i] OUT0[i] (R304). -/
def mixedNoise (noise out : List F32) : List F32 := List.zipWith fmul noise out

/-- OUT0 after the mix: OUT0[i] + NOISE[i], with the new NOISE (R304). -/
def mixedOut (noise out : List F32) : List F32 := List.zipWith fadd out (mixedNoise noise out)

/-! ## Steps of the block processor (R315), each on the words 0..n-1 of its buffers -/

/-- Step 1: clear the three buffers. -/
def State.clearBuffers (s : State) (n : Nat) : State :=
  ((s.setBuf .out0 (List.replicate n posZero)).setBuf .out1 (List.replicate n posZero)).setBuf .noise
    (List.replicate n posZero)

/-- Step 2, and NOISE_SCALE: multiply NOISE by a gain (R314). -/
def State.scaleNoise (s : State) (n : Nat) (g : F32) : State :=
  s.setBuf .noise ((s.buf .noise n).map fun w => fmul w g)

/-- Step 5, and NOISE_MIX (R304). -/
def State.mixNoise (s : State) (n : Nat) : State :=
  (s.setBuf .noise (mixedNoise (s.buf .noise n) (s.buf .out0 n))).setBuf .out0
    (mixedOut (s.buf .noise n) (s.buf .out0 n))

/-- Step 6: quantize OUT0 (R301). -/
def State.quantizeOut (s : State) (n b : Nat) : State :=
  s.setBuf .out0 ((s.buf .out0 n).map fun w => quant w b)

/-- Step 7, and DECIMATE (R302). -/
def State.decimateOut (s : State) (n R : Nat) : State :=
  s.setBuf .out0 (holdSamples (s.buf .out0 n) R)

/-- Step 8: OUT1 becomes a copy of OUT0 (R303). -/
def State.copyOut (s : State) (n : Nat) : State := s.setBuf .out1 (s.buf .out0 n)

/-- Steps 1 to 4: clear, noise, push, render. -/
def State.blockRender (s : State) (n : Nat) (snap : Snapshot) : State :=
  let k := snap.knobs.convert
  ((((s.clearBuffers n).fillNoise snap.ctrl.noiseMode n).scaleNoise n (noiseGain k.noise)).pushParams
    k).renderBank n

/-- Steps 5 to 8: mix, quantize, decimate, copy. -/
def State.blockPost (s : State) (n : Nat) (k : KnobValues) : State :=
  (((s.mixNoise n).quantizeOut n k.bits).decimateOut n k.rate).copyOut n

/-! ## Commands -/

/-- The requested bit depth clamped to 1..32 (R311). -/
def clampDepth (b : Nat) : Nat := min (max b 1) 32

/-- QUANTIZE (R311). -/
def execQuantize (b : BitVec 16) (s : State) : Result :=
  finish0 (quant s.operands.arg0 (clampDepth b.toNat)) s

/-- DECIMATE: ARG0 is the factor R as a u32 (R312). -/
def execDecimate (n : BitVec 16) (s : State) : Result :=
  whenCount n s (finish (s.decimateOut n.toNat s.operands.arg0.toNat))

/-- NOISE_MIX (R313). -/
def execNoiseMix (n : BitVec 16) (s : State) : Result :=
  whenCount n s (finish (s.mixNoise n.toNat))

/-- NOISE_SCALE (R314). -/
def execNoiseScale (n : BitVec 16) (s : State) : Result :=
  whenCount n s
    (let g := noiseGain (clamp s.operands.arg0 posZero hundred)
     finish0 g (s.scaleNoise n.toNat g))

/-- BLOCK: RESULT0 counts the voices playing after step 4, RESULT1 is the gain (R315). The knobs and
NOISE_MODE are latched from the snapshot (R310). -/
def execBlock (n : BitVec 16) (s : State) : Result :=
  whenPrepared s
    (whenInRange (decide (n.toNat ≤ s.maxBlock.toNat)) s
      (let k := s.operands.knobs.convert
       let rendered := s.blockRender n.toNat s.operands
       finish2 (BitVec.ofNat 32 rendered.playingCount) (noiseGain k.noise)
         (rendered.blockPost n.toNat k)))

end Sys2Proof.Machine
end

