-- ==== Sys2Proof/Machine/Control.lean ====
section
/-! DEFINITION. Machine/Control.lean: the lifecycle and parameter-push commands (46_control.md). -/

namespace Sys2Proof.Machine

/-- NOP (R330). -/
def execNop (s : State) : Result := finish s

/-- The sample rate given to a voice and its three oscillators; no delta is recomputed (R331). -/
def Voice.setRate (x : Voice) (sr : F32) : Voice :=
  { x with sr := sr, pri := x.pri.setSr sr, det := x.det.setSr sr, lfo := x.lfo.setSr sr }

/-- PREPARE (R331): a finite rate above 0 and 1 ≤ m ≤ N_MAX, else ARG_RANGE. -/
def execPrepare (m : BitVec 16) (s : State) : Result :=
  whenInRange (rateOk s.operands.arg0) s
    (whenInRange (decide (1 ≤ m.toNat) && decide (m.toNat ≤ Config.bufSize)) s
      (finish { (s.mapVoices fun x => x.setRate s.operands.arg0) with
        sampleRate := s.operands.arg0
        maxBlock := m.zeroExtend 32
        status := { s.status with prepared := true } }))

/-- RESET: every piece of state to its reset value, then DONE (R332). -/
def execReset (s : State) : Result := finish s.resetCore

/-- PUSH_PARAMS (R333). -/
def execPushParams (s : State) : Result :=
  whenPrepared s (finish (s.pushParams s.operands.knobs.convert))

end Sys2Proof.Machine
end

