-- ==== Sys2Proof/Machine/DelayLine.lean ====
section
/-! DEFINITION. Machine/DelayLine.lean: the fractional delay line and the DL_* commands
(41_delay.md). -/

namespace Sys2Proof.Machine

/-- The geometry predicate `geom_ok` (R171). -/
def Delay.geomOk (d : Delay) : Bool :=
  decide (1 ≤ d.size) && decide (d.widx < d.size) && !isNaN d.ridx && fle posZero d.ridx &&
    flt d.ridx (i2f d.size)

/-- The read index a delay time gives: W - d, wrapped once by S if negative (R173). -/
def Delay.indexFor (dl : Delay) (d : F32) : F32 :=
  let r := fsub (i2f dl.widx) d
  if flt r posZero then fadd r (i2f dl.size) else r

/-- Whether a read index lies in [0, S) (R173). -/
def Delay.indexOk (dl : Delay) (r : F32) : Bool := fle posZero r && flt r (i2f dl.size)

/-- The lower cell a of the interpolated read (R175). -/
def Delay.cellA (dl : Delay) : Nat := ffloor dl.ridx

/-- The upper cell b = a + 1, wrapped to 0 when it reaches S (R175). -/
def Delay.cellB (dl : Delay) : Nat := if dl.size ≤ dl.cellA + 1 then 0 else dl.cellA + 1

/-- The fraction of the read index (R175). -/
def Delay.frac (dl : Delay) : F32 := fsub dl.ridx (i2f dl.cellA)

/-- Linear interpolation between two cells: t1 = A (1 - frac), t2 = B frac, t1 + t2, one rounding
each (R175). -/
def interpolate (cellA cellB frac : F32) : F32 :=
  fadd (fmul cellA (fsub one frac)) (fmul cellB frac)

/-- `dl_read_interp` (R175). -/
def State.delayRead (s : State) : F32 := interpolate (s.dlm s.dl.cellA) (s.dlm s.dl.cellB) s.dl.frac

/-- Both indices moved on by one sample, each wrapped by one step (R176). The step is R176's pseudocode;
at S = 1 and Rd = 1 - 2^-24 its rounded sum leaves the index at S, where R178 would have it below
(DESIGN CHOICE, log entry 18). -/
def Delay.advance (dl : Delay) : Delay :=
  let r := fadd dl.ridx one
  { dl with
    widx := if dl.size ≤ dl.widx + 1 then 0 else dl.widx + 1
    ridx := if fge r (i2f dl.size) then fsub r (i2f dl.size) else r }

/-- The word DL_PROCESS stores for the input x: x + out g (R176). -/
def State.delayStored (s : State) (x : F32) : F32 := fadd x (fmul s.delayRead s.dl.fb)

/-! ## Commands -/

/-- DL_SET_SIZE: the whole memory is zeroed; W, Rd and g stay (R172). -/
def execDlSetSize (s : State) : Result :=
  whenInRange (decide (s.operands.arg0.toNat ≤ Config.delayCap)) s
    (finish { s with
      dl := { s.dl with size := s.operands.arg0.toNat }
      mem := s.mem.clearRange dlmBase dlmEnd })

/-- DL_SET_DELAY: one wrap, then ARG_RANGE if the index is still outside [0, S) (R173). -/
def execDlSetDelay (s : State) : Result :=
  let r := s.dl.indexFor s.operands.arg0
  whenInRange (s.dl.indexOk r) s (finish { s with dl := { s.dl with ridx := r } })

/-- DL_SET_FEEDBACK: clamped to [0, 1] (R174). -/
def execDlSetFeedback (s : State) : Result :=
  finish { s with dl := { s.dl with fb := clamp s.operands.arg0 posZero one } }

/-- DL_PROCESS: the read comes before the write; an invalid geometry is the fault-class cause
DL_GEOMETRY (R176). -/
def execDlProcess (s : State) : Result :=
  if s.dl.geomOk then
    let stored := s.delayStored s.operands.arg0
    finish2 s.delayRead stored { s.setDlm s.dl.widx stored with dl := s.dl.advance }
  else raiseFault .dlGeometry s

/-- DL_READ (R177). -/
def execDlRead (s : State) : Result := finish2 (BitVec.ofNat 32 s.dl.widx) s.dl.ridx s

end Sys2Proof.Machine
end

