-- ==== Sys2Proof/Machine/Dispatch.lean ====
section
/-! DEFINITION. Machine/Dispatch.lean: one arm per command, each one call of its meaning. exec i s is
the completion of command i in state s (30_encoding.md R110). -/

namespace Sys2Proof.Machine

def exec (i : Instr) (s : State) : Host.Outcome State Fault Refusal :=
  match i with
  | .nop => Sys2Proof.Machine.execNop s
  | .prepare m => Sys2Proof.Machine.execPrepare m s
  | .reset => Sys2Proof.Machine.execReset s
  | .pushParams => Sys2Proof.Machine.execPushParams s
  | .oscSetSr v k => Sys2Proof.Machine.execOscSetSr v k s
  | .oscSetFreq v k => Sys2Proof.Machine.execOscSetFreq v k s
  | .oscProcess v k => Sys2Proof.Machine.execOscProcess v k s
  | .oscSetPw v k => Sys2Proof.Machine.execOscSetPw v k s
  | .oscSetWave v k w => Sys2Proof.Machine.execOscSetWave v k w s
  | .oscRead v k => Sys2Proof.Machine.execOscRead v k s
  | .dlSetSize => Sys2Proof.Machine.execDlSetSize s
  | .dlSetDelay => Sys2Proof.Machine.execDlSetDelay s
  | .dlSetFeedback => Sys2Proof.Machine.execDlSetFeedback s
  | .dlProcess => Sys2Proof.Machine.execDlProcess s
  | .dlRead => Sys2Proof.Machine.execDlRead s
  | .noiseUniform n => Sys2Proof.Machine.execNoiseUniform n s
  | .noiseGauss n => Sys2Proof.Machine.execNoiseGauss n s
  | .envNoteOn v => Sys2Proof.Machine.execEnvNoteOn v s
  | .envNoteOff v => Sys2Proof.Machine.execEnvNoteOff v s
  | .envNext v => Sys2Proof.Machine.execEnvNext v s
  | .envRead v => Sys2Proof.Machine.execEnvRead v s
  | .envReset v => Sys2Proof.Machine.execEnvReset v s
  | .noteOn note velocity => Sys2Proof.Machine.execNoteOn note velocity s
  | .noteOff note => Sys2Proof.Machine.execNoteOff note s
  | .voiceRender v => Sys2Proof.Machine.execVoiceRender v s
  | .bankRender n => Sys2Proof.Machine.execBankRender n s
  | .voiceRead v => Sys2Proof.Machine.execVoiceRead v s
  | .quantize b => Sys2Proof.Machine.execQuantize b s
  | .decimate n => Sys2Proof.Machine.execDecimate n s
  | .noiseMix n => Sys2Proof.Machine.execNoiseMix n s
  | .noiseScale n => Sys2Proof.Machine.execNoiseScale n s
  | .block n => Sys2Proof.Machine.execBlock n s

end Sys2Proof.Machine
end

