-- ==== Sys2Proof/WellFormed.lean ====
section
/-! DEFINITION. WellFormed.lean: what an operand of a command must satisfy beyond its type. The types
of Syntax.lean already exclude K = 3 and waveform 3 (30_encoding.md R118(d), (e)); the voice number's
bound is left (R118(c)). -/

namespace Sys2Proof

/-- The voice field names a voice of the bank: V < NV (30_encoding.md R118(c)). -/
def voiceOk (v : VoiceNo) : Bool := decide (v.toNat < Config.numVoices)

/-- Well-formedness of a command: forms VK, VKW and V need V < NV (30_encoding.md R118(c)). -/
def Instr.wf : Instr → Bool
  | .oscSetSr v _ => voiceOk v
  | .oscSetFreq v _ => voiceOk v
  | .oscProcess v _ => voiceOk v
  | .oscSetPw v _ => voiceOk v
  | .oscSetWave v _ _ => voiceOk v
  | .oscRead v _ => voiceOk v
  | .envNoteOn v => voiceOk v
  | .envNoteOff v => voiceOk v
  | .envNext v => voiceOk v
  | .envRead v => voiceOk v
  | .envReset v => voiceOk v
  | .voiceRender v => voiceOk v
  | .voiceRead v => voiceOk v
  | .nop => true
  | .prepare _ => true
  | .reset => true
  | .pushParams => true
  | .dlSetSize => true
  | .dlSetDelay => true
  | .dlSetFeedback => true
  | .dlProcess => true
  | .dlRead => true
  | .noiseUniform _ => true
  | .noiseGauss _ => true
  | .noteOn _ _ => true
  | .noteOff _ => true
  | .bankRender _ => true
  | .quantize _ => true
  | .decimate _ => true
  | .noiseMix _ => true
  | .noiseScale _ => true
  | .block _ => true

end Sys2Proof
end

