-- ==== Sys2Proof/Decode.lean ====
section
/-! DEFINITION. Decode.lean: the command decoder (30_encoding.md R111-R119), total on any word, and
the encoder written from the same forms. Both work on the one 32-bit word of R113. -/

namespace Sys2Proof

/-- Why a word is no command (30_encoding.md R118): the cause the engine records. -/
inductive DecodeError where
  /-- R118(a): the OP value is not assigned. -/
  | illegalOpcode
  /-- R118(b)-(e): a reserved bit set, V ≥ NV, K = 3, or waveform 3. -/
  | illegalField
  deriving DecidableEq, Repr

/-! ## Fields (30_encoding.md R111) -/

/-- OP, bits 31:24. -/
def fieldOp (c : Word) : BitVec 8 := c.extractLsb' 24 8

/-- V, bits 23:18. -/
def fieldV (c : Word) : VoiceNo := c.extractLsb' 18 6

/-- K, bits 17:16. -/
def fieldK (c : Word) : BitVec 2 := c.extractLsb' 16 2

/-- IMM, bits 15:0. -/
def fieldImm (c : Word) : BitVec 16 := c.extractLsb' 0 16

/-- Note, IMM[6:0] (R114). -/
def fieldNote (c : Word) : BitVec 7 := c.extractLsb' 0 7

/-- Velocity, IMM[14:8] (R114). -/
def fieldVelocity (c : Word) : BitVec 7 := c.extractLsb' 8 7

/-- Waveform, IMM[1:0] (R114). -/
def fieldW (c : Word) : BitVec 2 := c.extractLsb' 0 2

/-- The oscillator kind a K field names; K = 3 is illegal (R111, R118(d)). -/
def oscKindOfBits (k : BitVec 2) : Option OscKind :=
  if k = 0#2 then some .pri else if k = 1#2 then some .det else if k = 2#2 then some .lfo else none

/-- The K field of an oscillator kind (R111). -/
def bitsOfOscKind : OscKind → BitVec 2
  | .pri => 0#2
  | .det => 1#2
  | .lfo => 2#2

/-- The waveform a W field names; w = 3 is illegal (10_state.md R47, 30_encoding.md R118(e)). -/
def waveOfBits (w : BitVec 2) : Option Wave :=
  if w = 0#2 then some .triangle else if w = 1#2 then some .sine else if w = 2#2 then some .square
  else none

/-- The W field of a waveform (10_state.md R47). -/
def bitsOfWave : Wave → BitVec 2
  | .triangle => 0#2
  | .sine => 1#2
  | .square => 2#2

/-! ## Forms (30_encoding.md R112), each with its checks in the order of R119 -/

/-- Form Z: bits 23:0 must be 0. -/
def decodeZ (c : Word) (i : Instr) : Except DecodeError Instr :=
  if c.extractLsb' 0 24 = 0#24 then .ok i else .error .illegalField

/-- Form N: bits 23:16 must be 0; IMM is the operand. -/
def decodeN (c : Word) (mk : BitVec 16 → Instr) : Except DecodeError Instr :=
  if c.extractLsb' 16 8 = 0#8 then .ok (mk (fieldImm c)) else .error .illegalField

/-- Form V: bits 17:0 must be 0 and V < NV. -/
def decodeV (c : Word) (mk : VoiceNo → Instr) : Except DecodeError Instr :=
  if c.extractLsb' 0 18 = 0#18 then
    if voiceOk (fieldV c) then .ok (mk (fieldV c)) else .error .illegalField
  else .error .illegalField

/-- The V < NV and K ≠ 3 checks that forms VK and VKW share. -/
def decodeVoiceKind (c : Word) (mk : VoiceNo → OscKind → Except DecodeError Instr) :
    Except DecodeError Instr :=
  if voiceOk (fieldV c) then
    match oscKindOfBits (fieldK c) with
    | some k => mk (fieldV c) k
    | none => .error .illegalField
  else .error .illegalField

/-- Form VK: bits 15:0 must be 0, V < NV and K ≠ 3. -/
def decodeVK (c : Word) (mk : VoiceNo → OscKind → Instr) : Except DecodeError Instr :=
  if fieldImm c = 0#16 then decodeVoiceKind c (fun v k => .ok (mk v k)) else .error .illegalField

/-- Form VKW: bits 15:2 must be 0, V < NV, K ≠ 3 and w ≠ 3. -/
def decodeVKW (c : Word) (mk : VoiceNo → OscKind → Wave → Instr) : Except DecodeError Instr :=
  if c.extractLsb' 2 14 = 0#14 then
    decodeVoiceKind c (fun v k =>
      match waveOfBits (fieldW c) with
      | some w => .ok (mk v k w)
      | none => .error .illegalField)
  else .error .illegalField

/-- Form NOTE: bits 23:16, 15 and 7 must be 0. -/
def decodeNote (c : Word) (mk : BitVec 7 → BitVec 7 → Instr) : Except DecodeError Instr :=
  if c.extractLsb' 15 9 = 0#9 ∧ c.extractLsb' 7 1 = 0#1 then .ok (mk (fieldNote c) (fieldVelocity c))
  else .error .illegalField

/-- Form NOTEOFF: bits 23:7 must be 0. -/
def decodeNoteOff (c : Word) (mk : BitVec 7 → Instr) : Except DecodeError Instr :=
  if c.extractLsb' 7 17 = 0#17 then .ok (mk (fieldNote c)) else .error .illegalField

/-- The decoder: every word is one command with legal fields, or illegal (30_encoding.md R117, R118).
The opcode is checked first (R119). -/
def decode (c : Word) : Except DecodeError Instr :=
  match (fieldOp c).toNat with
  | 0x00 => decodeZ c .nop
  | 0x01 => decodeN c .prepare
  | 0x02 => decodeZ c .reset
  | 0x03 => decodeZ c .pushParams
  | 0x10 => decodeVK c .oscSetSr
  | 0x11 => decodeVK c .oscSetFreq
  | 0x12 => decodeVK c .oscProcess
  | 0x13 => decodeVK c .oscSetPw
  | 0x14 => decodeVKW c .oscSetWave
  | 0x15 => decodeVK c .oscRead
  | 0x20 => decodeZ c .dlSetSize
  | 0x21 => decodeZ c .dlSetDelay
  | 0x22 => decodeZ c .dlSetFeedback
  | 0x23 => decodeZ c .dlProcess
  | 0x24 => decodeZ c .dlRead
  | 0x30 => decodeN c .noiseUniform
  | 0x31 => decodeN c .noiseGauss
  | 0x40 => decodeV c .envNoteOn
  | 0x41 => decodeV c .envNoteOff
  | 0x42 => decodeV c .envNext
  | 0x43 => decodeV c .envRead
  | 0x44 => decodeV c .envReset
  | 0x50 => decodeNote c .noteOn
  | 0x51 => decodeNoteOff c .noteOff
  | 0x52 => decodeV c .voiceRender
  | 0x53 => decodeN c .bankRender
  | 0x54 => decodeV c .voiceRead
  | 0x60 => decodeN c .quantize
  | 0x61 => decodeN c .decimate
  | 0x62 => decodeN c .noiseMix
  | 0x63 => decodeN c .noiseScale
  | 0x64 => decodeN c .block
  | _ => .error .illegalOpcode

/-! ## Encoder -/

/-- One word in the format of 30_encoding.md R111. -/
def encodeFields (op : BitVec 8) (v : VoiceNo) (k : BitVec 2) (imm : BitVec 16) : Word :=
  ((op ++ v) ++ k) ++ imm

/-- Form Z. -/
def encodeZ (op : BitVec 8) : Word := encodeFields op 0#6 0#2 0#16

/-- Form N. -/
def encodeN (op : BitVec 8) (n : BitVec 16) : Word := encodeFields op 0#6 0#2 n

/-- Form V. -/
def encodeV (op : BitVec 8) (v : VoiceNo) : Word := encodeFields op v 0#2 0#16

/-- Form VK. -/
def encodeVK (op : BitVec 8) (v : VoiceNo) (k : OscKind) : Word :=
  encodeFields op v (bitsOfOscKind k) 0#16

/-- Form VKW. -/
def encodeVKW (op : BitVec 8) (v : VoiceNo) (k : OscKind) (w : Wave) : Word :=
  encodeFields op v (bitsOfOscKind k) (0#14 ++ bitsOfWave w)

/-- The encoder: the word of a command (30_encoding.md R112, R117). -/
def encode : Instr → Word
  | .nop => encodeZ 0x00#8
  | .prepare m => encodeN 0x01#8 m
  | .reset => encodeZ 0x02#8
  | .pushParams => encodeZ 0x03#8
  | .oscSetSr v k => encodeVK 0x10#8 v k
  | .oscSetFreq v k => encodeVK 0x11#8 v k
  | .oscProcess v k => encodeVK 0x12#8 v k
  | .oscSetPw v k => encodeVK 0x13#8 v k
  | .oscSetWave v k w => encodeVKW 0x14#8 v k w
  | .oscRead v k => encodeVK 0x15#8 v k
  | .dlSetSize => encodeZ 0x20#8
  | .dlSetDelay => encodeZ 0x21#8
  | .dlSetFeedback => encodeZ 0x22#8
  | .dlProcess => encodeZ 0x23#8
  | .dlRead => encodeZ 0x24#8
  | .noiseUniform n => encodeN 0x30#8 n
  | .noiseGauss n => encodeN 0x31#8 n
  | .envNoteOn v => encodeV 0x40#8 v
  | .envNoteOff v => encodeV 0x41#8 v
  | .envNext v => encodeV 0x42#8 v
  | .envRead v => encodeV 0x43#8 v
  | .envReset v => encodeV 0x44#8 v
  | .noteOn note vel => encodeFields 0x50#8 0#6 0#2 (((0#1 ++ vel) ++ 0#1) ++ note)
  | .noteOff note => encodeFields 0x51#8 0#6 0#2 (0#9 ++ note)
  | .voiceRender v => encodeV 0x52#8 v
  | .bankRender n => encodeN 0x53#8 n
  | .voiceRead v => encodeV 0x54#8 v
  | .quantize b => encodeN 0x60#8 b
  | .decimate n => encodeN 0x61#8 n
  | .noiseMix n => encodeN 0x62#8 n
  | .noiseScale n => encodeN 0x63#8 n
  | .block n => encodeN 0x64#8 n

/-! ## Byte images -/

/-- The word whose little-endian image is the four bytes b0 (lowest address) to b3
(20_memory.md R85). -/
def wordOfImage (b0 b1 b2 b3 : Byte) : Word := ((b3 ++ b2) ++ b1) ++ b0

/-- The byte at address offset i of a word's little-endian image (20_memory.md R85). -/
def imageByte (w : Word) (i : Nat) : Byte := w.extractLsb' (8 * i) 8

/-- The instruction the decoder reads from an opcode-table word: the low `nbits` bits of `w`, laid out
as a host's image of one command word (every command is exactly 32 bits, 30_encoding.md R113). -/
def decodeTableWord (nbits w : Nat) : Option Instr :=
  let c : Word := BitVec.ofNat 32 (w % 2 ^ nbits)
  match decode (wordOfImage (imageByte c 0) (imageByte c 1) (imageByte c 2) (imageByte c 3)) with
  | .ok i => some i
  | .error _ => none

/-! ## The opcode table's fixed bits (spec/opcode_table.json: "mask" and "match") -/

/-- The mask of a command's row: its fixed bits (30_encoding.md R112). -/
def Instr.tableMask : Instr → Word
  | .nop => 0xFFFFFFFF#32
  | .prepare _ => 0xFFFF0000#32
  | .reset => 0xFFFFFFFF#32
  | .pushParams => 0xFFFFFFFF#32
  | .oscSetSr _ _ => 0xFF00FFFF#32
  | .oscSetFreq _ _ => 0xFF00FFFF#32
  | .oscProcess _ _ => 0xFF00FFFF#32
  | .oscSetPw _ _ => 0xFF00FFFF#32
  | .oscSetWave _ _ _ => 0xFF00FFFC#32
  | .oscRead _ _ => 0xFF00FFFF#32
  | .dlSetSize => 0xFFFFFFFF#32
  | .dlSetDelay => 0xFFFFFFFF#32
  | .dlSetFeedback => 0xFFFFFFFF#32
  | .dlProcess => 0xFFFFFFFF#32
  | .dlRead => 0xFFFFFFFF#32
  | .noiseUniform _ => 0xFFFF0000#32
  | .noiseGauss _ => 0xFFFF0000#32
  | .envNoteOn _ => 0xFF03FFFF#32
  | .envNoteOff _ => 0xFF03FFFF#32
  | .envNext _ => 0xFF03FFFF#32
  | .envRead _ => 0xFF03FFFF#32
  | .envReset _ => 0xFF03FFFF#32
  | .noteOn _ _ => 0xFFFF8080#32
  | .noteOff _ => 0xFFFFFF80#32
  | .voiceRender _ => 0xFF03FFFF#32
  | .bankRender _ => 0xFFFF0000#32
  | .voiceRead _ => 0xFF03FFFF#32
  | .quantize _ => 0xFFFF0000#32
  | .decimate _ => 0xFFFF0000#32
  | .noiseMix _ => 0xFFFF0000#32
  | .noiseScale _ => 0xFFFF0000#32
  | .block _ => 0xFFFF0000#32

/-- The fixed bits of a command's row: its opcode in bits 31:24, zero elsewhere (R117). -/
def Instr.tableMatch : Instr → Word
  | .nop => 0x00000000#32
  | .prepare _ => 0x01000000#32
  | .reset => 0x02000000#32
  | .pushParams => 0x03000000#32
  | .oscSetSr _ _ => 0x10000000#32
  | .oscSetFreq _ _ => 0x11000000#32
  | .oscProcess _ _ => 0x12000000#32
  | .oscSetPw _ _ => 0x13000000#32
  | .oscSetWave _ _ _ => 0x14000000#32
  | .oscRead _ _ => 0x15000000#32
  | .dlSetSize => 0x20000000#32
  | .dlSetDelay => 0x21000000#32
  | .dlSetFeedback => 0x22000000#32
  | .dlProcess => 0x23000000#32
  | .dlRead => 0x24000000#32
  | .noiseUniform _ => 0x30000000#32
  | .noiseGauss _ => 0x31000000#32
  | .envNoteOn _ => 0x40000000#32
  | .envNoteOff _ => 0x41000000#32
  | .envNext _ => 0x42000000#32
  | .envRead _ => 0x43000000#32
  | .envReset _ => 0x44000000#32
  | .noteOn _ _ => 0x50000000#32
  | .noteOff _ => 0x51000000#32
  | .voiceRender _ => 0x52000000#32
  | .bankRender _ => 0x53000000#32
  | .voiceRead _ => 0x54000000#32
  | .quantize _ => 0x60000000#32
  | .decimate _ => 0x61000000#32
  | .noiseMix _ => 0x62000000#32
  | .noiseScale _ => 0x63000000#32
  | .block _ => 0x64000000#32

end Sys2Proof
end

