-- ==== Sys2Proof/Machine/Engine.lean ====
section
/-! DEFINITION. Machine/Engine.lean: what Step.lean calls beside exec and the bus: the captured command,
the recording of an illegal word, and the host action that comes next. -/

namespace Sys2Proof.Machine

/-- The cause an illegal word records (30_encoding.md R118, R119). -/
def causeOf : DecodeError → Cause
  | .illegalOpcode => .illegalOpcode
  | .illegalField => .illegalField

/-- The completion of an illegal word: nothing but STATUS changes (30_encoding.md R118). -/
def rejectWord (e : DecodeError) (s : State) : Result := raise (causeOf e) s

/-- The command the engine runs, decoded from the captured word (20_memory.md R91). -/
def fetch (r : Running) : Except DecodeError Instr := decode r.word

/-- The host action that takes effect in the next step, and those after it: the first one, unless a
command is running that the first one comes after (70_reset_and_hazards.md R395; log entry 2). -/
def State.nextAction (s : State) : Option (HostAction × List HostEvent) :=
  match s.host with
  | [] => none
  | e :: es => if s.busy && !e.early then none else some (e.action, es)

/-- The command word w issued now: captured with the snapshot, BUSY set (30_encoding.md R110), and no
host action to come before its completion. -/
def State.withIssued (s : State) (w : Word) : State :=
  { s with running := some ⟨w, s.snapNow⟩, host := [] }

end Sys2Proof.Machine
end

