-- ==== Sys2Proof/Machine/Step.lean ====
section
/-! DEFINITION. Machine/Step.lean: one step of BC-CORE and its host: one host action, one command's
completion, or nothing (00_scope.md R4, 20_memory.md R88, 70_reset_and_hazards.md R395). -/

namespace Sys2Proof.Machine

/-- One step. The host's next action takes effect if it is due; else the running command completes;
an idle core with no action due holds its state (60_exceptions.md R366; log entry 4). -/
def step (s : State) : Host.Outcome State Fault Refusal :=
  match s.nextAction with
  | some (a, rest) => .next (({ s with host := rest } : State).hostAct a)
  | none =>
    match s.running with
    | some r =>
      match fetch r with
      | .ok i => exec i s
      | .error e => rejectWord e s
    | none => .next s

/-- s with the instruction word w issued as the running command, so that the next step completes
exactly it (log entry 3): BC-CORE has no program memory; a command is the data of a CMD write
(20_memory.md R91). -/
def State.withFetchWord (s : State) (nbits w : Nat) : State :=
  s.withIssued (BitVec.ofNat 32 (w % 2 ^ nbits))

end Sys2Proof.Machine
end

