-- ==== Sys2Proof/Machine/Assembler.lean ====
section
/-! DEFINITION. Machine/Assembler.lean: the assembler syntax of command lines (30_encoding.md R120) and
the expansion of host-program lines into bus transactions (R121). No step depends on this file: it says
which words and transactions a host program's text stands for. -/

namespace Sys2Proof.Machine

/-! ## Words of a line (R120) -/

/-- A line up to its `;` comment. -/
def stripComment : List Char → List Char
  | [] => []
  | c :: cs => if c = ';' then [] else c :: stripComment cs

/-- A token that is being read, when it is not empty, in front of the tokens after it. -/
def flushToken (cur : List Char) (ts : List (List Char)) : List (List Char) :=
  if cur.isEmpty then ts else cur :: ts

/-- The tokens of a line: runs of characters between blanks, and each comma by itself. -/
def tokens : List Char → List Char → List (List Char)
  | [], cur => flushToken cur []
  | c :: cs, cur =>
    if c = ' ' ∨ c = '\t' then flushToken cur (tokens cs [])
    else if c = ',' then flushToken cur ([','] :: tokens cs [])
    else tokens cs (cur ++ [c])

/-- The value of a digit in base 10 or 16. -/
def digitValue (base : Nat) (c : Char) : Option Nat :=
  let n := c.toNat
  let d := if 48 ≤ n ∧ n ≤ 57 then n - 48 else if 97 ≤ n ∧ n ≤ 102 then n - 87
    else if 65 ≤ n ∧ n ≤ 70 then n - 55 else base
  if d < base then some d else none

/-- The number a run of digits stands for, after the value read so far. -/
def digitsValue (base : Nat) : Nat → List Char → Option Nat
  | acc, [] => some acc
  | acc, c :: cs =>
    match digitValue base c with
    | some d => digitsValue base (acc * base + d) cs
    | none => none

/-- An integer: decimal or `0x` hexadecimal. -/
def parseInt : List Char → Option Nat
  | [] => none
  | '0' :: 'x' :: c :: cs => digitsValue 16 0 (c :: cs)
  | c :: cs => digitsValue 10 0 (c :: cs)

/-- An integer that fits a field of w bits. -/
def parseField (w : Nat) (t : List Char) : Option (BitVec w) :=
  match parseInt t with
  | some n => if n < 2 ^ w then some (BitVec.ofNat w n) else none
  | none => none

/-- A decimal voice number that fits the V field. -/
def parseVoiceDigits : List Char → Option VoiceNo
  | [] => none
  | c :: cs =>
    match digitsValue 10 0 (c :: cs) with
    | some n => if n < 64 then some (BitVec.ofNat 6 n) else none
    | none => none

/-- `vV`. -/
def parseVoice : List Char → Option VoiceNo
  | 'v' :: cs => parseVoiceDigits cs
  | _ => none

/-- `vV.K`. -/
def parseVoiceKind (t : List Char) : Option (VoiceNo × OscKind) :=
  match parseVoice (t.takeWhile (· ≠ '.')), t.dropWhile (· ≠ '.') with
  | some v, ['.', 'P', 'R', 'I'] => some (v, .pri)
  | some v, ['.', 'D', 'E', 'T'] => some (v, .det)
  | some v, ['.', 'L', 'F', 'O'] => some (v, .lfo)
  | _, _ => none

/-- `W`: TRI, SINE or SQUARE. -/
def parseWave : List Char → Option Wave
  | ['T', 'R', 'I'] => some .triangle
  | ['S', 'I', 'N', 'E'] => some .sine
  | ['S', 'Q', 'U', 'A', 'R', 'E'] => some .square
  | _ => none

/-! ## Lines (R120), by the shape of their operands -/

/-- What a mnemonic stands for, from a table of mnemonics. -/
def lookupMnemonic {α : Type} (m : List Char) : List (String × α) → Option α
  | [] => none
  | (name, a) :: rest => if name = String.ofList m then some a else lookupMnemonic m rest

/-- Mnemonics with no operands. -/
def plainMnemonics : List (String × Instr) :=
  [("NOP", .nop), ("RESET", .reset), ("PUSH_PARAMS", .pushParams), ("DL_SET_SIZE", .dlSetSize),
   ("DL_SET_DELAY", .dlSetDelay), ("DL_SET_FEEDBACK", .dlSetFeedback), ("DL_PROCESS", .dlProcess),
   ("DL_READ", .dlRead)]

/-- Mnemonics with a 16-bit number. -/
def countMnemonics : List (String × (BitVec 16 → Instr)) :=
  [("PREPARE", .prepare), ("NOISE_UNIFORM", .noiseUniform), ("NOISE_GAUSS", .noiseGauss),
   ("BANK_RENDER", .bankRender), ("DECIMATE", .decimate), ("NOISE_MIX", .noiseMix),
   ("NOISE_SCALE", .noiseScale), ("BLOCK", .block), ("QUANTIZE", .quantize)]

/-- Mnemonics with `vV.K`. -/
def oscMnemonics : List (String × (VoiceNo → OscKind → Instr)) :=
  [("OSC_SET_SR", .oscSetSr), ("OSC_SET_FREQ", .oscSetFreq), ("OSC_PROCESS", .oscProcess),
   ("OSC_SET_PW", .oscSetPw), ("OSC_READ", .oscRead)]

/-- Mnemonics with `vV`. -/
def voiceMnemonics : List (String × (VoiceNo → Instr)) :=
  [("ENV_NOTE_ON", .envNoteOn), ("ENV_NOTE_OFF", .envNoteOff), ("ENV_NEXT", .envNext),
   ("ENV_READ", .envRead), ("ENV_RESET", .envReset), ("VOICE_RENDER", .voiceRender),
   ("VOICE_READ", .voiceRead)]

/-- A line of a mnemonic and one operand. -/
def parseOne (m a : List Char) : Option Instr :=
  match lookupMnemonic m countMnemonics with
  | some mk => (parseField 16 a).map mk
  | none =>
    match lookupMnemonic m oscMnemonics with
    | some mk => (parseVoiceKind a).map fun p => mk p.1 p.2
    | none =>
      match lookupMnemonic m voiceMnemonics with
      | some mk => (parseVoice a).map mk
      | none => if String.ofList m = "NOTE_OFF" then (parseField 7 a).map .noteOff else none

/-- A line of a mnemonic and two operands. -/
def parseTwo (m a b : List Char) : Option Instr :=
  if String.ofList m = "OSC_SET_WAVE" then
    match parseVoiceKind a, parseWave b with
    | some p, some w => some (.oscSetWave p.1 p.2 w)
    | _, _ => none
  else if String.ofList m = "NOTE_ON" then
    match parseField 7 a, parseField 7 b with
    | some n, some y => some (.noteOn n y)
    | _, _ => none
  else none

/-- What one line of source text is. -/
inductive Assembled where
  /-- Blanks and comments only. -/
  | empty
  /-- One command. -/
  | command (i : Instr)
  /-- A line the assembler refuses: no such syntax, or an operand that does not fit its field. -/
  | refused
  deriving DecidableEq, Repr

/-- A line, assembled (R120). -/
def assembleLine (line : String) : Assembled :=
  let i : Option (Option Instr) :=
    match tokens (stripComment line.toList) [] with
    | [] => none
    | [m] => some (lookupMnemonic m plainMnemonics)
    | [m, a] => some (parseOne m a)
    | [m, a, [','], b] => some (parseTwo m a b)
    | _ => some none
  match i with
  | none => .empty
  | some (some i) => .command i
  | some none => .refused

/-! ## Host-program lines (R121) -/

/-- An exact number num/den, with a sign, as a line writes it. -/
structure Exact where
  neg : Bool
  num : Nat
  den : Nat
  deriving DecidableEq, Repr

/-- `bits_f32(x)`: x rounded to binary32, den > 0 (R121). -/
def Exact.bitsF32 (x : Exact) : Word := roundNE x.neg (x.num * 2 ^ 149) x.den

/-- `bits(x)` for a u32, den = 1 (R121). -/
def Exact.bitsU32 (x : Exact) : Word := BitVec.ofNat 32 x.num

/-- The registers that SET writes as an f32: the knobs and the ENV_* registers (R121). -/
def Reg.isF32 (r : Reg) : Bool :=
  decide (0x040 ≤ r.offset ∧ r.offset ≤ 0x058) || decide (0x060 ≤ r.offset ∧ r.offset ≤ 0x06C)

/-- One line of a host program. `wait polls` is a WAIT that reads STATUS polls times with BUSY = 1
before it reads BUSY = 0. -/
inductive HostLine where
  | write (addr : Addr) (value : Word)
  | read (addr : Addr)
  | command (i : Instr)
  | argf (x : Exact)
  | argu (n : Word)
  | set (r : Reg) (x : Exact)
  | get (r : Reg)
  | wait (polls : Nat)
  | clr
  deriving DecidableEq, Repr

/-- The byte address of a register. -/
def Reg.addr (r : Reg) : Addr := BitVec.ofNat 20 r.offset

/-- The host events of a line (R121). `early` is the interleaving of the line's own transactions (log
entry 2); the last read of a WAIT comes after the running command's completion, because it reads
BUSY = 0. -/
def HostLine.events (early : Bool) : HostLine → List HostEvent
  | .write a v => [⟨early, .write .word a v⟩]
  | .read a => [⟨early, .read .word a⟩]
  | .command i => [⟨early, .write .word Reg.cmd.addr (encode i)⟩]
  | .argf x => [⟨early, .write .word Reg.arg0.addr x.bitsF32⟩]
  | .argu n => [⟨early, .write .word Reg.arg0.addr n⟩]
  | .set r x => [⟨early, .write .word r.addr (if r.isF32 then x.bitsF32 else x.bitsU32)⟩]
  | .get r => [⟨early, .read .word r.addr⟩]
  | .wait polls =>
    List.replicate polls ⟨true, .read .word Reg.status.addr⟩ ++
      [⟨false, .read .word Reg.status.addr⟩]
  | .clr => [⟨early, .write .word Reg.status.addr 0x0000003A#32⟩]

/-- The host events of a program. -/
def hostProgram (early : Bool) (p : List HostLine) : List HostEvent := p.flatMap (·.events early)

end Sys2Proof.Machine
end

