-- ==== Sys2Proof/Safety.lean ====
section
/-! DEFINITION. Safety.lean: what BC-CORE's rules promise of every reachable state, as predicates that
claims use. Each is stated of one state; the rule it comes from is named. -/

namespace Sys2Proof.Machine

/-! ## Shape of the state -/

/-- A byte address that lies in one of the four memory windows (20_memory.md R83). -/
def inWindows (a : Nat) : Prop :=
  (bufBase .out0 ≤ a ∧ a < bufBase .out0 + 4 * Config.bufSize) ∨
  (bufBase .out1 ≤ a ∧ a < bufBase .out1 + 4 * Config.bufSize) ∨
  (bufBase .noise ≤ a ∧ a < bufBase .noise + 4 * Config.bufSize) ∨
  (dlmBase ≤ a ∧ a < dlmEnd)

/-- The memory is in canonical form, holds nothing outside the windows of the map, and the two sizes
that bound the engine's own accesses are within the buffers (20_memory.md R83, R95; 41_delay.md
R170; 46_control.md R331). -/
def State.StoreInv (s : State) : Prop :=
  s.mem.wf = true ∧ (∀ c ∈ s.mem, inWindows c.1) ∧ s.maxBlock.toNat ≤ Config.bufSize ∧
  s.dl.size ≤ Config.delayCap ∧ s.dl.widx < Config.delayCap

/-- The bank holds NV voices, and in each releasing = 1 implies playing = 1 (10_state.md R46, R49;
44_voice.md R271). -/
def State.BankInv (s : State) : Prop :=
  s.voices.length = Config.numVoices ∧ ∀ x ∈ s.voices, x.releasing = true → x.playing = true

/-- CAUSE is NONE exactly while ERR is 0 (10_state.md R33, R34; 60_exceptions.md R350, R351). -/
def Status.CauseOk (st : Status) : Prop := st.err = false ↔ st.cause = .none

/-- The engine's bookkeeping: CAUSE goes with ERR, and the PRNG state is never 0 (42_noise.md
R200). -/
def State.EngineInv (s : State) : Prop := s.status.CauseOk ∧ s.rng ≠ 0#32

/-! ## Numeric ranges -/

/-- A value in [0, 1], so not NaN. -/
def inUnit (x : F32) : Prop := fle posZero x = true ∧ fle x one = true

/-- Every sample rate of a voice is finite and above 0 (40_oscillator.md R142). -/
def Voice.RatesOk (x : Voice) : Prop :=
  rateOk x.sr = true ∧ rateOk x.pri.sr = true ∧ rateOk x.det.sr = true ∧ rateOk x.lfo.sr = true

/-- Every sample rate the machine holds is finite and above 0 (40_oscillator.md R142). -/
def State.RatesInv (s : State) : Prop :=
  rateOk s.sampleRate = true ∧ ∀ x ∈ s.voices, x.RatesOk

/-- The delay line's numeric promises: the gain lies in [0, 1], the read index is a number from 0 up
to the capacity, and the cells from S on hold +0.0 (41_delay.md R170, R174, R176). -/
def State.DelayInv (s : State) : Prop :=
  inUnit s.dl.fb ∧ fle posZero s.dl.ridx = true ∧ flt s.dl.ridx (i2f Config.delayCap) = true ∧
  ∀ i, s.dl.size ≤ i → i < Config.delayCap → s.dlm i = 0#32

/-- What 43_envelope.md R235 promises of an envelope, with what its proof needs of the rates. In SUSTAIN
the level is sus, but for the one state that R234's pseudocode puts there with another level: an attack
that ends where the decay rate is not above 0 leaves it at 1.0 until the next step (log entry 17). -/
def Env.Ok (e : Env) : Prop :=
  inUnit e.level ∧ inUnit e.sus ∧
  (e.stage = .idle → e.level = posZero) ∧
  (e.stage = .attack → fgt e.aRate posZero = true) ∧
  (fgt e.dRate posZero = true → flt e.sus one = true) ∧
  (e.stage = .decay → fgt e.dRate posZero = true ∧ fgt e.level e.sus = true) ∧
  (e.stage = .sustain → e.level = e.sus ∨ (e.level = one ∧ fgt e.dRate posZero = false)) ∧
  (e.stage = .release → isNaN e.rRate = true ∨ fle posZero e.rRate = true)

/-- Every envelope is as 43_envelope.md R235 promises, and every envelope's sample rate is finite and
above 0. -/
def State.EnvInv (s : State) : Prop :=
  ∀ x ∈ s.voices, x.env.Ok ∧ rateOk x.sr = true

/-- A phase in [0, 1) that is not -0.0 (40_oscillator.md R144). -/
def phaseOk (p : F32) : Prop := fle posZero p = true ∧ flt p one = true ∧ p ≠ negZero

/-- Everything the voices promise: the bank's shape and flags, the sample rates, the envelopes. -/
def State.VoiceInv (s : State) : Prop := s.BankInv ∧ s.RatesInv ∧ s.EnvInv

/-! ## Illegal words (30_encoding.md R112, R117, R118) -/

/-- The operand forms of 30_encoding.md R112. -/
inductive Form where
  | z
  | n
  | vk
  | vkw
  | v
  | note
  | noteOff
  deriving DecidableEq, Repr

/-- The form of an opcode; none if it is unassigned (30_encoding.md R117). -/
def formOf (op : Nat) : Option Form :=
  if op ∈ [0x00, 0x02, 0x03, 0x20, 0x21, 0x22, 0x23, 0x24] then some .z
  else if op ∈ [0x01, 0x30, 0x31, 0x53, 0x60, 0x61, 0x62, 0x63, 0x64] then some .n
  else if op ∈ [0x10, 0x11, 0x12, 0x13, 0x15] then some .vk
  else if op = 0x14 then some .vkw
  else if op ∈ [0x40, 0x41, 0x42, 0x43, 0x44, 0x52, 0x54] then some .v
  else if op = 0x50 then some .note
  else if op = 0x51 then some .noteOff
  else none

/-- The bits a form marks 0 (30_encoding.md R112). -/
def Form.zeroMask : Form → Word
  | .z => 0x00FFFFFF#32
  | .n => 0x00FF0000#32
  | .vk => 0x0000FFFF#32
  | .vkw => 0x0000FFFC#32
  | .v => 0x0003FFFF#32
  | .note => 0x00FF8080#32
  | .noteOff => 0x00FFFF80#32

/-- The forms that use the voice field. -/
def Form.usesVoice (f : Form) : Bool := f == .vk || f == .vkw || f == .v

/-- The forms that use the kind field. -/
def Form.usesKind (f : Form) : Bool := f == .vk || f == .vkw

/-- The field errors of 30_encoding.md R118(b)-(e) for a word whose opcode has the form f. -/
def fieldError (f : Form) (c : Word) : Prop :=
  c &&& f.zeroMask ≠ 0#32 ∨
  (f.usesVoice = true ∧ Config.numVoices ≤ c.toNat / 2 ^ 18 % 2 ^ 6) ∨
  (f.usesKind = true ∧ c.toNat / 2 ^ 16 % 2 ^ 2 = 3) ∨
  (f = .vkw ∧ c.toNat % 2 ^ 2 = 3)

/-! ## What a command leaves alone -/

/-- s after a command that raised Error(c): BUSY 0, DONE 1, ERR 1, the first cause kept, everything
else as it was (60_exceptions.md R351, R356). -/
def State.rejected (s : State) (c : Cause) : State :=
  { s with
    running := none
    status := { s.status with
      done := true
      err := true
      cause := if s.status.err then s.status.cause else c } }

/-- Every byte outside the addresses base..base+len-1 reads as before. -/
def sameOutside (m m' : Memory) (base len : Nat) : Prop :=
  ∀ a, a < base ∨ base + len ≤ a → Memory.readByte m' a = Memory.readByte m a

end Sys2Proof.Machine

namespace Sys2Proof

/-! ## Which command a claim is about -/

/-- The commands that need PREPARED (30_encoding.md R119). -/
def Instr.needsPrepared : Instr → Bool
  | .pushParams => true
  | .noteOn _ _ => true
  | .noteOff _ => true
  | .voiceRender _ => true
  | .bankRender _ => true
  | .block _ => true
  | .nop => false
  | .prepare _ => false
  | .reset => false
  | .oscSetSr _ _ => false
  | .oscSetFreq _ _ => false
  | .oscProcess _ _ => false
  | .oscSetPw _ _ => false
  | .oscSetWave _ _ _ => false
  | .oscRead _ _ => false
  | .dlSetSize => false
  | .dlSetDelay => false
  | .dlSetFeedback => false
  | .dlProcess => false
  | .dlRead => false
  | .noiseUniform _ => false
  | .noiseGauss _ => false
  | .envNoteOn _ => false
  | .envNoteOff _ => false
  | .envNext _ => false
  | .envRead _ => false
  | .envReset _ => false
  | .voiceRead _ => false
  | .quantize _ => false
  | .decimate _ => false
  | .noiseMix _ => false
  | .noiseScale _ => false

/-- The commands of the delay-line unit (30_encoding.md R117). -/
def Instr.isDelay (i : Instr) : Bool :=
  i == .dlSetSize || i == .dlSetDelay || i == .dlSetFeedback || i == .dlProcess || i == .dlRead

/-- The commands that draw from the PRNG (42_noise.md R206, R207; 45_block.md R315). -/
def Instr.drawsNoise : Instr → Bool
  | .noiseUniform _ => true
  | .noiseGauss _ => true
  | .block _ => true
  | .nop => false
  | .prepare _ => false
  | .reset => false
  | .pushParams => false
  | .oscSetSr _ _ => false
  | .oscSetFreq _ _ => false
  | .oscProcess _ _ => false
  | .oscSetPw _ _ => false
  | .oscSetWave _ _ _ => false
  | .oscRead _ _ => false
  | .dlSetSize => false
  | .dlSetDelay => false
  | .dlSetFeedback => false
  | .dlProcess => false
  | .dlRead => false
  | .envNoteOn _ => false
  | .envNoteOff _ => false
  | .envNext _ => false
  | .envRead _ => false
  | .envReset _ => false
  | .noteOn _ _ => false
  | .noteOff _ => false
  | .voiceRender _ => false
  | .bankRender _ => false
  | .voiceRead _ => false
  | .quantize _ => false
  | .decimate _ => false
  | .noiseMix _ => false
  | .noiseScale _ => false

end Sys2Proof
end

