-- ==== Sys2Proof/Certificates/Slice0/Obligations.lean ====
section
/-! DEFINITION. Certificates/Slice0/Obligations.lean: the statements for the provers. "Completes" means
that exec answers a next state; each such statement gives that state whole, so that it is the
command's frame too. -/

open Sys2Proof Sys2Proof.Machine

/-! ## Encoding -/

/-- Decoding the encoder's word of a well-formed command gives the command back, for every command and
every operand (R111, R112, R114, R117). -/
def Obligations.DecodeOfEncode : Prop := ∀ i : Instr, i.wf = true → decode (encode i) = .ok i

/-- A word that decodes is the encoder's word of what it decodes to, and that command is well formed: no
two words are the same command (R118). -/
def Obligations.EncodeOfDecode : Prop :=
  ∀ (c : Word) (i : Instr), decode c = .ok i → encode i = c ∧ i.wf = true

/-- R118: which words are illegal, with which cause, and that a rejected word changes nothing but
STATUS (and BUSY, a bit of it). -/
def Obligations.IllegalWords : Prop :=
  (∀ c : Word, decode c = .error .illegalOpcode ↔ formOf (c.toNat / 2 ^ 24) = none) ∧
  (∀ c : Word, decode c = .error .illegalField ↔
    ∃ f, formOf (c.toNat / 2 ^ 24) = some f ∧ fieldError f c) ∧
  (∀ (s : State) (r : Running), s.running = some r → s.nextAction = none →
    (decode r.word = .error .illegalOpcode → step s = .next (s.rejected .illegalOpcode)) ∧
    (decode r.word = .error .illegalField → step s = .next (s.rejected .illegalField)))

/-- Words written out from the forms of R112, one for each form and one more, decode to their commands,
and the four assembler examples of R120 assemble to their words. -/
def Obligations.SampleWords : Prop :=
  decode 0x03000000#32 = .ok .pushParams ∧
  decode 0x01000004#32 = .ok (.prepare 4#16) ∧
  decode 0x120E0000#32 = .ok (.oscProcess 3#6 .lfo) ∧
  decode 0x14000002#32 = .ok (.oscSetWave 0#6 .pri .square) ∧
  decode 0x404C0000#32 = .ok (.envNoteOn 19#6) ∧
  decode 0x50006445#32 = .ok (.noteOn 69#7 100#7) ∧
  decode 0x51000045#32 = .ok (.noteOff 69#7) ∧
  decode 0x64000004#32 = .ok (.block 4#16) ∧
  assembleLine "NOTE_ON 69, 100" = .command (.noteOn 69#7 100#7) ∧
  encode (.noteOn 69#7 100#7) = 0x50006445#32 ∧
  assembleLine "OSC_SET_WAVE v0.PRI, SQUARE" = .command (.oscSetWave 0#6 .pri .square) ∧
  encode (.oscSetWave 0#6 .pri .square) = 0x14000002#32 ∧
  assembleLine "OSC_PROCESS v3.LFO" = .command (.oscProcess 3#6 .lfo) ∧
  encode (.oscProcess 3#6 .lfo) = 0x120E0000#32 ∧
  assembleLine "BLOCK 4" = .command (.block 4#16) ∧
  encode (.block 4#16) = 0x64000004#32

/-! ## Steps -/

/-- A step runs the decoded command: while a command runs and the host's next action is not due before
its completion, the step is exec of what the captured word decodes to. A host action that is due is
the step instead: the first one, with the others left for later. -/
def Obligations.StepRunsDecodedCommand : Prop :=
  (∀ (s : State) (r : Running) (i : Instr), s.running = some r → decode r.word = .ok i →
    (∀ e es, s.host = e :: es → e.early = false) → step s = exec i s) ∧
  (∀ (s : State) (w : Nat) (i : Instr), decode (BitVec.ofNat 32 (w % 2 ^ 32)) = .ok i →
    step (s.withFetchWord 32 w) = exec i (s.withFetchWord 32 w)) ∧
  (∀ (s : State) (e : HostEvent) (es : List HostEvent), s.host = e :: es →
    (s.running = none ∨ e.early = true) →
    step s = .next (({ s with host := es } : State).hostAct e.action))

/-- The core is idle whenever BUSY = 0 and then holds all its state; a CMD write is the only thing that
starts work (R366), and what it starts is that word with the registers' values of that moment (R110).
That an idle core takes steps which change nothing is the model's form of this (log entry 4). That a
running command completes in the very next step once the host has no action left is the model's
scheduling (log entry 2): the spec gives no bound (R395). -/
def Obligations.IdleHoldsState : Prop :=
  (∀ s : State, s.statusWord.getLsbD 0 = false ↔ s.running = none) ∧
  (∀ (s : State) (k : Nat), s.running = none → s.host = [] → Sys2Proof.core.run k s = .next s) ∧
  (∀ s t : State, step s = .next t → s.running = none → t.running ≠ none →
    ∃ early c es, s.host = ⟨early, .write .word 0x0000C#20 c⟩ :: es ∧
      t = { s with host := es, running := some ⟨c, s.snapNow⟩ }) ∧
  (∀ s : State, s.voices.length = Config.numVoices → s.running ≠ none → s.host = [] →
    ∃ t, step s = .next t ∧ t.running = none)

/-- R356: every command that was issued completes, legal or not, refused or not, with BUSY 0 and DONE 1;
a CMD write dropped because BUSY = 1 has no completion and does not set DONE; DONE stays 1 until the
host clears it by a STATUS write of bit 1 or resets the core. -/
def Obligations.EveryCommandCompletes : Prop :=
  (∀ (i : Instr) (s : State), s.voices.length = Config.numVoices →
    ∃ t, exec i s = .next t ∧ t.running = none ∧ t.status.done = true) ∧
  (∀ (e : DecodeError) (s : State),
    ∃ t, rejectWord e s = .next t ∧ t.running = none ∧ t.status.done = true) ∧
  (∀ (s : State) (c : Word), s.running ≠ none →
    (s.busWrite .word 0x0000C#20 c).running = s.running ∧
    (s.busWrite .word 0x0000C#20 c).status.done = s.status.done) ∧
  (∀ s t : State, step s = .next t → s.status.done = true → t.status.done = false →
    ∃ e es, s.host = e :: es ∧ (e.action = .hardReset ∨
      ∃ v, e.action = .write .word 0x00008#20 v ∧ v.getLsbD 1 = true))

/-- R395 promises that an issued command completes after finitely many steps, whatever the host does
meanwhile, short of a hardware reset. The bound stated here, at the latest one step after the host's
last action, is the model's scheduling and not the spec's (log entry 2). -/
def Obligations.RunningCommandCompletes : Prop :=
  ∀ s : State, s.voices.length = Config.numVoices → s.running ≠ none →
    (∀ e ∈ s.host, e.action ≠ .hardReset) →
    ∃ k t, k ≤ s.host.length + 1 ∧ Sys2Proof.core.run k s = .next t ∧
      t.running = none ∧ t.status.done = true

/-! ## Whole-machine rules -/

/-- A running command sees its snapshot, so host writes to ARG0, CTRL, the knobs and the ENV_* registers
made while it runs change nothing of what it does (R87(c), R110, R393). RESET alone, which reads
none of them, writes them. -/
def Obligations.SnapshotHidesRegisterWrites : Prop :=
  ∀ (i : Instr) (s t : State) (a : Word) (c : Ctrl) (k : Knobs) (e : EnvRegs), i ≠ .reset →
    s.running ≠ none → exec i s = .next t →
    exec i { s with arg0 := a, ctrl := c, knobs := k, envRegs := e } =
      .next { t with arg0 := a, ctrl := c, knobs := k, envRegs := e }

/-- Which commands write which registers: none but RESET writes ARG0, CTRL, a knob or an ENV_* register;
none but PREPARE and RESET writes SAMPLE_RATE, MAX_BLOCK or PREPARED; none but NOISE_UNIFORM,
NOISE_GAUSS, BLOCK and RESET moves the PRNG. The last clause, that no command, RESET too, touches the
host's pending events, its read response or the counter of free values, is the model's choice for
fields of its own (log entry 13). -/
def Obligations.RegistersWrittenOnlyByTheirCommands : Prop :=
  ∀ (i : Instr) (s t : State), exec i s = .next t →
    (i ≠ .reset → t.arg0 = s.arg0 ∧ t.ctrl = s.ctrl ∧ t.knobs = s.knobs ∧ t.envRegs = s.envRegs) ∧
    (i ≠ .reset → (∀ m, i ≠ .prepare m) → t.sampleRate = s.sampleRate ∧ t.maxBlock = s.maxBlock ∧
      t.status.prepared = s.status.prepared) ∧
    (i ≠ .reset → i.drawsNoise = false → t.rng = s.rng) ∧
    (t.host = s.host ∧ t.readData = s.readData ∧ t.draws = s.draws)

/-- The delay line is a stand-alone unit: no command but DL_* and RESET changes its indices, its gain or
a byte of its memory (41_delay.md; the bound on MAX_BLOCK is an invariant of its own). -/
def Obligations.OnlyDelayCommandsTouchDelayLine : Prop :=
  ∀ (i : Instr) (s t : State), i.isDelay = false → i ≠ .reset →
    s.maxBlock.toNat ≤ Config.bufSize → exec i s = .next t →
    t.dl = s.dl ∧ ∀ a, dlmBase ≤ a → t.mem.readByte a = s.mem.readByte a

/-- R272: a voice's damt, dmix and don are written only by PUSH_PARAMS and BLOCK (and put back by
RESET), for every voice, with the converted knobs of the snapshot. -/
def Obligations.PushedParameters : Prop :=
  (∀ (i : Instr) (s t : State), exec i s = .next t → i ≠ .reset → i ≠ .pushParams →
    (∀ n, i ≠ .block n) →
    t.voices.map (fun x => (x.damt, x.dmix, x.don)) =
      s.voices.map (fun x => (x.damt, x.dmix, x.don))) ∧
  (∀ (i : Instr) (s t : State), exec i s = .next t → s.status.prepared = true →
    (i = .pushParams ∨ ∃ n : BitVec 16, i = .block n ∧ n.toNat ≤ s.maxBlock.toNat) →
    ∀ x ∈ t.voices, x.damt = clamp s.operands.knobs.detune posZero 0x41A00000#32 ∧
      x.dmix = clamp s.operands.knobs.detuneMix posZero one ∧
      x.don = fle half s.operands.knobs.detuneOn)

/-- While ERR = 1 the first cause is kept: a step changes it only by a STATUS write of bit 3, by a
hardware reset, or by the completion of RESET (R351, R355, R358). -/
def Obligations.FirstCauseKept : Prop :=
  ∀ s t : State, step s = .next t → s.status.err = true →
    (t.status.err = true ∧ t.status.cause = s.status.cause) ∨
    (∃ r, s.running = some r ∧ decode r.word = .ok .reset) ∨
    ∃ e es, s.host = e :: es ∧ (e.action = .hardReset ∨
      ∃ v, e.action = .write .word 0x00008#20 v ∧ v.getLsbD 3 = true)

/-- Errors are precise: a command that records an error or a fault leaves exactly the state it found but
for BUSY, DONE, ERR, CAUSE and FAULT, and FAULT is set only with DL_GEOMETRY (R351, R352, R357). -/
def Obligations.RefusedCommandsAreAtomic : Prop :=
  ∀ (i : Instr) (s t : State), i ≠ .reset → s.status.err = false → exec i s = .next t →
    t.status.err = true →
    t = { s with
      running := none
      status := { s.status with
        done := true, err := true, fault := t.status.fault, cause := t.status.cause } } ∧
    t.status.cause ≠ .none ∧
    (t.status.cause = .dlGeometry → t.status.fault = true) ∧
    (t.status.cause ≠ .dlGeometry → t.status.fault = s.status.fault)

/-- The checks before execution: a voice from NV on is ILLEGAL_FIELD; then a voice-bank command without
PREPARED is NOT_PREPARED; then the operand ranges of R116, each ARG_RANGE; and n = 0 touches no buffer
word. -/
def Obligations.ChecksBeforeExecution : Prop :=
  (∀ (i : Instr) (s : State), i.wf = false → exec i s = .next (s.rejected .illegalField)) ∧
  (∀ (i : Instr) (s : State), i.wf = true → i.needsPrepared = true → s.status.prepared = false →
    s.voices.length = Config.numVoices → exec i s = .next (s.rejected .notPrepared)) ∧
  (∀ (n : BitVec 16) (s : State), Config.bufSize < n.toNat →
    exec (.noiseUniform n) s = .next (s.rejected .argRange) ∧
    exec (.noiseGauss n) s = .next (s.rejected .argRange) ∧
    exec (.decimate n) s = .next (s.rejected .argRange) ∧
    exec (.noiseMix n) s = .next (s.rejected .argRange) ∧
    exec (.noiseScale n) s = .next (s.rejected .argRange) ∧
    (s.status.prepared = true → exec (.bankRender n) s = .next (s.rejected .argRange))) ∧
  (∀ (n : BitVec 16) (s : State), s.status.prepared = true → s.maxBlock.toNat < n.toNat →
    exec (.block n) s = .next (s.rejected .argRange)) ∧
  (∀ (m : BitVec 16) (s : State), m.toNat = 0 ∨ Config.bufSize < m.toNat ∨
    isFinite s.operands.arg0 = false ∨ flt posZero s.operands.arg0 = false →
    exec (.prepare m) s = .next (s.rejected .argRange)) ∧
  (∀ (v : VoiceNo) (k : OscKind) (s : State) (x : Voice), v.toNat < Config.numVoices →
    s.voices[v.toNat]? = some x →
    isFinite s.operands.arg0 = false ∨ flt posZero s.operands.arg0 = false →
    exec (.oscSetSr v k) s = .next (s.rejected .argRange)) ∧
  (∀ s : State, Config.delayCap < s.operands.arg0.toNat →
    exec .dlSetSize s = .next (s.rejected .argRange)) ∧
  (∀ (s : State) (r : F32), r = fsub (i2f s.dl.widx) s.operands.arg0 →
    (fle posZero (if flt r posZero then fadd r (i2f s.dl.size) else r) &&
      flt (if flt r posZero then fadd r (i2f s.dl.size) else r) (i2f s.dl.size)) = false →
    exec .dlSetDelay s = .next (s.rejected .argRange)) ∧
  (∀ (i : Instr) (s t : State), i ∈ ([.noiseUniform 0#16, .noiseGauss 0#16, .decimate 0#16,
      .noiseMix 0#16, .noiseScale 0#16, .bankRender 0#16, .block 0#16] : List Instr) →
    exec i s = .next t → t.mem = s.mem)

/-! ## Oscillators -/

/-- The four oscillator setters write their own field of osc(V,K), OSC_SET_FREQ the delta too, and
nothing else (R141, R142, R150, R151, R153, R154). -/
def Obligations.OscillatorSetters : Prop :=
  ∀ (v : VoiceNo) (k : OscKind) (s : State) (x : Voice), v.toNat < Config.numVoices →
    s.voices[v.toNat]? = some x →
    (isFinite s.operands.arg0 = true → flt posZero s.operands.arg0 = true →
      exec (.oscSetSr v k) s = .next { s with
        voices := s.voices.set v.toNat (x.setOsc k { x.osc k with sr := s.operands.arg0 })
        running := none, status := { s.status with done := true } }) ∧
    exec (.oscSetFreq v k) s = .next { s with
      voices := s.voices.set v.toNat (x.setOsc k { x.osc k with
        freq := s.operands.arg0, delta := fdiv s.operands.arg0 (x.osc k).sr })
      running := none, status := { s.status with done := true } } ∧
    exec (.oscSetPw v k) s = .next { s with
      voices := s.voices.set v.toNat (x.setOsc k { x.osc k with pw := s.operands.arg0 })
      running := none, status := { s.status with done := true } } ∧
    ∀ w : Wave, exec (.oscSetWave v k w) s = .next { s with
      voices := s.voices.set v.toNat (x.setOsc k { x.osc k with wave := w })
      running := none, status := { s.status with done := true } }

/-- OSC_PROCESS adds the delta, wraps by the one conditional step of R143, shapes the new phase by the
waveform (R145-R148) and returns the sample and the phase (R152). -/
def Obligations.OscProcessResult : Prop :=
  ∀ (v : VoiceNo) (k : OscKind) (s : State) (x : Voice) (sum p y : F32),
    v.toNat < Config.numVoices → s.voices[v.toNat]? = some x →
    sum = fadd (x.osc k).phase (x.osc k).delta →
    p = (if fle one sum then fsub sum one
      else if flt sum posZero then
        (if fle one (fadd sum one) then posZero else fadd sum one)
      else sum) →
    y = (match (x.osc k).wave with
      | .triangle => fsub (fabs (fsub p half)) half
      | .sine => fnSin (fmul p Config.twoPi)
      | .square => if fle p (x.osc k).pw then half else negHalf) →
    exec (.oscProcess v k) s = .next { s with
      voices := s.voices.set v.toNat (x.setOsc k { x.osc k with phase := p })
      result0 := y, result1 := p, running := none, status := { s.status with done := true } }

/-- R144: while |delta| < 1 an advance keeps the phase in [0, 1), and never at -0.0. The premise takes a
start other than -0.0, which no run reaches (log entry 19). -/
def Obligations.PhaseInvariantKept : Prop :=
  ∀ o : Osc, phaseOk o.phase → flt (fneg one) o.delta = true → flt o.delta one = true →
    phaseOk o.advance.phase

/-- R145: the triangle shaper is fabs(p - 0.5) - 0.5; for p in [0, 1) its result lies in [-0.5, 0]; at
0.0 it is +0.0 and at 0.5 it is -0.5. -/
def Obligations.TriangleShape : Prop :=
  (∀ p : F32, shapeTri p = fsub (fabs (fsub p half)) half) ∧
  (∀ p : F32, fle posZero p = true → flt p one = true →
    fle negHalf (shapeTri p) = true ∧ fle (shapeTri p) posZero = true) ∧
  shapeTri posZero = posZero ∧ shapeTri half = negHalf

/-! ## Read-back commands -/

/-- OSC_READ, DL_READ, ENV_READ and VOICE_READ return the state they name bit for bit and change nothing
else; a stage reads as its code 0..4 (R48, R155, R177, R240, R277). -/
def Obligations.ReadCommands : Prop :=
  (∀ s : State, exec .dlRead s = .next { s with
    result0 := BitVec.ofNat 32 s.dl.widx, result1 := s.dl.ridx
    running := none, status := { s.status with done := true } }) ∧
  ∀ (v : VoiceNo) (s : State) (x : Voice) (stage : Word), v.toNat < Config.numVoices →
    s.voices[v.toNat]? = some x →
    stage = (match x.env.stage with
      | .idle => 0#32
      | .attack => 1#32
      | .decay => 2#32
      | .sustain => 3#32
      | .release => 4#32) →
    (∀ k : OscKind, exec (.oscRead v k) s = .next { s with
      result0 := (x.osc k).phase, result1 := (x.osc k).delta
      running := none, status := { s.status with done := true } }) ∧
    exec (.envRead v) s = .next { s with
      result0 := x.env.level, result1 := stage
      running := none, status := { s.status with done := true } } ∧
    exec (.voiceRead v) s = .next { s with
      result0 := ((bit x.playing).zeroExtend 32 ||| ((bit x.releasing).zeroExtend 32 <<< 1)) |||
        ((x.note.zeroExtend 32 <<< 8) ||| (stage <<< 16))
      result1 := x.base
      running := none, status := { s.status with done := true } }

/-! ## Delay line -/

/-- DL_SET_SIZE sets S, zeroes every byte of DLM and no other byte, and leaves W, Rd and g (R172). -/
def Obligations.DlSetSizeClears : Prop :=
  ∀ s : State, s.operands.arg0.toNat ≤ Config.delayCap →
    ∃ m : Memory,
      exec .dlSetSize s = .next { s with
        dl := { s.dl with size := s.operands.arg0.toNat }, mem := m
        running := none, status := { s.status with done := true } } ∧
      (∀ a, dlmBase ≤ a → a < dlmBase + 4 * Config.delayCap → m.readByte a = 0#8) ∧
      sameOutside s.mem m dlmBase (4 * Config.delayCap)

/-- DL_SET_DELAY stores the once-wrapped index W - d where it lies in [0, S), and rejects it elsewhere,
so for a NaN or infinite d and for S = 0; DL_SET_FEEDBACK stores its argument clamped to [0, 1]
(R173, R174). -/
def Obligations.DelaySetters : Prop :=
  (∀ (s : State) (r : F32),
    r = (if flt (fsub (i2f s.dl.widx) s.operands.arg0) posZero
      then fadd (fsub (i2f s.dl.widx) s.operands.arg0) (i2f s.dl.size)
      else fsub (i2f s.dl.widx) s.operands.arg0) →
    exec .dlSetDelay s = .next (if fle posZero r && flt r (i2f s.dl.size) then
      { s with
        dl := { s.dl with ridx := r }, running := none, status := { s.status with done := true } }
      else s.rejected .argRange)) ∧
  (∀ s : State, s.dl.size ≤ Config.delayCap → s.dl.widx < Config.delayCap →
    s.dl.size = 0 ∨ isFinite s.operands.arg0 = false →
    exec .dlSetDelay s = .next (s.rejected .argRange)) ∧
  (∀ (s : State) (g : F32),
    g = (if isNaN s.operands.arg0 || flt s.operands.arg0 posZero then posZero
      else if flt one s.operands.arg0 then one else s.operands.arg0) →
    inUnit g ∧
    exec .dlSetFeedback s = .next { s with
      dl := { s.dl with fb := g }, running := none, status := { s.status with done := true } })

/-- DL_PROCESS in a valid geometry reads the interpolated output before it writes, stores x + out g at W
and no other byte, moves both indices and returns both values; in an invalid one it records the fault
DL_GEOMETRY and changes nothing but STATUS (R171, R175, R176). -/
def Obligations.DlProcessResult : Prop :=
  (∀ (s : State) (a b : Nat) (frac out stored r : F32),
    1 ≤ s.dl.size → s.dl.size ≤ Config.delayCap → s.dl.widx < s.dl.size →
    fle posZero s.dl.ridx = true → flt s.dl.ridx (i2f s.dl.size) = true →
    a = ffloor s.dl.ridx → b = (if s.dl.size ≤ a + 1 then 0 else a + 1) →
    frac = fsub s.dl.ridx (i2f a) →
    out = fadd (fmul (s.dlm a) (fsub one frac)) (fmul (s.dlm b) frac) →
    stored = fadd s.operands.arg0 (fmul out s.dl.fb) → r = fadd s.dl.ridx one →
    a < s.dl.size ∧
    ∃ m : Memory,
      exec .dlProcess s = .next { s with
        dl := { s.dl with
          widx := if s.dl.size ≤ s.dl.widx + 1 then 0 else s.dl.widx + 1
          ridx := if fle (i2f s.dl.size) r then fsub r (i2f s.dl.size) else r }
        mem := m, result0 := out, result1 := stored
        running := none, status := { s.status with done := true } } ∧
      sameOutside s.mem m (dlmBase + 4 * s.dl.widx) 4 ∧
      (s.mem.wf = true → m.readWord (dlmBase + 4 * s.dl.widx) = stored)) ∧
  (∀ s : State, s.dl.size = 0 ∨ s.dl.size ≤ s.dl.widx ∨ fle posZero s.dl.ridx = false ∨
    flt s.dl.ridx (i2f s.dl.size) = false →
    exec .dlProcess s = .next { s with
      running := none
      status := { s.status with
        done := true, err := true, fault := true
        cause := if s.status.err then s.status.cause else .dlGeometry } })

/-- R178: DL_PROCESS keeps a valid geometry valid, but for one index of one size. At S = 1 the index
Rd = 1 - 2^-24 moves to 1.0, because R176's Rd + 1.0 rounds to 2.0 there; that the model
follows R176 there, and not R178, is its choice (log entry 18). -/
def Obligations.GeometryKept : Prop :=
  (∀ s t : State, s.dl.geomOk = true → s.dl.size ≤ Config.delayCap →
    (s.dl.size = 1 → s.dl.ridx ≠ 0x3F7FFFFF#32) →
    exec .dlProcess s = .next t → t.dl.geomOk = true) ∧
  (∀ s t : State, s.dl.size = 1 → s.dl.widx = 0 → s.dl.ridx = 0x3F7FFFFF#32 →
    exec .dlProcess s = .next t →
    s.dl.geomOk = true ∧ t.dl.ridx = one ∧ t.dl.geomOk = false)

/-! ## Noise -/

/-- The n-th draw of the generator from a state is its n-th iterate; NOISE_UNIFORM writes word i from draw
i + 1 as k 2^-23 - 1 with k the draw's upper 24 bits, leaves every byte outside the n words, and
leaves the generator n draws on (R200, R201, R206). -/
def Obligations.NoiseUniformFills : Prop :=
  ∀ (n : BitVec 16) (s : State), n.toNat ≤ Config.bufSize → s.mem.wf = true →
    ∃ m : Memory,
      exec (.noiseUniform n) s = .next { s with
        mem := m, rng := xorshift^[n.toNat] s.rng
        running := none, status := { s.status with done := true } } ∧
      sameOutside s.mem m (bufBase .noise) (4 * n.toNat) ∧
      ∀ i, i < n.toNat → m.readWord (bufBase .noise + 4 * i) =
        fsub (fmul (i2f ((xorshift^[i + 1] s.rng).toNat / 2 ^ 8)) (pow2 (-23))) one

/-- A Box-Muller pair is u1 and then u2, one rounding for each operation of R204; what the two draws are
is VariateRanges. NOISE_GAUSS takes one pair for every two words, the pairs one after the other from
the generator's state: word 2j is pair j's z0 and word 2j + 1 its z1; the last z1 of an odd n is
dropped, with its draws taken (R204, R205, R207). -/
def Obligations.NoiseGaussFills : Prop :=
  (∀ (x : Word) (u1 u2 : F32 × Word) (r th : F32),
    u1 = drawU1 Config.retryMax x → u2 = drawU2 u1.2 →
    r = fsqrt (fmul 0xC0000000#32 (fnLn u1.1)) → th = fmul 0x40C90FDB#32 u2.1 →
    gaussPair Config.retryMax x = ((fmul r (fnCos th), fmul r (fnSin th)), u2.2)) ∧
  ∀ (n : BitVec 16) (s : State), n.toNat ≤ Config.bufSize → s.mem.wf = true →
    ∃ m : Memory,
      exec (.noiseGauss n) s = .next { s with
        mem := m
        rng := (fun x => (gaussPair Config.retryMax x).2)^[(n.toNat + 1) / 2] s.rng
        running := none, status := { s.status with done := true } } ∧
      sameOutside s.mem m (bufBase .noise) (4 * n.toNat) ∧
      ∀ i, i < n.toNat → ∀ p : F32 × F32,
        p = (gaussPair Config.retryMax
          ((fun x => (gaussPair Config.retryMax x).2)^[i / 2] s.rng)).1 →
        m.readWord (bufBase .noise + 4 * i) = if i % 2 = 0 then p.1 else p.2

/-- The generator of R200 never reaches 0 from a nonzero state, and two states never meet: one draw is a
bijection on the words, and 0 is its only fixed point; the first six draws from SEED_RESET are those
R200 lists. -/
def Obligations.GeneratorNeverZero : Prop :=
  Function.Bijective xorshift ∧ (∀ x, xorshift x = 0#32 ↔ x = 0#32) ∧
  (∀ x, xorshift x = x ↔ x = 0#32) ∧
  (List.range 6).map (fun i => xorshift^[i + 1] Config.seedReset) =
    [0x87985AA5#32, 0x155B24A3#32, 0x4820F4C4#32, 0x81B3AC98#32, 0x703A0788#32, 0x29A8E24D#32]

/-- The variates. A uniform variate is exactly k 2^-23 - 1, so it lies in [-1, 1 - 2^-23] (R201). For u1 a
draw with k ≤ 1 is rejected and costs one PRNG step; the first other draw within the budget gives
exactly (k + 1) 2^-24, and a budget used up gives exactly 1.0; so u1 is above EPS and at most 1.0
(R202). u2 is one draw's k 2^-24, exactly (R203). -/
def Obligations.VariateRanges : Prop :=
  (∀ k : Nat, k < 2 ^ 24 → isFinite (uniformOf k) = true ∧
    val (uniformOf k) = (k : Int) * 2 ^ 126 - 2 ^ 149) ∧
  Config.retryMax = 8 ∧
  (∀ (n j : Nat) (x : Word), j < n → (∀ i, i < j → (xorshift^[i + 1] x).toNat / 2 ^ 8 ≤ 1) →
    2 ≤ (xorshift^[j + 1] x).toNat / 2 ^ 8 →
    (drawU1 n x).2 = xorshift^[j + 1] x ∧ isFinite (drawU1 n x).1 = true ∧
    val (drawU1 n x).1 = ((xorshift^[j + 1] x).toNat / 2 ^ 8 + 1 : Nat) * 2 ^ 125) ∧
  (∀ (n : Nat) (x : Word), (∀ i, i < n → (xorshift^[i + 1] x).toNat / 2 ^ 8 ≤ 1) →
    drawU1 n x = (one, xorshift^[n] x)) ∧
  (∀ (n : Nat) (x : Word), flt Config.eps (drawU1 n x).1 = true ∧ fle (drawU1 n x).1 one = true) ∧
  (∀ x : Word, drawU2 x = (fmul (i2f ((xorshift x).toNat / 2 ^ 8)) (pow2 (-24)), xorshift x) ∧
    isFinite (drawU2 x).1 = true ∧
    val (drawU2 x).1 = ((xorshift x).toNat / 2 ^ 8 : Nat) * 2 ^ 125)

/-! ## Envelope -/

/-- ENV_NOTE_ON computes the rates from the ENV_* snapshot and the voice's sample rate and enters the
first stage whose rate is above 0; ENV_NOTE_OFF takes the release rate from the level, leaves an idle
envelope and resets at release time 0; ENV_RESET keeps the rates (R231, R232, R233, R236-R238). -/
def Obligations.EnvelopeEvents : Prop :=
  ∀ (v : VoiceNo) (s : State) (x : Voice) (at' dt su rt ar dr : F32) (on off : Env),
    v.toNat < Config.numVoices → s.voices[v.toNat]? = some x →
    at' = (if isNaN s.operands.env.attack || flt s.operands.env.attack posZero then posZero
      else s.operands.env.attack) →
    dt = (if isNaN s.operands.env.decay || flt s.operands.env.decay posZero then posZero
      else s.operands.env.decay) →
    su = (if isNaN s.operands.env.sustain || flt s.operands.env.sustain posZero then posZero
      else if flt one s.operands.env.sustain then one else s.operands.env.sustain) →
    rt = (if isNaN s.operands.env.release || flt s.operands.env.release posZero then posZero
      else s.operands.env.release) →
    ar = (if flt posZero at' then fdiv one (fmul at' x.sr) else posZero) →
    dr = (if flt posZero dt then fdiv (fsub one su) (fmul dt x.sr) else posZero) →
    on = { x.env with
      aRate := ar, dRate := dr, sus := su
      stage := if flt posZero ar then .attack else if flt posZero dr then .decay else .sustain
      level := if flt posZero ar then x.env.level else if flt posZero dr then one else su } →
    off = (if x.env.stage = .idle then x.env
      else if flt posZero rt then
        { x.env with rRate := fdiv x.env.level (fmul rt x.sr), stage := .release }
      else { x.env with stage := .idle, level := posZero }) →
    exec (.envNoteOn v) s = .next { s with
      voices := s.voices.set v.toNat { x with env := on }
      running := none, status := { s.status with done := true } } ∧
    exec (.envNoteOff v) s = .next { s with
      voices := s.voices.set v.toNat { x with env := off }
      running := none, status := { s.status with done := true } } ∧
    exec (.envReset v) s = .next { s with
      voices := s.voices.set v.toNat { x with env := { x.env with stage := .idle, level := posZero } }
      running := none, status := { s.status with done := true } }

/-- ENV_NEXT by the stage: the new level and stage of R234; RESULT0 is the level after the step (+0.0 when
idle) and RESULT1 the stage after it (R239), as its code 0..4 (R48). -/
def Obligations.EnvNextResult : Prop :=
  ∀ (v : VoiceNo) (s : State) (x : Voice) (e : Env) (up down fall : F32),
    v.toNat < Config.numVoices → s.voices[v.toNat]? = some x →
    up = fadd x.env.level x.env.aRate → down = fsub x.env.level x.env.dRate →
    fall = fsub x.env.level x.env.rRate →
    e = (match x.env.stage with
      | .idle => x.env
      | .attack =>
        if fle one up then
          { x.env with
            level := one, stage := if flt posZero x.env.dRate then .decay else .sustain }
        else { x.env with level := up }
      | .decay =>
        if fle down x.env.sus then { x.env with level := x.env.sus, stage := .sustain }
        else { x.env with level := down }
      | .sustain => { x.env with level := x.env.sus }
      | .release =>
        if flt posZero fall then { x.env with level := fall }
        else { x.env with level := posZero, stage := .idle }) →
    exec (.envNext v) s = .next { s with
      voices := s.voices.set v.toNat { x with env := e }
      result0 := if x.env.stage = .idle then posZero else e.level
      result1 := match e.stage with
        | .idle => 0#32
        | .attack => 1#32
        | .decay => 2#32
        | .sustain => 3#32
        | .release => 4#32
      running := none, status := { s.status with done := true } }

/-! ## Voices -/

/-- NOTE_ON: the lowest idle voice gets the note; with none idle, the releasing voice with the smallest
level, ties to the lowest number, is stolen; with none of either, the note is dropped, NOTE_DROP is set
and ERR and CAUSE stay. The voice gets the note, its ROM frequency as base and as PRI's frequency, a
trigger of its reset envelope, playing 1 and releasing 0, and no oscillator phase changes (R266, R268,
R273). -/
def Obligations.NoteOnAllocates : Prop :=
  (∀ (x : Voice) (n : BitVec 7) (r : EnvRegs), x.noteOn n r = { x with
    note := n, base := noteFreq n
    pri := { x.pri with freq := noteFreq n, delta := fdiv (noteFreq n) x.pri.sr }
    env := ({ x.env with stage := .idle, level := posZero } : Env).trigger r x.sr
    playing := true, releasing := false }) ∧
  ∀ (note velocity : BitVec 7) (s : State), s.status.prepared = true →
    (∀ (v : Nat) (x : Voice), s.voices[v]? = some x → x.playing = false →
      (∀ (j : Nat) (y : Voice), j < v → s.voices[j]? = some y → y.playing = true) →
      exec (.noteOn note velocity) s = .next { s with
        voices := s.voices.set v (x.noteOn note s.operands.env)
        result0 := BitVec.ofNat 32 v, result1 := 0#32
        running := none, status := { s.status with done := true } }) ∧
    (∀ (v : Nat) (x : Voice), (∀ y ∈ s.voices, y.playing = true) → s.voices[v]? = some x →
      x.releasing = true →
      (∀ (j : Nat) (y : Voice), s.voices[j]? = some y → y.releasing = true →
        (j < v → flt x.env.level y.env.level = true) ∧
        (v < j → fle x.env.level y.env.level = true)) →
      exec (.noteOn note velocity) s = .next { s with
        voices := s.voices.set v (x.noteOn note s.operands.env)
        result0 := BitVec.ofNat 32 v, result1 := 1#32
        running := none, status := { s.status with done := true } }) ∧
    ((∀ y ∈ s.voices, y.playing = true ∧ y.releasing = false) →
      exec (.noteOn note velocity) s = .next { s with
        result0 := 0xFFFFFFFF#32, result1 := 0#32
        running := none, status := { s.status with done := true, noteDrop := true } })

/-- NOTE_OFF releases exactly the voices that play the note and are not releasing, each with its envelope
released, and counts them (R267, R269, R274). -/
def Obligations.NoteOffReleases : Prop :=
  ∀ (note : BitVec 7) (s : State), s.status.prepared = true →
    exec (.noteOff note) s = .next { s with
      voices := s.voices.map fun x =>
        if x.playing = true ∧ x.releasing = false ∧ x.note = note then
          { x with releasing := true, env := x.env.noteOff s.operands.env x.sr }
        else x
      result0 := BitVec.ofNat 32 (s.voices.filter fun x =>
        decide (x.playing = true ∧ x.releasing = false ∧ x.note = note)).length
      running := none, status := { s.status with done := true } }

/-- VOICE_RENDER of a playing voice runs the steps of R262 in their order, and the voice is deactivated
where it is releasing and the envelope value is below THR, with the sample still returned; of an idle
voice it returns +0.0 twice and changes nothing (R262, R275). -/
def Obligations.VoiceRenderResult : Prop :=
  ∀ (v : VoiceNo) (s : State) (x : Voice), s.status.prepared = true →
    v.toNat < Config.numVoices → s.voices[v.toNat]? = some x →
    (x.playing = false → exec (.voiceRender v) s = .next { s with
      result0 := posZero, result1 := posZero
      running := none, status := { s.status with done := true } }) ∧
    (∀ (l fd p d mixd e smp : F32) (y : Voice), x.playing = true →
      l = x.lfo.process.2 → fd = fsub x.base (fmul (fadd l one) x.damt) →
      p = x.pri.process.2 →
      d = ({ x.det with freq := fd, delta := fdiv fd x.det.sr } : Osc).process.2 →
      mixd = fadd (fmul p (fsub one x.dmix)) (fmul d x.dmix) → e = x.env.output →
      smp = fmul (if x.don then mixd else p) e →
      y = { x with
        lfo := x.lfo.advance, pri := x.pri.advance
        det := ({ x.det with freq := fd, delta := fdiv fd x.det.sr } : Osc).advance
        env := x.env.advance } →
      exec (.voiceRender v) s = .next { s with
        voices := s.voices.set v.toNat
          (if x.releasing = true ∧ flt e Config.thr = true then
            { y with
              playing := false, releasing := false
              env := { y.env with stage := .idle, level := posZero } }
          else y)
        result0 := smp, result1 := e
        running := none, status := { s.status with done := true } })

/-- BANK_RENDER, sample by sample: word i of OUT0 and of OUT1 is its old value with the i-th samples of
the voices that still play there added one by one in increasing voice number; each voice ends as after
its own renders; no byte outside the two buffers' first n words changes (R262, R276). -/
def Obligations.BankRenderSums : Prop :=
  ∀ (n : BitVec 16) (s : State), s.status.prepared = true → n.toNat ≤ Config.bufSize →
    s.mem.wf = true →
    ∃ m : Memory,
      exec (.bankRender n) s = .next { s with
        voices := s.voices.map ((fun x => x.renderSample.voice)^[n.toNat]), mem := m
        running := none, status := { s.status with done := true } } ∧
      (∀ b, b = Buf.out0 ∨ b = Buf.out1 → ∀ i, i < n.toNat →
        m.readWord (bufBase b + 4 * i) = s.voices.foldl
          (fun acc x =>
            if ((fun y : Voice => y.renderSample.voice)^[i] x).playing then
              fadd acc ((fun y : Voice => y.renderSample.voice)^[i] x).renderSample.sample
            else acc)
          (s.mem.readWord (bufBase b + 4 * i))) ∧
      ∀ a, (a < bufBase .out0 ∨ bufBase .out0 + 4 * n.toNat ≤ a) →
        (a < bufBase .out1 ∨ bufBase .out1 + 4 * n.toNat ≤ a) →
        m.readByte a = s.mem.readByte a

/-- Every NOTE_FREQ entry is the binary32 value nearest to 440 2^((n-69)/12): for every other value y, the
midpoint of the two lies on the far side of the exact frequency (R260, stated with 12-th powers). -/
def Obligations.NoteFrequencies : Prop :=
  ∀ (n : BitVec 7) (y : F32), isFinite y = true → 0 ≤ val y →
    isFinite (noteFreq n) = true ∧
    (val y < val (noteFreq n) →
      (val y + val (noteFreq n)) ^ 12 * 2 ^ 69 < (2 * 440 * 2 ^ 149 : Int) ^ 12 * 2 ^ n.toNat) ∧
    (val (noteFreq n) < val y →
      (2 * 440 * 2 ^ 149 : Int) ^ 12 * 2 ^ n.toNat < (val y + val (noteFreq n)) ^ 12 * 2 ^ 69)

/-! ## Control -/

/-- NOP sets DONE only; PREPARE with a finite rate above 0 and 1 ≤ m ≤ N_MAX gives every voice and
oscillator the rate, sets SAMPLE_RATE, MAX_BLOCK and PREPARED and recomputes no delta; PUSH_PARAMS
gives every voice the converted knobs and the LFO its frequency (R330, R331, R333). -/
def Obligations.ControlCommands : Prop :=
  (∀ s : State, exec .nop s = .next { s with
    running := none, status := { s.status with done := true } }) ∧
  (∀ (m : BitVec 16) (s : State), isFinite s.operands.arg0 = true →
    flt posZero s.operands.arg0 = true → 1 ≤ m.toNat → m.toNat ≤ Config.bufSize →
    exec (.prepare m) s = .next { s with
      sampleRate := s.operands.arg0, maxBlock := BitVec.ofNat 32 m.toNat
      voices := s.voices.map fun x => { x with
        sr := s.operands.arg0
        pri := { x.pri with sr := s.operands.arg0 }
        det := { x.det with sr := s.operands.arg0 }
        lfo := { x.lfo with sr := s.operands.arg0 } }
      running := none, status := { s.status with done := true, prepared := true } }) ∧
  (∀ (s : State) (f : F32), s.status.prepared = true →
    f = clamp s.operands.knobs.lfoSpeed posZero 0x43C80000#32 →
    exec .pushParams s = .next { s with
      voices := s.voices.map fun x => { x with
        damt := clamp s.operands.knobs.detune posZero 0x41A00000#32
        dmix := clamp s.operands.knobs.detuneMix posZero one
        don := fle half s.operands.knobs.detuneOn
        lfo := { x.lfo with freq := f, delta := fdiv f x.lfo.sr } }
      running := none, status := { s.status with done := true } })

/-- R380: the reset state, field by field; the RESET command leaves it with DONE set, and a hardware reset
leaves exactly it, at once and without a completion, even while a command runs (R332, R381). The
host's own fields stay (log entry 13). -/
def Obligations.ResetTable : Prop :=
  (∀ s : State, exec .reset s = .next { State.reset with
    status := { State.reset.status with done := true }
    host := s.host, readData := s.readData, draws := s.draws }) ∧
  (∀ s : State, s.hostAct .hardReset = { State.reset with
    host := s.host, readData := s.readData, draws := s.draws }) ∧
  State.reset.ctrl.word = 0#32 ∧ State.reset.statusWord = 0#32 ∧ State.reset.running = none ∧
  State.reset.arg0 = 0#32 ∧ State.reset.result0 = 0#32 ∧ State.reset.result1 = 0#32 ∧
  State.reset.rng = 0x12345678#32 ∧ State.reset.sampleRate = 0x472C4400#32 ∧
  State.reset.maxBlock = 0#32 ∧
  State.reset.knobs = ⟨0#32, 0#32, 0#32, 0x42000000#32, 0#32, 0#32, 0#32⟩ ∧
  State.reset.envRegs = ⟨0x3DCCCCCD#32, 0x3DCCCCCD#32, 0x3F800000#32, 0x3DCCCCCD#32⟩ ∧
  State.reset.voices.length = 20 ∧
  (∀ x ∈ State.reset.voices,
    x.pri = ⟨0#32, 0#32, 0x472C4400#32, 0#32, 0x3F000000#32, .triangle⟩ ∧
    x.det = ⟨0#32, 0#32, 0x472C4400#32, 0#32, 0x3F000000#32, .triangle⟩ ∧
    x.lfo = ⟨0#32, 0#32, 0x472C4400#32, 0#32, 0x3F000000#32, .sine⟩ ∧
    x.env = ⟨.idle, 0#32, 0#32, 0#32, 0#32, 0#32⟩ ∧
    x.playing = false ∧ x.releasing = false ∧ x.don = false ∧ x.note = 0#7 ∧
    x.base = 0#32 ∧ x.damt = 0#32 ∧ x.dmix = 0#32 ∧ x.sr = 0x472C4400#32) ∧
  State.reset.dl = ⟨0, 0, 0#32, 0#32⟩ ∧
  (∀ a, State.reset.mem.readByte a = 0#8) ∧ State.reset.irq = false

/-! ## Post-processing -/

/-- QUANTIZE: a finite x is truncated toward zero to a multiple of 2^-b exactly, a zero result is +0.0,
and a NaN or infinite x gives the canonical NaN; b is the request clamped to 1..32; nothing else
changes (R301, R311). -/
def Obligations.QuantizeTruncates : Prop :=
  (∀ (b : BitVec 16) (s : State),
    exec (.quantize b) s = .next { s with
      result0 := quant s.operands.arg0 (min (max b.toNat 1) 32)
      running := none, status := { s.status with done := true } }) ∧
  ∀ (x : F32) (b : Nat), 1 ≤ b → b ≤ 32 →
    quant x b = fsub x (fmod x (pow2 (-(b : Int)))) ∧
    (isFinite x = true → isFinite (quant x b) = true ∧
      val (quant x b) = Int.tdiv (val x) (2 ^ (149 - b)) * 2 ^ (149 - b) ∧
      (mag (quant x b) = 0 → quant x b = posZero)) ∧
    (isFinite x = false → quant x b = qNaN)

/-- DECIMATE holds word i - i mod R of OUT0 in word i for R ≥ 2 and changes nothing for R ≤ 1 (R302,
R312). -/
def Obligations.DecimateHolds : Prop :=
  ∀ (n : BitVec 16) (s : State), n.toNat ≤ Config.bufSize → s.mem.wf = true →
    ∃ m : Memory,
      exec (.decimate n) s = .next { s with
        mem := m, running := none, status := { s.status with done := true } } ∧
      sameOutside s.mem m (bufBase .out0) (4 * n.toNat) ∧
      (∀ i, i < n.toNat → m.readWord (bufBase .out0 + 4 * i) =
        if s.operands.arg0.toNat ≤ 1 then s.mem.readWord (bufBase .out0 + 4 * i)
        else s.mem.readWord (bufBase .out0 + 4 * (i - i % s.operands.arg0.toNat)))

/-- NOISE_MIX makes NOISE the product and OUT0 the sum with it, word by word; NOISE_SCALE multiplies NOISE
by the gain of its clamped amount and returns the gain (R300, R304, R313, R314). -/
def Obligations.NoiseMixAndScale : Prop :=
  ∀ (n : BitVec 16) (s : State), n.toNat ≤ Config.bufSize → s.mem.wf = true →
    (∃ m : Memory,
      exec (.noiseMix n) s = .next { s with
        mem := m, running := none, status := { s.status with done := true } } ∧
      (∀ i, i < n.toNat → ∀ u w : F32, u = s.mem.readWord (bufBase .noise + 4 * i) →
        w = s.mem.readWord (bufBase .out0 + 4 * i) →
        m.readWord (bufBase .noise + 4 * i) = fmul u w ∧
        m.readWord (bufBase .out0 + 4 * i) = fadd w (fmul u w)) ∧
      ∀ a, (a < bufBase .out0 ∨ bufBase .out0 + 4 * n.toNat ≤ a) →
        (a < bufBase .noise ∨ bufBase .noise + 4 * n.toNat ≤ a) →
        m.readByte a = s.mem.readByte a) ∧
    ∃ (m : Memory) (amount db g : F32),
      amount = clamp s.operands.arg0 posZero 0x42C80000#32 ∧
      db = fadd 0xC2F00000#32 (fdiv (fmul 0x42F00000#32 amount) 0x42C80000#32) ∧
      g = clamp (fnExp10 (fdiv db 0x41A00000#32)) posZero one ∧
      exec (.noiseScale n) s = .next { s with
        mem := m, result0 := g, running := none, status := { s.status with done := true } } ∧
      sameOutside s.mem m (bufBase .noise) (4 * n.toNat) ∧
      ∀ i, i < n.toNat → m.readWord (bufBase .noise + 4 * i) =
        fmul (s.mem.readWord (bufBase .noise + 4 * i)) g

/-- BLOCK, sample by sample, with the knobs of the snapshot converted as R43 says: bits and rate are the
clamped knobs truncated to integers. The raw noise is NOISE_UNIFORM's or NOISE_GAUSS's by NOISE_MODE
(R32); ns is that noise scaled by the gain, r the sum of the pushed voices' samples from +0.0, nm is
ns r and q the quantized r + nm. NOISE[i] is nm and OUT0[i] and OUT1[i] are both the held q; RESULT0
counts the voices playing after the render and RESULT1 is the gain; no byte outside the three buffers'
first n words changes (R300, R304, R310, R315). -/
def Obligations.BlockPerSample : Prop :=
  ∀ (n : BitVec 16) (s : State) (bits rate : Nat) (f db g : F32) (pair : Word → (F32 × F32) × Word)
    (raw ns r nm q : Nat → F32) (pushed : List Voice),
    s.status.prepared = true → n.toNat ≤ s.maxBlock.toNat →
    s.maxBlock.toNat ≤ Config.bufSize → s.mem.wf = true →
    (bits : Int) * 2 ^ 149 ≤ val (clamp s.operands.knobs.bits one 0x42000000#32) →
    val (clamp s.operands.knobs.bits one 0x42000000#32) < ((bits : Int) + 1) * 2 ^ 149 →
    (rate : Int) * 2 ^ 149 ≤ val (clamp s.operands.knobs.rate posZero 0x42480000#32) →
    val (clamp s.operands.knobs.rate posZero 0x42480000#32) < ((rate : Int) + 1) * 2 ^ 149 →
    db = fadd 0xC2F00000#32 (fdiv (fmul 0x42F00000#32
      (clamp s.operands.knobs.noise posZero 0x42C80000#32)) 0x42C80000#32) →
    g = clamp (fnExp10 (fdiv db 0x41A00000#32)) posZero one →
    f = clamp s.operands.knobs.lfoSpeed posZero 0x43C80000#32 →
    pushed = (s.voices.map fun x => { x with
      damt := clamp s.operands.knobs.detune posZero 0x41A00000#32
      dmix := clamp s.operands.knobs.detuneMix posZero one
      don := fle half s.operands.knobs.detuneOn
      lfo := { x.lfo with freq := f, delta := fdiv f x.lfo.sr } }) →
    pair = gaussPair Config.retryMax →
    (∀ i, raw i =
      if s.operands.ctrl.noiseMode = true then
        fsub (fmul (i2f ((xorshift^[i + 1] s.rng).toNat / 2 ^ 8)) (pow2 (-23))) one
      else if i % 2 = 0 then (pair ((fun x => (pair x).2)^[i / 2] s.rng)).1.1
      else (pair ((fun x => (pair x).2)^[i / 2] s.rng)).1.2) →
    (∀ i, ns i = fmul (raw i) g) →
    (∀ i, r i = pushed.foldl
      (fun acc x =>
        if ((fun y : Voice => y.renderSample.voice)^[i] x).playing then
          fadd acc ((fun y : Voice => y.renderSample.voice)^[i] x).renderSample.sample
        else acc) posZero) →
    (∀ i, nm i = fmul (ns i) (r i)) → (∀ i, q i = quant (fadd (r i) (nm i)) bits) →
    1 ≤ bits ∧ bits ≤ 32 ∧ rate ≤ 50 ∧
    ∃ (m : Memory) (after : List Voice),
      after = pushed.map ((fun x => x.renderSample.voice)^[n.toNat]) ∧
      exec (.block n) s = .next { s with
        voices := after, mem := m
        rng := if s.operands.ctrl.noiseMode = true then xorshift^[n.toNat] s.rng
          else (fun x => (pair x).2)^[(n.toNat + 1) / 2] s.rng
        result0 := BitVec.ofNat 32 (after.countP (·.playing)), result1 := g
        running := none, status := { s.status with done := true } } ∧
      (∀ i, i < n.toNat →
        m.readWord (bufBase .noise + 4 * i) = nm i ∧
        m.readWord (bufBase .out0 + 4 * i) = q (if rate ≤ 1 then i else i - i % rate) ∧
        m.readWord (bufBase .out1 + 4 * i) = q (if rate ≤ 1 then i else i - i % rate)) ∧
      ∀ a, (∀ b : Buf, a < bufBase b ∨ bufBase b + 4 * n.toNat ≤ a) →
        m.readByte a = s.mem.readByte a

/-- BLOCK 0 changes only the voices' pushed parameters and the two results: no buffer word, no PRNG step
(R315). -/
def Obligations.BlockOfZero : Prop :=
  ∀ s : State, s.status.prepared = true →
    exec (.block 0#16) s = .next { s with
      voices := s.voices.map (fun x => x.push s.operands.knobs.convert)
      result0 := BitVec.ofNat 32 (s.voices.countP (·.playing))
      result1 := noiseGain (clamp s.operands.knobs.noise posZero 0x42C80000#32)
      running := none, status := { s.status with done := true } }

/-! ## Arithmetic -/

/-- R11. Each of fadd, fsub, fmul and fdiv on finite operands (a divisor that is not 0) gives the binary32
value nearest to the exact result, with an even last bit in a tie and the exact result's sign, and
overflows to infinity exactly from the midpoint above the largest finite value on. An exact zero has
the sign IEEE 754 gives it; a division by ±0 and every infinite operand have their IEEE 754 results.
Values are counted in units of 2^-149. -/
def Obligations.ArithmeticRoundsToNearest : Prop :=
  (∀ a b : F32, isFinite a = true → isFinite b = true →
    (∀ (r : F32) (exact scale : Int),
      (r = fadd a b ∧ exact = val a + val b ∧ scale = 1) ∨
      (r = fsub a b ∧ exact = val a - val b ∧ scale = 1) ∨
      (r = fmul a b ∧ exact = val a * val b ∧ scale = 2 ^ 149) ∨
      (r = fdiv a b ∧ mag b ≠ 0 ∧ exact = (if isNeg b then -(val a) else val a) * 2 ^ 149 ∧
        scale = units b) →
      isNaN r = false ∧ (exact ≠ 0 → isNeg r = decide (exact < 0)) ∧
      (isFinite r = true ↔ |exact| < (2 ^ 25 - 1) * 2 ^ 252 * scale) ∧
      (isFinite r = true → ∀ y : F32, isFinite y = true →
        |val r * scale - exact| ≤ |val y * scale - exact| ∧
        (|val y * scale - exact| = |val r * scale - exact| → val y ≠ val r → mag r % 2 = 0))) ∧
    (val a + val b = 0 → fadd a b = if isNeg a && isNeg b then negZero else posZero) ∧
    (val a - val b = 0 → fsub a b = if isNeg a && !isNeg b then negZero else posZero) ∧
    (val a * val b = 0 → fmul a b = if isNeg a != isNeg b then negZero else posZero) ∧
    (val a = 0 → mag b ≠ 0 → fdiv a b = if isNeg a != isNeg b then negZero else posZero)) ∧
  (∀ a b : F32, isNaN a = false → mag b = 0 →
    fdiv a b = if mag a = 0 then qNaN else infOf (isNeg a != isNeg b)) ∧
  (∀ a b : F32, isInf a = true → isFinite b = true →
    fadd a b = a ∧ fadd b a = a ∧ fsub a b = a ∧ fsub b a = infOf (!isNeg a) ∧
    fmul a b = (if mag b = 0 then qNaN else infOf (isNeg a != isNeg b)) ∧
    fmul b a = (if mag b = 0 then qNaN else infOf (isNeg a != isNeg b)) ∧
    fdiv a b = infOf (isNeg a != isNeg b) ∧
    fdiv b a = if isNeg a != isNeg b then negZero else posZero) ∧
  (∀ a b : F32, isInf a = true → isInf b = true →
    fadd a b = (if isNeg a = isNeg b then a else qNaN) ∧
    fsub a b = (if isNeg a = isNeg b then qNaN else a) ∧
    fmul a b = infOf (isNeg a != isNeg b) ∧ fdiv a b = qNaN)

/-- R16: fsqrt is correctly rounded. For a finite x above 0 it is the binary32 value nearest to the exact
root: for every other value y from 0 on, the midpoint of the two lies on the far side of the root. Both
zeros and +infinity are their own roots, and an x below 0 gives the canonical NaN. -/
def Obligations.SqrtRoundsToNearest : Prop :=
  (∀ x y : F32, isFinite x = true → 0 < val x → isFinite y = true → 0 ≤ val y →
    isFinite (fsqrt x) = true ∧ 0 < val (fsqrt x) ∧
    (val y < val (fsqrt x) → (val y + val (fsqrt x)) ^ 2 < 4 * (val x * 2 ^ 149)) ∧
    (val (fsqrt x) < val y → 4 * (val x * 2 ^ 149) < (val y + val (fsqrt x)) ^ 2)) ∧
  fsqrt negZero = negZero ∧ fsqrt posZero = posZero ∧ fsqrt (infOf false) = infOf false ∧
  ∀ x : F32, flt x posZero = true → fsqrt x = qNaN

/-- R15 and R18: fmod by a finite y ≠ 0 is the exact remainder of truncating division, with the sign of x
and a magnitude below |y|, a zero x kept, and NaN for an infinite or NaN x; i2f is exact below 2^24. -/
def Obligations.ExactOperations : Prop :=
  (∀ x y : F32, isFinite y = true → mag y ≠ 0 →
    (isFinite x = true → isFinite (fmod x y) = true ∧
      val (fmod x y) = val x - val y * Int.tdiv (val x) (val y) ∧
      isNeg (fmod x y) = isNeg x ∧ |val (fmod x y)| < |val y| ∧ (mag x = 0 → fmod x y = x)) ∧
    (isFinite x = false → fmod x y = qNaN)) ∧
  (∀ n : Nat, n < 2 ^ 24 → isFinite (i2f n) = true ∧ isNeg (i2f n) = false ∧
    val (i2f n) = (n : Int) * 2 ^ 149)

/-- R12: whatever an operation answers that is a NaN is the canonical one, and a NaN operand gives it. -/
def Obligations.NaNIsCanonical : Prop :=
  (∀ a b : F32, isNaN a = true ∨ isNaN b = true →
    fadd a b = qNaN ∧ fsub a b = qNaN ∧ fmul a b = qNaN ∧ fdiv a b = qNaN) ∧
  (∀ a : F32, isNaN a = true → fsqrt a = qNaN ∧ (∀ y, fmod a y = qNaN) ∧ fnSin a = qNaN ∧
    fnCos a = qNaN ∧ fnLn a = qNaN ∧ fnExp10 a = qNaN) ∧
  (∀ a b r : F32, r ∈ [fadd a b, fsub a b, fmul a b, fdiv a b, fsqrt a, fmod a b] →
    isNaN r = true → r = qNaN)

/-- R19: clamp gives lo for a NaN or an x below lo, hi for an x above hi and x itself, bit for bit, in
between; so for lo ≤ hi the result always lies from lo to hi. clampLow0 gives +0.0 for a NaN or an x
below 0 and x itself elsewhere. -/
def Obligations.ClampLaws : Prop :=
  (∀ x lo hi : F32, fle lo hi = true →
    (isNaN x = true ∨ flt x lo = true → clamp x lo hi = lo) ∧
    (flt hi x = true → clamp x lo hi = hi) ∧
    (fle lo x = true → fle x hi = true → clamp x lo hi = x) ∧
    fle lo (clamp x lo hi) = true ∧ fle (clamp x lo hi) hi = true) ∧
  (∀ x : F32, (isNaN x = true ∨ flt x posZero = true → clampLow0 x = posZero) ∧
    (fle posZero x = true → clampLow0 x = x))

/-- The exact points of FN_SIN, FN_COS, FN_LN and FN_EXP10, whatever the free choices are, and the sign of
FN_LN below 1 (R21(c), (e)). -/
def Obligations.TranscendentalPoints : Prop :=
  fnSin posZero = posZero ∧ fnCos posZero = one ∧ fnLn one = posZero ∧ fnExp10 posZero = one ∧
  ∀ x : F32, flt posZero x = true → flt x one = true → flt (fnLn x) posZero = true

/-! ## Invariants -/

/-- The state after reset meets every invariant stated below. -/
def Obligations.ResetMeetsInvariants : Prop :=
  State.reset.StoreInv ∧ State.reset.EngineInv ∧ State.reset.VoiceInv ∧ State.reset.DelayInv ∧
  ∀ x ∈ State.reset.voices, phaseOk x.pri.phase ∧ phaseOk x.det.phase ∧ phaseOk x.lfo.phase

/-- Every step keeps the memory canonical and inside the windows of the map, and the sizes that bound the
engine's own accesses within the buffers (R83, R95, R170, R331). -/
def Obligations.StoreInvKept : Prop :=
  ∀ s t : State, s.StoreInv → step s = .next t → t.StoreInv

/-- Every step keeps CAUSE = NONE exactly while ERR = 0, and the PRNG state nonzero (R33, R34, R38,
R200, R351). -/
def Obligations.EngineInvKept : Prop :=
  ∀ s t : State, s.EngineInv → step s = .next t → t.EngineInv

/-- Every step keeps what the voices promise: NV of them, releasing only where playing (R271), every
sample rate finite and above 0 (R142), and every envelope with its level in [0, 1], +0.0 when idle,
above the sustain level in DECAY, and in SUSTAIN at it, or at 1.0 after an attack that no decay follows
(R235; that exception is R234's and log entry 17's). -/
def Obligations.VoiceInvKept : Prop :=
  ∀ s t : State, s.VoiceInv → step s = .next t → t.VoiceInv

/-- Every step keeps the delay line's promises: the gain in [0, 1], the read index a number from 0 up to
the capacity, and +0.0 in every cell from S on (R170, R174, R176, R178). -/
def Obligations.DelayInvKept : Prop :=
  ∀ s t : State, s.StoreInv → s.DelayInv → step s = .next t → t.DelayInv

/-! ## Bus -/

/-- R34: a STATUS write clears DONE, FAULT and NOTE_DROP by bits 1, 4 and 5, ERR with CAUSE by bit 3, and
nothing else; it is never a bus error, busy or not. -/
def Obligations.StatusWriteOneToClear : Prop :=
  ∀ (s : State) (w : Word), ∃ st : Status,
    s.busWrite .word 0x00008#20 w = { s with status := st } ∧
    st.done = (if w.getLsbD 1 then false else s.status.done) ∧
    st.fault = (if w.getLsbD 4 then false else s.status.fault) ∧
    st.noteDrop = (if w.getLsbD 5 then false else s.status.noteDrop) ∧
    st.err = (if w.getLsbD 3 then false else s.status.err) ∧
    st.cause = (if w.getLsbD 3 then .none else s.status.cause) ∧
    st.prepared = s.status.prepared

/-- The fields of the STATUS word stand where R33 puts them, CAUSE holds the codes of R350 and the
reserved bits read 0; CTRL is IRQ_EN in bit 0 and NOISE_MODE in bit 1, its bits 31:2 read 0 and ignore
writes (R32, R45); and the interrupt line is CTRL.IRQ_EN and STATUS.DONE (R360). -/
def Obligations.StatusWordLayout : Prop :=
  ∀ s : State,
    s.statusWord.getLsbD 0 = s.running.isSome ∧ s.statusWord.getLsbD 1 = s.status.done ∧
    s.statusWord.getLsbD 2 = s.status.prepared ∧ s.statusWord.getLsbD 3 = s.status.err ∧
    s.statusWord.getLsbD 4 = s.status.fault ∧ s.statusWord.getLsbD 5 = s.status.noteDrop ∧
    s.statusWord.extractLsb' 6 2 = 0#2 ∧
    s.statusWord.extractLsb' 8 8 = (match s.status.cause with
      | .none => 0#8
      | .illegalOpcode => 1#8
      | .illegalField => 2#8
      | .argRange => 3#8
      | .notPrepared => 4#8
      | .dlGeometry => 5#8
      | .busErr => 6#8
      | .cmdBusy => 7#8
      | .busyWrite => 8#8) ∧
    s.statusWord.extractLsb' 16 16 = 0#16 ∧
    s.ctrl.word.getLsbD 0 = s.ctrl.irqEn ∧ s.ctrl.word.getLsbD 1 = s.ctrl.noiseMode ∧
    s.ctrl.word.extractLsb' 2 30 = 0#30 ∧
    (∀ w : Word, ∃ c : Ctrl, s.busWrite .word 0x00004#20 w = { s with ctrl := c } ∧
      c.word = w &&& 3#32) ∧
    s.irq = (s.ctrl.irqEn && s.status.done)

/-- R38: NOISE_SEED reads the PRNG state; a write of w ≠ 0 stores w and a write of 0 stores SEED_RESET;
while busy a write is ignored and records BUSY_WRITE. -/
def Obligations.NoiseSeedRegister : Prop :=
  ∀ (s : State) (w : Word),
    (s.running = none → s.busRead .word 0x0001C#20 = { s with readData := s.rng }) ∧
    (s.running = none → s.busWrite .word 0x0001C#20 w =
      { s with rng := if w = 0#32 then 0x12345678#32 else w }) ∧
    (s.running ≠ none → s.busWrite .word 0x0001C#20 w = { s with
      status := { s.status with
        err := true, cause := if s.status.err then s.status.cause else .busyWrite } })

/-- Reading every register of R30 while idle returns its content and changes nothing else (R30, R31, R39,
R41, R86). -/
def Obligations.RegisterReads : Prop :=
  ∀ s : State, s.running = none →
    (∀ p ∈ ([(0x000#20, 0x4E434F31#32), (0x004#20, s.ctrl.word), (0x008#20, s.statusWord),
        (0x00C#20, 0#32), (0x010#20, s.arg0), (0x014#20, s.result0), (0x018#20, s.result1),
        (0x01C#20, s.rng), (0x028#20, s.sampleRate), (0x02C#20, s.maxBlock),
        (0x030#20, 20#32), (0x034#20, 4096#32), (0x038#20, 65536#32),
        (0x03C#20, BitVec.ofNat 32 s.dl.size)] : List (Addr × Word)),
      s.busRead .word p.1 = { s with readData := p.2 }) ∧
    (∀ p ∈ ([(0x040#20, s.knobs.detune), (0x044#20, s.knobs.noise), (0x048#20, s.knobs.rate),
        (0x04C#20, s.knobs.bits), (0x050#20, s.knobs.detuneOn), (0x054#20, s.knobs.detuneMix),
        (0x058#20, s.knobs.lfoSpeed), (0x05C#20, 0#32), (0x060#20, s.envRegs.attack),
        (0x064#20, s.envRegs.decay), (0x068#20, s.envRegs.sustain),
        (0x06C#20, s.envRegs.release), (0x070#20, s.dl.fb)] : List (Addr × Word)),
      s.busRead .word p.1 = { s with readData := p.2 }) ∧
    (∃ lo hi : Word, s.busRead .word 0x020#20 = { s with readData := lo } ∧
      s.busRead .word 0x024#20 = { s with readData := hi } ∧
      ∀ v, v < 32 → lo.getLsbD v = ((s.voices[v]?).map (·.playing)).getD false ∧
        hi.getLsbD v = ((s.voices[32 + v]?).map (·.playing)).getD false)

/-- A word written to a block buffer while idle reads back, and no other byte changes; the delay-line
memory is read the same way (R83, R85, R88). -/
def Obligations.BufferWriteThenRead : Prop :=
  (∀ (s : State) (b : Buf) (i : Nat) (a : Addr) (w : Word), s.running = none → s.mem.wf = true →
    i < Config.bufSize → a.toNat = bufBase b + 4 * i →
    ∃ m : Memory, s.busWrite .word a w = { s with mem := m } ∧ m.wf = true ∧
      sameOutside s.mem m (bufBase b + 4 * i) 4 ∧
      ({ s with mem := m } : State).busRead .word a = { s with mem := m, readData := w }) ∧
  (∀ (s : State) (i : Nat) (a : Addr), s.running = none → i < Config.delayCap →
    a.toNat = dlmBase + 4 * i → s.busRead .word a = { s with readData := s.dlm i })

/-- R84 but for its busy case: a partial-width, misaligned or unmapped transaction and a write to a
read-only register or to DLM record BUS_ERR at once; the read returns 0 and the write changes nothing
else. That this is so while a command runs too, decided before the busy rules of R87, is the model's
deduction (log entry 15). -/
def Obligations.BusErrors : Prop :=
  ∀ (s : State) (w : Width) (a : Addr) (v : Word) (bad : State),
    bad = { s with
      status := { s.status with
        err := true, cause := if s.status.err then s.status.cause else .busErr } } →
    ((w ≠ .word ∨ a.toNat % 4 ≠ 0 ∨
      (0x74 ≤ a.toNat ∧ a.toNat < bufBase .out0) ∨
      (bufBase .out0 + 4 * Config.bufSize ≤ a.toNat ∧ a.toNat < bufBase .out1) ∨
      (bufBase .out1 + 4 * Config.bufSize ≤ a.toNat ∧ a.toNat < bufBase .noise) ∨
      (bufBase .noise + 4 * Config.bufSize ≤ a.toNat ∧ a.toNat < dlmBase) ∨
      dlmBase + 4 * Config.delayCap ≤ a.toNat) →
      s.busRead w a = { bad with readData := 0#32 } ∧ s.busWrite w a v = bad) ∧
    ((a.toNat ∈ [0x000, 0x014, 0x018, 0x020, 0x024, 0x028, 0x02C, 0x030, 0x034, 0x038, 0x03C, 0x05C,
        0x070] ∨
      (dlmBase ≤ a.toNat ∧ a.toNat < dlmBase + 4 * Config.delayCap)) →
      s.busWrite w a v = bad)

/-- R87 and R35: a CMD write while idle is the issue, with the snapshot of R110; while a command runs, a
CMD write is dropped with CMD_BUSY and a buffer write is ignored with BUSY_WRITE. A write to CTRL,
ARG0, a knob or an ENV_* register stores at once, busy or not (R30, R42, R44, R86). While a command
runs, a read of a register that R87(e) or (f) lists returns its content, one of CMD returns 0 (log
entry 15), and a read that R87(g) lists returns a free value and changes no state of the core (log
entry 5). NOISE_SEED's writes are NoiseSeedRegister. -/
def Obligations.BusyRules : Prop :=
  (∀ (s : State) (c : Word), s.running = none → s.busWrite .word 0x0000C#20 c = { s with
    running := some ⟨c, ⟨s.arg0, s.ctrl, s.knobs, s.envRegs⟩⟩ }) ∧
  (∀ (s : State) (c v : Word) (b : Buf) (i : Nat) (a : Addr), s.running ≠ none →
    i < Config.bufSize → a.toNat = bufBase b + 4 * i →
    s.busWrite .word 0x0000C#20 c = { s with
      status := { s.status with
        err := true, cause := if s.status.err then s.status.cause else .cmdBusy } } ∧
    s.busWrite .word a v = { s with
      status := { s.status with
        err := true, cause := if s.status.err then s.status.cause else .busyWrite } }) ∧
  (∀ (s : State) (v : Word),
    (∀ p ∈ ([(0x004#20, { s with ctrl := { irqEn := v.getLsbD 0, noiseMode := v.getLsbD 1 } }),
        (0x010#20, { s with arg0 := v }),
        (0x040#20, { s with knobs := { s.knobs with detune := v } }),
        (0x044#20, { s with knobs := { s.knobs with noise := v } }),
        (0x048#20, { s with knobs := { s.knobs with rate := v } }),
        (0x04C#20, { s with knobs := { s.knobs with bits := v } })] : List (Addr × State)),
      s.busWrite .word p.1 v = p.2) ∧
    (∀ p ∈ ([(0x050#20, { s with knobs := { s.knobs with detuneOn := v } }),
        (0x054#20, { s with knobs := { s.knobs with detuneMix := v } }),
        (0x058#20, { s with knobs := { s.knobs with lfoSpeed := v } }),
        (0x060#20, { s with envRegs := { s.envRegs with attack := v } }),
        (0x064#20, { s with envRegs := { s.envRegs with decay := v } }),
        (0x068#20, { s with envRegs := { s.envRegs with sustain := v } }),
        (0x06C#20, { s with envRegs := { s.envRegs with release := v } })] : List (Addr × State)),
      s.busWrite .word p.1 v = p.2)) ∧
  (∀ s : State, s.running ≠ none →
    (∀ p ∈ ([(0x000#20, 0x4E434F31#32), (0x004#20, s.ctrl.word), (0x008#20, s.statusWord),
        (0x00C#20, 0#32), (0x010#20, s.arg0), (0x030#20, 20#32), (0x034#20, 4096#32),
        (0x038#20, 65536#32), (0x05C#20, 0#32)] : List (Addr × Word)),
      s.busRead .word p.1 = { s with readData := p.2 }) ∧
    (∀ p ∈ ([(0x040#20, s.knobs.detune), (0x044#20, s.knobs.noise), (0x048#20, s.knobs.rate),
        (0x04C#20, s.knobs.bits), (0x050#20, s.knobs.detuneOn), (0x054#20, s.knobs.detuneMix),
        (0x058#20, s.knobs.lfoSpeed), (0x060#20, s.envRegs.attack),
        (0x064#20, s.envRegs.decay), (0x068#20, s.envRegs.sustain),
        (0x06C#20, s.envRegs.release)] : List (Addr × Word)),
      s.busRead .word p.1 = { s with readData := p.2 }) ∧
    (∀ a : Addr,
      a.toNat ∈ [0x014, 0x018, 0x01C, 0x020, 0x024, 0x028, 0x02C, 0x03C, 0x070] ∨
      (a.toNat % 4 = 0 ∧
        ((∃ b : Buf, bufBase b ≤ a.toNat ∧ a.toNat < bufBase b + 4 * Config.bufSize) ∨
          (dlmBase ≤ a.toNat ∧ a.toNat < dlmBase + 4 * Config.delayCap))) →
      s.busRead .word a = { s with
        readData := Config.busyRead s.draws, draws := s.draws + 1 }))
end

