-- ==== Sys2Proof/Laws/Memory.lean ====
section
/-! SUPPORT. Laws/Memory.lean: what the memory operations do (read after write, frames) and that each
keeps the canonical form. -/

namespace Sys2Proof.Machine

/-! ## Canonical form -/

theorem Memory.wfFrom_mono {lo lo' : Nat} (h : lo ≤ lo') :
    ∀ {m : Memory}, Memory.wfFrom lo' m = true → Memory.wfFrom lo m = true
  | [], _ => rfl
  | (a, b) :: m, hm => by
    simp only [Memory.wfFrom, Bool.and_eq_true, decide_eq_true_eq] at hm ⊢
    exact ⟨⟨le_trans h hm.1.1, hm.1.2⟩, hm.2⟩

theorem Memory.readByte_below {lo : Nat} :
    ∀ {m : Memory}, Memory.wfFrom lo m = true → ∀ {a : Nat}, a < lo → m.readByte a = unlistedByte
  | [], _, _, _ => rfl
  | (a', b) :: m, hm, a, ha => by
    simp only [Memory.wfFrom, Bool.and_eq_true, decide_eq_true_eq] at hm
    rw [Memory.readByte, if_neg (by omega)]
    exact Memory.readByte_below hm.2 (by omega)

theorem Memory.wfFrom_put {lo a : Nat} {b : Byte} {m : Memory} (h : lo ≤ a)
    (hm : Memory.wfFrom (a + 1) m = true) : Memory.wfFrom lo (Memory.put a b m) = true := by
  unfold Memory.put
  split
  · exact Memory.wfFrom_mono (by omega) hm
  · simp only [Memory.wfFrom, Bool.and_eq_true, decide_eq_true_eq]
    exact ⟨⟨h, by assumption⟩, hm⟩

theorem Memory.wfFrom_writeByte {a : Nat} {b : Byte} :
    ∀ {m : Memory} {lo : Nat}, lo ≤ a → Memory.wfFrom lo m = true →
      Memory.wfFrom lo (m.writeByte a b) = true
  | [], _, h, _ => Memory.wfFrom_put h rfl
  | (a', b') :: m, lo, h, hm => by
    have hm' := hm
    simp only [Memory.wfFrom, Bool.and_eq_true, decide_eq_true_eq] at hm
    rw [Memory.writeByte]
    split
    · refine Memory.wfFrom_put h ?_
      simp only [Memory.wfFrom, Bool.and_eq_true, decide_eq_true_eq]
      exact ⟨⟨by omega, hm.1.2⟩, hm.2⟩
    · split
      · subst_vars
        exact Memory.wfFrom_put h hm.2
      · simp only [Memory.wfFrom, Bool.and_eq_true, decide_eq_true_eq]
        exact ⟨⟨hm.1.1, hm.1.2⟩, Memory.wfFrom_writeByte (by omega) hm.2⟩

theorem Memory.wf_writeByte {m : Memory} (a : Nat) (b : Byte) (h : m.wf = true) :
    (m.writeByte a b).wf = true :=
  Memory.wfFrom_writeByte (Nat.zero_le a) h

theorem Memory.wf_writeWord {m : Memory} (a : Nat) (w : Word) (h : m.wf = true) :
    (m.writeWord a w).wf = true :=
  Memory.wf_writeByte _ _ (Memory.wf_writeByte _ _ (Memory.wf_writeByte _ _ (Memory.wf_writeByte _ _ h)))

theorem Memory.wf_writeBlock : ∀ (ws : List Word) {m : Memory} (base : Nat), m.wf = true →
    (m.writeBlock base ws).wf = true
  | [], _, _, h => h
  | _ :: ws, _, base, h => Memory.wf_writeBlock ws (base + 4) (Memory.wf_writeWord _ _ h)

theorem Memory.wfFrom_filter (p : Host.Cell → Bool) :
    ∀ {m : Memory} {lo : Nat}, Memory.wfFrom lo m = true → Memory.wfFrom lo (m.filter p) = true
  | [], _, _ => rfl
  | (a, b) :: m, lo, hm => by
    simp only [Memory.wfFrom, Bool.and_eq_true, decide_eq_true_eq] at hm
    have ih := Memory.wfFrom_filter p hm.2
    rw [List.filter_cons]
    split
    · simp only [Memory.wfFrom, Bool.and_eq_true, decide_eq_true_eq]
      exact ⟨hm.1, ih⟩
    · exact Memory.wfFrom_mono (by omega) ih

theorem Memory.wf_clearRange {m : Memory} (lo hi : Nat) (h : m.wf = true) :
    (m.clearRange lo hi).wf = true :=
  Memory.wfFrom_filter _ h

/-! ## Bytes -/

/-- A byte write leaves every other byte alone. -/
theorem Memory.readByte_writeByte_ne {a x : Nat} {b : Byte} (hx : x ≠ a) :
    ∀ (m : Memory), (m.writeByte a b).readByte x = m.readByte x
  | [] => by
    rw [Memory.writeByte, Memory.put]
    split <;> simp [Memory.readByte, hx]
  | (a', b') :: m => by
    rw [Memory.writeByte]
    split
    · rw [Memory.put]
      split <;> simp [Memory.readByte, hx]
    · split
      · subst_vars
        rw [Memory.put]
        split <;> simp [Memory.readByte, hx]
      · simp only [Memory.readByte, Memory.readByte_writeByte_ne hx m]

/-- A byte read after its write gives the byte written, in a canonical memory. -/
theorem Memory.readByte_writeByte_self {a : Nat} {b : Byte} :
    ∀ {m : Memory} {lo : Nat}, Memory.wfFrom lo m = true → (m.writeByte a b).readByte a = b
  | [], _, _ => by
    rw [Memory.writeByte, Memory.put]
    split
    · subst_vars; rfl
    · simp [Memory.readByte]
  | (a', b') :: m, lo, hm => by
    have hm' := hm
    simp only [Memory.wfFrom, Bool.and_eq_true, decide_eq_true_eq] at hm
    rw [Memory.writeByte]
    split
    · rw [Memory.put]
      split
      · subst_vars
        rw [Memory.readByte, if_neg (by omega)]
        exact Memory.readByte_below hm.2 (by omega)
      · simp [Memory.readByte]
    · split
      · subst_vars
        rw [Memory.put]
        split
        · subst_vars; exact Memory.readByte_below hm.2 (by omega)
        · simp [Memory.readByte]
      · rename_i h1 h2
        rw [Memory.readByte, if_neg (fun h => h2 h)]
        exact Memory.readByte_writeByte_self hm.2

/-- What a byte write does, once: in a canonical memory, the byte at a is b and every other byte is as
before. -/
theorem Memory.readByte_writeByte {m : Memory} (h : m.wf = true) (a x : Nat) (b : Byte) :
    (m.writeByte a b).readByte x = if x = a then b else m.readByte x := by
  split
  · subst_vars; exact Memory.readByte_writeByte_self h
  · exact Memory.readByte_writeByte_ne (by assumption) m

/-! ## Words -/

/-- A word write leaves every byte outside its four alone. -/
theorem Memory.readByte_writeWord_outside (m : Memory) {a x : Nat} (w : Word)
    (h : x < a ∨ a + 4 ≤ x) : (m.writeWord a w).readByte x = m.readByte x := by
  unfold Memory.writeWord
  rw [Memory.readByte_writeByte_ne (by omega), Memory.readByte_writeByte_ne (by omega),
    Memory.readByte_writeByte_ne (by omega), Memory.readByte_writeByte_ne (by omega)]

theorem word_of_bytes (w : Word) :
    ((w.extractLsb' 24 8 ++ w.extractLsb' 16 8) ++ w.extractLsb' 8 8) ++ w.extractLsb' 0 8 = w := by
  ext i hi
  simp only [BitVec.getElem_append, BitVec.getElem_extractLsb']
  split
  · simp [BitVec.getLsbD_eq_getElem hi]
  · split
    · rw [show 8 + (i - 8) = i by omega, BitVec.getLsbD_eq_getElem hi]
    · split
      · rw [show 16 + (i - 8 - 8) = i by omega, BitVec.getLsbD_eq_getElem hi]
      · rw [show 24 + (i - 8 - 8 - 8) = i by omega, BitVec.getLsbD_eq_getElem hi]

/-- A word read after its write gives the word written, in a canonical memory. -/
theorem Memory.readWord_writeWord_self {m : Memory} (h : m.wf = true) (a : Nat) (w : Word) :
    (m.writeWord a w).readWord a = w := by
  have h1 := Memory.wf_writeByte a (w.extractLsb' 0 8) h
  have h2 := Memory.wf_writeByte (a + 1) (w.extractLsb' 8 8) h1
  have h3 := Memory.wf_writeByte (a + 2) (w.extractLsb' 16 8) h2
  unfold Memory.readWord Memory.writeWord
  simp only [Memory.readByte_writeByte h3, Memory.readByte_writeByte h2, Memory.readByte_writeByte h1,
    Memory.readByte_writeByte h]
  simp [word_of_bytes]

/-- Two memories with the same four bytes hold the same word. -/
theorem Memory.readWord_congr {m m' : Memory} {a : Nat}
    (h : ∀ x, a ≤ x → x < a + 4 → m'.readByte x = m.readByte x) :
    m'.readWord a = m.readWord a := by
  unfold Memory.readWord
  rw [h a (by omega) (by omega), h (a + 1) (by omega) (by omega), h (a + 2) (by omega) (by omega),
    h (a + 3) (by omega) (by omega)]

/-- A word write leaves a disjoint word alone. -/
theorem Memory.readWord_writeWord_disjoint (m : Memory) {a x : Nat} (w : Word)
    (h : x + 4 ≤ a ∨ a + 4 ≤ x) : (m.writeWord a w).readWord x = m.readWord x :=
  Memory.readWord_congr fun y _ _ => Memory.readByte_writeWord_outside m w (by omega)

/-! ## Blocks -/

/-- A block write leaves every byte outside it alone. -/
theorem Memory.readByte_writeBlock_outside : ∀ (ws : List Word) (m : Memory) {base x : Nat},
    x < base ∨ base + 4 * ws.length ≤ x → (m.writeBlock base ws).readByte x = m.readByte x
  | [], _, _, _, _ => rfl
  | w :: ws, m, base, x, h => by
    simp only [List.length_cons] at h
    rw [Memory.writeBlock, Memory.readByte_writeBlock_outside ws _ (by omega),
      Memory.readByte_writeWord_outside m w (by omega)]

/-- A block write leaves a word outside it alone. -/
theorem Memory.readWord_writeBlock_outside (ws : List Word) (m : Memory) {base x : Nat}
    (h : x + 4 ≤ base ∨ base + 4 * ws.length ≤ x) :
    (m.writeBlock base ws).readWord x = m.readWord x :=
  Memory.readWord_congr fun y _ _ => Memory.readByte_writeBlock_outside ws m (by omega)

/-- Word i of a block reads as written, in a canonical memory. -/
theorem Memory.readWord_writeBlock : ∀ (ws : List Word) {m : Memory} (base : Nat), m.wf = true →
    ∀ (i : Nat) (hi : i < ws.length), (m.writeBlock base ws).readWord (base + 4 * i) = ws[i]
  | w :: ws, m, base, h, 0, _ => by
    rw [Memory.writeBlock, Memory.readWord_writeBlock_outside ws _ (by omega)]
    exact Memory.readWord_writeWord_self h base w
  | w :: ws, m, base, h, i + 1, hi => by
    rw [Memory.writeBlock, show base + 4 * (i + 1) = base + 4 + 4 * i by omega,
      Memory.readWord_writeBlock ws (base + 4) (Memory.wf_writeWord _ _ h) i
        (by simpa using hi)]
    rfl

@[simp] theorem Memory.length_readBlock (m : Memory) (base n : Nat) :
    (m.readBlock base n).length = n := by simp [Memory.readBlock]

@[simp] theorem Memory.getElem_readBlock (m : Memory) (base n i : Nat) (h) :
    (m.readBlock base n)[i]'h = m.readWord (base + 4 * i) := by simp [Memory.readBlock]

/-- A block read after its write gives the list written, in a canonical memory. -/
theorem Memory.readBlock_writeBlock_self {m : Memory} (h : m.wf = true) (base : Nat)
    (ws : List Word) : (m.writeBlock base ws).readBlock base ws.length = ws := by
  apply List.ext_getElem (by simp)
  intro i h1 h2
  simp [Memory.readWord_writeBlock ws base h i h2]

/-- A block write leaves a disjoint block alone. -/
theorem Memory.readBlock_writeBlock_disjoint (m : Memory) {base base' n : Nat} (ws : List Word)
    (h : base' + 4 * n ≤ base ∨ base + 4 * ws.length ≤ base') :
    (m.writeBlock base ws).readBlock base' n = m.readBlock base' n := by
  apply List.ext_getElem (by simp)
  intro i h1 h2
  simp only [Memory.length_readBlock] at h1
  simp only [Memory.getElem_readBlock]
  exact Memory.readWord_writeBlock_outside ws m (by omega)

/-! ## Clearing -/

/-- What clearing a range does, once: bytes in it read 0, every other byte is as before. -/
theorem Memory.readByte_clearRange (lo hi x : Nat) : ∀ (m : Memory),
    (m.clearRange lo hi).readByte x = if lo ≤ x ∧ x < hi then unlistedByte else m.readByte x
  | [] => by simp [Memory.clearRange, Memory.readByte]
  | (a, b) :: m => by
    have ih := Memory.readByte_clearRange lo hi x m
    unfold Memory.clearRange at ih ⊢
    rw [List.filter_cons]
    by_cases hx : x = a
    · subst hx
      by_cases hr : lo ≤ x ∧ x < hi
      · rw [if_neg (by simp; omega), ih, if_pos hr, if_pos hr]
      · rw [if_pos (by simp; omega), if_neg hr]
        simp [Memory.readByte]
    · split
      · simp only [Memory.readByte, if_neg hx]; exact ih
      · rw [ih]; simp only [Memory.readByte, if_neg hx]

/-! ## Addresses in use -/

/-- Every address a byte write lists was listed before or is the one written. -/
theorem Memory.mem_writeByte {a : Nat} {b : Byte} {c : Host.Cell} :
    ∀ {m : Memory}, c ∈ m.writeByte a b → c ∈ m ∨ c.1 = a
  | [], h => by
    rw [Memory.writeByte, Memory.put] at h
    split at h
    · cases h
    · simp only [List.mem_singleton] at h; subst h; exact .inr rfl
  | (a', b') :: m, h => by
    rw [Memory.writeByte] at h
    split at h
    · rw [Memory.put] at h
      split at h
      · exact .inl h
      · rcases List.mem_cons.1 h with rfl | h
        · exact .inr rfl
        · exact .inl h
    · split at h
      · rw [Memory.put] at h
        split at h
        · exact .inl (List.mem_cons_of_mem _ h)
        · rcases List.mem_cons.1 h with rfl | h
          · exact .inr rfl
          · exact .inl (List.mem_cons_of_mem _ h)
      · rcases List.mem_cons.1 h with rfl | h
        · exact .inl List.mem_cons_self
        · exact (Memory.mem_writeByte h).imp_left (List.mem_cons_of_mem _)

theorem Memory.mem_writeWord {m : Memory} {a : Nat} {w : Word} {c : Host.Cell}
    (h : c ∈ m.writeWord a w) : c ∈ m ∨ (a ≤ c.1 ∧ c.1 < a + 4) := by
  unfold Memory.writeWord at h
  rcases Memory.mem_writeByte h with h | h
  · rcases Memory.mem_writeByte h with h | h
    · rcases Memory.mem_writeByte h with h | h
      · rcases Memory.mem_writeByte h with h | h
        · exact .inl h
        · exact .inr (by omega)
      · exact .inr (by omega)
    · exact .inr (by omega)
  · exact .inr (by omega)

/-- Every address a block write lists was listed before or lies in the block. -/
theorem Memory.mem_writeBlock {c : Host.Cell} : ∀ (ws : List Word) {m : Memory} {base : Nat},
    c ∈ m.writeBlock base ws → c ∈ m ∨ (base ≤ c.1 ∧ c.1 < base + 4 * ws.length)
  | [], _, _, h => .inl h
  | w :: ws, m, base, h => by
    simp only [List.length_cons]
    rcases Memory.mem_writeBlock ws h with h | h
    · exact (Memory.mem_writeWord h).imp_right fun h => by omega
    · exact .inr (by omega)

theorem Memory.mem_clearRange {m : Memory} {lo hi : Nat} {c : Host.Cell}
    (h : c ∈ m.clearRange lo hi) : c ∈ m :=
  List.mem_of_mem_filter h

end Sys2Proof.Machine
end

