-- ==== Sys2Proof/Laws/State.lean ====
section
/-! SUPPORT. Laws/State.lean: what each named update of the state leaves in each field, one lemma a
field, so that no proof unfolds a record update. -/

namespace Sys2Proof.Machine

/-! ## State.complete -/

@[simp] theorem State.complete_ctrl (s : State) :
    s.complete.ctrl = s.ctrl := rfl
@[simp] theorem State.complete_status (s : State) :
    s.complete.status = { s.status with done := true } := rfl
@[simp] theorem State.complete_running (s : State) :
    s.complete.running = none := rfl
@[simp] theorem State.complete_arg0 (s : State) :
    s.complete.arg0 = s.arg0 := rfl
@[simp] theorem State.complete_result0 (s : State) :
    s.complete.result0 = s.result0 := rfl
@[simp] theorem State.complete_result1 (s : State) :
    s.complete.result1 = s.result1 := rfl
@[simp] theorem State.complete_rng (s : State) :
    s.complete.rng = s.rng := rfl
@[simp] theorem State.complete_sampleRate (s : State) :
    s.complete.sampleRate = s.sampleRate := rfl
@[simp] theorem State.complete_maxBlock (s : State) :
    s.complete.maxBlock = s.maxBlock := rfl
@[simp] theorem State.complete_knobs (s : State) :
    s.complete.knobs = s.knobs := rfl
@[simp] theorem State.complete_envRegs (s : State) :
    s.complete.envRegs = s.envRegs := rfl
@[simp] theorem State.complete_voices (s : State) :
    s.complete.voices = s.voices := rfl
@[simp] theorem State.complete_dl (s : State) :
    s.complete.dl = s.dl := rfl
@[simp] theorem State.complete_mem (s : State) :
    s.complete.mem = s.mem := rfl
@[simp] theorem State.complete_host (s : State) :
    s.complete.host = s.host := rfl
@[simp] theorem State.complete_readData (s : State) :
    s.complete.readData = s.readData := rfl
@[simp] theorem State.complete_draws (s : State) :
    s.complete.draws = s.draws := rfl

/-! ## State.recordError -/

@[simp] theorem State.recordError_ctrl (s : State) (c : Cause) :
    (s.recordError c).ctrl = s.ctrl := rfl
@[simp] theorem State.recordError_status (s : State) (c : Cause) :
    (s.recordError c).status = s.status.recordError c := rfl
@[simp] theorem State.recordError_running (s : State) (c : Cause) :
    (s.recordError c).running = s.running := rfl
@[simp] theorem State.recordError_arg0 (s : State) (c : Cause) :
    (s.recordError c).arg0 = s.arg0 := rfl
@[simp] theorem State.recordError_result0 (s : State) (c : Cause) :
    (s.recordError c).result0 = s.result0 := rfl
@[simp] theorem State.recordError_result1 (s : State) (c : Cause) :
    (s.recordError c).result1 = s.result1 := rfl
@[simp] theorem State.recordError_rng (s : State) (c : Cause) :
    (s.recordError c).rng = s.rng := rfl
@[simp] theorem State.recordError_sampleRate (s : State) (c : Cause) :
    (s.recordError c).sampleRate = s.sampleRate := rfl
@[simp] theorem State.recordError_maxBlock (s : State) (c : Cause) :
    (s.recordError c).maxBlock = s.maxBlock := rfl
@[simp] theorem State.recordError_knobs (s : State) (c : Cause) :
    (s.recordError c).knobs = s.knobs := rfl
@[simp] theorem State.recordError_envRegs (s : State) (c : Cause) :
    (s.recordError c).envRegs = s.envRegs := rfl
@[simp] theorem State.recordError_voices (s : State) (c : Cause) :
    (s.recordError c).voices = s.voices := rfl
@[simp] theorem State.recordError_dl (s : State) (c : Cause) :
    (s.recordError c).dl = s.dl := rfl
@[simp] theorem State.recordError_mem (s : State) (c : Cause) :
    (s.recordError c).mem = s.mem := rfl
@[simp] theorem State.recordError_host (s : State) (c : Cause) :
    (s.recordError c).host = s.host := rfl
@[simp] theorem State.recordError_readData (s : State) (c : Cause) :
    (s.recordError c).readData = s.readData := rfl
@[simp] theorem State.recordError_draws (s : State) (c : Cause) :
    (s.recordError c).draws = s.draws := rfl

/-! ## State.recordFault -/

@[simp] theorem State.recordFault_ctrl (s : State) (c : Cause) :
    (s.recordFault c).ctrl = s.ctrl := rfl
@[simp] theorem State.recordFault_status (s : State) (c : Cause) :
    (s.recordFault c).status = s.status.recordFault c := rfl
@[simp] theorem State.recordFault_running (s : State) (c : Cause) :
    (s.recordFault c).running = s.running := rfl
@[simp] theorem State.recordFault_arg0 (s : State) (c : Cause) :
    (s.recordFault c).arg0 = s.arg0 := rfl
@[simp] theorem State.recordFault_result0 (s : State) (c : Cause) :
    (s.recordFault c).result0 = s.result0 := rfl
@[simp] theorem State.recordFault_result1 (s : State) (c : Cause) :
    (s.recordFault c).result1 = s.result1 := rfl
@[simp] theorem State.recordFault_rng (s : State) (c : Cause) :
    (s.recordFault c).rng = s.rng := rfl
@[simp] theorem State.recordFault_sampleRate (s : State) (c : Cause) :
    (s.recordFault c).sampleRate = s.sampleRate := rfl
@[simp] theorem State.recordFault_maxBlock (s : State) (c : Cause) :
    (s.recordFault c).maxBlock = s.maxBlock := rfl
@[simp] theorem State.recordFault_knobs (s : State) (c : Cause) :
    (s.recordFault c).knobs = s.knobs := rfl
@[simp] theorem State.recordFault_envRegs (s : State) (c : Cause) :
    (s.recordFault c).envRegs = s.envRegs := rfl
@[simp] theorem State.recordFault_voices (s : State) (c : Cause) :
    (s.recordFault c).voices = s.voices := rfl
@[simp] theorem State.recordFault_dl (s : State) (c : Cause) :
    (s.recordFault c).dl = s.dl := rfl
@[simp] theorem State.recordFault_mem (s : State) (c : Cause) :
    (s.recordFault c).mem = s.mem := rfl
@[simp] theorem State.recordFault_host (s : State) (c : Cause) :
    (s.recordFault c).host = s.host := rfl
@[simp] theorem State.recordFault_readData (s : State) (c : Cause) :
    (s.recordFault c).readData = s.readData := rfl
@[simp] theorem State.recordFault_draws (s : State) (c : Cause) :
    (s.recordFault c).draws = s.draws := rfl

/-! ## State.setVoice -/

@[simp] theorem State.setVoice_ctrl (s : State) (v : VoiceNo) (x : Voice) :
    (s.setVoice v x).ctrl = s.ctrl := rfl
@[simp] theorem State.setVoice_status (s : State) (v : VoiceNo) (x : Voice) :
    (s.setVoice v x).status = s.status := rfl
@[simp] theorem State.setVoice_running (s : State) (v : VoiceNo) (x : Voice) :
    (s.setVoice v x).running = s.running := rfl
@[simp] theorem State.setVoice_arg0 (s : State) (v : VoiceNo) (x : Voice) :
    (s.setVoice v x).arg0 = s.arg0 := rfl
@[simp] theorem State.setVoice_result0 (s : State) (v : VoiceNo) (x : Voice) :
    (s.setVoice v x).result0 = s.result0 := rfl
@[simp] theorem State.setVoice_result1 (s : State) (v : VoiceNo) (x : Voice) :
    (s.setVoice v x).result1 = s.result1 := rfl
@[simp] theorem State.setVoice_rng (s : State) (v : VoiceNo) (x : Voice) :
    (s.setVoice v x).rng = s.rng := rfl
@[simp] theorem State.setVoice_sampleRate (s : State) (v : VoiceNo) (x : Voice) :
    (s.setVoice v x).sampleRate = s.sampleRate := rfl
@[simp] theorem State.setVoice_maxBlock (s : State) (v : VoiceNo) (x : Voice) :
    (s.setVoice v x).maxBlock = s.maxBlock := rfl
@[simp] theorem State.setVoice_knobs (s : State) (v : VoiceNo) (x : Voice) :
    (s.setVoice v x).knobs = s.knobs := rfl
@[simp] theorem State.setVoice_envRegs (s : State) (v : VoiceNo) (x : Voice) :
    (s.setVoice v x).envRegs = s.envRegs := rfl
@[simp] theorem State.setVoice_voices (s : State) (v : VoiceNo) (x : Voice) :
    (s.setVoice v x).voices = s.voices.set v.toNat x := rfl
@[simp] theorem State.setVoice_dl (s : State) (v : VoiceNo) (x : Voice) :
    (s.setVoice v x).dl = s.dl := rfl
@[simp] theorem State.setVoice_mem (s : State) (v : VoiceNo) (x : Voice) :
    (s.setVoice v x).mem = s.mem := rfl
@[simp] theorem State.setVoice_host (s : State) (v : VoiceNo) (x : Voice) :
    (s.setVoice v x).host = s.host := rfl
@[simp] theorem State.setVoice_readData (s : State) (v : VoiceNo) (x : Voice) :
    (s.setVoice v x).readData = s.readData := rfl
@[simp] theorem State.setVoice_draws (s : State) (v : VoiceNo) (x : Voice) :
    (s.setVoice v x).draws = s.draws := rfl

/-! ## State.setEnv -/

@[simp] theorem State.setEnv_ctrl (s : State) (v : VoiceNo) (x : Voice) (e : Env) :
    (s.setEnv v x e).ctrl = s.ctrl := rfl
@[simp] theorem State.setEnv_status (s : State) (v : VoiceNo) (x : Voice) (e : Env) :
    (s.setEnv v x e).status = s.status := rfl
@[simp] theorem State.setEnv_running (s : State) (v : VoiceNo) (x : Voice) (e : Env) :
    (s.setEnv v x e).running = s.running := rfl
@[simp] theorem State.setEnv_arg0 (s : State) (v : VoiceNo) (x : Voice) (e : Env) :
    (s.setEnv v x e).arg0 = s.arg0 := rfl
@[simp] theorem State.setEnv_result0 (s : State) (v : VoiceNo) (x : Voice) (e : Env) :
    (s.setEnv v x e).result0 = s.result0 := rfl
@[simp] theorem State.setEnv_result1 (s : State) (v : VoiceNo) (x : Voice) (e : Env) :
    (s.setEnv v x e).result1 = s.result1 := rfl
@[simp] theorem State.setEnv_rng (s : State) (v : VoiceNo) (x : Voice) (e : Env) :
    (s.setEnv v x e).rng = s.rng := rfl
@[simp] theorem State.setEnv_sampleRate (s : State) (v : VoiceNo) (x : Voice) (e : Env) :
    (s.setEnv v x e).sampleRate = s.sampleRate := rfl
@[simp] theorem State.setEnv_maxBlock (s : State) (v : VoiceNo) (x : Voice) (e : Env) :
    (s.setEnv v x e).maxBlock = s.maxBlock := rfl
@[simp] theorem State.setEnv_knobs (s : State) (v : VoiceNo) (x : Voice) (e : Env) :
    (s.setEnv v x e).knobs = s.knobs := rfl
@[simp] theorem State.setEnv_envRegs (s : State) (v : VoiceNo) (x : Voice) (e : Env) :
    (s.setEnv v x e).envRegs = s.envRegs := rfl
@[simp] theorem State.setEnv_voices (s : State) (v : VoiceNo) (x : Voice) (e : Env) :
    (s.setEnv v x e).voices = s.voices.set v.toNat { x with env := e } := rfl
@[simp] theorem State.setEnv_dl (s : State) (v : VoiceNo) (x : Voice) (e : Env) :
    (s.setEnv v x e).dl = s.dl := rfl
@[simp] theorem State.setEnv_mem (s : State) (v : VoiceNo) (x : Voice) (e : Env) :
    (s.setEnv v x e).mem = s.mem := rfl
@[simp] theorem State.setEnv_host (s : State) (v : VoiceNo) (x : Voice) (e : Env) :
    (s.setEnv v x e).host = s.host := rfl
@[simp] theorem State.setEnv_readData (s : State) (v : VoiceNo) (x : Voice) (e : Env) :
    (s.setEnv v x e).readData = s.readData := rfl
@[simp] theorem State.setEnv_draws (s : State) (v : VoiceNo) (x : Voice) (e : Env) :
    (s.setEnv v x e).draws = s.draws := rfl

/-! ## State.mapVoices -/

@[simp] theorem State.mapVoices_ctrl (s : State) (f : Voice → Voice) :
    (s.mapVoices f).ctrl = s.ctrl := rfl
@[simp] theorem State.mapVoices_status (s : State) (f : Voice → Voice) :
    (s.mapVoices f).status = s.status := rfl
@[simp] theorem State.mapVoices_running (s : State) (f : Voice → Voice) :
    (s.mapVoices f).running = s.running := rfl
@[simp] theorem State.mapVoices_arg0 (s : State) (f : Voice → Voice) :
    (s.mapVoices f).arg0 = s.arg0 := rfl
@[simp] theorem State.mapVoices_result0 (s : State) (f : Voice → Voice) :
    (s.mapVoices f).result0 = s.result0 := rfl
@[simp] theorem State.mapVoices_result1 (s : State) (f : Voice → Voice) :
    (s.mapVoices f).result1 = s.result1 := rfl
@[simp] theorem State.mapVoices_rng (s : State) (f : Voice → Voice) :
    (s.mapVoices f).rng = s.rng := rfl
@[simp] theorem State.mapVoices_sampleRate (s : State) (f : Voice → Voice) :
    (s.mapVoices f).sampleRate = s.sampleRate := rfl
@[simp] theorem State.mapVoices_maxBlock (s : State) (f : Voice → Voice) :
    (s.mapVoices f).maxBlock = s.maxBlock := rfl
@[simp] theorem State.mapVoices_knobs (s : State) (f : Voice → Voice) :
    (s.mapVoices f).knobs = s.knobs := rfl
@[simp] theorem State.mapVoices_envRegs (s : State) (f : Voice → Voice) :
    (s.mapVoices f).envRegs = s.envRegs := rfl
@[simp] theorem State.mapVoices_voices (s : State) (f : Voice → Voice) :
    (s.mapVoices f).voices = s.voices.map f := rfl
@[simp] theorem State.mapVoices_dl (s : State) (f : Voice → Voice) :
    (s.mapVoices f).dl = s.dl := rfl
@[simp] theorem State.mapVoices_mem (s : State) (f : Voice → Voice) :
    (s.mapVoices f).mem = s.mem := rfl
@[simp] theorem State.mapVoices_host (s : State) (f : Voice → Voice) :
    (s.mapVoices f).host = s.host := rfl
@[simp] theorem State.mapVoices_readData (s : State) (f : Voice → Voice) :
    (s.mapVoices f).readData = s.readData := rfl
@[simp] theorem State.mapVoices_draws (s : State) (f : Voice → Voice) :
    (s.mapVoices f).draws = s.draws := rfl

/-! ## State.pushParams -/

@[simp] theorem State.pushParams_ctrl (s : State) (k : KnobValues) :
    (s.pushParams k).ctrl = s.ctrl := rfl
@[simp] theorem State.pushParams_status (s : State) (k : KnobValues) :
    (s.pushParams k).status = s.status := rfl
@[simp] theorem State.pushParams_running (s : State) (k : KnobValues) :
    (s.pushParams k).running = s.running := rfl
@[simp] theorem State.pushParams_arg0 (s : State) (k : KnobValues) :
    (s.pushParams k).arg0 = s.arg0 := rfl
@[simp] theorem State.pushParams_result0 (s : State) (k : KnobValues) :
    (s.pushParams k).result0 = s.result0 := rfl
@[simp] theorem State.pushParams_result1 (s : State) (k : KnobValues) :
    (s.pushParams k).result1 = s.result1 := rfl
@[simp] theorem State.pushParams_rng (s : State) (k : KnobValues) :
    (s.pushParams k).rng = s.rng := rfl
@[simp] theorem State.pushParams_sampleRate (s : State) (k : KnobValues) :
    (s.pushParams k).sampleRate = s.sampleRate := rfl
@[simp] theorem State.pushParams_maxBlock (s : State) (k : KnobValues) :
    (s.pushParams k).maxBlock = s.maxBlock := rfl
@[simp] theorem State.pushParams_knobs (s : State) (k : KnobValues) :
    (s.pushParams k).knobs = s.knobs := rfl
@[simp] theorem State.pushParams_envRegs (s : State) (k : KnobValues) :
    (s.pushParams k).envRegs = s.envRegs := rfl
@[simp] theorem State.pushParams_voices (s : State) (k : KnobValues) :
    (s.pushParams k).voices = s.voices.map (·.push k) := rfl
@[simp] theorem State.pushParams_dl (s : State) (k : KnobValues) :
    (s.pushParams k).dl = s.dl := rfl
@[simp] theorem State.pushParams_mem (s : State) (k : KnobValues) :
    (s.pushParams k).mem = s.mem := rfl
@[simp] theorem State.pushParams_host (s : State) (k : KnobValues) :
    (s.pushParams k).host = s.host := rfl
@[simp] theorem State.pushParams_readData (s : State) (k : KnobValues) :
    (s.pushParams k).readData = s.readData := rfl
@[simp] theorem State.pushParams_draws (s : State) (k : KnobValues) :
    (s.pushParams k).draws = s.draws := rfl

/-! ## State.setBuf -/

@[simp] theorem State.setBuf_ctrl (s : State) (b : Buf) (ws : List F32) :
    (s.setBuf b ws).ctrl = s.ctrl := rfl
@[simp] theorem State.setBuf_status (s : State) (b : Buf) (ws : List F32) :
    (s.setBuf b ws).status = s.status := rfl
@[simp] theorem State.setBuf_running (s : State) (b : Buf) (ws : List F32) :
    (s.setBuf b ws).running = s.running := rfl
@[simp] theorem State.setBuf_arg0 (s : State) (b : Buf) (ws : List F32) :
    (s.setBuf b ws).arg0 = s.arg0 := rfl
@[simp] theorem State.setBuf_result0 (s : State) (b : Buf) (ws : List F32) :
    (s.setBuf b ws).result0 = s.result0 := rfl
@[simp] theorem State.setBuf_result1 (s : State) (b : Buf) (ws : List F32) :
    (s.setBuf b ws).result1 = s.result1 := rfl
@[simp] theorem State.setBuf_rng (s : State) (b : Buf) (ws : List F32) :
    (s.setBuf b ws).rng = s.rng := rfl
@[simp] theorem State.setBuf_sampleRate (s : State) (b : Buf) (ws : List F32) :
    (s.setBuf b ws).sampleRate = s.sampleRate := rfl
@[simp] theorem State.setBuf_maxBlock (s : State) (b : Buf) (ws : List F32) :
    (s.setBuf b ws).maxBlock = s.maxBlock := rfl
@[simp] theorem State.setBuf_knobs (s : State) (b : Buf) (ws : List F32) :
    (s.setBuf b ws).knobs = s.knobs := rfl
@[simp] theorem State.setBuf_envRegs (s : State) (b : Buf) (ws : List F32) :
    (s.setBuf b ws).envRegs = s.envRegs := rfl
@[simp] theorem State.setBuf_voices (s : State) (b : Buf) (ws : List F32) :
    (s.setBuf b ws).voices = s.voices := rfl
@[simp] theorem State.setBuf_dl (s : State) (b : Buf) (ws : List F32) :
    (s.setBuf b ws).dl = s.dl := rfl
@[simp] theorem State.setBuf_mem (s : State) (b : Buf) (ws : List F32) :
    (s.setBuf b ws).mem = s.mem.writeBlock (bufBase b) ws := rfl
@[simp] theorem State.setBuf_host (s : State) (b : Buf) (ws : List F32) :
    (s.setBuf b ws).host = s.host := rfl
@[simp] theorem State.setBuf_readData (s : State) (b : Buf) (ws : List F32) :
    (s.setBuf b ws).readData = s.readData := rfl
@[simp] theorem State.setBuf_draws (s : State) (b : Buf) (ws : List F32) :
    (s.setBuf b ws).draws = s.draws := rfl

/-! ## State.setDlm -/

@[simp] theorem State.setDlm_ctrl (s : State) (i : Nat) (w : F32) :
    (s.setDlm i w).ctrl = s.ctrl := rfl
@[simp] theorem State.setDlm_status (s : State) (i : Nat) (w : F32) :
    (s.setDlm i w).status = s.status := rfl
@[simp] theorem State.setDlm_running (s : State) (i : Nat) (w : F32) :
    (s.setDlm i w).running = s.running := rfl
@[simp] theorem State.setDlm_arg0 (s : State) (i : Nat) (w : F32) :
    (s.setDlm i w).arg0 = s.arg0 := rfl
@[simp] theorem State.setDlm_result0 (s : State) (i : Nat) (w : F32) :
    (s.setDlm i w).result0 = s.result0 := rfl
@[simp] theorem State.setDlm_result1 (s : State) (i : Nat) (w : F32) :
    (s.setDlm i w).result1 = s.result1 := rfl
@[simp] theorem State.setDlm_rng (s : State) (i : Nat) (w : F32) :
    (s.setDlm i w).rng = s.rng := rfl
@[simp] theorem State.setDlm_sampleRate (s : State) (i : Nat) (w : F32) :
    (s.setDlm i w).sampleRate = s.sampleRate := rfl
@[simp] theorem State.setDlm_maxBlock (s : State) (i : Nat) (w : F32) :
    (s.setDlm i w).maxBlock = s.maxBlock := rfl
@[simp] theorem State.setDlm_knobs (s : State) (i : Nat) (w : F32) :
    (s.setDlm i w).knobs = s.knobs := rfl
@[simp] theorem State.setDlm_envRegs (s : State) (i : Nat) (w : F32) :
    (s.setDlm i w).envRegs = s.envRegs := rfl
@[simp] theorem State.setDlm_voices (s : State) (i : Nat) (w : F32) :
    (s.setDlm i w).voices = s.voices := rfl
@[simp] theorem State.setDlm_dl (s : State) (i : Nat) (w : F32) :
    (s.setDlm i w).dl = s.dl := rfl
@[simp] theorem State.setDlm_mem (s : State) (i : Nat) (w : F32) :
    (s.setDlm i w).mem = s.mem.writeWord (dlmBase + 4 * i) w := rfl
@[simp] theorem State.setDlm_host (s : State) (i : Nat) (w : F32) :
    (s.setDlm i w).host = s.host := rfl
@[simp] theorem State.setDlm_readData (s : State) (i : Nat) (w : F32) :
    (s.setDlm i w).readData = s.readData := rfl
@[simp] theorem State.setDlm_draws (s : State) (i : Nat) (w : F32) :
    (s.setDlm i w).draws = s.draws := rfl

/-! ## State.clearBuffers -/

@[simp] theorem State.clearBuffers_ctrl (s : State) (n : Nat) :
    (s.clearBuffers n).ctrl = s.ctrl := rfl
@[simp] theorem State.clearBuffers_status (s : State) (n : Nat) :
    (s.clearBuffers n).status = s.status := rfl
@[simp] theorem State.clearBuffers_running (s : State) (n : Nat) :
    (s.clearBuffers n).running = s.running := rfl
@[simp] theorem State.clearBuffers_arg0 (s : State) (n : Nat) :
    (s.clearBuffers n).arg0 = s.arg0 := rfl
@[simp] theorem State.clearBuffers_result0 (s : State) (n : Nat) :
    (s.clearBuffers n).result0 = s.result0 := rfl
@[simp] theorem State.clearBuffers_result1 (s : State) (n : Nat) :
    (s.clearBuffers n).result1 = s.result1 := rfl
@[simp] theorem State.clearBuffers_rng (s : State) (n : Nat) :
    (s.clearBuffers n).rng = s.rng := rfl
@[simp] theorem State.clearBuffers_sampleRate (s : State) (n : Nat) :
    (s.clearBuffers n).sampleRate = s.sampleRate := rfl
@[simp] theorem State.clearBuffers_maxBlock (s : State) (n : Nat) :
    (s.clearBuffers n).maxBlock = s.maxBlock := rfl
@[simp] theorem State.clearBuffers_knobs (s : State) (n : Nat) :
    (s.clearBuffers n).knobs = s.knobs := rfl
@[simp] theorem State.clearBuffers_envRegs (s : State) (n : Nat) :
    (s.clearBuffers n).envRegs = s.envRegs := rfl
@[simp] theorem State.clearBuffers_voices (s : State) (n : Nat) :
    (s.clearBuffers n).voices = s.voices := rfl
@[simp] theorem State.clearBuffers_dl (s : State) (n : Nat) :
    (s.clearBuffers n).dl = s.dl := rfl
@[simp] theorem State.clearBuffers_host (s : State) (n : Nat) :
    (s.clearBuffers n).host = s.host := rfl
@[simp] theorem State.clearBuffers_readData (s : State) (n : Nat) :
    (s.clearBuffers n).readData = s.readData := rfl
@[simp] theorem State.clearBuffers_draws (s : State) (n : Nat) :
    (s.clearBuffers n).draws = s.draws := rfl

/-! ## State.fillNoise -/

@[simp] theorem State.fillNoise_ctrl (s : State) (u : Bool) (n : Nat) :
    (s.fillNoise u n).ctrl = s.ctrl := rfl
@[simp] theorem State.fillNoise_status (s : State) (u : Bool) (n : Nat) :
    (s.fillNoise u n).status = s.status := rfl
@[simp] theorem State.fillNoise_running (s : State) (u : Bool) (n : Nat) :
    (s.fillNoise u n).running = s.running := rfl
@[simp] theorem State.fillNoise_arg0 (s : State) (u : Bool) (n : Nat) :
    (s.fillNoise u n).arg0 = s.arg0 := rfl
@[simp] theorem State.fillNoise_result0 (s : State) (u : Bool) (n : Nat) :
    (s.fillNoise u n).result0 = s.result0 := rfl
@[simp] theorem State.fillNoise_result1 (s : State) (u : Bool) (n : Nat) :
    (s.fillNoise u n).result1 = s.result1 := rfl
@[simp] theorem State.fillNoise_rng (s : State) (u : Bool) (n : Nat) :
    (s.fillNoise u n).rng = (noiseFill u n s.rng).2 := rfl
@[simp] theorem State.fillNoise_sampleRate (s : State) (u : Bool) (n : Nat) :
    (s.fillNoise u n).sampleRate = s.sampleRate := rfl
@[simp] theorem State.fillNoise_maxBlock (s : State) (u : Bool) (n : Nat) :
    (s.fillNoise u n).maxBlock = s.maxBlock := rfl
@[simp] theorem State.fillNoise_knobs (s : State) (u : Bool) (n : Nat) :
    (s.fillNoise u n).knobs = s.knobs := rfl
@[simp] theorem State.fillNoise_envRegs (s : State) (u : Bool) (n : Nat) :
    (s.fillNoise u n).envRegs = s.envRegs := rfl
@[simp] theorem State.fillNoise_voices (s : State) (u : Bool) (n : Nat) :
    (s.fillNoise u n).voices = s.voices := rfl
@[simp] theorem State.fillNoise_dl (s : State) (u : Bool) (n : Nat) :
    (s.fillNoise u n).dl = s.dl := rfl
@[simp] theorem State.fillNoise_mem (s : State) (u : Bool) (n : Nat) :
    (s.fillNoise u n).mem = s.mem.writeBlock (bufBase .noise) (noiseFill u n s.rng).1 := rfl
@[simp] theorem State.fillNoise_host (s : State) (u : Bool) (n : Nat) :
    (s.fillNoise u n).host = s.host := rfl
@[simp] theorem State.fillNoise_readData (s : State) (u : Bool) (n : Nat) :
    (s.fillNoise u n).readData = s.readData := rfl
@[simp] theorem State.fillNoise_draws (s : State) (u : Bool) (n : Nat) :
    (s.fillNoise u n).draws = s.draws := rfl

/-! ## State.scaleNoise -/

@[simp] theorem State.scaleNoise_ctrl (s : State) (n : Nat) (g : F32) :
    (s.scaleNoise n g).ctrl = s.ctrl := rfl
@[simp] theorem State.scaleNoise_status (s : State) (n : Nat) (g : F32) :
    (s.scaleNoise n g).status = s.status := rfl
@[simp] theorem State.scaleNoise_running (s : State) (n : Nat) (g : F32) :
    (s.scaleNoise n g).running = s.running := rfl
@[simp] theorem State.scaleNoise_arg0 (s : State) (n : Nat) (g : F32) :
    (s.scaleNoise n g).arg0 = s.arg0 := rfl
@[simp] theorem State.scaleNoise_result0 (s : State) (n : Nat) (g : F32) :
    (s.scaleNoise n g).result0 = s.result0 := rfl
@[simp] theorem State.scaleNoise_result1 (s : State) (n : Nat) (g : F32) :
    (s.scaleNoise n g).result1 = s.result1 := rfl
@[simp] theorem State.scaleNoise_rng (s : State) (n : Nat) (g : F32) :
    (s.scaleNoise n g).rng = s.rng := rfl
@[simp] theorem State.scaleNoise_sampleRate (s : State) (n : Nat) (g : F32) :
    (s.scaleNoise n g).sampleRate = s.sampleRate := rfl
@[simp] theorem State.scaleNoise_maxBlock (s : State) (n : Nat) (g : F32) :
    (s.scaleNoise n g).maxBlock = s.maxBlock := rfl
@[simp] theorem State.scaleNoise_knobs (s : State) (n : Nat) (g : F32) :
    (s.scaleNoise n g).knobs = s.knobs := rfl
@[simp] theorem State.scaleNoise_envRegs (s : State) (n : Nat) (g : F32) :
    (s.scaleNoise n g).envRegs = s.envRegs := rfl
@[simp] theorem State.scaleNoise_voices (s : State) (n : Nat) (g : F32) :
    (s.scaleNoise n g).voices = s.voices := rfl
@[simp] theorem State.scaleNoise_dl (s : State) (n : Nat) (g : F32) :
    (s.scaleNoise n g).dl = s.dl := rfl
@[simp] theorem State.scaleNoise_host (s : State) (n : Nat) (g : F32) :
    (s.scaleNoise n g).host = s.host := rfl
@[simp] theorem State.scaleNoise_readData (s : State) (n : Nat) (g : F32) :
    (s.scaleNoise n g).readData = s.readData := rfl
@[simp] theorem State.scaleNoise_draws (s : State) (n : Nat) (g : F32) :
    (s.scaleNoise n g).draws = s.draws := rfl

/-! ## State.mixNoise -/

@[simp] theorem State.mixNoise_ctrl (s : State) (n : Nat) :
    (s.mixNoise n).ctrl = s.ctrl := rfl
@[simp] theorem State.mixNoise_status (s : State) (n : Nat) :
    (s.mixNoise n).status = s.status := rfl
@[simp] theorem State.mixNoise_running (s : State) (n : Nat) :
    (s.mixNoise n).running = s.running := rfl
@[simp] theorem State.mixNoise_arg0 (s : State) (n : Nat) :
    (s.mixNoise n).arg0 = s.arg0 := rfl
@[simp] theorem State.mixNoise_result0 (s : State) (n : Nat) :
    (s.mixNoise n).result0 = s.result0 := rfl
@[simp] theorem State.mixNoise_result1 (s : State) (n : Nat) :
    (s.mixNoise n).result1 = s.result1 := rfl
@[simp] theorem State.mixNoise_rng (s : State) (n : Nat) :
    (s.mixNoise n).rng = s.rng := rfl
@[simp] theorem State.mixNoise_sampleRate (s : State) (n : Nat) :
    (s.mixNoise n).sampleRate = s.sampleRate := rfl
@[simp] theorem State.mixNoise_maxBlock (s : State) (n : Nat) :
    (s.mixNoise n).maxBlock = s.maxBlock := rfl
@[simp] theorem State.mixNoise_knobs (s : State) (n : Nat) :
    (s.mixNoise n).knobs = s.knobs := rfl
@[simp] theorem State.mixNoise_envRegs (s : State) (n : Nat) :
    (s.mixNoise n).envRegs = s.envRegs := rfl
@[simp] theorem State.mixNoise_voices (s : State) (n : Nat) :
    (s.mixNoise n).voices = s.voices := rfl
@[simp] theorem State.mixNoise_dl (s : State) (n : Nat) :
    (s.mixNoise n).dl = s.dl := rfl
@[simp] theorem State.mixNoise_host (s : State) (n : Nat) :
    (s.mixNoise n).host = s.host := rfl
@[simp] theorem State.mixNoise_readData (s : State) (n : Nat) :
    (s.mixNoise n).readData = s.readData := rfl
@[simp] theorem State.mixNoise_draws (s : State) (n : Nat) :
    (s.mixNoise n).draws = s.draws := rfl

/-! ## State.quantizeOut -/

@[simp] theorem State.quantizeOut_ctrl (s : State) (n b : Nat) :
    (s.quantizeOut n b).ctrl = s.ctrl := rfl
@[simp] theorem State.quantizeOut_status (s : State) (n b : Nat) :
    (s.quantizeOut n b).status = s.status := rfl
@[simp] theorem State.quantizeOut_running (s : State) (n b : Nat) :
    (s.quantizeOut n b).running = s.running := rfl
@[simp] theorem State.quantizeOut_arg0 (s : State) (n b : Nat) :
    (s.quantizeOut n b).arg0 = s.arg0 := rfl
@[simp] theorem State.quantizeOut_result0 (s : State) (n b : Nat) :
    (s.quantizeOut n b).result0 = s.result0 := rfl
@[simp] theorem State.quantizeOut_result1 (s : State) (n b : Nat) :
    (s.quantizeOut n b).result1 = s.result1 := rfl
@[simp] theorem State.quantizeOut_rng (s : State) (n b : Nat) :
    (s.quantizeOut n b).rng = s.rng := rfl
@[simp] theorem State.quantizeOut_sampleRate (s : State) (n b : Nat) :
    (s.quantizeOut n b).sampleRate = s.sampleRate := rfl
@[simp] theorem State.quantizeOut_maxBlock (s : State) (n b : Nat) :
    (s.quantizeOut n b).maxBlock = s.maxBlock := rfl
@[simp] theorem State.quantizeOut_knobs (s : State) (n b : Nat) :
    (s.quantizeOut n b).knobs = s.knobs := rfl
@[simp] theorem State.quantizeOut_envRegs (s : State) (n b : Nat) :
    (s.quantizeOut n b).envRegs = s.envRegs := rfl
@[simp] theorem State.quantizeOut_voices (s : State) (n b : Nat) :
    (s.quantizeOut n b).voices = s.voices := rfl
@[simp] theorem State.quantizeOut_dl (s : State) (n b : Nat) :
    (s.quantizeOut n b).dl = s.dl := rfl
@[simp] theorem State.quantizeOut_host (s : State) (n b : Nat) :
    (s.quantizeOut n b).host = s.host := rfl
@[simp] theorem State.quantizeOut_readData (s : State) (n b : Nat) :
    (s.quantizeOut n b).readData = s.readData := rfl
@[simp] theorem State.quantizeOut_draws (s : State) (n b : Nat) :
    (s.quantizeOut n b).draws = s.draws := rfl

/-! ## State.decimateOut -/

@[simp] theorem State.decimateOut_ctrl (s : State) (n r : Nat) :
    (s.decimateOut n r).ctrl = s.ctrl := rfl
@[simp] theorem State.decimateOut_status (s : State) (n r : Nat) :
    (s.decimateOut n r).status = s.status := rfl
@[simp] theorem State.decimateOut_running (s : State) (n r : Nat) :
    (s.decimateOut n r).running = s.running := rfl
@[simp] theorem State.decimateOut_arg0 (s : State) (n r : Nat) :
    (s.decimateOut n r).arg0 = s.arg0 := rfl
@[simp] theorem State.decimateOut_result0 (s : State) (n r : Nat) :
    (s.decimateOut n r).result0 = s.result0 := rfl
@[simp] theorem State.decimateOut_result1 (s : State) (n r : Nat) :
    (s.decimateOut n r).result1 = s.result1 := rfl
@[simp] theorem State.decimateOut_rng (s : State) (n r : Nat) :
    (s.decimateOut n r).rng = s.rng := rfl
@[simp] theorem State.decimateOut_sampleRate (s : State) (n r : Nat) :
    (s.decimateOut n r).sampleRate = s.sampleRate := rfl
@[simp] theorem State.decimateOut_maxBlock (s : State) (n r : Nat) :
    (s.decimateOut n r).maxBlock = s.maxBlock := rfl
@[simp] theorem State.decimateOut_knobs (s : State) (n r : Nat) :
    (s.decimateOut n r).knobs = s.knobs := rfl
@[simp] theorem State.decimateOut_envRegs (s : State) (n r : Nat) :
    (s.decimateOut n r).envRegs = s.envRegs := rfl
@[simp] theorem State.decimateOut_voices (s : State) (n r : Nat) :
    (s.decimateOut n r).voices = s.voices := rfl
@[simp] theorem State.decimateOut_dl (s : State) (n r : Nat) :
    (s.decimateOut n r).dl = s.dl := rfl
@[simp] theorem State.decimateOut_host (s : State) (n r : Nat) :
    (s.decimateOut n r).host = s.host := rfl
@[simp] theorem State.decimateOut_readData (s : State) (n r : Nat) :
    (s.decimateOut n r).readData = s.readData := rfl
@[simp] theorem State.decimateOut_draws (s : State) (n r : Nat) :
    (s.decimateOut n r).draws = s.draws := rfl

/-! ## State.copyOut -/

@[simp] theorem State.copyOut_ctrl (s : State) (n : Nat) :
    (s.copyOut n).ctrl = s.ctrl := rfl
@[simp] theorem State.copyOut_status (s : State) (n : Nat) :
    (s.copyOut n).status = s.status := rfl
@[simp] theorem State.copyOut_running (s : State) (n : Nat) :
    (s.copyOut n).running = s.running := rfl
@[simp] theorem State.copyOut_arg0 (s : State) (n : Nat) :
    (s.copyOut n).arg0 = s.arg0 := rfl
@[simp] theorem State.copyOut_result0 (s : State) (n : Nat) :
    (s.copyOut n).result0 = s.result0 := rfl
@[simp] theorem State.copyOut_result1 (s : State) (n : Nat) :
    (s.copyOut n).result1 = s.result1 := rfl
@[simp] theorem State.copyOut_rng (s : State) (n : Nat) :
    (s.copyOut n).rng = s.rng := rfl
@[simp] theorem State.copyOut_sampleRate (s : State) (n : Nat) :
    (s.copyOut n).sampleRate = s.sampleRate := rfl
@[simp] theorem State.copyOut_maxBlock (s : State) (n : Nat) :
    (s.copyOut n).maxBlock = s.maxBlock := rfl
@[simp] theorem State.copyOut_knobs (s : State) (n : Nat) :
    (s.copyOut n).knobs = s.knobs := rfl
@[simp] theorem State.copyOut_envRegs (s : State) (n : Nat) :
    (s.copyOut n).envRegs = s.envRegs := rfl
@[simp] theorem State.copyOut_voices (s : State) (n : Nat) :
    (s.copyOut n).voices = s.voices := rfl
@[simp] theorem State.copyOut_dl (s : State) (n : Nat) :
    (s.copyOut n).dl = s.dl := rfl
@[simp] theorem State.copyOut_host (s : State) (n : Nat) :
    (s.copyOut n).host = s.host := rfl
@[simp] theorem State.copyOut_readData (s : State) (n : Nat) :
    (s.copyOut n).readData = s.readData := rfl
@[simp] theorem State.copyOut_draws (s : State) (n : Nat) :
    (s.copyOut n).draws = s.draws := rfl

/-! ## State.renderBank -/

@[simp] theorem State.renderBank_ctrl (s : State) (n : Nat) :
    (s.renderBank n).ctrl = s.ctrl := rfl
@[simp] theorem State.renderBank_status (s : State) (n : Nat) :
    (s.renderBank n).status = s.status := rfl
@[simp] theorem State.renderBank_running (s : State) (n : Nat) :
    (s.renderBank n).running = s.running := rfl
@[simp] theorem State.renderBank_arg0 (s : State) (n : Nat) :
    (s.renderBank n).arg0 = s.arg0 := rfl
@[simp] theorem State.renderBank_result0 (s : State) (n : Nat) :
    (s.renderBank n).result0 = s.result0 := rfl
@[simp] theorem State.renderBank_result1 (s : State) (n : Nat) :
    (s.renderBank n).result1 = s.result1 := rfl
@[simp] theorem State.renderBank_rng (s : State) (n : Nat) :
    (s.renderBank n).rng = s.rng := rfl
@[simp] theorem State.renderBank_sampleRate (s : State) (n : Nat) :
    (s.renderBank n).sampleRate = s.sampleRate := rfl
@[simp] theorem State.renderBank_maxBlock (s : State) (n : Nat) :
    (s.renderBank n).maxBlock = s.maxBlock := rfl
@[simp] theorem State.renderBank_knobs (s : State) (n : Nat) :
    (s.renderBank n).knobs = s.knobs := rfl
@[simp] theorem State.renderBank_envRegs (s : State) (n : Nat) :
    (s.renderBank n).envRegs = s.envRegs := rfl
@[simp] theorem State.renderBank_voices (s : State) (n : Nat) :
    (s.renderBank n).voices = (renderVoices n s.voices (s.buf .out0 n, s.buf .out1 n)).1 := rfl
@[simp] theorem State.renderBank_dl (s : State) (n : Nat) :
    (s.renderBank n).dl = s.dl := rfl
@[simp] theorem State.renderBank_host (s : State) (n : Nat) :
    (s.renderBank n).host = s.host := rfl
@[simp] theorem State.renderBank_readData (s : State) (n : Nat) :
    (s.renderBank n).readData = s.readData := rfl
@[simp] theorem State.renderBank_draws (s : State) (n : Nat) :
    (s.renderBank n).draws = s.draws := rfl

/-! ## State.blockRender -/

@[simp] theorem State.blockRender_ctrl (s : State) (n : Nat) (p : Snapshot) :
    (s.blockRender n p).ctrl = s.ctrl := by
  rw [State.blockRender]; simp
@[simp] theorem State.blockRender_status (s : State) (n : Nat) (p : Snapshot) :
    (s.blockRender n p).status = s.status := by
  rw [State.blockRender]; simp
@[simp] theorem State.blockRender_running (s : State) (n : Nat) (p : Snapshot) :
    (s.blockRender n p).running = s.running := by
  rw [State.blockRender]; simp
@[simp] theorem State.blockRender_arg0 (s : State) (n : Nat) (p : Snapshot) :
    (s.blockRender n p).arg0 = s.arg0 := by
  rw [State.blockRender]; simp
@[simp] theorem State.blockRender_result0 (s : State) (n : Nat) (p : Snapshot) :
    (s.blockRender n p).result0 = s.result0 := by
  rw [State.blockRender]; simp
@[simp] theorem State.blockRender_result1 (s : State) (n : Nat) (p : Snapshot) :
    (s.blockRender n p).result1 = s.result1 := by
  rw [State.blockRender]; simp
@[simp] theorem State.blockRender_rng (s : State) (n : Nat) (p : Snapshot) :
    (s.blockRender n p).rng = (noiseFill p.ctrl.noiseMode n s.rng).2 := by
  rw [State.blockRender]; simp
@[simp] theorem State.blockRender_sampleRate (s : State) (n : Nat) (p : Snapshot) :
    (s.blockRender n p).sampleRate = s.sampleRate := by
  rw [State.blockRender]; simp
@[simp] theorem State.blockRender_maxBlock (s : State) (n : Nat) (p : Snapshot) :
    (s.blockRender n p).maxBlock = s.maxBlock := by
  rw [State.blockRender]; simp
@[simp] theorem State.blockRender_knobs (s : State) (n : Nat) (p : Snapshot) :
    (s.blockRender n p).knobs = s.knobs := by
  rw [State.blockRender]; simp
@[simp] theorem State.blockRender_envRegs (s : State) (n : Nat) (p : Snapshot) :
    (s.blockRender n p).envRegs = s.envRegs := by
  rw [State.blockRender]; simp
@[simp] theorem State.blockRender_dl (s : State) (n : Nat) (p : Snapshot) :
    (s.blockRender n p).dl = s.dl := by
  rw [State.blockRender]; simp
@[simp] theorem State.blockRender_host (s : State) (n : Nat) (p : Snapshot) :
    (s.blockRender n p).host = s.host := by
  rw [State.blockRender]; simp
@[simp] theorem State.blockRender_readData (s : State) (n : Nat) (p : Snapshot) :
    (s.blockRender n p).readData = s.readData := by
  rw [State.blockRender]; simp
@[simp] theorem State.blockRender_draws (s : State) (n : Nat) (p : Snapshot) :
    (s.blockRender n p).draws = s.draws := by
  rw [State.blockRender]; simp

/-! ## State.blockPost -/

@[simp] theorem State.blockPost_ctrl (s : State) (n : Nat) (k : KnobValues) :
    (s.blockPost n k).ctrl = s.ctrl := by
  rw [State.blockPost]; simp
@[simp] theorem State.blockPost_status (s : State) (n : Nat) (k : KnobValues) :
    (s.blockPost n k).status = s.status := by
  rw [State.blockPost]; simp
@[simp] theorem State.blockPost_running (s : State) (n : Nat) (k : KnobValues) :
    (s.blockPost n k).running = s.running := by
  rw [State.blockPost]; simp
@[simp] theorem State.blockPost_arg0 (s : State) (n : Nat) (k : KnobValues) :
    (s.blockPost n k).arg0 = s.arg0 := by
  rw [State.blockPost]; simp
@[simp] theorem State.blockPost_result0 (s : State) (n : Nat) (k : KnobValues) :
    (s.blockPost n k).result0 = s.result0 := by
  rw [State.blockPost]; simp
@[simp] theorem State.blockPost_result1 (s : State) (n : Nat) (k : KnobValues) :
    (s.blockPost n k).result1 = s.result1 := by
  rw [State.blockPost]; simp
@[simp] theorem State.blockPost_rng (s : State) (n : Nat) (k : KnobValues) :
    (s.blockPost n k).rng = s.rng := by
  rw [State.blockPost]; simp
@[simp] theorem State.blockPost_sampleRate (s : State) (n : Nat) (k : KnobValues) :
    (s.blockPost n k).sampleRate = s.sampleRate := by
  rw [State.blockPost]; simp
@[simp] theorem State.blockPost_maxBlock (s : State) (n : Nat) (k : KnobValues) :
    (s.blockPost n k).maxBlock = s.maxBlock := by
  rw [State.blockPost]; simp
@[simp] theorem State.blockPost_knobs (s : State) (n : Nat) (k : KnobValues) :
    (s.blockPost n k).knobs = s.knobs := by
  rw [State.blockPost]; simp
@[simp] theorem State.blockPost_envRegs (s : State) (n : Nat) (k : KnobValues) :
    (s.blockPost n k).envRegs = s.envRegs := by
  rw [State.blockPost]; simp
@[simp] theorem State.blockPost_voices (s : State) (n : Nat) (k : KnobValues) :
    (s.blockPost n k).voices = s.voices := by
  rw [State.blockPost]; simp
@[simp] theorem State.blockPost_dl (s : State) (n : Nat) (k : KnobValues) :
    (s.blockPost n k).dl = s.dl := by
  rw [State.blockPost]; simp
@[simp] theorem State.blockPost_host (s : State) (n : Nat) (k : KnobValues) :
    (s.blockPost n k).host = s.host := by
  rw [State.blockPost]; simp
@[simp] theorem State.blockPost_readData (s : State) (n : Nat) (k : KnobValues) :
    (s.blockPost n k).readData = s.readData := by
  rw [State.blockPost]; simp
@[simp] theorem State.blockPost_draws (s : State) (n : Nat) (k : KnobValues) :
    (s.blockPost n k).draws = s.draws := by
  rw [State.blockPost]; simp

/-! ## State.withIssued -/

@[simp] theorem State.withIssued_ctrl (s : State) (w : Word) :
    (s.withIssued w).ctrl = s.ctrl := rfl
@[simp] theorem State.withIssued_status (s : State) (w : Word) :
    (s.withIssued w).status = s.status := rfl
@[simp] theorem State.withIssued_running (s : State) (w : Word) :
    (s.withIssued w).running = some ⟨w, s.snapNow⟩ := rfl
@[simp] theorem State.withIssued_arg0 (s : State) (w : Word) :
    (s.withIssued w).arg0 = s.arg0 := rfl
@[simp] theorem State.withIssued_result0 (s : State) (w : Word) :
    (s.withIssued w).result0 = s.result0 := rfl
@[simp] theorem State.withIssued_result1 (s : State) (w : Word) :
    (s.withIssued w).result1 = s.result1 := rfl
@[simp] theorem State.withIssued_rng (s : State) (w : Word) :
    (s.withIssued w).rng = s.rng := rfl
@[simp] theorem State.withIssued_sampleRate (s : State) (w : Word) :
    (s.withIssued w).sampleRate = s.sampleRate := rfl
@[simp] theorem State.withIssued_maxBlock (s : State) (w : Word) :
    (s.withIssued w).maxBlock = s.maxBlock := rfl
@[simp] theorem State.withIssued_knobs (s : State) (w : Word) :
    (s.withIssued w).knobs = s.knobs := rfl
@[simp] theorem State.withIssued_envRegs (s : State) (w : Word) :
    (s.withIssued w).envRegs = s.envRegs := rfl
@[simp] theorem State.withIssued_voices (s : State) (w : Word) :
    (s.withIssued w).voices = s.voices := rfl
@[simp] theorem State.withIssued_dl (s : State) (w : Word) :
    (s.withIssued w).dl = s.dl := rfl
@[simp] theorem State.withIssued_mem (s : State) (w : Word) :
    (s.withIssued w).mem = s.mem := rfl
@[simp] theorem State.withIssued_host (s : State) (w : Word) :
    (s.withIssued w).host = [] := rfl
@[simp] theorem State.withIssued_readData (s : State) (w : Word) :
    (s.withIssued w).readData = s.readData := rfl
@[simp] theorem State.withIssued_draws (s : State) (w : Word) :
    (s.withIssued w).draws = s.draws := rfl

/-! ## State.resetCore -/

@[simp] theorem State.resetCore_ctrl (s : State) : s.resetCore.ctrl = State.reset.ctrl := rfl
@[simp] theorem State.resetCore_status (s : State) : s.resetCore.status = State.reset.status := rfl
@[simp] theorem State.resetCore_running (s : State) : s.resetCore.running = State.reset.running := rfl
@[simp] theorem State.resetCore_arg0 (s : State) : s.resetCore.arg0 = State.reset.arg0 := rfl
@[simp] theorem State.resetCore_result0 (s : State) : s.resetCore.result0 = State.reset.result0 := rfl
@[simp] theorem State.resetCore_result1 (s : State) : s.resetCore.result1 = State.reset.result1 := rfl
@[simp] theorem State.resetCore_rng (s : State) : s.resetCore.rng = State.reset.rng := rfl
@[simp] theorem State.resetCore_sampleRate (s : State) : s.resetCore.sampleRate = State.reset.sampleRate := rfl
@[simp] theorem State.resetCore_maxBlock (s : State) : s.resetCore.maxBlock = State.reset.maxBlock := rfl
@[simp] theorem State.resetCore_knobs (s : State) : s.resetCore.knobs = State.reset.knobs := rfl
@[simp] theorem State.resetCore_envRegs (s : State) : s.resetCore.envRegs = State.reset.envRegs := rfl
@[simp] theorem State.resetCore_voices (s : State) : s.resetCore.voices = State.reset.voices := rfl
@[simp] theorem State.resetCore_dl (s : State) : s.resetCore.dl = State.reset.dl := rfl
@[simp] theorem State.resetCore_mem (s : State) : s.resetCore.mem = State.reset.mem := rfl
@[simp] theorem State.resetCore_host (s : State) : s.resetCore.host = s.host := rfl
@[simp] theorem State.resetCore_readData (s : State) : s.resetCore.readData = s.readData := rfl
@[simp] theorem State.resetCore_draws (s : State) : s.resetCore.draws = s.draws := rfl

/-! ## STATUS records -/

@[simp] theorem Status.recordError_err (st : Status) (c : Cause) : (st.recordError c).err = true := rfl
@[simp] theorem Status.recordError_cause (st : Status) (c : Cause) :
    (st.recordError c).cause = if st.err then st.cause else c := rfl
@[simp] theorem Status.recordError_done (st : Status) (c : Cause) :
    (st.recordError c).done = st.done := rfl
@[simp] theorem Status.recordError_prepared (st : Status) (c : Cause) :
    (st.recordError c).prepared = st.prepared := rfl
@[simp] theorem Status.recordError_fault (st : Status) (c : Cause) :
    (st.recordError c).fault = st.fault := rfl
@[simp] theorem Status.recordError_noteDrop (st : Status) (c : Cause) :
    (st.recordError c).noteDrop = st.noteDrop := rfl
@[simp] theorem Status.recordFault_err (st : Status) (c : Cause) : (st.recordFault c).err = true := rfl
@[simp] theorem Status.recordFault_cause (st : Status) (c : Cause) :
    (st.recordFault c).cause = if st.err then st.cause else c := rfl
@[simp] theorem Status.recordFault_done (st : Status) (c : Cause) :
    (st.recordFault c).done = st.done := rfl
@[simp] theorem Status.recordFault_prepared (st : Status) (c : Cause) :
    (st.recordFault c).prepared = st.prepared := rfl
@[simp] theorem Status.recordFault_fault (st : Status) (c : Cause) :
    (st.recordFault c).fault = true := rfl
@[simp] theorem Status.recordFault_noteDrop (st : Status) (c : Cause) :
    (st.recordFault c).noteDrop = st.noteDrop := rfl

/-! ## A voice with one oscillator replaced -/

@[simp] theorem Voice.osc_setOsc (x : Voice) (k : OscKind) (o : Osc) : (x.setOsc k o).osc k = o := by
  cases k <;> rfl
@[simp] theorem Voice.setOsc_env (x : Voice) (k : OscKind) (o : Osc) : (x.setOsc k o).env = x.env := by
  cases k <;> rfl
@[simp] theorem Voice.setOsc_playing (x : Voice) (k : OscKind) (o : Osc) :
    (x.setOsc k o).playing = x.playing := by cases k <;> rfl
@[simp] theorem Voice.setOsc_releasing (x : Voice) (k : OscKind) (o : Osc) :
    (x.setOsc k o).releasing = x.releasing := by cases k <;> rfl
@[simp] theorem Voice.setOsc_note (x : Voice) (k : OscKind) (o : Osc) :
    (x.setOsc k o).note = x.note := by cases k <;> rfl
@[simp] theorem Voice.setOsc_base (x : Voice) (k : OscKind) (o : Osc) :
    (x.setOsc k o).base = x.base := by cases k <;> rfl
@[simp] theorem Voice.setOsc_sr (x : Voice) (k : OscKind) (o : Osc) : (x.setOsc k o).sr = x.sr := by
  cases k <;> rfl

end Sys2Proof.Machine
end

