-- ==== Sys2Proof/Laws/Buffers.lean ====
section
/-! SUPPORT. Laws/Buffers.lean: what the operations on the block buffers and on the lists of samples can
do, once each: lengths, words, frames, and that the memory keeps its canonical form. -/

namespace Sys2Proof.Machine

/-! ## Buffers of the memory -/

@[simp] theorem State.length_buf (s : State) (b : Buf) (n : Nat) : (s.buf b n).length = n := by
  simp [State.buf]

@[simp] theorem State.getElem_buf (s : State) (b : Buf) (n i : Nat) (h) :
    (s.buf b n)[i]'h = s.mem.readWord (bufBase b + 4 * i) := by
  simp [State.buf]

/-- The windows of two buffers do not meet. -/
theorem bufBase_apart {b b' : Buf} (h : b ≠ b') :
    bufBase b + 4 * Config.bufSize ≤ bufBase b' ∨ bufBase b' + 4 * Config.bufSize ≤ bufBase b := by
  revert h
  cases b <;> cases b' <;> decide

/-- Every buffer's window lies below DLM. -/
theorem bufBase_below_dlm (b : Buf) : bufBase b + 4 * Config.bufSize ≤ dlmBase := by
  cases b <;> decide

theorem State.wf_setBuf (s : State) (b : Buf) (ws : List F32) (h : s.mem.wf = true) :
    (s.setBuf b ws).mem.wf = true := Memory.wf_writeBlock ws _ h

theorem State.buf_setBuf_self {s : State} (h : s.mem.wf = true) (b : Buf) (ws : List F32) :
    (s.setBuf b ws).buf b ws.length = ws := Memory.readBlock_writeBlock_self h _ ws

theorem State.buf_setBuf_ne (s : State) {b b' : Buf} (hb : b ≠ b') {n : Nat} {ws : List F32}
    (hw : ws.length ≤ Config.bufSize) (hn : n ≤ Config.bufSize) :
    (s.setBuf b ws).buf b' n = s.buf b' n := by
  refine Memory.readBlock_writeBlock_disjoint s.mem ws ?_
  rcases bufBase_apart hb with h | h <;> omega

theorem State.readByte_setBuf (s : State) (b : Buf) (ws : List F32) {a : Nat}
    (h : a < bufBase b ∨ bufBase b + 4 * ws.length ≤ a) :
    (s.setBuf b ws).mem.readByte a = s.mem.readByte a :=
  Memory.readByte_writeBlock_outside ws s.mem h

/-- What writing a buffer does, once: the memory stays canonical, the words written read back, and every
byte outside them is as before. Each step of the block processor is such a write. -/
theorem State.setBuf_spec {s : State} (h : s.mem.wf = true) (b : Buf) (ws : List F32) :
    (s.setBuf b ws).mem.wf = true ∧
    (∀ (i : Nat) (hi : i < ws.length),
      (s.setBuf b ws).mem.readWord (bufBase b + 4 * i) = ws[i]) ∧
    ∀ a, a < bufBase b ∨ bufBase b + 4 * ws.length ≤ a →
      (s.setBuf b ws).mem.readByte a = s.mem.readByte a :=
  ⟨s.wf_setBuf b ws h, Memory.readWord_writeBlock ws _ h, fun _ ha => s.readByte_setBuf b ws ha⟩

/-! ## Lists of samples -/

@[simp] theorem length_uniformFill (n : Nat) (x : Word) : (uniformFill n x).1.length = n := by
  induction n generalizing x with
  | zero => rfl
  | succ n ih => simp [uniformFill, ih]

@[simp] theorem length_gaussFill (r : Nat) : ∀ (n : Nat) (x : Word), (gaussFill r n x).1.length = n
  | 0, _ => rfl
  | 1, _ => rfl
  | n + 2, x => by simp [gaussFill, length_gaussFill r n]

@[simp] theorem length_noiseFill (u : Bool) (n : Nat) (x : Word) :
    (noiseFill u n x).1.length = n := by
  unfold noiseFill
  split <;> simp

@[simp] theorem length_addSamples : ∀ a b : List F32, (addSamples a b).length = a.length
  | [], [] => rfl
  | [], _ :: _ => rfl
  | _ :: _, [] => rfl
  | _ :: a, _ :: b => by simp [addSamples, length_addSamples a b]

/-- A word of the sums: where there is a sample it is added, elsewhere the word stays. -/
theorem getElem_addSamples : ∀ (a b : List F32) (i : Nat) (h : i < a.length),
    (addSamples a b)[i]'(by simpa using h) =
      match b[i]? with
      | some y => fadd a[i] y
      | none => a[i]
  | _ :: _, [], 0, _ => rfl
  | _ :: _, [], _ + 1, _ => rfl
  | _ :: _, _ :: _, 0, _ => rfl
  | _ :: a, _ :: b, i + 1, h => getElem_addSamples a b i (by simpa using h)

theorem length_renderVoices (n : Nat) : ∀ (xs : List Voice) (o : List F32 × List F32),
    (renderVoices n xs o).1.length = xs.length ∧
    (renderVoices n xs o).2.1.length = o.1.length ∧
    (renderVoices n xs o).2.2.length = o.2.length
  | [], _ => ⟨rfl, rfl, rfl⟩
  | x :: xs, o => by
    have h := length_renderVoices n xs
      (addSamples o.1 (Voice.renderRun n x).2, addSamples o.2 (Voice.renderRun n x).2)
    simp [renderVoices, h]

@[simp] theorem length_holdSamples (ws : List F32) (R : Nat) :
    (holdSamples ws R).length = ws.length := by
  unfold holdSamples
  split <;> simp

/-- An idle voice renders nothing and stays as it is. -/
theorem Voice.renderSample_idle {x : Voice} (h : x.playing = false) :
    x.renderSample = { voice := x, sample := posZero, envValue := posZero } := by
  simp [Voice.renderSample, h]

theorem Voice.iterate_idle {x : Voice} (h : x.playing = false) (n : Nat) :
    (fun y : Voice => y.renderSample.voice)^[n] x = x := by
  induction n with
  | zero => rfl
  | succ n ih => rw [Function.iterate_succ_apply, Voice.renderSample_idle h]; exact ih

/-- What a run of renders does, once: the voice is rendered n times (renders of an idle voice change
nothing), and sample i is there exactly while the voice still plays after i of them. -/
theorem Voice.renderRun_spec : ∀ (n : Nat) (x : Voice),
    (Voice.renderRun n x).1 = (fun y : Voice => y.renderSample.voice)^[n] x ∧
    ∀ i, i < n → (Voice.renderRun n x).2[i]? =
      if ((fun y : Voice => y.renderSample.voice)^[i] x).playing then
        some ((fun y : Voice => y.renderSample.voice)^[i] x).renderSample.sample
      else none
  | 0, _ => ⟨rfl, fun _ h => absurd h (Nat.not_lt_zero _)⟩
  | n + 1, x => by
    by_cases hp : x.playing = true
    · obtain ⟨h1, h2⟩ := Voice.renderRun_spec n x.renderSample.voice
      simp only [Voice.renderRun, hp, if_true]
      refine ⟨by rw [h1]; rfl, fun i hi => ?_⟩
      cases i with
      | zero => simp [hp]
      | succ i =>
        rw [List.getElem?_cons_succ, h2 i (by omega)]
        simp only [Function.iterate_succ_apply]
        congr
    · have hq : x.playing = false := by simpa using hp
      simp only [Voice.renderRun, hq, Voice.iterate_idle hq]
      exact ⟨rfl, fun i _ => by simp⟩

/-! ## The PRNG's fills -/

/-- What a uniform fill does, once: value i comes from draw i + 1, and the state moves n draws on. -/
theorem uniformFill_spec : ∀ (n : Nat) (x : Word),
    (uniformFill n x).2 = xorshift^[n] x ∧
    ∀ i, i < n → (uniformFill n x).1[i]? = some (uniformOf (top24 (xorshift^[i + 1] x)))
  | 0, _ => ⟨rfl, fun _ h => absurd h (Nat.not_lt_zero _)⟩
  | n + 1, x => by
    obtain ⟨h1, h2⟩ := uniformFill_spec n (xorshift x)
    refine ⟨by rw [uniformFill, h1, Function.iterate_succ_apply], fun i hi => ?_⟩
    cases i with
    | zero => simp only [uniformFill, List.getElem?_cons_zero, Function.iterate_one, Nat.zero_add]
    | succ i =>
      rw [uniformFill, List.getElem?_cons_succ, h2 i (by omega)]
      simp only [Function.iterate_succ_apply]

/-- What a Gaussian fill does, once: pair j gives values 2j and 2j + 1, and the state moves on by the
pairs that are needed. -/
theorem gaussFill_spec (r : Nat) : ∀ (n : Nat) (x : Word),
    (gaussFill r n x).2 = (fun y => (gaussPair r y).2)^[(n + 1) / 2] x ∧
    ∀ i, i < n → (gaussFill r n x).1[i]? =
      some (if i % 2 = 0 then (gaussPair r ((fun y => (gaussPair r y).2)^[i / 2] x)).1.1
        else (gaussPair r ((fun y => (gaussPair r y).2)^[i / 2] x)).1.2)
  | 0, _ => ⟨rfl, fun _ h => absurd h (Nat.not_lt_zero _)⟩
  | 1, _ => by
    refine ⟨by simp [gaussFill], fun i h => ?_⟩
    obtain rfl : i = 0 := by omega
    simp [gaussFill]
  | n + 2, x => by
    obtain ⟨h1, h2⟩ := gaussFill_spec r n (gaussPair r x).2
    refine ⟨?_, fun i hi => ?_⟩
    · rw [show (n + 2 + 1) / 2 = (n + 1) / 2 + 1 by omega, gaussFill, h1,
        Function.iterate_succ_apply]
    · match i, hi with
      | 0, _ => simp [gaussFill]
      | 1, _ => simp [gaussFill]
      | i + 2, hi =>
        rw [show (i + 2) % 2 = i % 2 by omega, show (i + 2) / 2 = i / 2 + 1 by omega, gaussFill,
          List.getElem?_cons_succ, List.getElem?_cons_succ, h2 i (by omega)]
        simp only [Function.iterate_succ_apply]

end Sys2Proof.Machine
end

