-- ==== Sys2Proof/Laws/Ops.lean ====
section
/-! SUPPORT. Laws/Ops.lean: what each shared operation can answer, once (an inversion lemma each), and
the cases of one step. -/

namespace Sys2Proof.Machine

/-! ## Completion and errors -/

@[simp] theorem finish_eq (s : State) : finish s = .next s.complete := rfl

@[simp] theorem finish0_eq (r0 : Word) (s : State) :
    finish0 r0 s = .next ({ s with result0 := r0 } : State).complete := rfl

@[simp] theorem finish2_eq (r0 r1 : Word) (s : State) :
    finish2 r0 r1 s = .next ({ s with result0 := r0, result1 := r1 } : State).complete := rfl

@[simp] theorem raise_eq (c : Cause) (s : State) : raise c s = .next (s.recordError c).complete := rfl

@[simp] theorem raiseFault_eq (c : Cause) (s : State) :
    raiseFault c s = .next (s.recordFault c).complete := rfl

@[simp] theorem rejectWord_eq (e : DecodeError) (s : State) :
    rejectWord e s = .next (s.recordError (causeOf e)).complete := rfl

theorem finish_next {s t : State} : finish s = .next t ↔ t = s.complete := by
  rw [finish_eq]; exact ⟨fun h => (Host.Outcome.next.inj h).symm, fun h => h ▸ rfl⟩

/-! ## Checks -/

theorem whenPrepared_next {s t : State} {k : Result} (h : whenPrepared s k = .next t) :
    (s.status.prepared = true ∧ k = .next t) ∨
    (s.status.prepared = false ∧ t = (s.recordError .notPrepared).complete) := by
  unfold whenPrepared at h
  split at h
  · exact .inl ⟨by assumption, h⟩
  · exact .inr ⟨Bool.eq_false_iff.2 (by assumption), finish_next.1 h⟩

theorem whenInRange_next {ok : Bool} {s t : State} {k : Result} (h : whenInRange ok s k = .next t) :
    (ok = true ∧ k = .next t) ∨ (ok = false ∧ t = (s.recordError .argRange).complete) := by
  unfold whenInRange at h
  split at h
  · exact .inl ⟨by assumption, h⟩
  · exact .inr ⟨Bool.eq_false_iff.2 (by assumption), finish_next.1 h⟩

theorem whenCount_next {n : BitVec 16} {s t : State} {k : Result} (h : whenCount n s k = .next t) :
    (n.toNat ≤ Config.bufSize ∧ k = .next t) ∨
    (Config.bufSize < n.toNat ∧ t = (s.recordError .argRange).complete) := by
  rcases whenInRange_next h with ⟨hn, hk⟩ | ⟨hn, ht⟩
  · exact .inl ⟨by simpa using hn, hk⟩
  · exact .inr ⟨by simpa using hn, ht⟩

theorem withVoice_next {v : VoiceNo} {s t : State} {f : Voice → Result}
    (h : withVoice v s f = .next t) :
    (∃ x, v.toNat < Config.numVoices ∧ s.voices[v.toNat]? = some x ∧ f x = .next t) ∨
    (Config.numVoices ≤ v.toNat ∧ t = (s.recordError .illegalField).complete) := by
  unfold withVoice at h
  split at h
  · split at h
    · exact .inl ⟨_, by assumption, by assumption, h⟩
    · cases h
  · exact .inr ⟨by omega, finish_next.1 h⟩

theorem withVoice_of {v : VoiceNo} {s : State} {x : Voice} (f : Voice → Result)
    (hv : v.toNat < Config.numVoices) (hx : s.voices[v.toNat]? = some x) :
    withVoice v s f = f x := by
  rw [withVoice, if_pos hv, hx]

theorem whenPrepared_of {s : State} (k : Result) (h : s.status.prepared = true) :
    whenPrepared s k = k := by
  rw [whenPrepared, if_pos h]

theorem whenInRange_of {ok : Bool} {s : State} (k : Result) (h : ok = true) :
    whenInRange ok s k = k := by
  rw [whenInRange, if_pos h]

theorem whenCount_of {n : BitVec 16} {s : State} (k : Result) (h : n.toNat ≤ Config.bufSize) :
    whenCount n s k = k :=
  whenInRange_of k (by simpa using h)

/-! ## Operands -/

theorem State.operands_running {s : State} {r : Running} (h : s.running = some r) :
    s.operands = r.snap := by
  rw [State.operands, h]

/-! ## Steps -/

/-- What one step can do: a host action that is due; else the completion of the running command, of a
legal or an illegal word; else nothing. -/
theorem step_cases {s t : State} (h : step s = .next t) :
    (∃ e es, s.host = e :: es ∧ (s.running = none ∨ e.early = true) ∧
      t = ({ s with host := es } : State).hostAct e.action) ∨
    (∃ r i, s.nextAction = none ∧ s.running = some r ∧ decode r.word = .ok i ∧ exec i s = .next t) ∨
    (∃ r e, s.nextAction = none ∧ s.running = some r ∧ decode r.word = .error e ∧
      t = (s.recordError (causeOf e)).complete) ∨
    (s.host = [] ∧ s.running = none ∧ t = s) := by
  unfold step at h
  split at h
  · rename_i a rest hn
    cases h
    unfold State.nextAction at hn
    split at hn
    · cases hn
    · rename_i e es he
      split at hn
      · cases hn
      · cases hn
        refine .inl ⟨e, _, he, ?_, rfl⟩
        rename_i hb
        cases hr : s.running with
        | none => exact .inl rfl
        | some r =>
          refine .inr ?_
          simpa [State.busy, hr] using hb
  · rename_i hn
    split at h
    · rename_i r hr
      unfold fetch at h
      split at h
      · exact .inr (.inl ⟨r, _, hn, hr, by assumption, h⟩)
      · exact .inr (.inr (.inl ⟨r, _, hn, hr, by assumption, finish_next.1 h⟩))
    · rename_i hr
      cases h
      refine .inr (.inr (.inr ⟨?_, hr, rfl⟩))
      unfold State.nextAction at hn
      split at hn
      · assumption
      · split at hn
        · rename_i hb; simp [State.busy, hr] at hb
        · cases hn

/-- A command that runs with no host action due is what the step executes. -/
theorem step_running {s : State} {r : Running} {i : Instr} (hn : s.nextAction = none)
    (hr : s.running = some r) (hd : decode r.word = .ok i) : step s = exec i s := by
  simp [step, hn, hr, fetch, hd]

/-- What a write to a register can do. -/
theorem State.writeIdle_cases (s idle : State) :
    (s.busy = false ∧ s.writeIdle idle = idle) ∨
    (s.busy = true ∧ s.writeIdle idle = s.recordError .busyWrite) := by
  cases h : s.busy <;> simp [State.writeIdle, h]

/-- What a write to CMD can do. -/
theorem State.issue_cases (s : State) (c : Word) :
    (s.running = none ∧ s.issue c = { s with running := some ⟨c, s.snapNow⟩ }) ∨
    (s.running ≠ none ∧ s.issue c = s.recordError .cmdBusy) := by
  cases h : s.running <;> simp [State.issue, State.busy, h]

end Sys2Proof.Machine
end

