-- ==== Sys2Proof/Laws/Bus.lean ====
section
/-! SUPPORT. Laws/Bus.lean: what a bus transaction and a host action can do, once: which address names a
register, what may become of STATUS and of the running command, and how a run of steps unfolds. -/

namespace Sys2Proof.Machine

/-! ## Targets -/

/-- Only a full-word transaction at a mapped address has a target. -/
theorem targetOf_some {w : Width} {a : Addr} {t : Target} (h : targetOf w a = some t) :
    w = .word ∧ a.toNat % 4 = 0 ∧ targetAt a.toNat = some t := by
  unfold targetOf at h
  split at h
  · rename_i hw; exact ⟨hw.1, hw.2, h⟩
  · cases h

/-- A register is reached at its own offset only. -/
theorem targetAt_reg {a : Nat} {r : Reg} (h : targetAt a = some (.reg r)) : a = r.offset := by
  unfold targetAt at h
  split at h
  · rename_i hf
    cases h
    have hb := List.find?_some hf
    exact (beq_iff_eq.1 hb).symm
  all_goals (repeat' split at h) <;> cases h

/-- A transaction that reaches a register is a full word at the register's offset. -/
theorem targetOf_reg {w : Width} {a : Addr} {r : Reg} (h : targetOf w a = some (.reg r)) :
    w = .word ∧ a = BitVec.ofNat 20 r.offset := by
  obtain ⟨hw, _, ht⟩ := targetOf_some h
  refine ⟨hw, BitVec.eq_of_toNat_eq ?_⟩
  rw [targetAt_reg ht]
  cases r <;> rfl

/-! ## Transactions -/

/-- Everything a bus read can do: a bus error, a free value, or the content. -/
theorem State.busRead_cases (s : State) (w : Width) (a : Addr) :
    (targetOf w a = none ∧ s.busRead w a = { s.recordError .busErr with readData := 0#32 }) ∨
    (∃ t, targetOf w a = some t ∧ s.busy = true ∧ t.openWhileBusy = true ∧
      s.busRead w a = { s with readData := Config.busyRead s.draws, draws := s.draws + 1 }) ∨
    (∃ t, targetOf w a = some t ∧ (s.busy = false ∨ t.openWhileBusy = false) ∧
      s.busRead w a = { s with readData := s.readTarget t }) := by
  unfold State.busRead
  split
  · rename_i t ht
    split
    · rename_i hb
      simp only [Bool.and_eq_true] at hb
      exact .inr (.inl ⟨t, ht, hb.1, hb.2, rfl⟩)
    · rename_i hb
      refine .inr (.inr ⟨t, ht, ?_, rfl⟩)
      cases h1 : s.busy <;> cases h2 : t.openWhileBusy <;> simp_all
  · rename_i ht; exact .inl ⟨ht, rfl⟩

/-- A recorded error leaves everything but STATUS. -/
theorem State.recordError_eq (s : State) (c : Cause) :
    s.recordError c = { s with status := s.status.recordError c } := rfl

/-- What a host action can do to STATUS: a hardware reset; a write-one-to-clear of STATUS; nothing; or
the record of an error. -/
theorem State.hostAct_status (s : State) (a : HostAction) :
    a = .hardReset ∨
    (∃ v, a = .write .word 0x00008#20 v ∧
      s.hostAct a = { s with status := s.status.writeClear v }) ∨
    (s.hostAct a).status = s.status ∨
    ∃ c, c ≠ Cause.none ∧ (s.hostAct a).status = s.status.recordError c := by
  have idle (u : State) (hu : u.status = s.status) :
      (s.writeIdle u).status = s.status ∨
      ∃ c, c ≠ Cause.none ∧ (s.writeIdle u).status = s.status.recordError c := by
    rcases s.writeIdle_cases u with ⟨_, h⟩ | ⟨_, h⟩
    · exact .inl (by rw [h, hu])
    · exact .inr ⟨.busyWrite, by decide, by rw [h]; rfl⟩
  cases a with
  | hardReset => exact .inl rfl
  | read w a =>
    refine .inr (.inr ?_)
    show (s.busRead w a).status = _ ∨ ∃ c, _ ∧ (s.busRead w a).status = _
    rcases s.busRead_cases w a with ⟨_, h⟩ | ⟨t, _, _, _, h⟩ | ⟨t, _, _, h⟩
    · exact .inr ⟨.busErr, by decide, by rw [h]; rfl⟩
    · exact .inl (by rw [h])
    · exact .inl (by rw [h])
  | write w a v =>
    cases ht : targetOf w a with
    | none =>
      exact .inr (.inr (.inr ⟨.busErr, by decide, by simp [State.hostAct, State.busWrite, ht]⟩))
    | some t =>
      have hs : s.hostAct (.write w a v) = s.writeTarget t v := by
        simp [State.hostAct, State.busWrite, ht]
      rw [hs]
      cases t with
      | reg r =>
        cases r
        case status =>
          obtain ⟨rfl, rfl⟩ := targetOf_reg ht
          exact .inr (.inl ⟨v, rfl, rfl⟩)
        case cmd =>
          refine .inr (.inr ?_)
          show (s.issue v).status = _ ∨ ∃ c, _ ∧ (s.issue v).status = _
          rcases s.issue_cases v with ⟨_, h⟩ | ⟨_, h⟩
          · exact .inl (by rw [h])
          · exact .inr ⟨.cmdBusy, by decide, by rw [h]; rfl⟩
        case noiseSeed => exact .inr (.inr (idle _ rfl))
        all_goals first
          | exact .inr (.inr (.inl rfl))
          | exact .inr (.inr (.inr ⟨.busErr, by decide, rfl⟩))
      | buf b i => exact .inr (.inr (idle _ rfl))
      | dlm i => exact .inr (.inr (.inr ⟨.busErr, by decide, rfl⟩))

/-- What a host action can do to the running command: abandon it (a hardware reset), start one (a CMD
write while idle), or nothing; and in the last case it leaves the voices and the host's list. -/
theorem State.hostAct_running (s : State) (a : HostAction) :
    (a = .hardReset ∧ (s.hostAct a).running = none) ∨
    (∃ c, s.running = none ∧ a = .write .word 0x0000C#20 c ∧
      s.hostAct a = { s with running := some ⟨c, s.snapNow⟩ }) ∨
    ((s.hostAct a).running = s.running ∧ (s.hostAct a).voices = s.voices ∧
      (s.hostAct a).host = s.host) := by
  have idle (u : State)
      (hu : u.running = s.running ∧ u.voices = s.voices ∧ u.host = s.host) :
      (s.writeIdle u).running = s.running ∧ (s.writeIdle u).voices = s.voices ∧
      (s.writeIdle u).host = s.host := by
    rcases s.writeIdle_cases u with ⟨_, h⟩ | ⟨_, h⟩ <;> rw [h]
    · exact hu
    · exact ⟨rfl, rfl, rfl⟩
  cases a with
  | hardReset => exact .inl ⟨rfl, rfl⟩
  | read w a =>
    refine .inr (.inr ?_)
    show (s.busRead w a).running = _ ∧ (s.busRead w a).voices = _ ∧ (s.busRead w a).host = _
    rcases s.busRead_cases w a with ⟨_, h⟩ | ⟨t, _, _, _, h⟩ | ⟨t, _, _, h⟩ <;> rw [h] <;>
      exact ⟨rfl, rfl, rfl⟩
  | write w a v =>
    cases ht : targetOf w a with
    | none =>
      refine .inr (.inr ?_)
      simp [State.hostAct, State.busWrite, ht]
    | some t =>
      have hs : s.hostAct (.write w a v) = s.writeTarget t v := by
        simp [State.hostAct, State.busWrite, ht]
      rw [hs]
      cases t with
      | reg r =>
        cases r
        case cmd =>
          obtain ⟨rfl, rfl⟩ := targetOf_reg ht
          show _ ∨ (∃ c, _ ∧ _ ∧ s.issue v = _) ∨
            ((s.issue v).running = _ ∧ (s.issue v).voices = _ ∧ (s.issue v).host = _)
          rcases s.issue_cases v with ⟨h0, h⟩ | ⟨_, h⟩
          · exact .inr (.inl ⟨v, h0, rfl, h⟩)
          · rw [h]; exact .inr (.inr ⟨rfl, rfl, rfl⟩)
        case noiseSeed => exact .inr (.inr (idle _ ⟨rfl, rfl, rfl⟩))
        all_goals exact .inr (.inr ⟨rfl, rfl, rfl⟩)
      | buf b i => exact .inr (.inr (idle _ ⟨rfl, rfl, rfl⟩))
      | dlm i => exact .inr (.inr ⟨rfl, rfl, rfl⟩)

/-! ## Runs -/

/-- A run of k + 1 steps is one step and a run of k. -/
theorem core_run_succ {s t : State} {k : Nat} (h : step s = .next t) :
    Sys2Proof.core.run (k + 1) s = Sys2Proof.core.run k t := by
  have h' : Sys2Proof.core.step s = .next t := h
  simp only [Host.Core.run, h']

end Sys2Proof.Machine
end

