-- ==== Sys2Proof/Laws/Exec.lean ====
section
/-! SUPPORT. Laws/Exec.lean: everything a command can answer, once: it records an error or the
geometry fault and changes nothing else, or it has the one effect that its constructor of Effect gives.
Claims about all commands are a case split on Effect. -/

namespace Sys2Proof.Machine

/-- The state a command that does not raise completes from, command by command. -/
inductive Effect (s : State) : Instr → State → Prop where
  | nop : Effect s .nop s
  | prepare (m : BitVec 16) (hr : rateOk s.operands.arg0 = true) (h1 : 1 ≤ m.toNat)
      (h2 : m.toNat ≤ Config.bufSize) :
      Effect s (.prepare m) { (s.mapVoices fun x => x.setRate s.operands.arg0) with
        sampleRate := s.operands.arg0
        maxBlock := m.zeroExtend 32
        status := { s.status with prepared := true } }
  | reset : Effect s .reset s.resetCore
  | pushParams (hp : s.status.prepared = true) :
      Effect s .pushParams (s.pushParams s.operands.knobs.convert)
  | oscSetSr (v : VoiceNo) (k : OscKind) (x : Voice) (hx : s.voices[v.toNat]? = some x)
      (hr : rateOk s.operands.arg0 = true) :
      Effect s (.oscSetSr v k) (s.setVoice v (x.setOsc k ((x.osc k).setSr s.operands.arg0)))
  | oscSetFreq (v : VoiceNo) (k : OscKind) (x : Voice) (hx : s.voices[v.toNat]? = some x) :
      Effect s (.oscSetFreq v k) (s.setVoice v (x.setOsc k ((x.osc k).setFreq s.operands.arg0)))
  | oscProcess (v : VoiceNo) (k : OscKind) (x : Voice) (hx : s.voices[v.toNat]? = some x) :
      Effect s (.oscProcess v k)
        { s.setVoice v (x.setOsc k (x.osc k).process.1) with
          result0 := (x.osc k).process.2, result1 := (x.osc k).process.1.phase }
  | oscSetPw (v : VoiceNo) (k : OscKind) (x : Voice) (hx : s.voices[v.toNat]? = some x) :
      Effect s (.oscSetPw v k)
        (s.setVoice v (x.setOsc k { x.osc k with pw := s.operands.arg0 }))
  | oscSetWave (v : VoiceNo) (k : OscKind) (w : Wave) (x : Voice)
      (hx : s.voices[v.toNat]? = some x) :
      Effect s (.oscSetWave v k w) (s.setVoice v (x.setOsc k { x.osc k with wave := w }))
  | oscRead (v : VoiceNo) (k : OscKind) (x : Voice) (hx : s.voices[v.toNat]? = some x) :
      Effect s (.oscRead v k)
        { s with result0 := (x.osc k).phase, result1 := (x.osc k).delta }
  | dlSetSize (hn : s.operands.arg0.toNat ≤ Config.delayCap) :
      Effect s .dlSetSize { s with
        dl := { s.dl with size := s.operands.arg0.toNat }
        mem := s.mem.clearRange dlmBase dlmEnd }
  | dlSetDelay (hr : s.dl.indexOk (s.dl.indexFor s.operands.arg0) = true) :
      Effect s .dlSetDelay { s with dl := { s.dl with ridx := s.dl.indexFor s.operands.arg0 } }
  | dlSetFeedback :
      Effect s .dlSetFeedback { s with
        dl := { s.dl with fb := clamp s.operands.arg0 posZero one } }
  | dlProcess (hg : s.dl.geomOk = true) :
      Effect s .dlProcess
        { s.setDlm s.dl.widx (s.delayStored s.operands.arg0) with
          dl := s.dl.advance
          result0 := s.delayRead, result1 := s.delayStored s.operands.arg0 }
  | dlRead :
      Effect s .dlRead { s with result0 := BitVec.ofNat 32 s.dl.widx, result1 := s.dl.ridx }
  | noiseUniform (n : BitVec 16) (hn : n.toNat ≤ Config.bufSize) :
      Effect s (.noiseUniform n) (s.fillNoise true n.toNat)
  | noiseGauss (n : BitVec 16) (hn : n.toNat ≤ Config.bufSize) :
      Effect s (.noiseGauss n) (s.fillNoise false n.toNat)
  | envNoteOn (v : VoiceNo) (x : Voice) (hx : s.voices[v.toNat]? = some x) :
      Effect s (.envNoteOn v) (s.setEnv v x (x.env.trigger s.operands.env x.sr))
  | envNoteOff (v : VoiceNo) (x : Voice) (hx : s.voices[v.toNat]? = some x) :
      Effect s (.envNoteOff v) (s.setEnv v x (x.env.noteOff s.operands.env x.sr))
  | envNext (v : VoiceNo) (x : Voice) (hx : s.voices[v.toNat]? = some x) :
      Effect s (.envNext v)
        { s.setEnv v x x.env.advance with
          result0 := x.env.output, result1 := x.env.advance.stage.code.zeroExtend 32 }
  | envRead (v : VoiceNo) (x : Voice) (hx : s.voices[v.toNat]? = some x) :
      Effect s (.envRead v)
        { s with result0 := x.env.level, result1 := x.env.stage.code.zeroExtend 32 }
  | envReset (v : VoiceNo) (x : Voice) (hx : s.voices[v.toNat]? = some x) :
      Effect s (.envReset v) (s.setEnv v x x.env.toIdle)
  | noteOn (note velocity : BitVec 7) (v : Nat) (stolen : Bool) (hp : s.status.prepared = true)
      (ha : allocVoice s.voices = some (v, stolen)) :
      Effect s (.noteOn note velocity) { s with
        voices := s.voices.modify v (·.noteOn note s.operands.env)
        result0 := BitVec.ofNat 32 v, result1 := if stolen then 1#32 else 0#32 }
  | noteDropped (note velocity : BitVec 7) (hp : s.status.prepared = true)
      (ha : allocVoice s.voices = none) :
      Effect s (.noteOn note velocity) { s with
        status := { s.status with noteDrop := true }
        result0 := 0xFFFFFFFF#32, result1 := 0#32 }
  | noteOff (note : BitVec 7) (hp : s.status.prepared = true) :
      Effect s (.noteOff note)
        { (s.mapVoices fun x => if x.matchesOff note then x.noteOff s.operands.env else x) with
          result0 := BitVec.ofNat 32 (s.voices.countP (Voice.matchesOff note)) }
  | voiceRender (v : VoiceNo) (x : Voice) (hx : s.voices[v.toNat]? = some x)
      (hp : s.status.prepared = true) :
      Effect s (.voiceRender v)
        { s.setVoice v x.renderSample.voice with
          result0 := x.renderSample.sample, result1 := x.renderSample.envValue }
  | bankRender (n : BitVec 16) (hp : s.status.prepared = true) (hn : n.toNat ≤ Config.bufSize) :
      Effect s (.bankRender n) (s.renderBank n.toNat)
  | voiceRead (v : VoiceNo) (x : Voice) (hx : s.voices[v.toNat]? = some x) :
      Effect s (.voiceRead v) { s with result0 := x.readWord, result1 := x.base }
  | quantize (b : BitVec 16) :
      Effect s (.quantize b)
        { s with result0 := quant s.operands.arg0 (clampDepth b.toNat) }
  | decimate (n : BitVec 16) (hn : n.toNat ≤ Config.bufSize) :
      Effect s (.decimate n) (s.decimateOut n.toNat s.operands.arg0.toNat)
  | noiseMix (n : BitVec 16) (hn : n.toNat ≤ Config.bufSize) :
      Effect s (.noiseMix n) (s.mixNoise n.toNat)
  | noiseScale (n : BitVec 16) (hn : n.toNat ≤ Config.bufSize) :
      Effect s (.noiseScale n)
        { s.scaleNoise n.toNat (noiseGain (clamp s.operands.arg0 posZero hundred)) with
          result0 := noiseGain (clamp s.operands.arg0 posZero hundred) }
  | block (n : BitVec 16) (hp : s.status.prepared = true) (hn : n.toNat ≤ s.maxBlock.toNat) :
      Effect s (.block n)
        { (s.blockRender n.toNat s.operands).blockPost n.toNat s.operands.knobs.convert with
          result0 := BitVec.ofNat 32 (s.blockRender n.toNat s.operands).playingCount
          result1 := noiseGain s.operands.knobs.convert.noise }

/-- What a command answers: an error recorded, the geometry fault recorded, or its effect completed. -/
def Answers (i : Instr) (s t : State) : Prop :=
  (∃ c, c ≠ Cause.none ∧ c ≠ Cause.dlGeometry ∧ t = (s.recordError c).complete) ∨
  (i = .dlProcess ∧ s.dl.geomOk = false ∧ t = (s.recordFault .dlGeometry).complete) ∨
  ∃ u, Effect s i u ∧ t = u.complete

theorem Answers.of_effect {i : Instr} {s t u : State} (h : finish u = .next t) (he : Effect s i u) :
    Answers i s t :=
  .inr (.inr ⟨u, he, finish_next.1 h⟩)

theorem Answers.of_voice {i : Instr} {v : VoiceNo} {s t : State} {f : Voice → Result}
    (h : withVoice v s f = .next t)
    (hf : ∀ x, s.voices[v.toNat]? = some x → f x = .next t → Answers i s t) : Answers i s t := by
  rcases withVoice_next h with ⟨x, _, hx, h⟩ | ⟨_, h⟩
  · exact hf x hx h
  · exact .inl ⟨.illegalField, by decide, by decide, h⟩

theorem Answers.of_range {i : Instr} {ok : Bool} {s t : State} {k : Result}
    (h : whenInRange ok s k = .next t) (hf : ok = true → k = .next t → Answers i s t) :
    Answers i s t := by
  rcases whenInRange_next h with ⟨ho, h⟩ | ⟨_, h⟩
  · exact hf ho h
  · exact .inl ⟨.argRange, by decide, by decide, h⟩

theorem Answers.of_count {i : Instr} {n : BitVec 16} {s t : State} {k : Result}
    (h : whenCount n s k = .next t)
    (hf : n.toNat ≤ Config.bufSize → k = .next t → Answers i s t) : Answers i s t :=
  .of_range h fun ho => hf (by simpa using ho)

theorem Answers.of_prepared {i : Instr} {s t : State} {k : Result} (h : whenPrepared s k = .next t)
    (hf : s.status.prepared = true → k = .next t → Answers i s t) : Answers i s t := by
  rcases whenPrepared_next h with ⟨ho, h⟩ | ⟨_, h⟩
  · exact hf ho h
  · exact .inl ⟨.notPrepared, by decide, by decide, h⟩

/-- Everything a command can answer with a next state. -/
theorem exec_answers {i : Instr} {s t : State} (h : exec i s = .next t) : Answers i s t := by
  cases i with
  | nop => exact .of_effect h .nop
  | prepare m =>
    refine .of_range h fun hr h => .of_range h fun hm h => ?_
    simp only [Bool.and_eq_true, decide_eq_true_eq] at hm
    exact .of_effect h (.prepare m hr hm.1 hm.2)
  | reset => exact .of_effect h .reset
  | pushParams => exact .of_prepared h fun hp h => .of_effect h (.pushParams hp)
  | oscSetSr v k =>
    exact .of_voice h fun x hx h => .of_range h fun hr h => .of_effect h (.oscSetSr v k x hx hr)
  | oscSetFreq v k => exact .of_voice h fun x hx h => .of_effect h (.oscSetFreq v k x hx)
  | oscProcess v k => exact .of_voice h fun x hx h => .of_effect h (.oscProcess v k x hx)
  | oscSetPw v k => exact .of_voice h fun x hx h => .of_effect h (.oscSetPw v k x hx)
  | oscSetWave v k w => exact .of_voice h fun x hx h => .of_effect h (.oscSetWave v k w x hx)
  | oscRead v k => exact .of_voice h fun x hx h => .of_effect h (.oscRead v k x hx)
  | dlSetSize => exact .of_range h fun hn h => .of_effect h (.dlSetSize (by simpa using hn))
  | dlSetDelay => exact .of_range h fun hr h => .of_effect h (.dlSetDelay hr)
  | dlSetFeedback => exact .of_effect h .dlSetFeedback
  | dlProcess =>
    change execDlProcess s = .next t at h
    rw [execDlProcess] at h
    split at h
    · exact .of_effect h (.dlProcess (by assumption))
    · exact .inr (.inl ⟨rfl, Bool.eq_false_iff.2 (by assumption), finish_next.1 h⟩)
  | dlRead => exact .of_effect h .dlRead
  | noiseUniform n => exact .of_count h fun hn h => .of_effect h (.noiseUniform n hn)
  | noiseGauss n => exact .of_count h fun hn h => .of_effect h (.noiseGauss n hn)
  | envNoteOn v => exact .of_voice h fun x hx h => .of_effect h (.envNoteOn v x hx)
  | envNoteOff v => exact .of_voice h fun x hx h => .of_effect h (.envNoteOff v x hx)
  | envNext v => exact .of_voice h fun x hx h => .of_effect h (.envNext v x hx)
  | envRead v => exact .of_voice h fun x hx h => .of_effect h (.envRead v x hx)
  | envReset v => exact .of_voice h fun x hx h => .of_effect h (.envReset v x hx)
  | noteOn note velocity =>
    refine .of_prepared h fun hp h => ?_
    split at h
    · exact .of_effect h (.noteDropped note velocity hp (by assumption))
    · exact .of_effect h (.noteOn note velocity _ _ hp (by assumption))
  | noteOff note => exact .of_prepared h fun hp h => .of_effect h (.noteOff note hp)
  | voiceRender v =>
    exact .of_voice h fun x hx h => .of_prepared h fun hp h => .of_effect h (.voiceRender v x hx hp)
  | bankRender n =>
    exact .of_prepared h fun hp h => .of_count h fun hn h => .of_effect h (.bankRender n hp hn)
  | voiceRead v => exact .of_voice h fun x hx h => .of_effect h (.voiceRead v x hx)
  | quantize b => exact .of_effect h (.quantize b)
  | decimate n => exact .of_count h fun hn h => .of_effect h (.decimate n hn)
  | noiseMix n => exact .of_count h fun hn h => .of_effect h (.noiseMix n hn)
  | noiseScale n => exact .of_count h fun hn h => .of_effect h (.noiseScale n hn)
  | block n =>
    exact .of_prepared h fun hp h => .of_range h fun hn h =>
      .of_effect h (.block n hp (by simpa using hn))

end Sys2Proof.Machine
end

