-- ==== Sys2Proof/Laws/Float.lean ====
section
/-! SUPPORT. Laws/Float.lean: the magnitudes of binary32 grow with their bits, the order of the
comparisons is the order of the values, and rounding once gives the nearest value, ties to even. -/

namespace Sys2Proof.Machine

/-! ## Magnitudes -/

theorem mag_lt (x : F32) : mag x < 2 ^ 31 := Nat.mod_lt _ (by norm_num)

/-- A magnitude given by its exponent and its significand. -/
theorem unitsOfMag_scale {e r : Nat} (h : (e = 0 ∧ r ≤ 2 ^ 24) ∨ (2 ^ 23 ≤ r ∧ r ≤ 2 ^ 24)) :
    unitsOfMag (e * 2 ^ 23 + r) = r * 2 ^ e := by
  unfold unitsOfMag
  by_cases h1 : r < 2 ^ 23
  · obtain rfl : e = 0 := by omega
    rw [if_pos (by omega)]; simp
  by_cases h2 : r = 2 ^ 24
  · subst h2
    have hd : (e * 2 ^ 23 + 2 ^ 24) / 2 ^ 23 = e + 2 := by omega
    have hm : (e * 2 ^ 23 + 2 ^ 24) % 2 ^ 23 = 0 := by omega
    rw [hd, hm, if_neg (by omega), show e + 2 - 1 = e + 1 by omega, pow_succ]
    ring
  · have hd : (e * 2 ^ 23 + r) / 2 ^ 23 = e + 1 := by omega
    have hm : (e * 2 ^ 23 + r) % 2 ^ 23 = r - 2 ^ 23 := by omega
    rw [hd, hm, if_neg (by omega), show e + 1 - 1 = e by omega,
      show 2 ^ 23 + (r - 2 ^ 23) = r by omega]

theorem unitsOfMag_lt_succ (m : Nat) : unitsOfMag m < unitsOfMag (m + 1) := by
  by_cases h : m < 2 ^ 23
  · have h1 := @unitsOfMag_scale 0 m (.inl ⟨rfl, by omega⟩)
    have h2 := @unitsOfMag_scale 0 (m + 1) (.inl ⟨rfl, by omega⟩)
    simp only [zero_mul, zero_add, pow_zero, mul_one] at h1 h2
    omega
  · have hm : m = (m / 2 ^ 23 - 1) * 2 ^ 23 + (2 ^ 23 + m % 2 ^ 23) := by omega
    have hr : m % 2 ^ 23 < 2 ^ 23 := Nat.mod_lt _ (by norm_num)
    have h1 := @unitsOfMag_scale (m / 2 ^ 23 - 1) (2 ^ 23 + m % 2 ^ 23) (.inr ⟨by omega, by omega⟩)
    have h2 := @unitsOfMag_scale (m / 2 ^ 23 - 1) (2 ^ 23 + m % 2 ^ 23 + 1)
      (.inr ⟨by omega, by omega⟩)
    rw [← hm] at h1
    rw [← Nat.add_assoc, ← hm] at h2
    rw [h1, h2]
    exact Nat.mul_lt_mul_of_pos_right (by omega) (by positivity)

/-- A greater magnitude is a greater value. -/
theorem unitsOfMag_strictMono : StrictMono unitsOfMag := strictMono_nat_of_lt_succ unitsOfMag_lt_succ

@[simp] theorem unitsOfMag_zero : unitsOfMag 0 = 0 := rfl

theorem units_eq_zero {x : F32} : units x = 0 ↔ mag x = 0 :=
  unitsOfMag_strictMono.injective.eq_iff' rfl

/-- The comparisons' order is the order of the exact values. -/
theorem val_lt_val {a b : F32} : val a < val b ↔ orderKey a < orderKey b := by
  have hm := unitsOfMag_strictMono
  have h1 : units a < units b ↔ mag a < mag b := hm.lt_iff_lt
  have h2 : units b < units a ↔ mag b < mag a := hm.lt_iff_lt
  have h3 := @units_eq_zero a
  have h4 := @units_eq_zero b
  unfold val orderKey
  cases isNeg a <;> cases isNeg b <;> simp <;> omega

theorem val_le_val {a b : F32} : val a ≤ val b ↔ orderKey a ≤ orderKey b := by
  rw [← not_lt, ← not_lt, val_lt_val]

theorem val_eq_val {a b : F32} : val a = val b ↔ orderKey a = orderKey b := by
  rw [le_antisymm_iff, le_antisymm_iff, val_le_val, val_le_val]

/-- a < b, for values that are not NaN, is the order of the exact values. -/
theorem flt_iff {a b : F32} (ha : isNaN a = false) (hb : isNaN b = false) :
    flt a b = true ↔ val a < val b := by
  simp [flt, ha, hb, val_lt_val]

theorem fle_iff {a b : F32} (ha : isNaN a = false) (hb : isNaN b = false) :
    fle a b = true ↔ val a ≤ val b := by
  simp [fle, ha, hb, val_le_val]

theorem isNaN_of_flt {a b : F32} (h : flt a b = true) : isNaN a = false ∧ isNaN b = false := by
  simp only [flt, Bool.and_eq_true, Bool.not_eq_true'] at h
  exact h.1

theorem isNaN_of_fle {a b : F32} (h : fle a b = true) : isNaN a = false ∧ isNaN b = false := by
  simp only [fle, Bool.and_eq_true, Bool.not_eq_true'] at h
  exact h.1

theorem isNaN_of_isFinite {x : F32} (h : isFinite x = true) : isNaN x = false := by
  simp only [isFinite, isNaN, decide_eq_true_eq, decide_eq_false_iff_not] at h ⊢
  omega

theorem isInf_of_isFinite {x : F32} (h : isFinite x = true) : isInf x = false := by
  simp only [isFinite, isInf, decide_eq_true_eq, decide_eq_false_iff_not] at h ⊢
  omega

/-! ## Values built from sign and magnitude -/

theorem ofMag_toNat {neg : Bool} {m : Nat} (h : m < 2 ^ 31) :
    (ofMag neg m).toNat = m + (if neg then 2 ^ 31 else 0) := by
  unfold ofMag
  rw [BitVec.toNat_ofNat, Nat.mod_eq_of_lt]
  split <;> omega

theorem mag_ofMag {neg : Bool} {m : Nat} (h : m < 2 ^ 31) : mag (ofMag neg m) = m := by
  rw [mag, ofMag_toNat h]
  split <;> omega

theorem isNeg_ofMag {neg : Bool} {m : Nat} (h : m < 2 ^ 31) : isNeg (ofMag neg m) = neg := by
  rw [isNeg, BitVec.msb_eq_decide, ofMag_toNat h]
  cases neg
  · simp; omega
  · simp

theorem units_ofMag {neg : Bool} {m : Nat} (h : m < 2 ^ 31) :
    units (ofMag neg m) = unitsOfMag m := by
  rw [units, mag_ofMag h]

/-- A value is its sign and its magnitude. -/
theorem ofMag_isNeg_mag (x : F32) : ofMag (isNeg x) (mag x) = x := by
  apply BitVec.eq_of_toNat_eq
  rw [ofMag_toNat (mag_lt x), isNeg, BitVec.msb_eq_decide, mag]
  have := x.isLt
  by_cases h : 2 ^ 31 ≤ x.toNat
  · rw [if_pos (by simpa using h)]; omega
  · rw [if_neg (by simpa using h)]; omega

/-! ## Rounding to nearest -/

/-- The quotient narrowed to nearest is at least as near as any integer, and even in a tie. -/
theorem roundQuotient_nearest {p d : Nat} (hd : 0 < d) (j : Nat) :
    |(roundQuotient .nearestEven p d * d : Int) - p| ≤ |(j * d : Int) - p| ∧
    (|(j * d : Int) - p| = |(roundQuotient .nearestEven p d * d : Int) - p| →
      j ≠ roundQuotient .nearestEven p d → roundQuotient .nearestEven p d % 2 = 0) := by
  have hpd : p = p / d * d + p % d := by rw [Nat.mul_comm]; exact (Nat.div_add_mod p d).symm
  have hr : p % d < d := Nat.mod_lt _ hd
  generalize hn : p / d = n at hpd
  generalize hrr : p % d = r at hpd hr
  have hp : (p : Int) = n * d + r := by rw [hpd]; push_cast; ring
  have hR : roundQuotient .nearestEven p d =
      if 2 * r < d ∨ (2 * r = d ∧ n % 2 = 0) then n else n + 1 := by
    rw [roundQuotient, hn, hrr]
  have hlo : ∀ j : Nat, j ≤ n → (j * d : Int) - p ≤ -(r : Int) ∧
      (j ≠ n → (j * d : Int) - p ≤ -(r : Int) - d) := by
    intro j hj
    refine ⟨?_, fun hne => ?_⟩
    · have : (j * d : Int) ≤ n * d := by exact_mod_cast Nat.mul_le_mul_right d hj
      omega
    · have : ((j + 1) * d : Int) ≤ n * d := by
        exact_mod_cast Nat.mul_le_mul_right d (show j + 1 ≤ n by omega)
      rw [add_mul, one_mul] at this
      omega
  have hhi : ∀ j : Nat, n + 1 ≤ j → (d : Int) - r ≤ (j * d : Int) - p ∧
      (j ≠ n + 1 → (d : Int) - r + d ≤ (j * d : Int) - p) := by
    intro j hj
    refine ⟨?_, fun hne => ?_⟩
    · have : ((n + 1) * d : Int) ≤ j * d := by exact_mod_cast Nat.mul_le_mul_right d hj
      rw [add_mul, one_mul] at this
      omega
    · have : ((n + 1 + 1) * d : Int) ≤ j * d := by
        exact_mod_cast Nat.mul_le_mul_right d (show n + 1 + 1 ≤ j by omega)
      rw [add_mul, add_mul, one_mul] at this
      omega
  rw [hR]
  have h0 : ((n : Nat) * d : Int) - p = -(r : Int) := by rw [hp]; ring
  have h1 : (((n + 1 : Nat) : Int) * d : Int) - p = (d : Int) - r := by rw [hp]; push_cast; ring
  rcases Nat.lt_or_ge n j with hj | hj
  · have hb := hhi j hj
    generalize (j * d : Int) - p = y at hb ⊢
    split
    · rw [h0, abs_neg, abs_of_nonneg (by omega : (0 : Int) ≤ r),
        abs_of_nonneg (by omega : (0 : Int) ≤ y)]
      refine ⟨by omega, fun he hne => ?_⟩
      rename_i hc
      omega
    · rw [h1, abs_of_nonneg (by omega : (0 : Int) ≤ d - r),
        abs_of_nonneg (by omega : (0 : Int) ≤ y)]
      exact ⟨by omega, fun he hne => by have := hb.2 hne; omega⟩
  · have hb := hlo j hj
    generalize (j * d : Int) - p = y at hb ⊢
    split
    · rw [h0, abs_neg, abs_of_nonneg (by omega : (0 : Int) ≤ r),
        abs_of_nonpos (by omega : y ≤ 0)]
      exact ⟨by omega, fun he hne => by have := hb.2 hne; omega⟩
    · rw [h1, abs_of_nonneg (by omega : (0 : Int) ≤ d - r), abs_of_nonpos (by omega : y ≤ 0)]
      refine ⟨by omega, fun he hne => ?_⟩
      rename_i hc
      by_cases hjn : j = n
      · subst hjn; omega
      · have := hb.2 hjn; omega

/-- The magnitude p/q narrowed to nearest, before the overflow to infinity. -/
def nearestMag (p q : Nat) : Nat :=
  spacingExp p q * 2 ^ 23 + roundQuotient .nearestEven p (q * 2 ^ spacingExp p q)

theorem roundMag_eq_min (p q : Nat) : roundMag .nearestEven p q = min (nearestMag p q) infMag := rfl

/-- The scaled quotient of a rounding lies below 2^24, and from 2^23 on where the spacing is not the
least. -/
theorem spacingExp_bounds (p q : Nat) :
    p / (q * 2 ^ spacingExp p q) < 2 ^ 24 ∧
    (spacingExp p q ≠ 0 → 2 ^ 23 ≤ p / (q * 2 ^ spacingExp p q)) := by
  rw [← Nat.div_div_eq_div_mul]
  generalize hn : p / q = n
  have he : spacingExp p q = Nat.log2 n - 23 := by rw [spacingExp, hn]
  rw [he]
  by_cases h : n = 0
  · subst h; simp
  have h1 := Nat.log2_self_le h
  have h2 : n < 2 ^ (Nat.log2 n + 1) := Nat.lt_log2_self
  by_cases h3 : Nat.log2 n ≤ 23
  · rw [show Nat.log2 n - 23 = 0 by omega]
    refine ⟨?_, fun h => absurd rfl h⟩
    simp only [pow_zero, Nat.div_one]
    exact lt_of_lt_of_le h2 (Nat.pow_le_pow_right (by norm_num) (by omega))
  · refine ⟨?_, fun _ => ?_⟩
    · rw [Nat.div_lt_iff_lt_mul (by positivity), ← pow_add]
      exact lt_of_lt_of_le h2 (Nat.pow_le_pow_right (by norm_num) (by omega))
    · rw [Nat.le_div_iff_mul_le (by positivity), ← pow_add]
      exact le_trans (Nat.pow_le_pow_right (by norm_num) (by omega)) h1

theorem roundQuotient_bounds (p d : Nat) :
    p / d ≤ roundQuotient .nearestEven p d ∧ roundQuotient .nearestEven p d ≤ p / d + 1 := by
  simp only [roundQuotient]
  split <;> omega

/-- The narrowed magnitude is the rounded quotient at its spacing. -/
theorem unitsOfMag_nearestMag (p q : Nat) :
    unitsOfMag (nearestMag p q) =
      roundQuotient .nearestEven p (q * 2 ^ spacingExp p q) * 2 ^ spacingExp p q := by
  apply unitsOfMag_scale
  obtain ⟨h1, h2⟩ := spacingExp_bounds p q
  obtain ⟨h3, h4⟩ := roundQuotient_bounds p (q * 2 ^ spacingExp p q)
  by_cases h : spacingExp p q = 0
  · exact .inl ⟨h, by omega⟩
  · exact .inr ⟨le_trans (h2 h) h3, by omega⟩

/-- A magnitude of at least 2^23 spacings is a whole number of them. -/
theorem unitsOfMag_multiple {e k : Nat} (h : 2 ^ 23 * 2 ^ e ≤ unitsOfMag k) :
    ∃ j, unitsOfMag k = j * 2 ^ e := by
  by_cases hk : k < 2 ^ 23
  · have h1 := @unitsOfMag_scale 0 k (.inl ⟨rfl, by omega⟩)
    simp only [zero_mul, zero_add, pow_zero, mul_one] at h1
    have := Nat.one_le_two_pow (n := e)
    have : 2 ^ 23 * 1 ≤ 2 ^ 23 * 2 ^ e := Nat.mul_le_mul_left _ this
    omega
  · have hm : k = (k / 2 ^ 23 - 1) * 2 ^ 23 + (2 ^ 23 + k % 2 ^ 23) := by omega
    have hr : k % 2 ^ 23 < 2 ^ 23 := Nat.mod_lt _ (by norm_num)
    have h1 := @unitsOfMag_scale (k / 2 ^ 23 - 1) (2 ^ 23 + k % 2 ^ 23) (.inr ⟨by omega, by omega⟩)
    rw [← hm] at h1
    have he : e ≤ k / 2 ^ 23 - 1 := by
      by_contra hlt
      have : (2 ^ 23 + k % 2 ^ 23) * 2 ^ (k / 2 ^ 23 - 1) < 2 ^ 24 * 2 ^ (k / 2 ^ 23 - 1) :=
        Nat.mul_lt_mul_of_pos_right (by omega) (by positivity)
      have h2 : 2 ^ 24 * 2 ^ (k / 2 ^ 23 - 1) ≤ 2 ^ 23 * 2 ^ e := by
        rw [← pow_add, ← pow_add]
        exact Nat.pow_le_pow_right (by norm_num) (by omega)
      omega
    refine ⟨(2 ^ 23 + k % 2 ^ 23) * 2 ^ (k / 2 ^ 23 - 1 - e), ?_⟩
    rw [h1, Nat.mul_assoc, ← pow_add, Nat.sub_add_cancel he]

/-- Rounding to nearest, once: no binary32 magnitude is nearer to p/q than the narrowed one, and where
another is as near, the narrowed one has an even last bit. -/
theorem nearestMag_nearest {p q : Nat} (hq : 0 < q) (k : Nat) :
    |(unitsOfMag (nearestMag p q) * q : Int) - p| ≤ |(unitsOfMag k * q : Int) - p| ∧
    (|(unitsOfMag k * q : Int) - p| = |(unitsOfMag (nearestMag p q) * q : Int) - p| →
      k ≠ nearestMag p q → nearestMag p q % 2 = 0) := by
  have hu := unitsOfMag_nearestMag p q
  obtain ⟨hb1, hb2⟩ := spacingExp_bounds p q
  set e := spacingExp p q with he
  set R := roundQuotient .nearestEven p (q * 2 ^ e) with hR
  have hd : 0 < q * 2 ^ e := by positivity
  have hue : (unitsOfMag (nearestMag p q) * q : Int) = R * (q * 2 ^ e : Nat) := by
    rw [hu]; push_cast; ring
  have heven : R % 2 = 0 → nearestMag p q % 2 = 0 := by
    intro h
    unfold nearestMag
    rw [← he, ← hR]; omega
  rw [hue]
  by_cases hk : 2 ^ 23 * 2 ^ e ≤ unitsOfMag k ∨ e = 0
  · have : ∃ j, unitsOfMag k = j * 2 ^ e := by
      rcases hk with hk | hk
      · exact unitsOfMag_multiple hk
      · exact ⟨unitsOfMag k, by rw [hk]; simp⟩
    obtain ⟨j, hj⟩ := this
    have hjd : (unitsOfMag k * q : Int) = j * (q * 2 ^ e : Nat) := by rw [hj]; push_cast; ring
    rw [hjd]
    obtain ⟨h1, h2⟩ := @roundQuotient_nearest p (q * 2 ^ e) hd j
    rw [← hR] at h1 h2
    refine ⟨h1, fun ht hne => heven (h2 ht fun hjR => hne ?_)⟩
    apply unitsOfMag_strictMono.injective
    rw [hj, hu, hjR]
  · have hk1 : unitsOfMag k < 2 ^ 23 * 2 ^ e := by omega
    have hge := hb2 (by omega)
    have h1 := (@roundQuotient_nearest p (q * 2 ^ e) hd (2 ^ 23)).1
    rw [← hR] at h1
    have hlow : 2 ^ 23 * (q * 2 ^ e) ≤ p := (Nat.le_div_iff_mul_le hd).1 hge
    have hlowi : ((2 ^ 23 : Nat) : Int) * (q * 2 ^ e : Nat) ≤ p := by exact_mod_cast hlow
    have hlt : unitsOfMag k * q < 2 ^ 23 * (q * 2 ^ e) := by
      calc unitsOfMag k * q < 2 ^ 23 * 2 ^ e * q := Nat.mul_lt_mul_of_pos_right hk1 hq
        _ = 2 ^ 23 * (q * 2 ^ e) := by ring
    have hlti : (unitsOfMag k * q : Int) < ((2 ^ 23 : Nat) : Int) * (q * 2 ^ e : Nat) := by
      exact_mod_cast hlt
    rw [abs_of_nonpos (by omega : ((2 ^ 23 : Nat) : Int) * (q * 2 ^ e : Nat) - p ≤ 0)] at h1
    rw [abs_of_nonpos (by omega : (unitsOfMag k * q : Int) - p ≤ 0)]
    generalize |(R * (q * 2 ^ e : Nat) : Int) - p| = x at h1 ⊢
    exact ⟨by omega, fun h _ => by omega⟩

/-- An exact magnitude is not changed. -/
theorem nearestMag_exact {q k : Nat} (hq : 0 < q) : nearestMag (unitsOfMag k * q) q = k := by
  have h := (@nearestMag_nearest (unitsOfMag k * q) q hq k).1
  push_cast at h
  rw [sub_self, abs_zero] at h
  have h0 := abs_nonpos_iff.1 h
  apply unitsOfMag_strictMono.injective
  have h1 : (unitsOfMag (nearestMag (unitsOfMag k * q) q) * q : Int) = unitsOfMag k * q := by omega
  have h2 : unitsOfMag (nearestMag (unitsOfMag k * q) q) * q = unitsOfMag k * q := by
    exact_mod_cast h1
  exact Nat.eq_of_mul_eq_mul_right hq h2

theorem roundMag_exact {q k : Nat} (hq : 0 < q) (hk : k ≤ infMag) :
    roundMag .nearestEven (unitsOfMag k * q) q = k := by
  rw [roundMag_eq_min, nearestMag_exact hq, Nat.min_eq_left hk]

theorem roundMag_le (p q : Nat) : roundMag .nearestEven p q ≤ infMag := Nat.min_le_right _ _

/-- What rounding gives, once: the sign asked for and the narrowed magnitude. -/
theorem roundNE_parts (neg : Bool) (p q : Nat) :
    isNeg (roundNE neg p q) = neg ∧ mag (roundNE neg p q) = min (nearestMag p q) infMag := by
  have h : roundMag .nearestEven p q < 2 ^ 31 :=
    lt_of_le_of_lt (roundMag_le p q) (by decide)
  exact ⟨isNeg_ofMag h, mag_ofMag h⟩

theorem isNaN_roundNE (neg : Bool) (p q : Nat) : isNaN (roundNE neg p q) = false := by
  rw [isNaN, (roundNE_parts neg p q).2]
  simp

/-! ## Overflow, signs and the operations -/

theorem unitsOfMag_infMag : unitsOfMag infMag = 33554432 * 2 ^ 252 := by
  have := @unitsOfMag_scale 254 (2^23) (.inr ⟨le_refl _, by norm_num⟩)
  have h : 254 * 2 ^ 23 + 2 ^ 23 = infMag := by decide
  rw [h] at this; rw [this, show (254:Nat) = 2 + 252 by rfl, pow_add]; ring

theorem unitsOfMag_maxMag : unitsOfMag (infMag - 1) = 33554430 * 2 ^ 252 := by
  have := @unitsOfMag_scale 253 (2^24 - 1) (.inr ⟨by norm_num, by norm_num⟩)
  have h : 253 * 2 ^ 23 + (2^24 - 1) = infMag - 1 := by decide
  rw [h] at this; rw [this, show (253:Nat) = 1 + 252 by rfl, pow_add]; ring

/-- Rounding overflows exactly from the midpoint above the largest finite magnitude on. -/
theorem nearestMag_lt_inf {p q : Nat} (hq : 0 < q) :
    nearestMag p q < infMag ↔ p < (2 ^ 25 - 1) * 2 ^ 252 * q := by
  have h1 := nearestMag_nearest (p := p) hq infMag
  have h2 := nearestMag_nearest (p := p) hq (infMag - 1)
  have hmono := unitsOfMag_strictMono
  have hcase : nearestMag p q < infMag →
      unitsOfMag (nearestMag p q) ≤ 33554430 * 2 ^ 252 := fun h => by
      rw [← unitsOfMag_maxMag]; exact hmono.monotone (by omega)
  have hcase' : ¬ nearestMag p q < infMag →
      33554432 * 2 ^ 252 ≤ unitsOfMag (nearestMag p q) := fun h => by
      rw [← unitsOfMag_infMag]; exact hmono.monotone (by omega)
  have hinj : unitsOfMag (nearestMag p q) = 33554430 * 2 ^ 252 →
      nearestMag p q = infMag - 1 := fun h => by
    apply hmono.injective; rw [h, unitsOfMag_maxMag]
  rw [unitsOfMag_infMag] at h1
  rw [unitsOfMag_maxMag] at h2
  have hinf : infMag - 1 < infMag := by decide
  have hodd : (infMag - 1) % 2 = 1 := by decide
  rw [show (2 ^ 25 - 1) * 2 ^ 252 * q = 33554431 * (2 ^ 252 * q) by ring]
  have hT : 0 < 2 ^ 252 := by positivity
  generalize 2 ^ 252 = T at *
  generalize unitsOfMag (nearestMag p q) = U at *
  have hU : (U:Int) * q = ((U * q : Nat) : Int) := by push_cast; rfl
  have e1 : ((33554432 * T : Nat) : Int) * q = 33554432 * ((T * q : Nat) : Int) := by push_cast; ring
  have e2 : ((33554430 * T : Nat) : Int) * q = 33554430 * ((T * q : Nat) : Int) := by push_cast; ring
  rw [hU, e1] at h1
  rw [hU, e2] at h2
  have hD : 0 < T * q := Nat.mul_pos hT hq
  have g1 : nearestMag p q < infMag → U * q ≤ 33554430 * (T * q) := fun h => by
    have := Nat.mul_le_mul_right q (hcase h); rw [Nat.mul_assoc] at this; exact this
  have g2 : ¬ nearestMag p q < infMag → 33554432 * (T * q) ≤ U * q := fun h => by
    have := Nat.mul_le_mul_right q (hcase' h); rw [Nat.mul_assoc] at this; exact this
  have g3 : U * q = 33554430 * (T * q) → nearestMag p q = infMag - 1 := fun h => by
    apply hinj; apply Nat.eq_of_mul_eq_mul_right hq; rw [h]; ring
  generalize T * q = D at *
  generalize U * q = V at *
  constructor
  · intro h
    have := g1 h
    by_contra hp
    have h3 := h1.1; have h4 := h1.2
    by_cases hlt : (p:Int) ≤ 33554432 * D
    · rw [abs_of_nonpos (by omega), abs_of_nonneg (by omega)] at h3
      rw [abs_of_nonneg (by omega), abs_of_nonpos (by omega)] at h4
      have h5 := g3 (by omega)
      have := h4 (by omega) (by omega)
      omega
    · rw [abs_of_nonpos (by omega), abs_of_nonpos (by omega)] at h3
      omega
  · intro h
    by_contra hp
    have := g2 hp
    have h3 := h2.1
    rw [abs_of_nonneg (by omega)] at h3
    rcases abs_cases (33554430 * (D:Int) - p) with ⟨ha, _⟩ | ⟨ha, _⟩ <;> omega

theorem val_signed (neg : Bool) {m : Nat} (h : m < 2 ^ 31) :
    val (ofMag neg m) = if neg then -(unitsOfMag m : Int) else unitsOfMag m := by
  rw [val, isNeg_ofMag h, units_ofMag h]

/-- What rounding a signed magnitude p/q gives, once: never NaN, finite exactly below the overflow
midpoint, and no finite value nearer, with an even last bit in a tie. -/
theorem roundNE_spec {neg : Bool} {p q : Nat} (hq : 0 < q) (exact : Int)
    (he : exact = if neg then -(p : Int) else p) :
    isNaN (roundNE neg p q) = false ∧
    (isFinite (roundNE neg p q) = true ↔ |exact| < (2 ^ 25 - 1) * 2 ^ 252 * (q : Int)) ∧
    (isFinite (roundNE neg p q) = true → ∀ y : F32, isFinite y = true →
      |val (roundNE neg p q) * q - exact| ≤ |val y * q - exact| ∧
      (|val y * q - exact| = |val (roundNE neg p q) * q - exact| →
        val y ≠ val (roundNE neg p q) → mag (roundNE neg p q) % 2 = 0)) := by
  have hmm := (roundNE_parts neg p q).2
  have habs : |exact| = p := by rw [he]; split <;> simp
  have hfin : isFinite (roundNE neg p q) = true ↔ nearestMag p q < infMag := by
    rw [isFinite, hmm]; simp
  refine ⟨isNaN_roundNE _ _ _, ?_, ?_⟩
  · rw [hfin, nearestMag_lt_inf hq, habs]
    have hc : (((2 ^ 25 - 1) * 2 ^ 252 * q : Nat) : Int) = (2 ^ 25 - 1) * 2 ^ 252 * (q : Int) := by
      push_cast; norm_num
    rw [← hc]; exact Int.ofNat_lt.symm
  · intro hf y hy
    rw [hfin] at hf
    have hr : mag (roundNE neg p q) = nearestMag p q := by
      rw [hmm]; exact Nat.min_eq_left (by omega)
    have hneg := (roundNE_parts neg p q).1
    have hv : val (roundNE neg p q) = if neg then -(unitsOfMag (nearestMag p q) : Int)
        else unitsOfMag (nearestMag p q) := by
      rw [val, hneg, units, hr]
    have hvy : val y = if isNeg y then -(unitsOfMag (mag y) : Int) else unitsOfMag (mag y) :=
      rfl
    rw [hv, hr]
    have key : ∀ k : Nat,
        |(unitsOfMag (nearestMag p q) * q : Int) - p| ≤ |(unitsOfMag k * q : Int) - p| ∧ _ :=
      fun k => nearestMag_nearest hq k
    have h0 := key 0
    have hk := key (mag y)
    have q0 : (0:Int) ≤ q := by positivity
    have hU0 : (0:Int) ≤ (unitsOfMag (mag y)) * q := by positivity
    have hP : (0:Int) ≤ p := by positivity
    have main : ∀ Y : Int, Y = (unitsOfMag (mag y) : Int) ∨ Y = -(unitsOfMag (mag y) : Int) →
        |(unitsOfMag (nearestMag p q) : Int) * q - p| ≤ |Y * q - p| ∧
        (|Y * q - p| = |(unitsOfMag (nearestMag p q) : Int) * q - p| →
          Y ≠ unitsOfMag (nearestMag p q) → nearestMag p q % 2 = 0) := by
      intro Y hY
      rcases hY with rfl | rfl
      · refine ⟨hk.1, fun h h' => hk.2 h ?_⟩
        intro hc; rw [hc] at h'; exact h' rfl
      · have e1 : |(-(unitsOfMag (mag y) : Int)) * q - p| = unitsOfMag (mag y) * q + p := by
          rw [abs_of_nonpos (by linarith)]; ring
        have e0 : |((unitsOfMag 0 : Nat) * q : Int) - p| = p := by simp
        rw [e0] at h0
        rw [e1]
        refine ⟨by linarith [h0.1], fun h h' => ?_⟩
        by_cases hz : nearestMag p q = 0
        · rw [hz]
        · refine h0.2 ?_ (Ne.symm hz)
          linarith [h0.1]
    cases neg
    · simp only [Bool.false_eq_true, if_false] at he ⊢
      rw [he]
      refine main (val y) ?_
      rw [hvy]; cases isNeg y <;> simp
    · simp only [if_true] at he ⊢
      rw [he]
      have := main (-val y) (by rw [hvy]; cases isNeg y <;> simp)
      have ea : ∀ a : Int, |a * q - -(p:Int)| = |(-a) * q - p| := by
        intro a; have e : (-a) * (q:Int) - p = -(a * q - -(p:Int)) := by ring
        rw [e, abs_neg]
      rw [ea, ea]
      simp only [neg_neg]
      refine ⟨this.1, fun h h' => this.2 h ?_⟩
      intro hc; apply h'; omega

theorem isNaN_ofMag_zero (n) : isNaN (ofMag n 0) = false := by cases n <;> decide

theorem isFinite_iff {x : F32} : isFinite x = true ↔ mag x < infMag := by simp [isFinite]

/-- Negation flips the value and keeps finiteness. -/
theorem val_fneg (x : F32) : val (fneg x) = - val x ∧ isFinite (fneg x) = isFinite x := by
  have hm : mag (fneg x) = mag x := by
    unfold mag fneg
    rw [BitVec.toNat_xor, Nat.xor_mod_two_pow]
    simp
  have hs : isNeg (fneg x) = !isNeg x := by
    unfold isNeg fneg
    rw [BitVec.msb_xor]; cases x.msb <;> rfl
  constructor
  · unfold val units; rw [hm, hs]; cases isNeg x <;> simp
  · unfold isFinite; rw [hm]

/-- What a finite sum gives, once: never NaN, finite below the overflow midpoint, and nearest. -/
theorem fadd_spec {a b : F32} (ha : isFinite a = true) (hb : isFinite b = true) (r : F32)
    (hr : r = fadd a b) (exact : Int) (he : exact = val a + val b) :
    isNaN r = false ∧
    (isFinite r = true ↔ |exact| < (2 ^ 25 - 1) * 2 ^ 252 * (1 : Int)) ∧
    (isFinite r = true → ∀ y : F32, isFinite y = true →
      |val r * 1 - exact| ≤ |val y * 1 - exact| ∧
      (|val y * 1 - exact| = |val r * 1 - exact| → val y ≠ val r → mag r % 2 = 0)) := by
  subst hr
  unfold fadd
  rw [if_neg (by simp [isNaN_of_isFinite ha, isNaN_of_isFinite hb]),
    if_neg (by simp [isInf_of_isFinite ha]), if_neg (by simp [isInf_of_isFinite hb])]
  simp only []
  split
  · rename_i h0
    rw [h0] at he; subst he
    have hz : ∀ r : F32, r = negZero ∨ r = posZero → isNaN r = false ∧
      (isFinite r = true ↔ |(0:Int)| < (2 ^ 25 - 1) * 2 ^ 252 * (1:Int)) ∧
      (isFinite r = true → ∀ y : F32, isFinite y = true →
        |val r * 1 - 0| ≤ |val y * 1 - 0| ∧
        (|val y * 1 - 0| = |val r * 1 - 0| → val y ≠ val r → mag r % 2 = 0)) := by
      intro r hr
      have : isNaN r = false ∧ isFinite r = true ∧ val r = 0 ∧ mag r = 0 := by
        rcases hr with rfl | rfl <;> decide
      obtain ⟨h1, h2, h3, h4⟩ := this
      have hpos : (0 : Int) < (2 ^ 25 - 1) * 2 ^ 252 * 1 :=
        Int.mul_pos (Int.mul_pos (by norm_num) (Int.pow_pos (by norm_num))) (by norm_num)
      refine ⟨h1, ⟨fun _ => by rw [abs_zero]; exact hpos, fun _ => h2⟩, fun _ y _ => ?_⟩
      rw [h3, h4]; simp
    split
    · exact hz _ (.inl rfl)
    · exact hz _ (.inr rfl)
  · rename_i h0
    have := @roundNE_spec (decide (val a + val b < 0)) (val a + val b).natAbs 1 (by norm_num)
      exact (by
        subst he
        by_cases h : val a + val b < 0
        · simp [h]; rw [abs_of_neg h]; ring
        · simp [h]; rw [abs_of_nonneg (by omega)])
    rw [Nat.cast_one] at this; exact this

/-- What a finite product is: the exact product rounded once. -/
theorem fmul_spec {a b : F32} (ha : isFinite a = true) (hb : isFinite b = true) (exact : Int)
    (he : exact = val a * val b) :
    fmul a b = roundNE (isNeg a != isNeg b) (units a * units b) (2 ^ 149) ∧
    exact = if (isNeg a != isNeg b) then -((units a * units b : Nat) : Int)
      else (units a * units b : Nat) := by
  constructor
  · unfold fmul
    simp [isNaN_of_isFinite ha, isNaN_of_isFinite hb, isInf_of_isFinite ha, isInf_of_isFinite hb]
  · rw [he]; unfold val; cases isNeg a <;> cases isNeg b <;> simp

/-- A sum of at most a value c rounds to at most c. -/
theorem fadd_le {a b c : F32} (ha : isFinite a = true) (hb : isFinite b = true)
    (hc : isFinite c = true) (hf : isFinite (fadd a b) = true) (h : val a + val b ≤ val c) :
    val (fadd a b) ≤ val c := by
  have h1 := ((fadd_spec ha hb _ rfl _ rfl).2.2 hf c hc).1
  simp only [mul_one] at h1
  by_contra hlt
  rw [abs_of_nonneg (by omega), abs_of_nonneg (by omega)] at h1
  omega

/-- A sum from a value c up rounds to c or more. -/
theorem le_fadd {a b c : F32} (ha : isFinite a = true) (hb : isFinite b = true)
    (hc : isFinite c = true) (hf : isFinite (fadd a b) = true) (h : val c ≤ val a + val b) :
    val c ≤ val (fadd a b) := by
  have h1 := ((fadd_spec ha hb _ rfl _ rfl).2.2 hf c hc).1
  simp only [mul_one] at h1
  by_contra hlt
  rw [abs_of_nonpos (by omega), abs_of_nonpos (by omega)] at h1
  omega

theorem units_eq_natAbs (x : F32) : units x = (val x).natAbs := by
  unfold val; split <;> simp

theorem isNeg_eq_of_val {x : F32} (h : val x ≠ 0) : isNeg x = decide (val x < 0) := by
  unfold val at *
  cases hx : isNeg x
  · simp
  · simp [hx] at h ⊢; omega

/-- A value's own units round to it. -/
theorem roundNE_exact {q : Nat} (hq : 0 < q) {c : F32} (hc : isFinite c = true) :
    roundNE (isNeg c) (units c * q) q = c := by
  unfold roundNE units
  rw [roundMag_exact hq (by rw [isFinite_iff] at hc; omega), ofMag_isNeg_mag]

/-- A nonzero sum that is a value is that value. -/
theorem fadd_exact {a b c : F32} (ha : isFinite a = true) (hb : isFinite b = true)
    (hc : isFinite c = true) (h : val a + val b = val c) (h0 : val c ≠ 0) : fadd a b = c := by
  unfold fadd
  rw [if_neg (by simp [isNaN_of_isFinite ha, isNaN_of_isFinite hb]),
    if_neg (by simp [isInf_of_isFinite ha]), if_neg (by simp [isInf_of_isFinite hb])]
  simp only [h, if_neg h0]
  rw [← isNeg_eq_of_val h0, ← units_eq_natAbs]
  simpa using roundNE_exact (q := 1) (by norm_num) hc

/-- A zero sum is -0.0 only of two negative operands. -/
theorem fadd_zero {a b : F32} (ha : isFinite a = true) (hb : isFinite b = true)
    (h : val a + val b = 0) :
    fadd a b = if isNeg a && isNeg b then negZero else posZero := by
  unfold fadd
  rw [if_neg (by simp [isNaN_of_isFinite ha, isNaN_of_isFinite hb]),
    if_neg (by simp [isInf_of_isFinite ha]), if_neg (by simp [isInf_of_isFinite hb])]
  simp only [h, if_true]

/-- A magnitude of at most 2^24 spacings is held by a finite value of either sign. -/
theorem exists_value (neg : Bool) (r e : Nat) (hr : r ≤ 2 ^ 24) (he : e ≤ 252) :
    ∃ c : F32, isFinite c = true ∧ isNeg c = neg ∧ units c = r * 2 ^ e := by
  have : ∃ m, m < infMag ∧ unitsOfMag m = r * 2 ^ e := by
    induction e generalizing r with
    | zero =>
      refine ⟨r, lt_of_le_of_lt hr (by decide), ?_⟩
      have := @unitsOfMag_scale 0 r (.inl ⟨rfl, hr⟩)
      simpa using this
    | succ e ih =>
      by_cases h : r < 2 ^ 23
      · obtain ⟨m, h1, h2⟩ := ih (2 * r) (by omega) (by omega)
        exact ⟨m, h1, by rw [h2, pow_succ]; ring⟩
      · refine ⟨(e + 1) * 2 ^ 23 + r, ?_, unitsOfMag_scale (.inr ⟨by omega, hr⟩)⟩
        have : infMag = 255 * 2 ^ 23 := by decide
        rw [this]; omega
  obtain ⟨m, h1, h2⟩ := this
  have h31 : m < 2 ^ 31 := lt_trans h1 (by decide)
  exact ⟨ofMag neg m, by rw [isFinite_iff, mag_ofMag h31]; exact h1, isNeg_ofMag h31,
    by rw [units_ofMag h31, h2]⟩

/-- A product that is a value is that value. -/
theorem fmul_exact {a b c : F32} (ha : isFinite a = true) (hb : isFinite b = true)
    (hc : isFinite c = true) (hn : isNeg c = (isNeg a != isNeg b))
    (h : units a * units b = units c * 2 ^ 149) : fmul a b = c := by
  rw [(fmul_spec ha hb _ rfl).1, h, ← hn]
  exact roundNE_exact (by positivity) hc

/-- Conversion of an integer up to 2^24 is exact. -/
theorem i2f_spec {n : Nat} (h : n ≤ 2 ^ 24) :
    isFinite (i2f n) = true ∧ isNeg (i2f n) = false ∧ units (i2f n) = n * 2 ^ 149 := by
  obtain ⟨c, h1, h2, h3⟩ := exists_value false n 149 h (by norm_num)
  have : i2f n = c := by
    unfold i2f
    have := roundNE_exact (q := 1) (by norm_num) h1
    rw [h2, h3, mul_one] at this; exact this
  rw [this]; exact ⟨h1, h2, h3⟩

end Sys2Proof.Machine
end

