-- ==== Sys2Proof/Laws/PerInstr.lean ====
section
/-! SUPPORT. Laws/PerInstr.lean: the family FixedBits, one lemma per command: the word the encoder
writes holds, in the bits that the command's row of spec/opcode_table.json fixes (its mask), exactly
the row's value (its match). -/

namespace Sys2Proof.Laws.FixedBits

/-- The encoder keeps the fixed bits of the command's row (30_encoding.md R112, R117). -/
def Statement (i : Instr) : Prop := encode i &&& i.tableMask = i.tableMatch

/-- The fixed bits of a word in the format of R111, from the fields it is built of. -/
theorem fields_and (op : BitVec 8) (v : VoiceNo) (k : BitVec 2) (imm : BitVec 16) (mv : VoiceNo)
    (mk : BitVec 2) (mi : BitVec 16) (h1 : v &&& mv = 0#6) (h2 : k &&& mk = 0#2)
    (h3 : imm &&& mi = 0#16) :
    encodeFields op v k imm &&& encodeFields 0xFF#8 mv mk mi = encodeFields op 0#6 0#2 0#16 := by
  unfold encodeFields
  rw [BitVec.and_append, BitVec.and_append, BitVec.and_append, h1, h2, h3]
  congr 3
  exact BitVec.and_allOnes

theorem nop : Statement .nop := by
  unfold Statement; decide

theorem prepare (m : BitVec 16) : Statement (.prepare m) :=
  fields_and _ _ _ _ 0x3F#6 0x3#2 0x0000#16 (by decide) (by decide) (BitVec.and_zero)

theorem reset : Statement .reset := by
  unfold Statement; decide

theorem pushParams : Statement .pushParams := by
  unfold Statement; decide

theorem oscSetSr (v : VoiceNo) (k : OscKind) : Statement (.oscSetSr v k) :=
  fields_and _ _ _ _ 0x00#6 0x0#2 0xFFFF#16 (BitVec.and_zero) (BitVec.and_zero) (by decide)

theorem oscSetFreq (v : VoiceNo) (k : OscKind) : Statement (.oscSetFreq v k) :=
  fields_and _ _ _ _ 0x00#6 0x0#2 0xFFFF#16 (BitVec.and_zero) (BitVec.and_zero) (by decide)

theorem oscProcess (v : VoiceNo) (k : OscKind) : Statement (.oscProcess v k) :=
  fields_and _ _ _ _ 0x00#6 0x0#2 0xFFFF#16 (BitVec.and_zero) (BitVec.and_zero) (by decide)

theorem oscSetPw (v : VoiceNo) (k : OscKind) : Statement (.oscSetPw v k) :=
  fields_and _ _ _ _ 0x00#6 0x0#2 0xFFFF#16 (BitVec.and_zero) (BitVec.and_zero) (by decide)

theorem oscSetWave (v : VoiceNo) (k : OscKind) (w : Wave) : Statement (.oscSetWave v k w) :=
  fields_and _ _ _ _ 0x00#6 0x0#2 0xFFFC#16 (BitVec.and_zero) (BitVec.and_zero) (by cases w <;> decide)

theorem oscRead (v : VoiceNo) (k : OscKind) : Statement (.oscRead v k) :=
  fields_and _ _ _ _ 0x00#6 0x0#2 0xFFFF#16 (BitVec.and_zero) (BitVec.and_zero) (by decide)

theorem dlSetSize : Statement .dlSetSize := by
  unfold Statement; decide

theorem dlSetDelay : Statement .dlSetDelay := by
  unfold Statement; decide

theorem dlSetFeedback : Statement .dlSetFeedback := by
  unfold Statement; decide

theorem dlProcess : Statement .dlProcess := by
  unfold Statement; decide

theorem dlRead : Statement .dlRead := by
  unfold Statement; decide

theorem noiseUniform (n : BitVec 16) : Statement (.noiseUniform n) :=
  fields_and _ _ _ _ 0x3F#6 0x3#2 0x0000#16 (by decide) (by decide) (BitVec.and_zero)

theorem noiseGauss (n : BitVec 16) : Statement (.noiseGauss n) :=
  fields_and _ _ _ _ 0x3F#6 0x3#2 0x0000#16 (by decide) (by decide) (BitVec.and_zero)

theorem envNoteOn (v : VoiceNo) : Statement (.envNoteOn v) :=
  fields_and _ _ _ _ 0x00#6 0x3#2 0xFFFF#16 (BitVec.and_zero) (by decide) (by decide)

theorem envNoteOff (v : VoiceNo) : Statement (.envNoteOff v) :=
  fields_and _ _ _ _ 0x00#6 0x3#2 0xFFFF#16 (BitVec.and_zero) (by decide) (by decide)

theorem envNext (v : VoiceNo) : Statement (.envNext v) :=
  fields_and _ _ _ _ 0x00#6 0x3#2 0xFFFF#16 (BitVec.and_zero) (by decide) (by decide)

theorem envRead (v : VoiceNo) : Statement (.envRead v) :=
  fields_and _ _ _ _ 0x00#6 0x3#2 0xFFFF#16 (BitVec.and_zero) (by decide) (by decide)

theorem envReset (v : VoiceNo) : Statement (.envReset v) :=
  fields_and _ _ _ _ 0x00#6 0x3#2 0xFFFF#16 (BitVec.and_zero) (by decide) (by decide)

theorem noteOn_zeros (a b : BitVec 7) :
    ((((0#1 ++ b) ++ 0#1) ++ a : BitVec 16) &&& 0x8080#16) = 0#16 := by
  have h : (0x8080#16 : BitVec 16) = (((1#1 ++ 0#7) ++ 1#1) ++ 0#7 : BitVec 16) := by decide
  rw [h, BitVec.and_append, BitVec.and_append, BitVec.and_append]
  simp only [BitVec.and_zero]
  decide

theorem noteOff_zeros (a : BitVec 7) : ((0#9 ++ a : BitVec 16) &&& 0xFF80#16) = 0#16 := by
  have h : (0xFF80#16 : BitVec 16) = (0x1FF#9 ++ 0#7 : BitVec 16) := by decide
  rw [h, BitVec.and_append]
  simp only [BitVec.and_zero]
  decide

theorem noteOn (a : BitVec 7) (b : BitVec 7) : Statement (.noteOn a b) :=
  fields_and _ _ _ _ 0x3F#6 0x3#2 0x8080#16 (by decide) (by decide) (noteOn_zeros a b)

theorem noteOff (a : BitVec 7) : Statement (.noteOff a) :=
  fields_and _ _ _ _ 0x3F#6 0x3#2 0xFF80#16 (by decide) (by decide) (noteOff_zeros a)

theorem voiceRender (v : VoiceNo) : Statement (.voiceRender v) :=
  fields_and _ _ _ _ 0x00#6 0x3#2 0xFFFF#16 (BitVec.and_zero) (by decide) (by decide)

theorem bankRender (n : BitVec 16) : Statement (.bankRender n) :=
  fields_and _ _ _ _ 0x3F#6 0x3#2 0x0000#16 (by decide) (by decide) (BitVec.and_zero)

theorem voiceRead (v : VoiceNo) : Statement (.voiceRead v) :=
  fields_and _ _ _ _ 0x00#6 0x3#2 0xFFFF#16 (BitVec.and_zero) (by decide) (by decide)

theorem quantize (n : BitVec 16) : Statement (.quantize n) :=
  fields_and _ _ _ _ 0x3F#6 0x3#2 0x0000#16 (by decide) (by decide) (BitVec.and_zero)

theorem decimate (n : BitVec 16) : Statement (.decimate n) :=
  fields_and _ _ _ _ 0x3F#6 0x3#2 0x0000#16 (by decide) (by decide) (BitVec.and_zero)

theorem noiseMix (n : BitVec 16) : Statement (.noiseMix n) :=
  fields_and _ _ _ _ 0x3F#6 0x3#2 0x0000#16 (by decide) (by decide) (BitVec.and_zero)

theorem noiseScale (n : BitVec 16) : Statement (.noiseScale n) :=
  fields_and _ _ _ _ 0x3F#6 0x3#2 0x0000#16 (by decide) (by decide) (BitVec.and_zero)

theorem block (n : BitVec 16) : Statement (.block n) :=
  fields_and _ _ _ _ 0x3F#6 0x3#2 0x0000#16 (by decide) (by decide) (BitVec.and_zero)

end Sys2Proof.Laws.FixedBits
end

