-- ==== Sys2Proof/Tests/Slice0.lean ====
section
/-! SUPPORT. Tests/Slice0.lean: named tests with results taken from the spec (95_test_vectors.md unless
another file is named), and one named witness for every statement that has hypotheses: a concrete state
and operands that meet them all, clause by clause, at a boundary where there is one. -/

namespace Sys2Proof.Tests

open Sys2Proof Sys2Proof.Machine

-- One theorem at a time: kernel evaluations that run side by side take too much memory.
set_option Elab.async false

/-! ## Helpers -/

/-- The next state an answer holds. -/
def got : Result → State
  | .next s => s
  | .fault _ => State.reset
  | .refused _ => State.reset

/-- Reset with ARG0 = a. -/
def arg (a : Word) : State := { State.reset with arg0 := a }

/-- A state whose voice 0 is x. -/
def with0 (x : Voice) (s : State) : State := { s with voices := s.voices.set 0 x }

/-- Voice 0. -/
def voice0 (s : State) : Voice := s.voices.headD Voice.reset

/-- The oscillator PRI of voice 0 at the given phase, delta and waveform. -/
def oscAt (phase delta : F32) (w : Wave) : State :=
  with0 { Voice.reset with pri := { Osc.reset w with phase := phase, delta := delta } } State.reset

/-- After PREPARE 4 with ARG0 = 1760.0. -/
def prep : State := got (exec (.prepare 4#16) (arg 0x44DC0000#32))

/-- P2's setup up to its NOTE_ON: PRI square, ENV_* = (0, 0, 0.75, 0). -/
def p2 : State :=
  { got (exec (.oscSetWave 0#6 .pri .square) prep) with
    envRegs := { attack := 0#32, decay := 0#32, sustain := 0x3F400000#32, release := 0#32 } }

/-- P2 with the note on. -/
def p2On : State := got (exec (.noteOn 69#7 100#7) p2)

/-- The envelope e in voice 0, at the sample rate sr. -/
def envAt (sr : F32) (e : Env) : State := with0 { Voice.reset with sr := sr, env := e } State.reset

/-- T-DL's line: S = 4 at indices W and Rd with the gain 0.5 and DLM[0] = 1.0. -/
def line (w : Nat) (rd : F32) : State :=
  { State.reset with dl := { size := 4, widx := w, ridx := rd, fb := 0x3F000000#32 } }.setDlm 0
    0x3F800000#32

/-- OUT0 holding the ramp 0.0, 1.0, ..., 7.0 and R in ARG0. -/
def ramp (R : Word) : State :=
  (arg R).setBuf .out0
    [0#32, 0x3F800000#32, 0x40000000#32, 0x40400000#32, 0x40800000#32, 0x40A00000#32, 0x40C00000#32,
      0x40E00000#32]

/-- A running NOP. -/
def busyNop : State := State.reset.withIssued 0#32

/-! ## Well-formedness: an ill-formed term for each check -/

theorem test_wf_refuses_voice_20 :
    (Instr.oscSetSr 20#6 .pri).wf = false ∧ (Instr.oscSetFreq 20#6 .pri).wf = false ∧
    (Instr.oscProcess 20#6 .det).wf = false ∧ (Instr.oscSetPw 63#6 .lfo).wf = false ∧
    (Instr.oscSetWave 20#6 .pri .sine).wf = false ∧ (Instr.oscRead 20#6 .pri).wf = false ∧
    (Instr.envNoteOn 20#6).wf = false ∧ (Instr.envNoteOff 20#6).wf = false ∧
    (Instr.envNext 63#6).wf = false ∧ (Instr.envRead 20#6).wf = false ∧
    (Instr.envReset 20#6).wf = false ∧ (Instr.voiceRender 20#6).wf = false ∧
    (Instr.voiceRead 20#6).wf = false ∧ (Instr.voiceRead 19#6).wf = true := by decide

/-! ## Decoding: words written out from 30_encoding.md R112 and R117 (T-ENC-1, T-ENC-2) -/

theorem test_decode_control :
    decodeTableWord 32 0x00000000 = some .nop ∧ decodeTableWord 32 0x01000004 = some (.prepare 4#16) ∧
    decodeTableWord 32 0x02000000 = some .reset ∧ decodeTableWord 32 0x03000000 = some .pushParams := by
  decide +kernel

theorem test_decode_oscillator :
    decodeTableWord 32 0x10000000 = some (.oscSetSr 0#6 .pri) ∧
    decodeTableWord 32 0x11000000 = some (.oscSetFreq 0#6 .pri) ∧
    decodeTableWord 32 0x120E0000 = some (.oscProcess 3#6 .lfo) ∧
    decodeTableWord 32 0x124D0000 = some (.oscProcess 19#6 .det) ∧
    decodeTableWord 32 0x13090000 = some (.oscSetPw 2#6 .det) ∧
    decodeTableWord 32 0x14000002 = some (.oscSetWave 0#6 .pri .square) ∧
    decodeTableWord 32 0x15060000 = some (.oscRead 1#6 .lfo) := by decide +kernel

theorem test_decode_delay :
    decodeTableWord 32 0x20000000 = some .dlSetSize ∧ decodeTableWord 32 0x21000000 = some .dlSetDelay ∧
    decodeTableWord 32 0x22000000 = some .dlSetFeedback ∧
    decodeTableWord 32 0x23000000 = some .dlProcess ∧ decodeTableWord 32 0x24000000 = some .dlRead := by
  decide +kernel

theorem test_decode_noise :
    decodeTableWord 32 0x30000003 = some (.noiseUniform 3#16) ∧
    decodeTableWord 32 0x31000004 = some (.noiseGauss 4#16) := by decide +kernel

theorem test_decode_envelope :
    decodeTableWord 32 0x404C0000 = some (.envNoteOn 19#6) ∧
    decodeTableWord 32 0x41040000 = some (.envNoteOff 1#6) ∧
    decodeTableWord 32 0x42000000 = some (.envNext 0#6) ∧
    decodeTableWord 32 0x43080000 = some (.envRead 2#6) ∧
    decodeTableWord 32 0x440C0000 = some (.envReset 3#6) := by decide +kernel

theorem test_decode_voice :
    decodeTableWord 32 0x50006445 = some (.noteOn 69#7 100#7) ∧
    decodeTableWord 32 0x51000045 = some (.noteOff 69#7) ∧
    decodeTableWord 32 0x52000000 = some (.voiceRender 0#6) ∧
    decodeTableWord 32 0x53000004 = some (.bankRender 4#16) ∧
    decodeTableWord 32 0x54140000 = some (.voiceRead 5#6) := by decide +kernel

theorem test_decode_block :
    decodeTableWord 32 0x60000001 = some (.quantize 1#16) ∧
    decodeTableWord 32 0x61000008 = some (.decimate 8#16) ∧
    decodeTableWord 32 0x62000001 = some (.noiseMix 1#16) ∧
    decodeTableWord 32 0x63000002 = some (.noiseScale 2#16) ∧
    decodeTableWord 32 0x64000004 = some (.block 4#16) := by decide +kernel

/-- T-ENC-1's rejected words. -/
theorem test_decode_illegal :
    [0x04000000#32, 0xFFFFFFFF#32, 0x16000000#32, 0x25000000#32, 0x65000000#32].all (fun c =>
      match decode c with | .error .illegalOpcode => true | _ => false) = true ∧
    [0x00000001#32, 0x00800000#32, 0x01010004#32, 0x12030000#32, 0x12500000#32, 0x12000001#32,
      0x14000003#32, 0x14000004#32, 0x20000010#32, 0x31040004#32, 0x40010000#32, 0x50008045#32,
      0x500000C5#32, 0x51000145#32, 0x52500000#32].all (fun c =>
      match decode c with | .error .illegalField => true | _ => false) = true := by decide +kernel

/-- T-ENC-2 and T-ENC-3. -/
theorem test_assemble :
    assembleLine "  OSC_SET_PW v2.DET ; pulse width" = .command (.oscSetPw 2#6 .det) ∧
    assembleLine "DECIMATE 0x8" = .command (.decimate 8#16) ∧ assembleLine "; nothing" = .empty ∧
    assembleLine "NOTE_OFF 128" = .refused ∧ encode (.oscSetPw 2#6 .det) = 0x13090000#32 ∧
    (List.range 4).map (imageByte 0x50006445#32) = [0x45#8, 0x64#8, 0x00#8, 0x50#8] := by
  decide +kernel

/-! ## Arithmetic (00_scope.md R11-R19) -/

/-- Sums and quotients that round, a tie, an overflow, a subnormal and the NaN cases. -/
theorem test_arithmetic :
    fdiv one 0x472C4400#32 = 0x37BE37C6#32 ∧ fadd 0x3F7FFFFF#32 0x33800000#32 = one ∧
    fadd one 0x33800000#32 = one ∧ fadd 0x7F7FFFFF#32 0x7F7FFFFF#32 = 0x7F800000#32 ∧
    fmul 0x00800000#32 half = 0x00400000#32 ∧ fdiv posZero negZero = qNaN ∧
    fsub one one = posZero ∧ fadd negZero negZero = negZero ∧ fsqrt 0x40000000#32 = 0x3FB504F3#32 ∧
    fmod 0xBF400000#32 half = 0xBE800000#32 := by decide +kernel

/-- FN_SIN at 0.25 cycles (E3) and FN_LN at T-NZ-2's u1: both neighbours, whichever is chosen. -/
theorem test_faithful :
    (∀ b, faithful b (sinLower (fracOf 0x3FC90FDB#32)) (sinUpper (fracOf 0x3FC90FDB#32)) ∈
      [0x3F7FFFFF#32, 0x3F800000#32]) ∧
    ∃ b, faithful b (lnLower (units 0x3F07985B#32)) (lnUpper (units 0x3F07985B#32)) =
      0xBF22B063#32 := by decide +kernel

/-! ## Control -/

/-- T-CTL-1. -/
theorem test_nop : (got (exec .nop State.reset)).statusWord = 0x00000002#32 := by decide +kernel

/-- T-CTL-2. -/
theorem test_prepare :
    (prep.sampleRate, prep.maxBlock, prep.statusWord) = (0x44DC0000#32, 4#32, 0x00000006#32) ∧
    (got (exec (.prepare 4097#16) (arg 0x44DC0000#32))).statusWord = 0x0000030A#32 := by
  decide +kernel

/-- T-CTL-3. -/
theorem test_reset :
    got (exec .reset p2On) = { State.reset with status := { Status.reset with done := true } } := by
  decide +kernel

/-- T-CTL-4. -/
theorem test_push_params :
    (let x := voice0 (got (exec .pushParams
      { prep with knobs := { Knobs.reset with detune := 0x41F00000#32, lfoSpeed := 0x43DC0000#32 } }))
     (x.damt, x.lfo.delta)) = (0x41A00000#32, 0x3E68BA2F#32) ∧
    (got (exec .pushParams State.reset)).statusWord = 0x0000040A#32 := by decide +kernel

/-! ## Oscillators -/

/-- T-OSC-12. -/
theorem test_osc_set_sr :
    (voice0 (got (exec (.oscSetSr 0#6 .pri) (arg 1#32)))).pri.sr = 1#32 ∧
    (got (exec (.oscSetSr 0#6 .pri) (arg 0xBF800000#32))).statusWord = 0x0000030A#32 := by
  decide +kernel

/-- T-OSC-6. -/
theorem test_osc_set_freq :
    (voice0 (got (exec (.oscSetFreq 0#6 .pri) (arg 0x3F800000#32)))).pri.delta = 0x37BE37C6#32 := by
  decide +kernel

/-- T-OSC-1 step 2 and T-OSC-9. -/
theorem test_osc_process :
    (let t := got (exec (.oscProcess 0#6 .pri) (oscAt 0x3E800000#32 0x3E800000#32 .triangle))
     (t.result0, t.result1)) = (0xBF000000#32, 0x3F000000#32) ∧
    (got (exec (.oscProcess 0#6 .pri) (oscAt 0#32 0xB2800000#32 .triangle))).result1 = 0#32 := by
  decide +kernel

/-- T-OSC-8. -/
theorem test_osc_wrap :
    (oscAt 0x3F7FFFFF#32 0x3F7FFFFF#32 .square |> voice0 |>.pri.advance.phase) = 0x3F7FFFFE#32 ∧
    (oscAt 0x3E800000#32 0xBF000000#32 .square |> voice0 |>.pri.advance.phase) = 0x3F400000#32 := by
  decide +kernel

/-- T-OSC-3 with pw = NaN. -/
theorem test_osc_set_pw :
    (let s := { oscAt 0#32 0x3E800000#32 .square with arg0 := 0x7FC00000#32 }
     (got (exec (.oscProcess 0#6 .pri) (got (exec (.oscSetPw 0#6 .pri) s)))).result0) =
      0xBF000000#32 := by decide +kernel

/-- The phase stays (40_oscillator.md R154). -/
theorem test_osc_set_wave :
    (let x := voice0 (got (exec (.oscSetWave 0#6 .pri .square) (oscAt 0x3E800000#32 0#32 .sine)))
     (x.pri.wave, x.pri.phase)) = (.square, 0x3E800000#32) := by decide +kernel

/-- T-OSC-5. -/
theorem test_osc_read :
    (let t := got (exec (.oscRead 0#6 .pri) (oscAt 0#32 0x3E800000#32 .triangle))
     (t.result0, t.result1)) = (0#32, 0x3E800000#32) := by decide +kernel

/-! ## Delay line -/

/-- T-DL-11. -/
theorem test_dl_set_size :
    (got (exec .dlSetSize (arg 65537#32))).statusWord = 0x0000030A#32 ∧
    (let t := got (exec .dlSetSize { line 3 0x3F800000#32 with arg0 := 2#32 })
     (t.dl.size, t.dl.widx, t.dlm 0)) = (2, 3, 0#32) := by decide +kernel

/-- T-DL-7. -/
theorem test_dl_set_delay :
    (got (exec .dlSetDelay { line 0 0#32 with arg0 := 0x3DCCCCCD#32 })).dl.ridx = 0x4079999A#32 ∧
    (got (exec .dlSetDelay { line 0 0#32 with arg0 := 0xC0800000#32 })).statusWord =
      0x0000030A#32 := by decide +kernel

/-- T-DL-10. -/
theorem test_dl_set_feedback :
    [0x3FC00000#32, 0xBF800000#32, 0x7FC00000#32, 0x80000000#32].map
      (fun a => (got (exec .dlSetFeedback (arg a))).dl.fb) =
      [0x3F800000#32, 0#32, 0#32, 0x80000000#32] := by decide +kernel

/-- P4 step k = 1, which reads cells 3 and 0. -/
theorem test_dl_process :
    (let t := got (exec .dlProcess (line 1 0x40600000#32))
     (t.result0, t.result1, t.dlm 1, t.dl.widx, t.dl.ridx)) =
      (0x3F000000#32, 0x3E800000#32, 0x3E800000#32, 2, 0x3F000000#32) := by decide +kernel

/-- T-DL-9. -/
theorem test_dl_process_fault :
    (got (exec .dlProcess State.reset)).statusWord = 0x0000051A#32 := by decide +kernel

/-- T-DL-12. -/
theorem test_dl_read :
    (let t := got (exec .dlRead (line 2 0x40200000#32)); (t.result0, t.result1)) =
      (2#32, 0x40200000#32) := by decide +kernel

/-! ## Noise -/

/-- P6: NOISE_UNIFORM 3 from seed 1. -/
theorem test_noise_uniform :
    (let t := got (exec (.noiseUniform 3#16) { State.reset with rng := 1#32 })
     (t.buf .noise 3, t.rng)) =
      ([0xBF7FF7C0#32, 0xBF77EFF4#32, 0x3E6E6540#32], 0x9DCCA8C5#32) := by decide +kernel

/-- T-NZ-3: an odd n takes whole pairs; T-NZ-5: a rejected draw. -/
theorem test_noise_gauss :
    (got (exec (.noiseGauss 3#16) State.reset)).rng = 0x81B3AC98#32 ∧
    (let u := drawU1 8 0x9DAC6942#32; (u.1, (drawU2 u.2).1, (drawU2 u.2).2)) =
      (0x3C840480#32, 0x3D006450#32, 0x08064511#32) := by decide +kernel

/-! ## Envelope -/

/-- T-ENV-2 and T-ENV-5. -/
theorem test_env_note_on :
    (let s := { envAt 0x41200000#32 Env.reset with
       envRegs := ⟨0x3E99999A#32, 0x3DCCCCCD#32, 0x3F800000#32, 0x3DCCCCCD#32⟩ }
     let e := (voice0 (got (exec (.envNoteOn 0#6) s))).env
     (e.aRate, e.dRate, e.stage)) = (0x3EAAAAAB#32, 0#32, .attack) ∧
    (let s := { envAt 0x40800000#32 Env.reset with
       envRegs := ⟨0x7FC00000#32, 0xBF800000#32, 0x3FC00000#32, 0#32⟩ }
     let e := (voice0 (got (exec (.envNoteOn 0#6) s))).env
     (e.level, e.stage)) = (0x3F800000#32, .sustain) := by decide +kernel

/-- T-ENV-6. -/
theorem test_env_note_off :
    (let s := { envAt 0x40800000#32 { Env.reset with stage := .sustain, level := half } with
       envRegs := { EnvRegs.reset with release := half } }
     let e := (voice0 (got (exec (.envNoteOff 0#6) s))).env
     (e.rRate, e.stage)) = (0x3E800000#32, .release) := by decide +kernel

/-- T-ENV-1: the third ENV_NEXT, in DECAY; T-ENV-2: an attack without decay ends in SUSTAIN. -/
theorem test_env_next :
    (let t := got (exec (.envNext 0#6) (envAt one ⟨.decay, one, half, 0x3E800000#32, half, 0#32⟩))
     (t.result0, t.result1)) = (0x3F400000#32, 2#32) ∧
    (let t := got (exec (.envNext 0#6)
       (envAt one ⟨.attack, 0x3F2AAAAB#32, 0x3EAAAAAB#32, 0#32, one, 0#32⟩))
     (t.result0, t.result1)) = (0x3F800000#32, 3#32) := by decide +kernel

/-- T-ENV-8. -/
theorem test_env_read_and_reset :
    (let s := envAt one ⟨.decay, half, half, half, half, 0#32⟩
     ((got (exec (.envRead 0#6) s)).result1,
      (voice0 (got (exec (.envReset 0#6) s))).env)) =
      (2#32, (⟨.idle, 0#32, half, half, half, 0#32⟩ : Env)) := by decide +kernel

/-! ## Voices -/

/-- T-VC-10 and its ROM values. -/
theorem test_note_on :
    (let t := got (exec (.voiceRead 0#6) (got (exec (.noteOn 69#7 100#7) prep)))
     (t.result0, t.result1)) = (0x00014501#32, 0x43DC0000#32) ∧
    (noteFreq 0#7, noteFreq 60#7, noteFreq 127#7) = (0x4102D013#32, 0x4382D013#32, 0x4643FF6A#32) := by
  decide +kernel

/-- T-VC-2: the release of 0 resets the envelope. -/
theorem test_note_off :
    (let t := got (exec (.noteOff 69#7) p2On)
     (t.result0, (voice0 t).releasing, (voice0 t).env.stage)) = (1#32, true, .idle) := by
  decide +kernel

/-- T-VC-1's first sample, and the render that deactivates in T-VC-2. -/
theorem test_voice_render :
    (let t := got (exec (.voiceRender 0#6) p2On); (t.result0, t.result1)) =
      (0x3EC00000#32, 0x3F400000#32) ∧
    (let t := got (exec (.voiceRender 0#6) (got (exec (.noteOff 69#7) p2On)))
     (t.result0, (voice0 t).playing)) = (0#32, false) := by decide +kernel

/-- T-VC-9. -/
theorem test_bank_render :
    (let t := got (exec (.bankRender 4#16) p2On); (t.buf .out0 4, t.buf .out1 4)) =
      ([0x3EC00000#32, 0x3EC00000#32, 0xBEC00000#32, 0x3EC00000#32],
       [0x3EC00000#32, 0x3EC00000#32, 0xBEC00000#32, 0x3EC00000#32]) := by decide +kernel

/-- The READ word of a releasing voice (44_voice.md R277). -/
theorem test_voice_read :
    (Voice.readWord { Voice.reset with
      playing := true, releasing := true, note := 127#7
      env := { Env.reset with stage := .release } }) = 0x00047F03#32 := by decide +kernel

/-! ## Post-processing -/

/-- T-PP-1. -/
theorem test_quantize :
    [(0x3EFFFFFF#32, 1#16), (0xBF400000#32, 1#16), (0xBE99999A#32, 2#16), (0x80000000#32, 4#16),
      (0x7F800000#32, 8#16), (0x3F400000#32, 0#16), (0x3F400000#32, 100#16)].map
      (fun p => (got (exec (.quantize p.2) (arg p.1))).result0) =
      [0#32, 0xBF000000#32, 0xBE800000#32, 0#32, 0x7FC00000#32, 0x3F000000#32, 0x3F400000#32] := by
  decide +kernel

/-- T-PP-5 with R = 3. -/
theorem test_decimate :
    (got (exec (.decimate 8#16) (ramp 3#32))).buf .out0 8 =
      [0#32, 0#32, 0#32, 0x40400000#32, 0x40400000#32, 0x40400000#32, 0x40C00000#32,
        0x40C00000#32] := by decide +kernel

/-- T-PP-7. -/
theorem test_noise_mix :
    (let s := (State.reset.setBuf .noise [half]).setBuf .out0 [half]
     let t := got (exec (.noiseMix 1#16) s)
     (t.buf .noise 1, t.buf .out0 1)) = ([0x3E800000#32], [0x3F400000#32]) := by decide +kernel

/-- T-PP-8 at 150.0, clamped to 100.0, where the gain is exact under any configuration. -/
theorem test_noise_scale :
    (let t := got (exec (.noiseScale 1#16) ((arg 0x43160000#32).setBuf .noise [half]))
     (t.result0, t.buf .noise 1)) = (0x3F800000#32, [half]) := by decide +kernel

/-- P3 with uniform noise at full level. By hand: 0.375 (1 + 0.0593), 0.375 (1 - 0.8331),
-0.375 (1 - 0.4365) and 0.375 (1 + 0.0133) truncate to 0.25, 0, 0 and 0.25, held by two. -/
theorem test_block :
    (let s := { p2On with
       ctrl := { irqEn := false, noiseMode := true }
       knobs := { Knobs.reset with
         noise := 0x42C80000#32, bits := 0x40000000#32, rate := 0x40000000#32 } }
     let t := got (exec (.block 4#16) s)
     (t.buf .out1 4, t.result0, t.result1, t.rng)) =
      ([0x3E800000#32, 0x3E800000#32, 0#32, 0#32], 1#32, 0x3F800000#32, 0x81B3AC98#32) := by
  decide +kernel

/-- T-BLK-3. -/
theorem test_block_range : (got (exec (.block 5#16) prep)).statusWord = 0x0000030E#32 := by
  decide +kernel

/-! ## Bus and steps -/

/-- T-BUS-1. -/
theorem test_bus :
    (State.reset.busRead .word 0x04C#20).readData = 0x42000000#32 ∧
    ((State.reset.busWrite .word 0x004#20 0xFFFFFFFF#32).busRead .word 0x004#20).readData = 3#32 ∧
    (State.reset.busWrite .word 0x01C#20 0#32).rng = 0x12345678#32 ∧
    (State.reset.busRead .word 0x14000#20).statusWord = 0x00000608#32 ∧
    (State.reset.busWrite .word 0x40000#20 one).statusWord = 0x00000608#32 := by decide +kernel

/-- T-BUS-2. -/
theorem test_status_clear :
    (let st : Status := ⟨true, true, true, true, true, .dlGeometry⟩
     (st.word false, (st.writeClear 2#32).word false, (st.writeClear 8#32).word false)) =
      (0x0000053E#32, 0x0000053C#32, 0x00000036#32) := by decide +kernel

/-- T-BUS-3, both interleavings of the second CMD write. -/
theorem test_cmd_while_busy :
    [true, false].map (fun early =>
      match Sys2Proof.core.run 4 { State.reset with
        host := [⟨early, .write .word 0x00C#20 0#32⟩, ⟨early, .write .word 0x00C#20 0#32⟩] } with
      | .next t => State.statusWord t
      | _ => 0#32) = [0x0000070A#32, 0x00000002#32] := by decide +kernel

/-- T-ERR-1: the first cause is kept. -/
theorem test_first_cause :
    (match Sys2Proof.core.run 4 { State.reset with
        host := [⟨false, .write .word 0x00C#20 0xFF000000#32⟩,
          ⟨false, .write .word 0x00C#20 0x50006445#32⟩] } with
      | .next t => State.statusWord t
      | _ => 0#32) = 0x0000010A#32 := by decide +kernel

/-- T-ERR-3. -/
theorem test_irq :
    (got (exec .nop { State.reset with ctrl := { irqEn := true, noiseMode := false } })).irq = true := by
  decide +kernel

/-! ## Witnesses: every statement's hypotheses are met -/

/-- The bank with every voice playing. -/
def allPlaying : State :=
  { prep with voices := List.replicate 20 { Voice.reset with playing := true } }

/-- Every voice playing, 7 and 12 releasing at the same level. -/
def tiedRelease : State :=
  { prep with voices := (List.range 20).map fun v =>
      { Voice.reset with playing := true, releasing := decide (v = 7 ∨ v = 12), env.level := half } }

theorem witness_DecodeOfEncode : (Instr.oscSetWave 19#6 .lfo .square).wf = true := by decide

theorem witness_EncodeOfDecode : decode 0x124D0000#32 = .ok (.oscProcess 19#6 .det) := by rfl

theorem witness_IllegalWords :
    (∃ r, (State.reset.withIssued 0xFFFFFFFF#32).running = some r ∧
      (State.reset.withIssued 0xFFFFFFFF#32).nextAction = none ∧
      decode r.word = .error .illegalOpcode) ∧
    ∃ r, (State.reset.withIssued 0x12500000#32).running = some r ∧
      (State.reset.withIssued 0x12500000#32).nextAction = none ∧
      decode r.word = .error .illegalField :=
  ⟨⟨_, rfl, rfl, rfl⟩, _, rfl, rfl, rfl⟩

theorem witness_StepRunsDecodedCommand :
    (∃ r, ({ busyNop with host := [⟨false, .hardReset⟩] } : State).running = some r ∧
      decode r.word = .ok .nop ∧
      ∀ e es, ({ busyNop with host := [⟨false, .hardReset⟩] } : State).host = e :: es →
        e.early = false) ∧
    decode (BitVec.ofNat 32 (0x64001000 % 2 ^ 32)) = .ok (.block 4096#16) ∧
    (∃ e es, ({ busyNop with host := [⟨true, .hardReset⟩] } : State).host = e :: es ∧
      e.early = true) ∧
    ∃ e es, ({ State.reset with host := [⟨false, .hardReset⟩] } : State).host = e :: es ∧
      State.reset.running = none :=
  ⟨⟨_, rfl, rfl, fun _ _ h => by cases h; rfl⟩, rfl, ⟨_, _, rfl, rfl⟩, _, _, rfl, rfl⟩

theorem witness_IdleHoldsState :
    (State.reset.running = none ∧ State.reset.host = []) ∧
    (∃ t, step { State.reset with host := [⟨true, .write .word 0x0000C#20 0#32⟩] } = .next t ∧
      t.running ≠ none) ∧
    busyNop.voices.length = Config.numVoices ∧ busyNop.running ≠ none ∧ busyNop.host = [] :=
  ⟨⟨rfl, rfl⟩, ⟨_, rfl, by decide⟩, by decide, by decide, rfl⟩

theorem witness_EveryCommandCompletes :
    State.reset.voices.length = Config.numVoices ∧ busyNop.running ≠ none ∧
    ∃ s t, step s = .next t ∧ s.status.done = true ∧ t.status.done = false :=
  ⟨by decide, by decide,
    { State.reset with
      status := { Status.reset with done := true }
      host := [⟨false, .write .word 0x00008#20 2#32⟩] }, _, rfl, rfl, rfl⟩

theorem witness_RunningCommandCompletes :
    ∃ s : State, s.voices.length = Config.numVoices ∧ s.running ≠ none ∧ s.host.length = 1 ∧
      ∀ e ∈ s.host, e.action ≠ .hardReset :=
  ⟨{ busyNop with host := [⟨true, .read .word 0x00008#20⟩] }, by decide, by decide, rfl, by decide⟩

theorem witness_SnapshotHidesRegisterWrites :
    ∃ t, Instr.nop ≠ .reset ∧ busyNop.running ≠ none ∧ exec .nop busyNop = .next t :=
  ⟨_, by decide, by decide, rfl⟩

theorem witness_RegistersWrittenOnlyByTheirCommands :
    ∃ t, exec .dlRead State.reset = .next t ∧ Instr.dlRead ≠ .reset ∧
      (∀ m, Instr.dlRead ≠ .prepare m) ∧ Instr.dlRead.drawsNoise = false :=
  ⟨_, rfl, by decide, fun _ => nofun, rfl⟩

theorem witness_OnlyDelayCommandsTouchDelayLine :
    ∃ t, (Instr.noiseMix 4096#16).isDelay = false ∧ Instr.noiseMix 4096#16 ≠ .reset ∧
      ({ State.reset with maxBlock := 4096#32 } : State).maxBlock.toNat ≤ Config.bufSize ∧
      exec (.noiseMix 4096#16) { State.reset with maxBlock := 4096#32 } = .next t :=
  ⟨_, by decide, by decide, by decide, rfl⟩

theorem witness_PushedParameters :
    (∃ t, exec .nop State.reset = .next t ∧ Instr.nop ≠ .reset ∧ Instr.nop ≠ .pushParams ∧
      ∀ n, Instr.nop ≠ .block n) ∧
    (∃ t, exec .pushParams prep = .next t ∧ prep.status.prepared = true ∧ t.voices ≠ []) ∧
    ∃ t, exec (.block 4#16) prep = .next t ∧ (4#16).toNat ≤ prep.maxBlock.toNat := by
  refine ⟨⟨_, rfl, by decide, by decide, fun _ => nofun⟩, ?_, ?_⟩
  · exact ⟨got (exec .pushParams prep), by rfl, by decide +kernel, by decide +kernel⟩
  · exact ⟨got (exec (.block 4#16) prep), by rfl, by decide +kernel⟩

theorem witness_FirstCauseKept :
    ∃ s t, step s = .next t ∧ s.status.err = true ∧ s.running ≠ none :=
  ⟨{ busyNop with status := { Status.reset with err := true, cause := .busErr } }, _, rfl, rfl,
    by decide⟩

theorem witness_RefusedCommandsAreAtomic :
    (∃ t, exec .dlProcess State.reset = .next t ∧ State.reset.status.err = false ∧
      t.status.err = true ∧ t.status.cause = .dlGeometry) ∧
    ∃ t, exec (.noteOn 69#7 100#7) State.reset = .next t ∧ t.status.err = true ∧
      t.status.cause = .notPrepared :=
  ⟨⟨_, rfl, rfl, by decide +kernel, by decide +kernel⟩, _, rfl, by decide +kernel,
    by decide +kernel⟩

theorem witness_ChecksBeforeExecution :
    (Instr.voiceRender 20#6).wf = false ∧
    ((Instr.block 4#16).wf = true ∧ (Instr.block 4#16).needsPrepared = true ∧
      State.reset.status.prepared = false ∧ State.reset.voices.length = Config.numVoices) ∧
    (Config.bufSize < (4097#16).toNat ∧ prep.status.prepared = true) ∧
    prep.maxBlock.toNat < (5#16).toNat ∧
    ((0#16).toNat = 0 ∧ Config.bufSize < (4097#16).toNat ∧
      isFinite (arg 0x7F800000#32).operands.arg0 = false ∧
      flt posZero (arg negZero).operands.arg0 = false) ∧
    ((19#6).toNat < Config.numVoices ∧ State.reset.voices[(19#6).toNat]? = some Voice.reset) ∧
    Config.delayCap < (arg 65537#32).operands.arg0.toNat ∧
    (∃ r, r = fsub (i2f (line 0 0#32).dl.widx) 0xC0800000#32 ∧
      (fle posZero r && flt r (i2f (line 0 0#32).dl.size)) = false) ∧
    ∃ t, exec (.decimate 0#16) State.reset = .next t :=
  ⟨by decide, by decide, by decide +kernel, by decide +kernel, by decide +kernel,
    by decide +kernel, by decide +kernel, ⟨_, rfl, by decide +kernel⟩, _, rfl⟩

theorem witness_OscillatorSetters :
    (19#6).toNat < Config.numVoices ∧ (arg 1#32).voices[(19#6).toNat]? = some Voice.reset ∧
    isFinite (arg 1#32).operands.arg0 = true ∧ flt posZero (arg 1#32).operands.arg0 = true := by
  decide +kernel

/-- T-OSC-8's first row, in TRIANGLE. -/
theorem witness_OscProcessResult :
    (let s := oscAt 0x3F7FFFFF#32 0x3F7FFFFF#32 .triangle
     (0#6).toNat < Config.numVoices ∧ s.voices[(0#6).toNat]? = some (voice0 s) ∧
     0x3FFFFFFF#32 = fadd ((voice0 s).osc .pri).phase ((voice0 s).osc .pri).delta ∧
     fle one 0x3FFFFFFF#32 = true ∧ 0x3F7FFFFE#32 = fsub 0x3FFFFFFF#32 one ∧
     0xB4000000#32 = fsub (fabs (fsub 0x3F7FFFFE#32 half)) half) := by decide +kernel

theorem witness_PhaseInvariantKept :
    ∃ o : Osc, phaseOk o.phase ∧ o.phase = 0x3F7FFFFF#32 ∧ flt (fneg one) o.delta = true ∧
      flt o.delta one = true :=
  ⟨{ Osc.reset .sine with phase := 0x3F7FFFFF#32, delta := 0xBF7FFFFF#32 }, by
    unfold phaseOk; decide +kernel, rfl, by decide +kernel, by decide +kernel⟩

theorem witness_TriangleShape :
    fle posZero posZero = true ∧ flt posZero one = true ∧
    fle posZero 0x3F7FFFFF#32 = true ∧ flt 0x3F7FFFFF#32 one = true := by decide +kernel

theorem witness_ReadCommands :
    (19#6).toNat < Config.numVoices ∧ State.reset.voices[(19#6).toNat]? = some Voice.reset ∧
    0#32 = (match Voice.reset.env.stage with
      | .idle => 0#32
      | .attack => 1#32
      | .decay => 2#32
      | .sustain => 3#32
      | .release => 4#32) := by decide +kernel

theorem witness_DlSetSizeClears : (arg 65536#32).operands.arg0.toNat ≤ Config.delayCap := by
  decide +kernel

theorem witness_DelaySetters :
    (line 0 0#32).dl.size ≤ Config.delayCap ∧ (line 0 0#32).dl.widx < Config.delayCap ∧
    State.reset.dl.size = 0 ∧ isFinite (arg qNaN).operands.arg0 = false := by decide +kernel

/-- The wrap of cell b at S; and each way the geometry can be invalid. -/
theorem witness_DlProcessResult :
    (let s := line 3 0x407FFFFF#32
     1 ≤ s.dl.size ∧ s.dl.size ≤ Config.delayCap ∧ s.dl.widx < s.dl.size ∧
     fle posZero s.dl.ridx = true ∧ flt s.dl.ridx (i2f s.dl.size) = true ∧
     3 = ffloor s.dl.ridx ∧ 0 = (if s.dl.size ≤ 3 + 1 then 0 else 3 + 1)) ∧
    State.reset.dl.size = 0 ∧ (line 4 0#32).dl.size ≤ (line 4 0#32).dl.widx ∧
    fle posZero (line 0 qNaN).dl.ridx = false ∧
    flt (line 0 0x40800000#32).dl.ridx (i2f (line 0 0x40800000#32).dl.size) = false := by
  decide +kernel

/-- The last index of a line of two, the largest index below the excepted one of a line of one, and
the excepted one. -/
theorem witness_GeometryKept :
    (∃ s t : State, s.dl.geomOk = true ∧ s.dl.size = 2 ∧ s.dl.size ≤ Config.delayCap ∧
      exec .dlProcess s = .next t) ∧
    (∃ s t : State, s.dl.geomOk = true ∧ s.dl.size = 1 ∧ s.dl.ridx = 0x3F7FFFFE#32 ∧
      exec .dlProcess s = .next t) ∧
    ∃ s t : State, s.dl.size = 1 ∧ s.dl.widx = 0 ∧ s.dl.ridx = 0x3F7FFFFF#32 ∧
      exec .dlProcess s = .next t :=
  ⟨⟨{ State.reset with dl := ⟨2, 1, 0x3FFFFFFF#32, one⟩ }, _, by decide +kernel, rfl, by decide,
      by rfl⟩,
    ⟨{ State.reset with dl := ⟨1, 0, 0x3F7FFFFE#32, one⟩ }, _, by decide +kernel, rfl, rfl, by rfl⟩,
    { State.reset with dl := ⟨1, 0, 0x3F7FFFFF#32, one⟩ }, _, rfl, rfl, rfl, by rfl⟩

theorem witness_NoiseUniformFills :
    (4096#16).toNat ≤ Config.bufSize ∧ State.reset.mem.wf = true ∧ 4095 < (4096#16).toNat := by
  decide

/-- T-NZ-2's first draws for the pair; the largest odd count. -/
theorem witness_NoiseGaussFills :
    ((drawU1 Config.retryMax Config.seedReset).2 = 0x87985AA5#32 ∧
      (drawU2 0x87985AA5#32).2 = 0x155B24A3#32) ∧
    (4095#16).toNat ≤ Config.bufSize ∧ State.reset.mem.wf = true ∧ 4094 < (4095#16).toNat := by
  decide +kernel

/-- The largest k; a first draw accepted, and one rejected before it; a budget of 8 draws used up, by the
state 0, and a budget of one used up by the nonzero state whose draw is 256, so k = 1. -/
theorem witness_VariateRanges :
    2 ^ 24 - 1 < 2 ^ 24 ∧ (0 < 8 ∧ 2 ≤ (xorshift^[0 + 1] Config.seedReset).toNat / 2 ^ 8) ∧
    (1 < 8 ∧ (∀ i, i < 1 → (xorshift^[i + 1] 0x9DAC6942#32).toNat / 2 ^ 8 ≤ 1) ∧
      2 ≤ (xorshift^[1 + 1] 0x9DAC6942#32).toNat / 2 ^ 8) ∧
    (∀ i, i < 8 → (xorshift^[i + 1] 0#32).toNat / 2 ^ 8 ≤ 1) ∧
    ∀ i, i < 1 → (xorshift^[i + 1] 0x9DAC6942#32).toNat / 2 ^ 8 ≤ 1 := by decide +kernel

/-- T-ENV-1's trigger; the release of T-ENV-6. -/
theorem witness_EnvelopeEvents :
    (let s := { envAt 0x40800000#32 { Env.reset with stage := .sustain, level := half } with
       envRegs := ⟨half, half, half, half⟩ }
     (0#6).toNat < Config.numVoices ∧ s.voices[(0#6).toNat]? = some (voice0 s) ∧
     half = (if isNaN s.operands.env.attack || flt s.operands.env.attack posZero then posZero
       else s.operands.env.attack) ∧
     half = (if flt posZero half then fdiv one (fmul half (voice0 s).sr) else posZero) ∧
     0x3E800000#32 =
       (if flt posZero half then fdiv (fsub one half) (fmul half (voice0 s).sr) else posZero) ∧
     (voice0 s).env.stage ≠ .idle) := by decide +kernel

theorem witness_EnvNextResult :
    (let s := envAt one ⟨.decay, 0x3F400000#32, half, 0x3E800000#32, half, 0x3E800000#32⟩
     (0#6).toNat < Config.numVoices ∧ s.voices[(0#6).toNat]? = some (voice0 s) ∧
     one = fadd (voice0 s).env.level 0x3E800000#32 ∧
     half = fsub (voice0 s).env.level (voice0 s).env.dRate ∧
     fle half (voice0 s).env.sus = true) := by decide +kernel

/-- The last voice is the only idle one; two voices tie for the steal; none is free. -/
theorem witness_NoteOnAllocates :
    (let s := { allPlaying with voices := allPlaying.voices.set 19 Voice.reset }
     s.status.prepared = true ∧ s.voices[19]? = some Voice.reset ∧
     Voice.reset.playing = false ∧ (s.voices.take 19).all (·.playing) = true) ∧
    (tiedRelease.status.prepared = true ∧ tiedRelease.voices.all (·.playing) = true ∧
      (tiedRelease.voices[7]?).map (·.releasing) = some true ∧
      ∀ j < 20, ((tiedRelease.voices[j]?).map (·.releasing)) = some true →
        ¬ j < 7 ∧ (7 < j → (tiedRelease.voices[j]?).map (fun y => fle half y.env.level) =
          some true)) ∧
    (allPlaying.status.prepared = true ∧
      ∀ y ∈ allPlaying.voices, y.playing = true ∧ y.releasing = false) := by decide +kernel

theorem witness_NoteOffReleases : prep.status.prepared = true := by decide +kernel

theorem witness_VoiceRenderResult :
    prep.status.prepared = true ∧ (19#6).toNat < Config.numVoices ∧
    (prep.voices[(19#6).toNat]?).map (·.playing) = some false ∧
    (p2On.voices[(0#6).toNat]?).map (·.playing) = some true := by decide +kernel

theorem witness_BankRenderSums :
    prep.status.prepared = true ∧ (4096#16).toNat ≤ Config.bufSize ∧ prep.mem.wf = true ∧
    4095 < (4096#16).toNat := by decide +kernel

theorem witness_NoteFrequencies :
    isFinite (noteFreq 127#7 + 1#32) = true ∧ 0 ≤ val (noteFreq 127#7 + 1#32) ∧
    val (noteFreq 127#7) < val (noteFreq 127#7 + 1#32) ∧
    val (noteFreq 0#7 - 1#32) < val (noteFreq 0#7) := by decide +kernel

theorem witness_ControlCommands :
    (isFinite (arg 0x7F7FFFFF#32).operands.arg0 = true ∧
      flt posZero (arg 0x7F7FFFFF#32).operands.arg0 = true ∧ 1 ≤ (1#16).toNat ∧
      1 ≤ (4096#16).toNat ∧ (4096#16).toNat ≤ Config.bufSize) ∧
    prep.status.prepared = true := by decide +kernel

theorem witness_QuantizeTruncates :
    (1 ≤ 1 ∧ 1 ≤ 32) ∧ isFinite 0xFF7FFFFF#32 = true ∧ isFinite 0x7F800000#32 = false := by decide

theorem witness_DecimateHolds :
    (4096#16).toNat ≤ Config.bufSize ∧ (ramp 3#32).mem.wf = true ∧ 4095 < (4096#16).toNat := by
  decide +kernel

theorem witness_NoiseMixAndScale :
    (4096#16).toNat ≤ Config.bufSize ∧ (ramp 3#32).mem.wf = true ∧ 4095 < (4096#16).toNat := by
  decide +kernel

theorem witness_BlockPerSample :
    p2On.status.prepared = true ∧ (4#16).toNat ≤ p2On.maxBlock.toNat ∧
    p2On.maxBlock.toNat ≤ Config.bufSize ∧ p2On.mem.wf = true ∧ 3 < (4#16).toNat ∧
    (32 : Int) * 2 ^ 149 ≤ val (clamp p2On.operands.knobs.bits one 0x42000000#32) ∧
    val (clamp p2On.operands.knobs.bits one 0x42000000#32) < (32 + 1) * 2 ^ 149 ∧
    (0 : Int) * 2 ^ 149 ≤ val (clamp p2On.operands.knobs.rate posZero 0x42480000#32) ∧
    val (clamp p2On.operands.knobs.rate posZero 0x42480000#32) < (0 + 1) * 2 ^ 149 := by
  decide +kernel

theorem witness_BlockOfZero : prep.status.prepared = true := by decide +kernel

/-- A rounded sum with the next value above it for y; a finite and an overflowing product; the zero
results; a division by zero; infinite operands with a finite and an infinite one. -/
theorem witness_ArithmeticRoundsToNearest :
    (isFinite one = true ∧ isFinite 0x33800001#32 = true ∧
      0x3F800001#32 = fadd one 0x33800001#32 ∧ isFinite 0x3F800002#32 = true ∧
      isFinite (fmul 0x7F7FFFFF#32 one) = true ∧
      isFinite (fmul 0x7F7FFFFF#32 0x40000000#32) = false ∧ mag 0x33800001#32 ≠ 0) ∧
    (isFinite negZero = true ∧ val negZero + val negZero = 0 ∧ val negZero - val posZero = 0 ∧
      val negZero * val one = 0 ∧ val negZero = 0 ∧ mag one ≠ 0) ∧
    (isNaN one = false ∧ mag negZero = 0) ∧
    isInf 0xFF800000#32 = true ∧ isFinite negZero = true ∧ isInf 0x7F800000#32 = true := by
  decide +kernel

theorem witness_SqrtRoundsToNearest :
    isFinite 1#32 = true ∧ 0 < val 1#32 ∧ isFinite posZero = true ∧ 0 ≤ val posZero ∧
    val posZero < val (fsqrt 1#32) ∧ val (fsqrt 1#32) < val one ∧
    flt 0x80000001#32 posZero = true := by decide +kernel

theorem witness_ExactOperations :
    isFinite 1#32 = true ∧ mag 1#32 ≠ 0 ∧ isFinite 0xFF7FFFFF#32 = true ∧
    isFinite 0xFF800000#32 = false ∧ mag negZero = 0 ∧ 2 ^ 24 - 1 < 2 ^ 24 := by decide

theorem witness_NaNIsCanonical :
    isNaN 0xFFFFFFFF#32 = true ∧ fdiv posZero posZero ∈ [fdiv posZero posZero] ∧
    isNaN (fdiv posZero posZero) = true := by decide +kernel

theorem witness_ClampLaws :
    fle posZero one = true ∧ isNaN qNaN = true ∧ flt 0x80000001#32 posZero = true ∧
    flt one 0x3F800001#32 = true ∧ fle posZero negZero = true ∧ fle negZero one = true := by
  decide +kernel

theorem witness_TranscendentalPoints :
    flt posZero 1#32 = true ∧ flt 1#32 one = true ∧ flt posZero 0x3F7FFFFF#32 = true ∧
    flt 0x3F7FFFFF#32 one = true := by decide +kernel

theorem reset_storeInv : State.reset.StoreInv :=
  ⟨rfl, fun _ => nofun, by decide, by decide, by decide⟩

theorem reset_engineInv : State.reset.EngineInv :=
  ⟨⟨fun _ => rfl, fun _ => rfl⟩, by decide⟩

theorem reset_voice_ok : Voice.reset.env.Ok ∧ Voice.reset.RatesOk := by
  refine ⟨⟨?_, ?_, ?_, ?_, ?_, ?_, ?_, ?_⟩, ?_⟩ <;> (try unfold inUnit) <;> (try unfold Voice.RatesOk) <;>
    decide +kernel

theorem reset_voiceInv : State.reset.VoiceInv := by
  have hx : ∀ x ∈ State.reset.voices, x = Voice.reset := fun x h => List.eq_of_mem_replicate h
  refine ⟨⟨by decide, fun x h => ?_⟩, ⟨by decide +kernel, fun x h => ?_⟩, fun x h => ?_⟩ <;>
    rw [hx x h]
  · decide
  · exact reset_voice_ok.2
  · exact ⟨reset_voice_ok.1, by decide +kernel⟩

theorem reset_delayInv : State.reset.DelayInv := by
  refine ⟨?_, by decide +kernel, by decide +kernel, fun i _ _ => ?_⟩
  · unfold inUnit; decide +kernel
  · show Memory.readWord [] _ = 0#32
    simp [Memory.readWord, Memory.readByte, unlistedByte]

/-- Reset with a CMD write to come. -/
def oneWrite : State := { State.reset with host := [⟨false, .write .word 0x0000C#20 0#32⟩] }

theorem witness_StoreInvKept : ∃ t, oneWrite.StoreInv ∧ step oneWrite = .next t ∧ t ≠ oneWrite :=
  ⟨_, reset_storeInv, rfl, by decide⟩

theorem witness_EngineInvKept : ∃ t, oneWrite.EngineInv ∧ step oneWrite = .next t ∧ t ≠ oneWrite :=
  ⟨_, reset_engineInv, rfl, by decide⟩

theorem witness_VoiceInvKept : ∃ t, oneWrite.VoiceInv ∧ step oneWrite = .next t ∧ t ≠ oneWrite :=
  ⟨_, reset_voiceInv, rfl, by decide⟩

theorem witness_DelayInvKept :
    ∃ t, oneWrite.StoreInv ∧ oneWrite.DelayInv ∧ step oneWrite = .next t ∧ t ≠ oneWrite :=
  ⟨_, reset_storeInv, reset_delayInv, rfl, by decide⟩

theorem witness_NoiseSeedRegister : State.reset.running = none ∧ busyNop.running ≠ none := by decide

theorem witness_RegisterReads : State.reset.running = none ∧ 31 < 32 := by decide

theorem witness_BufferWriteThenRead :
    State.reset.running = none ∧ State.reset.mem.wf = true ∧ 4095 < Config.bufSize ∧
    (0x33FFC#20).toNat = bufBase .noise + 4 * 4095 ∧ 65535 < Config.delayCap ∧
    (0x7FFFC#20).toNat = dlmBase + 4 * 65535 := by decide

/-- The first and last bytes of each hole of the map, and a write to each end of the read-only ones. -/
theorem witness_BusErrors :
    Width.half ≠ .word ∧ (0x00001#20).toNat % 4 ≠ 0 ∧
    (0x74 ≤ (0x00074#20).toNat ∧ (0x0FFFC#20).toNat < bufBase .out0) ∧
    (bufBase .out0 + 4 * Config.bufSize ≤ (0x14000#20).toNat ∧
      (0x1FFFC#20).toNat < bufBase .out1) ∧
    (bufBase .out1 + 4 * Config.bufSize ≤ (0x24000#20).toNat ∧
      (0x2FFFC#20).toNat < bufBase .noise) ∧
    (bufBase .noise + 4 * Config.bufSize ≤ (0x34000#20).toNat ∧ (0x3FFFC#20).toNat < dlmBase) ∧
    dlmBase + 4 * Config.delayCap ≤ (0x80000#20).toNat ∧
    (0x00070#20).toNat ∈ [0x000, 0x014, 0x018, 0x020, 0x024, 0x028, 0x02C, 0x030, 0x034, 0x038,
      0x03C, 0x05C, 0x070] ∧
    (dlmBase ≤ (0x40000#20).toNat ∧ (0x7FFFC#20).toNat < dlmBase + 4 * Config.delayCap) := by decide

/-- The first word and the last of the windows, and the first and the last register of R87(g). -/
theorem witness_BusyRules :
    State.reset.running = none ∧ busyNop.running ≠ none ∧ 4095 < Config.bufSize ∧
    (0x13FFC#20).toNat = bufBase .out0 + 4 * 4095 ∧
    (0x00014#20).toNat ∈ [0x014, 0x018, 0x01C, 0x020, 0x024, 0x028, 0x02C, 0x03C, 0x070] ∧
    (0x00070#20).toNat ∈ [0x014, 0x018, 0x01C, 0x020, 0x024, 0x028, 0x02C, 0x03C, 0x070] ∧
    (bufBase .out0 ≤ (0x10000#20).toNat ∧ (0x10000#20).toNat % 4 = 0) ∧
    (dlmBase ≤ (0x7FFFC#20).toNat ∧ (0x7FFFC#20).toNat < dlmBase + 4 * Config.delayCap ∧
      (0x7FFFC#20).toNat % 4 = 0) := by decide

end Sys2Proof.Tests
end

section
/-! Steps: the first action due, and the completion of the running command (O5). -/

namespace Sys2Proof.Machine

theorem State.nextAction_cons {s : State} {e : HostEvent} {es : List HostEvent}
    (h : s.host = e :: es) :
    s.nextAction = if s.busy && !e.early then none else some (e.action, es) := by
  rw [State.nextAction, h]

/-- Events that wait for the running command's completion leave no action due before it. -/
theorem State.nextAction_eq_none {s : State} {r : Running} (hr : s.running = some r)
    (hw : ∀ e es, s.host = e :: es → e.early = false) : s.nextAction = none := by
  cases hh : s.host with
  | nil => rw [State.nextAction, hh]
  | cons e es => simp [State.nextAction_cons hh, State.busy, hr, hw e es hh]

/-- The first event is due on an idle core, and before the completion where it is marked early. -/
theorem State.nextAction_eq_some {s : State} {e : HostEvent} {es : List HostEvent}
    (hh : s.host = e :: es) (hd : s.running = none ∨ e.early = true) :
    s.nextAction = some (e.action, es) := by
  rw [State.nextAction_cons hh]
  rcases hd with hr | he
  · simp [State.busy, hr]
  · simp [he]

/-- A host action that is due is the step. -/
theorem step_hostAct {s : State} {a : HostAction} {es : List HostEvent}
    (h : s.nextAction = some (a, es)) :
    step s = .next (({ s with host := es } : State).hostAct a) := by
  rw [step, h]

end Sys2Proof.Machine

namespace Sys2Proof
open Machine

/-- Settles O5: the step is decided by whether a host action is due. -/
theorem stepRunsDecodedCommand : Obligations.StepRunsDecodedCommand := by
  unfold Obligations.StepRunsDecodedCommand
  refine ⟨fun s r i hr hd hw => ?_, fun s w i hd => ?_, fun s e es hh hd => ?_⟩
  · exact step_running (State.nextAction_eq_none hr hw) hr hd
  · exact step_running (State.nextAction_eq_none rfl nofun) rfl hd
  · exact step_hostAct (State.nextAction_eq_some hh hd)

end Sys2Proof
end

section
/-! Signs, magnitudes and values: the facts that the statements about arithmetic share. -/

namespace Sys2Proof.Machine

/-! ## Sign and magnitude of built values -/

theorem mag_fneg (x : F32) : mag (fneg x) = mag x := by
  unfold mag fneg
  rw [BitVec.toNat_xor, Nat.xor_mod_two_pow]
  simp

theorem isNeg_fneg (x : F32) : isNeg (fneg x) = !isNeg x := by
  unfold isNeg fneg
  rw [BitVec.msb_xor]
  cases x.msb <;> rfl

theorem isNaN_fneg (x : F32) : isNaN (fneg x) = isNaN x := by rw [isNaN, isNaN, mag_fneg]

theorem isInf_fneg (x : F32) : isInf (fneg x) = isInf x := by rw [isInf, isInf, mag_fneg]

theorem isFinite_fneg (x : F32) : isFinite (fneg x) = isFinite x := (val_fneg x).2

theorem isNaN_ofMag {neg : Bool} {m : Nat} (h : m ≤ infMag) : isNaN (ofMag neg m) = false := by
  rw [isNaN, mag_ofMag (lt_of_le_of_lt h (by decide))]
  simpa using h

theorem isNaN_infOf (neg : Bool) : isNaN (infOf neg) = false := isNaN_ofMag le_rfl

theorem val_eq_zero {x : F32} : val x = 0 ↔ mag x = 0 := by
  rw [← units_eq_zero, units_eq_natAbs, Int.natAbs_eq_zero]

theorem isFinite_of_mag_eq_zero {x : F32} (h : mag x = 0) : isFinite x = true := by
  rw [isFinite_iff, h]; decide

theorem units_pos {x : F32} (h : mag x ≠ 0) : 0 < units x :=
  Nat.pos_of_ne_zero (mt units_eq_zero.1 h)

theorem val_eq_signed (x : F32) : val x = if isNeg x then -(units x : Int) else units x := rfl

/-- A value above 0 is its magnitude. -/
theorem val_eq_units_of_pos {x : F32} (h : 0 < val x) : isNeg x = false ∧ val x = units x := by
  have hn : isNeg x = false := by rw [isNeg_eq_of_val h.ne', decide_eq_false h.le.not_gt]
  exact ⟨hn, by simp [val_eq_signed, hn]⟩

/-- A magnitude is a significand below 2^24 times a power of two. -/
theorem unitsOfMag_eq_mul (m : Nat) : ∃ f g, f < 2 ^ 24 ∧ unitsOfMag m = f * 2 ^ g := by
  unfold unitsOfMag
  split
  · exact ⟨m, 0, by omega, by simp⟩
  · exact ⟨_, _, by omega, rfl⟩

end Sys2Proof.Machine
end

section
/-! Clamps and NaN results (O46, O47). -/

namespace Sys2Proof.Machine

/-! ## Clamps -/

theorem clamp_of_below {x lo hi : F32} (h : isNaN x = true ∨ flt x lo = true) :
    clamp x lo hi = lo := by
  rw [clamp, if_pos (by simpa using h)]

theorem clamp_of_above {x lo hi : F32} (hx : isNaN x = false) (hlo : flt x lo = false)
    (hhi : flt hi x = true) : clamp x lo hi = hi := by
  rw [clamp, if_neg (by simp [hx, hlo]), fgt, if_pos hhi]

theorem clamp_of_between {x lo hi : F32} (hx : isNaN x = false) (hlo : flt x lo = false)
    (hhi : flt hi x = false) : clamp x lo hi = x := by
  rw [clamp, if_neg (by simp [hx, hlo]), fgt, if_neg (by simp [hhi])]

theorem clampLow0_of_below {x : F32} (h : isNaN x = true ∨ flt x posZero = true) :
    clampLow0 x = posZero := by
  rw [clampLow0, if_pos (by simpa using h)]

theorem clampLow0_of_not_below {x : F32} (hx : isNaN x = false) (h : flt x posZero = false) :
    clampLow0 x = x := by
  rw [clampLow0, if_neg (by simp [hx, h])]

/-- Between values that are not NaN, not below means from there on. -/
theorem flt_eq_false_iff {a b : F32} (ha : isNaN a = false) (hb : isNaN b = false) :
    flt a b = false ↔ fle b a = true := by
  rw [← Bool.not_eq_true, flt_iff ha hb, fle_iff hb ha, not_lt]

theorem flt_eq_false_of_fle {a b : F32} (h : fle b a = true) : flt a b = false :=
  (flt_eq_false_iff (isNaN_of_fle h).2 (isNaN_of_fle h).1).2 h

theorem fle_refl {a : F32} (h : isNaN a = false) : fle a a = true := (fle_iff h h).2 le_rfl

/-- A value above the upper bound of a proper range is not below its lower bound. -/
theorem clamp_of_gt {x lo hi : F32} (h : fle lo hi = true) (hx : flt hi x = true) :
    clamp x lo hi = hi := by
  obtain ⟨hnlo, hnhi⟩ := isNaN_of_fle h
  have hnx := (isNaN_of_flt hx).2
  refine clamp_of_above hnx ?_ hx
  rw [flt_eq_false_iff hnx hnlo, fle_iff hnlo hnx]
  exact ((fle_iff hnlo hnhi).1 h).trans ((flt_iff hnhi hnx).1 hx).le

/-- What a clamp answers lies in its range. -/
theorem clamp_mem_range {x lo hi : F32} (h : fle lo hi = true) :
    fle lo (clamp x lo hi) = true ∧ fle (clamp x lo hi) hi = true := by
  obtain ⟨hnlo, hnhi⟩ := isNaN_of_fle h
  by_cases hb : isNaN x = true ∨ flt x lo = true
  · rw [clamp_of_below hb]
    exact ⟨fle_refl hnlo, h⟩
  obtain ⟨hnx, hlo⟩ : isNaN x = false ∧ flt x lo = false := by simpa using hb
  cases ha : flt hi x with
  | true => rw [clamp_of_gt h ha]; exact ⟨h, fle_refl hnhi⟩
  | false =>
    rw [clamp_of_between hnx hlo ha]
    exact ⟨(flt_eq_false_iff hnx hnlo).1 hlo, (flt_eq_false_iff hnhi hnx).1 ha⟩

/-! ## NaN operands and results (R12) -/

section NaNOperand
variable {a b : F32} (h : isNaN a = true ∨ isNaN b = true)
include h

theorem fadd_of_isNaN : fadd a b = qNaN := by
  rw [fadd, if_pos (by simpa using h)]

theorem fsub_of_isNaN : fsub a b = qNaN :=
  fadd_of_isNaN (by rwa [isNaN_fneg])

theorem fmul_of_isNaN : fmul a b = qNaN := by
  rw [fmul, if_pos (by simpa using h)]

theorem fdiv_of_isNaN : fdiv a b = qNaN := by
  rw [fdiv, if_pos (by simpa using h)]

end NaNOperand

/-- A result is the canonical NaN or no NaN. -/
def NaNCanonical (r : F32) : Prop := isNaN r = true → r = qNaN

theorem nanCanonical_qNaN : NaNCanonical qNaN := fun _ => rfl

theorem nanCanonical_of_not {r : F32} (h : isNaN r = false) : NaNCanonical r :=
  fun hr => absurd hr (by simp [h])

theorem nanCanonical_infOf (neg : Bool) : NaNCanonical (infOf neg) :=
  nanCanonical_of_not (isNaN_infOf neg)

theorem nanCanonical_roundNE (neg : Bool) (p q : Nat) : NaNCanonical (roundNE neg p q) :=
  nanCanonical_of_not (isNaN_roundNE neg p q)

theorem nanCanonical_fadd (a b : F32) : NaNCanonical (fadd a b) := by
  unfold fadd
  dsimp only
  split_ifs
  · exact nanCanonical_qNaN
  · exact nanCanonical_qNaN
  · exact nanCanonical_infOf _
  · exact nanCanonical_infOf _
  · exact nanCanonical_of_not (by decide)
  · exact nanCanonical_of_not (by decide)
  · exact nanCanonical_roundNE _ _ _

theorem nanCanonical_fmul (a b : F32) : NaNCanonical (fmul a b) := by
  unfold fmul
  dsimp only
  split_ifs
  · exact nanCanonical_qNaN
  · exact nanCanonical_qNaN
  · exact nanCanonical_infOf _
  · exact nanCanonical_qNaN
  · exact nanCanonical_infOf _
  · exact nanCanonical_roundNE _ _ _

theorem nanCanonical_fdiv (a b : F32) : NaNCanonical (fdiv a b) := by
  unfold fdiv
  dsimp only
  split_ifs
  · exact nanCanonical_qNaN
  · exact nanCanonical_qNaN
  · exact nanCanonical_infOf _
  · exact nanCanonical_of_not (isNaN_ofMag_zero _)
  · exact nanCanonical_qNaN
  · exact nanCanonical_infOf _
  · exact nanCanonical_roundNE _ _ _

theorem nanCanonical_fsqrt (a : F32) : NaNCanonical (fsqrt a) := by
  unfold fsqrt
  dsimp only
  split_ifs with hn
  · exact nanCanonical_qNaN
  · exact nanCanonical_of_not (by simpa using hn)
  · exact nanCanonical_qNaN
  · exact nanCanonical_of_not (by simpa using hn)
  · exact nanCanonical_roundNE _ _ _
  · exact nanCanonical_roundNE _ _ _

theorem nanCanonical_fmod (a b : F32) : NaNCanonical (fmod a b) := by
  unfold fmod
  split_ifs
  · exact nanCanonical_qNaN
  · exact nanCanonical_of_not (isNaN_ofMag (roundMag_le _ _))
  · exact nanCanonical_qNaN

end Sys2Proof.Machine

namespace Sys2Proof
open Machine

/-- Settles O46: each operation tests for NaN first, and no other branch answers a NaN but the
canonical one. -/
theorem nanIsCanonical : Obligations.NaNIsCanonical := by
  unfold Obligations.NaNIsCanonical
  refine ⟨fun a b h => ⟨fadd_of_isNaN h, fsub_of_isNaN h, fmul_of_isNaN h, fdiv_of_isNaN h⟩,
    fun a h => ?_, fun a b r hr => ?_⟩
  · simp [fsqrt, fmod, fnSin, fnCos, fnLn, fnExp10, h]
  · simp only [List.mem_cons, List.not_mem_nil, or_false] at hr
    rcases hr with rfl | rfl | rfl | rfl | rfl | rfl
    · exact nanCanonical_fadd a b
    · exact nanCanonical_fadd a (fneg b)
    · exact nanCanonical_fmul a b
    · exact nanCanonical_fdiv a b
    · exact nanCanonical_fsqrt a
    · exact nanCanonical_fmod a b

/-- Settles O47: by the place of x against the two bounds. -/
theorem clampLaws : Obligations.ClampLaws := by
  unfold Obligations.ClampLaws
  refine ⟨fun x lo hi h => ⟨clamp_of_below, clamp_of_gt h, fun hlo hhi => ?_, clamp_mem_range h⟩,
    fun x => ⟨clampLow0_of_below, fun h => ?_⟩⟩
  · exact clamp_of_between (isNaN_of_fle hhi).1 (flt_eq_false_of_fle hlo) (flt_eq_false_of_fle hhi)
  · exact clampLow0_of_not_below (isNaN_of_fle h).2 (flt_eq_false_of_fle h)

end Sys2Proof
end

section
/-! The four operations against the exact result (O43). -/

namespace Sys2Proof.Machine

/-! ## Zero and infinite results -/

theorem isInf_iff {x : F32} : isInf x = true ↔ mag x = infMag := by simp [isInf]

theorem isNaN_of_isInf {x : F32} (h : isInf x = true) : isNaN x = false := by
  rw [isNaN, isInf_iff.1 h, decide_eq_false (lt_irrefl _)]

/-- An infinity is the one of its sign. -/
theorem infOf_isNeg {x : F32} (h : isInf x = true) : infOf (isNeg x) = x := by
  rw [infOf, ← isInf_iff.1 h, ofMag_isNeg_mag]

theorem ofMag_zero (neg : Bool) : ofMag neg 0 = if neg then negZero else posZero := by
  cases neg <;> rfl

theorem roundMag_zero {q : Nat} (hq : 0 < q) : roundMag .nearestEven 0 q = 0 := by
  simpa using roundMag_exact (k := 0) hq (by decide)

/-- An exact zero keeps the sign it is given. -/
theorem roundNE_zero (neg : Bool) {q : Nat} (hq : 0 < q) :
    roundNE neg 0 q = if neg then negZero else posZero := by
  rw [roundNE, roundMag_zero hq, ofMag_zero]

/-! ## Finite operands -/

/-- What R11 asks of the answer r to the exact result exact/scale units. -/
def Rounded (r : F32) (exact scale : Int) : Prop :=
  isNaN r = false ∧ (exact ≠ 0 → isNeg r = decide (exact < 0)) ∧
  (isFinite r = true ↔ |exact| < (2 ^ 25 - 1) * 2 ^ 252 * scale) ∧
  (isFinite r = true → ∀ y : F32, isFinite y = true →
    |val r * scale - exact| ≤ |val y * scale - exact| ∧
    (|val y * scale - exact| = |val r * scale - exact| → val y ≠ val r → mag r % 2 = 0))

/-- The sign asked for is the sign of the signed magnitude, where that is not 0. -/
theorem decide_signed_neg {neg : Bool} {p : Nat} (h : (if neg then -(p : Int) else p) ≠ 0) :
    neg = decide ((if neg then -(p : Int) else p) < 0) := by
  cases neg <;> simp at h ⊢; omega

theorem rounded_roundNE {neg : Bool} {p q : Nat} (hq : 0 < q) {exact : Int}
    (he : exact = if neg then -(p : Int) else p) : Rounded (roundNE neg p q) exact q := by
  obtain ⟨hnan, hfin, hnear⟩ := roundNE_spec hq exact he
  refine ⟨hnan, fun h0 => ?_, hfin, hnear⟩
  rw [(roundNE_parts neg p q).1, he]
  exact decide_signed_neg (he ▸ h0)

/-- A finite sum that is not zero is the exact sum rounded once. -/
theorem fadd_eq_roundNE {a b : F32} (ha : isFinite a = true) (hb : isFinite b = true)
    (h0 : val a + val b ≠ 0) :
    fadd a b = roundNE (decide (val a + val b < 0)) (val a + val b).natAbs 1 := by
  simp [fadd, isNaN_of_isFinite ha, isNaN_of_isFinite hb, isInf_of_isFinite ha,
    isInf_of_isFinite hb, h0]

theorem rounded_fadd {a b : F32} (ha : isFinite a = true) (hb : isFinite b = true) :
    Rounded (fadd a b) (val a + val b) 1 := by
  obtain ⟨hnan, hfin, hnear⟩ := fadd_spec ha hb _ rfl _ rfl
  refine ⟨hnan, fun h0 => ?_, hfin, hnear⟩
  rw [fadd_eq_roundNE ha hb h0, (roundNE_parts _ _ _).1]

theorem rounded_fsub {a b : F32} (ha : isFinite a = true) (hb : isFinite b = true) :
    Rounded (fsub a b) (val a - val b) 1 := by
  rw [sub_eq_add_neg, ← (val_fneg b).1]
  exact rounded_fadd ha (by rwa [isFinite_fneg])

theorem rounded_fmul {a b : F32} (ha : isFinite a = true) (hb : isFinite b = true) :
    Rounded (fmul a b) (val a * val b) (2 ^ 149) := by
  obtain ⟨heq, hexact⟩ := fmul_spec ha hb _ rfl
  rw [heq]
  exact_mod_cast rounded_roundNE (q := 2 ^ 149) (by positivity) hexact

/-- A finite quotient by a value other than 0 is the exact quotient rounded once. -/
theorem fdiv_eq_roundNE {a b : F32} (ha : isFinite a = true) (hb : isFinite b = true)
    (h0 : mag b ≠ 0) :
    fdiv a b = roundNE (isNeg a != isNeg b) (units a * 2 ^ 149) (units b) := by
  simp [fdiv, isNaN_of_isFinite ha, isNaN_of_isFinite hb, isInf_of_isFinite ha,
    isInf_of_isFinite hb, h0]

theorem rounded_fdiv {a b : F32} (ha : isFinite a = true) (hb : isFinite b = true)
    (h0 : mag b ≠ 0) :
    Rounded (fdiv a b) ((if isNeg b then -(val a) else val a) * 2 ^ 149) (units b) := by
  rw [fdiv_eq_roundNE ha hb h0]
  refine rounded_roundNE (units_pos h0) ?_
  unfold val
  cases isNeg a <;> cases isNeg b <;> simp

theorem fsub_zero {a b : F32} (ha : isFinite a = true) (hb : isFinite b = true)
    (h : val a - val b = 0) :
    fsub a b = if isNeg a && !isNeg b then negZero else posZero := by
  rw [fsub, fadd_zero ha (by rwa [isFinite_fneg]) (by rw [(val_fneg b).1]; omega), isNeg_fneg]

theorem fmul_zero {a b : F32} (ha : isFinite a = true) (hb : isFinite b = true)
    (h : val a * val b = 0) :
    fmul a b = if isNeg a != isNeg b then negZero else posZero := by
  have hu : units a * units b = 0 := by
    rw [units_eq_natAbs, units_eq_natAbs, ← Int.natAbs_mul, h, Int.natAbs_zero]
  rw [(fmul_spec ha hb _ rfl).1, hu, roundNE_zero _ (by positivity)]

theorem fdiv_zero {a b : F32} (hb : isFinite b = true) (h : val a = 0) (h0 : mag b ≠ 0) :
    fdiv a b = if isNeg a != isNeg b then negZero else posZero := by
  have ha := val_eq_zero.1 h
  rw [fdiv_eq_roundNE (isFinite_of_mag_eq_zero ha) hb h0, units_eq_zero.2 ha, Nat.zero_mul,
    roundNE_zero _ (units_pos h0)]

/-! ## Zero divisors and infinite operands -/

theorem fdiv_by_zero {a b : F32} (ha : isNaN a = false) (h0 : mag b = 0) :
    fdiv a b = if mag a = 0 then qNaN else infOf (isNeg a != isNeg b) := by
  have hb := isFinite_of_mag_eq_zero h0
  cases hi : isInf a with
  | true =>
    have hm : mag a ≠ 0 := by rw [isInf_iff.1 hi]; decide
    simp [fdiv, ha, isNaN_of_isFinite hb, isInf_of_isFinite hb, hi, hm]
  | false => simp [fdiv, ha, isNaN_of_isFinite hb, isInf_of_isFinite hb, hi, h0]

section InfiniteAndFinite
variable {a b : F32} (ha : isInf a = true) (hb : isFinite b = true)
include ha hb

theorem fadd_inf_finite : fadd a b = a := by
  simp [fadd, isNaN_of_isInf ha, isNaN_of_isFinite hb, ha, isInf_of_isFinite hb, infOf_isNeg ha]

theorem fadd_finite_inf : fadd b a = a := by
  simp [fadd, isNaN_of_isInf ha, isNaN_of_isFinite hb, ha, isInf_of_isFinite hb, infOf_isNeg ha]

theorem fsub_inf_finite : fsub a b = a := fadd_inf_finite ha (by rwa [isFinite_fneg])

theorem fsub_finite_inf : fsub b a = infOf (!isNeg a) := by
  rw [← isNeg_fneg, infOf_isNeg (by rwa [isInf_fneg])]
  exact fadd_finite_inf (by rwa [isInf_fneg]) hb

theorem fmul_inf_finite :
    fmul a b = if mag b = 0 then qNaN else infOf (isNeg a != isNeg b) := by
  simp [fmul, isNaN_of_isInf ha, isNaN_of_isFinite hb, ha]

theorem fmul_finite_inf :
    fmul b a = if mag b = 0 then qNaN else infOf (isNeg a != isNeg b) := by
  simp [fmul, isNaN_of_isInf ha, isNaN_of_isFinite hb, ha, isInf_of_isFinite hb, bne_comm]

theorem fdiv_inf_finite : fdiv a b = infOf (isNeg a != isNeg b) := by
  simp [fdiv, isNaN_of_isInf ha, isNaN_of_isFinite hb, ha, isInf_of_isFinite hb]

theorem fdiv_finite_inf : fdiv b a = if isNeg a != isNeg b then negZero else posZero := by
  rw [bne_comm, ← ofMag_zero]
  simp [fdiv, isNaN_of_isInf ha, isNaN_of_isFinite hb, ha, isInf_of_isFinite hb]

end InfiniteAndFinite

section BothInfinite
variable {a b : F32} (ha : isInf a = true) (hb : isInf b = true)
include ha hb

theorem fadd_inf_inf : fadd a b = if isNeg a = isNeg b then a else qNaN := by
  by_cases h : isNeg a = isNeg b
  · have hinf : fadd a b = infOf (isNeg a) := by
      simp [fadd, isNaN_of_isInf ha, isNaN_of_isInf hb, ha, h]
    rw [if_pos h, hinf, infOf_isNeg ha]
  · simp [fadd, isNaN_of_isInf ha, isNaN_of_isInf hb, ha, hb, h]

theorem fsub_inf_inf : fsub a b = if isNeg a = isNeg b then qNaN else a := by
  rw [fsub, fadd_inf_inf ha (by rwa [isInf_fneg]), isNeg_fneg]
  cases isNeg a <;> cases isNeg b <;> rfl

theorem fmul_inf_inf : fmul a b = infOf (isNeg a != isNeg b) := by
  have hm : mag b ≠ 0 := by rw [isInf_iff.1 hb]; decide
  simp [fmul, isNaN_of_isInf ha, isNaN_of_isInf hb, ha, hm]

theorem fdiv_inf_inf : fdiv a b = qNaN := by
  simp [fdiv, isNaN_of_isInf ha, isNaN_of_isInf hb, ha, hb]

end BothInfinite

end Sys2Proof.Machine

namespace Sys2Proof
open Machine

/-- Settles O43: each operation is an exact integer result rounded once, and its special cases are
tests on the operands. -/
theorem arithmeticRoundsToNearest : Obligations.ArithmeticRoundsToNearest := by
  unfold Obligations.ArithmeticRoundsToNearest
  refine ⟨fun a b ha hb => ⟨fun r exact scale h => ?_, fadd_zero ha hb, fsub_zero ha hb,
      fmul_zero ha hb, fdiv_zero hb⟩, fun a b => fdiv_by_zero, fun a b ha hb => ?_,
    fun a b ha hb => ?_⟩
  · rcases h with ⟨rfl, rfl, rfl⟩ | ⟨rfl, rfl, rfl⟩ | ⟨rfl, rfl, rfl⟩ | ⟨rfl, h0, rfl, rfl⟩
    · exact rounded_fadd ha hb
    · exact rounded_fsub ha hb
    · exact rounded_fmul ha hb
    · exact rounded_fdiv ha hb h0
  · exact ⟨fadd_inf_finite ha hb, fadd_finite_inf ha hb, fsub_inf_finite ha hb,
      fsub_finite_inf ha hb, fmul_inf_finite ha hb, fmul_finite_inf ha hb, fdiv_inf_finite ha hb,
      fdiv_finite_inf ha hb⟩
  · exact ⟨fadd_inf_inf ha hb, fsub_inf_inf ha hb, fmul_inf_inf ha hb, fdiv_inf_inf ha hb⟩

end Sys2Proof
end

section
/-! Exact remainders and conversions (O45). -/

namespace Sys2Proof.Machine

/-! ## Magnitudes as a significand and a power of two -/

/-- A significand of at most 2^24 times any power of two is a magnitude, of an exponent field without
an upper end. -/
theorem exists_unitsOfMag (e : Nat) : ∀ {f : Nat}, f ≤ 2 ^ 24 → ∃ m, unitsOfMag m = f * 2 ^ e := by
  induction e with
  | zero => intro f hf; exact ⟨f, by simpa using @unitsOfMag_scale 0 f (.inl ⟨rfl, hf⟩)⟩
  | succ e ih =>
    intro f hf
    by_cases h : f < 2 ^ 23
    · obtain ⟨m, hm⟩ := ih (f := 2 * f) (by omega)
      exact ⟨m, by rw [hm, pow_succ]; ring⟩
    · exact ⟨_, unitsOfMag_scale (.inr ⟨by omega, hf⟩)⟩

/-- A remainder of two magnitudes needs no more significand bits than one of them: it is a multiple
of the smaller of their two powers of two, and at most either magnitude. -/
theorem exists_unitsOfMag_mod (m n : Nat) (hn : 0 < unitsOfMag n) :
    ∃ k, unitsOfMag k = unitsOfMag m % unitsOfMag n := by
  obtain ⟨f, g, hf, hm⟩ := unitsOfMag_eq_mul m
  obtain ⟨f', g', hf', hn'⟩ := unitsOfMag_eq_mul n
  have hle : unitsOfMag m % unitsOfMag n ≤ f * 2 ^ g := hm ▸ Nat.mod_le _ _
  have hlt : unitsOfMag m % unitsOfMag n < f' * 2 ^ g' := hn' ▸ Nat.mod_lt _ hn
  have hdvd : 2 ^ min g g' ∣ unitsOfMag m % unitsOfMag n := by
    refine (Nat.dvd_mod_iff ?_).2 ?_
    · exact hn' ▸ Dvd.dvd.mul_left (pow_dvd_pow 2 (min_le_right g g')) f'
    · exact hm ▸ Dvd.dvd.mul_left (pow_dvd_pow 2 (min_le_left g g')) f
  obtain ⟨j, hj⟩ := hdvd
  have hj24 : j ≤ 2 ^ 24 := by
    rw [hj, Nat.mul_comm] at hle hlt
    rcases Nat.le_total g g' with h | h
    · rw [min_eq_left h] at hle
      exact (Nat.le_of_mul_le_mul_right hle (by positivity)).trans hf.le
    · rw [min_eq_right h] at hlt
      exact (Nat.lt_of_mul_lt_mul_right hlt).le.trans hf'.le
  obtain ⟨k, hk⟩ := exists_unitsOfMag (min g g') hj24
  exact ⟨k, by rw [hk, hj, Nat.mul_comm]⟩

/-! ## fmod -/

/-- The remainder's magnitude is held exactly. -/
theorem unitsOfMag_roundMag_mod {x y : F32} (hx : isFinite x = true) (hy : mag y ≠ 0) :
    roundMag .nearestEven (units x % units y) 1 < infMag ∧
    unitsOfMag (roundMag .nearestEven (units x % units y) 1) = units x % units y := by
  obtain ⟨k, hk⟩ := exists_unitsOfMag_mod (mag x) (mag y) (units_pos hy)
  have hkx : k ≤ mag x :=
    unitsOfMag_strictMono.le_iff_le.1 (hk ▸ Nat.mod_le (unitsOfMag (mag x)) _)
  have hki : k < infMag := lt_of_le_of_lt hkx (isFinite_iff.1 hx)
  have hr : roundMag .nearestEven (units x % units y) 1 = k := by
    rw [units, units, ← hk]
    simpa using roundMag_exact (q := 1) (by norm_num) hki.le
  exact ⟨hr ▸ hki, by rw [hr, hk, units, units]⟩

theorem fmod_of_isFinite {x y : F32} (hx : isFinite x = true) (hy : isFinite y = true)
    (h0 : mag y ≠ 0) :
    fmod x y = ofMag (isNeg x) (roundMag .nearestEven (units x % units y) 1) := by
  simp [fmod, isNaN_of_isFinite hx, isInf_of_isFinite hx, hy, h0]

theorem fmod_of_not_isFinite {x : F32} (y : F32) (hx : isFinite x = false) : fmod x y = qNaN := by
  have h : isNaN x = true ∨ isInf x = true := by
    simp only [isFinite, isNaN, isInf, decide_eq_true_eq, decide_eq_false_iff_not] at hx ⊢
    omega
  rw [fmod, if_pos (by simpa using h)]

theorem abs_val (x : F32) : |val x| = units x := by
  rw [val_eq_signed]; split <;> simp

/-- Truncating division's remainder has the magnitudes' remainder and the dividend's sign. -/
theorem tmod_val (x y : F32) :
    (val x).tmod (val y) =
      if isNeg x then -((units x % units y : Nat) : Int) else (units x % units y : Nat) := by
  rw [val_eq_signed, val_eq_signed, Int.ofNat_tmod]
  cases isNeg x <;> cases isNeg y <;> simp [Int.neg_tmod, Int.tmod_neg]

theorem fmod_spec {x y : F32} (hx : isFinite x = true) (hy : isFinite y = true) (h0 : mag y ≠ 0) :
    isFinite (fmod x y) = true ∧ isNeg (fmod x y) = isNeg x ∧
    units (fmod x y) = units x % units y := by
  obtain ⟨hlt, hu⟩ := unitsOfMag_roundMag_mod hx h0
  have h31 := lt_trans hlt (show infMag < 2 ^ 31 by decide)
  rw [fmod_of_isFinite hx hy h0]
  exact ⟨isFinite_iff.2 (by rwa [mag_ofMag h31]), isNeg_ofMag h31, by rw [units_ofMag h31, hu]⟩

theorem val_fmod {x y : F32} (hx : isFinite x = true) (hy : isFinite y = true) (h0 : mag y ≠ 0) :
    val (fmod x y) = (val x).tmod (val y) := by
  obtain ⟨-, hs, hu⟩ := fmod_spec hx hy h0
  rw [val_eq_signed, hs, hu, tmod_val]

theorem abs_val_fmod_lt {x y : F32} (hx : isFinite x = true) (hy : isFinite y = true)
    (h0 : mag y ≠ 0) : |val (fmod x y)| < |val y| := by
  rw [abs_val, abs_val, (fmod_spec hx hy h0).2.2]
  exact_mod_cast Nat.mod_lt _ (units_pos h0)

theorem fmod_of_mag_eq_zero {x y : F32} (hx : mag x = 0) (hy : isFinite y = true)
    (h0 : mag y ≠ 0) : fmod x y = x := by
  rw [fmod_of_isFinite (isFinite_of_mag_eq_zero hx) hy h0, units_eq_zero.2 hx, Nat.zero_mod,
    roundMag_zero one_pos, ← hx, ofMag_isNeg_mag]

end Sys2Proof.Machine

namespace Sys2Proof
open Machine

/-- Settles O45: the remainder and the integer are held exactly, so the one rounding changes
neither. -/
theorem exactOperations : Obligations.ExactOperations := by
  unfold Obligations.ExactOperations
  refine ⟨fun x y hy h0 => ⟨fun hx => ?_, fmod_of_not_isFinite y⟩, fun n hn => ?_⟩
  · obtain ⟨hfin, hneg, -⟩ := fmod_spec hx hy h0
    refine ⟨hfin, ?_, hneg, abs_val_fmod_lt hx hy h0, fun hz => fmod_of_mag_eq_zero hz hy h0⟩
    rw [val_fmod hx hy h0, Int.tmod_def]
  · obtain ⟨hfin, hneg, hu⟩ := i2f_spec hn.le
    refine ⟨hfin, hneg, ?_⟩
    simp [val_eq_signed, hneg, hu]

end Sys2Proof
end

section
/-! The square root (O44). -/

namespace Sys2Proof.Machine

/-! ## The integer square root -/

theorem isqrtBits_spec {n : Nat} : ∀ (k r : Nat), r * r ≤ n → n < (r + 2 ^ k) * (r + 2 ^ k) →
    isqrtBits n k r * isqrtBits n k r ≤ n ∧ n < (isqrtBits n k r + 1) * (isqrtBits n k r + 1)
  | 0, r, hlo, hhi => by simpa [isqrtBits] using ⟨hlo, hhi⟩
  | k + 1, r, hlo, hhi => by
    rw [isqrtBits]
    split
    · next h => exact isqrtBits_spec k _ h (by rwa [Nat.add_assoc, ← Nat.two_mul, ← pow_succ'])
    · next h => exact isqrtBits_spec k r hlo (Nat.lt_of_not_le h)

theorem isqrt_spec {n : Nat} (h : n < 2 ^ 214 * 2 ^ 214) :
    isqrt n * isqrt n ≤ n ∧ n < (isqrt n + 1) * (isqrt n + 1) :=
  isqrtBits_spec 214 0 (by omega) (by simpa using h)

/-! ## The radicand of a finite value above 0 -/

/-- The exact square of fsqrt's result, in units of 2^-149 each. -/
def radicand (x : F32) : Nat := units x * 2 ^ 149

/-- The integer part of the exact root, in units of 2^-149. -/
def rootFloor (x : F32) : Nat := isqrt (radicand x)

theorem units_lt_of_isFinite {x : F32} (h : isFinite x = true) : units x < 2 ^ 25 * 2 ^ 252 := by
  have hlt : units x < unitsOfMag infMag := unitsOfMag_strictMono (isFinite_iff.1 h)
  rwa [unitsOfMag_infMag] at hlt

/-- The root of a finite value above 0 lies from 2^74 units to 2^213. -/
theorem rootFloor_bounds {x : F32} (hx : isFinite x = true) (h0 : 0 < units x) :
    rootFloor x * rootFloor x ≤ radicand x ∧
    radicand x < (rootFloor x + 1) * (rootFloor x + 1) ∧
    2 ^ 74 ≤ rootFloor x ∧ rootFloor x < 2 ^ 213 := by
  have hu := units_lt_of_isFinite hx
  have hhi : radicand x < 2 ^ 213 * 2 ^ 213 := by unfold radicand; omega
  have hlo : 2 ^ 149 ≤ radicand x := by unfold radicand; omega
  obtain ⟨h1, h2⟩ : rootFloor x * rootFloor x ≤ radicand x ∧
      radicand x < (rootFloor x + 1) * (rootFloor x + 1) := isqrt_spec (by omega)
  refine ⟨h1, h2, ?_, ?_⟩
  · by_contra h
    have := Nat.mul_le_mul (show rootFloor x + 1 ≤ 2 ^ 74 by omega)
      (show rootFloor x + 1 ≤ 2 ^ 74 by omega)
    omega
  · by_contra h
    have := Nat.mul_le_mul (not_lt.1 h) (not_lt.1 h)
    omega

theorem fsqrt_of_pos {x : F32} (hx : isFinite x = true) (hn : isNeg x = false) (h0 : mag x ≠ 0) :
    fsqrt x = if rootFloor x * rootFloor x = radicand x then roundNE false (rootFloor x) 1
      else roundNE false (2 * rootFloor x + 1) 2 := by
  unfold fsqrt
  rw [if_neg (by simp [isNaN_of_isFinite hx]), if_neg h0, if_neg (by simp [hn]),
    if_neg (by simp [isInf_of_isFinite hx])]
  rfl

/-! ## An exact root -/

/-- A root of a value with a significand below 2^24 has one too: the square of the root's odd part
divides the significand. -/
theorem exists_significand_of_mul_self {s f g : Nat} (hs : 0 < s) (hf : f < 2 ^ 24)
    (h : s * s = f * 2 ^ g) : ∃ o e, o ≤ 2 ^ 24 ∧ s = o * 2 ^ e := by
  obtain ⟨e, o, hodd, rfl⟩ := Nat.exists_eq_two_pow_mul_odd hs.ne'
  have hdvd : o * o ∣ f := by
    refine ((hodd.mul hodd).coprime_two_right.pow_right g).dvd_of_dvd_mul_right ?_
    rw [← h]
    exact ⟨2 ^ e * 2 ^ e, by ring⟩
  have hf0 : 0 < f := by
    refine Nat.pos_of_ne_zero fun hz => ?_
    rw [hz, Nat.zero_mul] at h
    exact hs.ne' (mul_self_eq_zero.1 h)
  have hle : o * o ≤ f := Nat.le_of_dvd hf0 hdvd
  exact ⟨o, e, (Nat.le_mul_self o).trans (hle.trans hf.le), Nat.mul_comm _ _⟩

/-- An exact root is a binary32 value, so it is its own rounding. -/
theorem val_roundNE_of_exact {x : F32} (hx : isFinite x = true) (h0 : 0 < units x)
    (h : rootFloor x * rootFloor x = radicand x) :
    isFinite (roundNE false (rootFloor x) 1) = true ∧
    val (roundNE false (rootFloor x) 1) = rootFloor x := by
  obtain ⟨-, -, hlo, hhi⟩ := rootFloor_bounds hx h0
  obtain ⟨f, g, hf, hu⟩ := unitsOfMag_eq_mul (mag x)
  have hsq : rootFloor x * rootFloor x = f * 2 ^ (g + 149) := by
    rw [h, radicand, units, hu, pow_add, Nat.mul_assoc]
  obtain ⟨o, e, ho, hs⟩ := exists_significand_of_mul_self (by omega) hf hsq
  have ho0 : 0 < o := Nat.pos_of_ne_zero fun hz => by rw [hz] at hs; omega
  have he : e < 213 := by
    refine (Nat.pow_lt_pow_iff_right (a := 2) (by norm_num)).1 (lt_of_le_of_lt ?_ hhi)
    rw [hs]
    exact Nat.le_mul_of_pos_left _ ho0
  obtain ⟨c, hc, hneg, hcu⟩ := exists_value false o e ho (by omega)
  have hround : roundNE false (rootFloor x) 1 = c := by
    have := roundNE_exact (q := 1) one_pos hc
    rwa [hneg, hcu, ← hs, Nat.mul_one] at this
  rw [hround]
  exact ⟨hc, by simp [val_eq_signed, hneg, hcu, ← hs]⟩

/-! ## An inexact root -/

/-- A value of at least 2^24 units is even. -/
theorem even_val {y : F32} (h : 2 ^ 24 ≤ val y) : val y % 2 = 0 := by
  have hu := (val_eq_units_of_pos (x := y) (by omega)).2
  obtain ⟨j, hj⟩ := @unitsOfMag_multiple 1 (mag y) (by unfold units at hu; omega)
  rw [hu, units, hj]; omega

/-- The rounding r of s + 1/2: no value from 0 on mirrors r in s + 1/2, so the midpoint of the two
is at s or below, or at s + 1 or above. -/
theorem midpoint_of_half {s : Nat} {r : F32} (hlo : 2 ^ 74 ≤ s) (hhi : s < 2 ^ 213)
    (hr : r = roundNE false (2 * s + 1) 2) :
    isFinite r = true ∧ 0 < val r ∧ ∀ y : F32, isFinite y = true → 0 ≤ val y →
      (val y < val r → val y + val r ≤ 2 * s) ∧ (val r < val y → 2 * s + 2 ≤ val y + val r) := by
  obtain ⟨-, hfin, hnear⟩ :=
    roundNE_spec (neg := false) (p := 2 * s + 1) (q := 2) (by norm_num) (2 * s + 1) (by simp)
  rw [← hr] at hfin hnear
  have hf : isFinite r = true := by
    rw [hfin, abs_of_nonneg (by omega)]; omega
  obtain ⟨c, hc, hcn, hcu⟩ := exists_value false 1 74 (by norm_num) (by norm_num)
  have hcv : val c = 2 ^ 74 := by simp [val_eq_signed, hcn, hcu]
  have hrc := (hnear hf c hc).1
  push_cast at hrc hnear
  rw [abs_of_nonpos (a := val c * 2 - (2 * s + 1)) (by omega), hcv, abs_le] at hrc
  have hrlo : 2 ^ 74 ≤ val r := by omega
  have hre := even_val (y := r) (by omega)
  refine ⟨hf, by omega, fun y hy hy0 => ?_⟩
  have hry := (hnear hf y hy).1
  have hmirror : val y + val r ≠ 2 * s + 1 := by
    intro h
    have hye : val y < 2 ^ 24 := by
      by_contra hge
      have := even_val (y := y) (by omega)
      omega
    omega
  rcases le_total (2 * (s : Int) + 1) (val y * 2) with h | h
  · rw [abs_of_nonneg (a := val y * 2 - (2 * s + 1)) (by omega), abs_le] at hry
    omega
  · rw [abs_of_nonpos (a := val y * 2 - (2 * s + 1)) (by omega), abs_le] at hry
    omega

/-! ## The nearest root -/

/-- No value from 0 on is nearer to the root of a finite x above 0 than fsqrt's answer: an exact
root is the answer itself, and an inexact one has no midpoint between the integers on its two sides. -/
theorem fsqrt_midpoints {x y : F32} (hx : isFinite x = true) (h0 : 0 < val x)
    (hy : isFinite y = true) (hy0 : 0 ≤ val y) :
    isFinite (fsqrt x) = true ∧ 0 < val (fsqrt x) ∧
    (val y < val (fsqrt x) → (val y + val (fsqrt x)) ^ 2 < 4 * radicand x) ∧
    (val (fsqrt x) < val y → (4 * radicand x : Int) < (val y + val (fsqrt x)) ^ 2) := by
  obtain ⟨hn, hxu⟩ := val_eq_units_of_pos h0
  have hu : 0 < units x := by omega
  obtain ⟨hsq, hsq', hlo, hhi⟩ := rootFloor_bounds hx hu
  rw [fsqrt_of_pos hx hn (mt units_eq_zero.2 hu.ne')]
  generalize hs : rootFloor x = s at *
  split
  · next h =>
    obtain ⟨hf, hv⟩ := val_roundNE_of_exact hx hu (by rw [hs]; exact h)
    rw [hs] at hf hv
    rw [hv]
    have hR : (radicand x : Int) = s * s := by exact_mod_cast h.symm
    rw [hR]
    refine ⟨hf, by omega, fun hlt => ?_, fun hlt => ?_⟩
    · calc (val y + s) ^ 2 < (2 * s) ^ 2 := pow_lt_pow_left₀ (by omega) (by omega) two_ne_zero
        _ = 4 * (s * s) := by ring
    · calc (4 * (s * s) : Int) = (2 * s) ^ 2 := by ring
        _ < (val y + s) ^ 2 := pow_lt_pow_left₀ (by omega) (by omega) two_ne_zero
  · next h =>
    obtain ⟨hf, hpos, hmid⟩ := midpoint_of_half hlo hhi rfl
    obtain ⟨hbelow, habove⟩ := hmid y hy hy0
    have hlt : ((s * s : Nat) : Int) < radicand x := by exact_mod_cast lt_of_le_of_ne hsq h
    have hgt : (radicand x : Int) < ((s + 1) * (s + 1) : Nat) := by exact_mod_cast hsq'
    push_cast at hlt hgt
    refine ⟨hf, hpos, fun hyr => ?_, fun hyr => ?_⟩
    · calc _ ≤ (2 * s : Int) ^ 2 := pow_le_pow_left₀ (by omega) (hbelow hyr) 2
        _ = 4 * (s * s) := by ring
        _ < _ := by linarith
    · calc _ < (4 * ((s + 1) * (s + 1)) : Int) := by linarith
        _ = (2 * s + 2) ^ 2 := by ring
        _ ≤ _ := pow_le_pow_left₀ (by omega) (habove hyr) 2

theorem fsqrt_of_flt_zero {x : F32} (h : flt x posZero = true) : fsqrt x = qNaN := by
  obtain ⟨hnan, -⟩ := isNaN_of_flt h
  have hval : val x < 0 := (flt_iff hnan (by decide)).1 h
  have hneg : isNeg x = true := by simpa [isNeg_eq_of_val hval.ne] using hval
  have h0 : mag x ≠ 0 := by
    rw [← units_eq_zero.ne, units_eq_natAbs]; omega
  simp [fsqrt, hnan, h0, hneg]

end Sys2Proof.Machine

namespace Sys2Proof
open Machine

/-- Settles O44: an exact root is a binary32 value, and an inexact one lies strictly between two
integers that no midpoint separates. -/
theorem sqrtRoundsToNearest : Obligations.SqrtRoundsToNearest := by
  unfold Obligations.SqrtRoundsToNearest
  refine ⟨fun x y hx h0 hy hy0 => ?_, by decide, by decide, by decide, fun x => fsqrt_of_flt_zero⟩
  have hr : val x * 2 ^ 149 = radicand x := by
    rw [(val_eq_units_of_pos h0).2, radicand]; push_cast; rfl
  rw [hr]
  exact fsqrt_midpoints hx h0 hy hy0

end Sys2Proof
end

section
/-! The logarithm below 1 (O48). -/

namespace Sys2Proof.Machine

/-! ## Fractions as rationals -/

/-- The rational number a fraction stands for. -/
def Frac.toRat (a : Frac) : ℚ := a.num / a.den

theorem toRat_fracInt (n : Int) : (fracInt n).toRat = n := by simp [Frac.toRat, fracInt]

theorem toRat_fracMul (a b : Frac) : (fracMul a b).toRat = a.toRat * b.toRat := by
  simp [Frac.toRat, fracMul, mul_div_mul_comm]

theorem toRat_fracAdd {a b : Frac} (ha : 0 < a.den) (hb : 0 < b.den) :
    (fracAdd a b).toRat = a.toRat + b.toRat := by
  have ha' : (a.den : ℚ) ≠ 0 := by positivity
  have hb' : (b.den : ℚ) ≠ 0 := by positivity
  simp only [Frac.toRat, fracAdd]
  push_cast
  field_simp

theorem den_fracMul_pos {a b : Frac} (ha : 0 < a.den) (hb : 0 < b.den) : 0 < (fracMul a b).den :=
  Nat.mul_pos ha hb

theorem den_fracAdd_pos {a b : Frac} (ha : 0 < a.den) (hb : 0 < b.den) : 0 < (fracAdd a b).den :=
  Nat.mul_pos ha hb

theorem num_neg_iff {a : Frac} (h : 0 < a.den) : a.num < 0 ↔ a.toRat < 0 := by
  have hd : (0 : ℚ) < a.den := by exact_mod_cast h
  rw [Frac.toRat, div_lt_iff₀ hd, zero_mul]
  exact Int.cast_lt_zero.symm

/-! ## Series with coefficients from 0 on -/

section Series
variable {r : Nat → Frac} (hr : ∀ k, 0 < (r k).den)
include hr

theorem den_nestedSeries_pos {z : Frac} (hz : 0 < z.den) :
    ∀ n k, 0 < (nestedSeries r z n k).den
  | 0, _ => one_pos
  | n + 1, k =>
    den_fracAdd_pos one_pos
      (den_fracMul_pos (den_fracMul_pos (hr k) hz) (den_nestedSeries_pos hz n (k + 1)))

theorem toRat_nestedSeries_succ {z : Frac} (hz : 0 < z.den) (n k : Nat) :
    (nestedSeries r z (n + 1) k).toRat =
      1 + (r k).toRat * z.toRat * (nestedSeries r z n (k + 1)).toRat := by
  rw [nestedSeries, toRat_fracAdd one_pos (den_fracMul_pos (den_fracMul_pos (hr k) hz)
    (den_nestedSeries_pos hr hz n (k + 1))), toRat_fracMul, toRat_fracMul, toRat_fracInt]
  simp

variable (hr0 : ∀ k, 0 ≤ (r k).toRat)
include hr0

/-- The series is at least its first term, and grows with its argument. -/
theorem nestedSeries_mono {y z : Frac} (hy : 0 < y.den) (hz : 0 < z.den) (hy0 : 0 ≤ y.toRat)
    (hyz : y.toRat ≤ z.toRat) : ∀ n k,
    1 ≤ (nestedSeries r y n k).toRat ∧
    (nestedSeries r y n k).toRat ≤ (nestedSeries r z n k).toRat
  | 0, _ => by simp [nestedSeries, toRat_fracInt]
  | n + 1, k => by
    obtain ⟨h1, h2⟩ := nestedSeries_mono hy hz hy0 hyz n (k + 1)
    have h3 := hr0 k
    have hz0 := hy0.trans hyz
    rw [toRat_nestedSeries_succ hr hy, toRat_nestedSeries_succ hr hz]
    constructor
    · have : 0 ≤ (r k).toRat * y.toRat * (nestedSeries r y n (k + 1)).toRat := by positivity
      linarith
    · gcongr

end Series

/-! ## Bounds of the logarithm -/

theorem den_lnSeries_pos {t : Frac} (ht : 0 < t.den) : 0 < (lnSeries t).den :=
  den_fracMul_pos one_pos (den_fracMul_pos ht
    (den_nestedSeries_pos (fun _ => Nat.succ_pos _) (den_fracMul_pos ht ht) 80 0))

/-- The series of 2 artanh grows at least twice as fast as its argument. -/
theorem lnSeries_sub_le {s t : Frac} (hs : 0 < s.den) (ht : 0 < t.den) (hs0 : 0 ≤ s.toRat)
    (hst : s.toRat ≤ t.toRat) :
    (lnSeries s).toRat + 2 * (t.toRat - s.toRat) ≤ (lnSeries t).toRat := by
  have ht0 := hs0.trans hst
  have hsq : (fracMul s s).toRat ≤ (fracMul t t).toRat := by
    rw [toRat_fracMul, toRat_fracMul]; gcongr
  have hsq0 : 0 ≤ (fracMul s s).toRat := by rw [toRat_fracMul]; positivity
  obtain ⟨h1, h2⟩ := nestedSeries_mono (r := fun k => ⟨2 * k + 1, 2 * k + 3⟩)
    (fun _ => Nat.succ_pos _) (fun k => by simp only [Frac.toRat]; positivity)
    (den_fracMul_pos hs hs) (den_fracMul_pos ht ht) hsq0 hsq 80 0
  simp only [lnSeries, toRat_fracMul _ (fracMul _ _), toRat_fracMul _ (nestedSeries _ _ _ _),
    toRat_fracInt]
  generalize (nestedSeries _ (fracMul s s) 80 0).toRat = a at *
  generalize (nestedSeries _ (fracMul t t) 80 0).toRat = b at *
  push_cast
  nlinarith [mul_nonneg (sub_nonneg.2 hst) (sub_nonneg.2 (h1.trans h2)),
    mul_nonneg hs0 (sub_nonneg.2 h2)]

theorem lnSeries_nonneg {t : Frac} (ht : 0 < t.den) (ht0 : 0 ≤ t.toRat) :
    0 ≤ (lnSeries t).toRat := by
  have hz : (⟨0, 1⟩ : Frac).toRat = 0 := by simp [Frac.toRat]
  have hs : (lnSeries ⟨0, 1⟩).toRat = 0 := by simp [lnSeries, toRat_fracMul, hz]
  have := lnSeries_sub_le one_pos ht hz.ge (hz.le.trans ht0)
  rw [hz, hs] at this
  linarith

theorem toRat_lnSlack : lnSlack.toRat = 1 / 2 ^ 250 := by
  rw [Frac.toRat, lnSlack]; push_cast; rfl

theorem toRat_oneThird : (⟨1, 3⟩ : Frac).toRat = 1 / 3 := by simp [Frac.toRat]

theorem den_ln2Lower_pos : 0 < ln2Lower.den := den_lnSeries_pos (by norm_num)

theorem den_ln2Upper_pos : 0 < ln2Upper.den :=
  den_fracAdd_pos den_ln2Lower_pos (Nat.two_pow_pos 250)

theorem toRat_ln2Upper : ln2Upper.toRat = ln2Lower.toRat + 1 / 2 ^ 250 := by
  rw [ln2Upper, toRat_fracAdd den_ln2Lower_pos (Nat.two_pow_pos 250), toRat_lnSlack]

theorem den_lnArg_pos (u : Nat) : 0 < (lnArg u).den := Nat.add_pos_right _ (Nat.two_pow_pos 23)

section BelowOne
variable {u : Nat} (hlo : 2 ^ 24 ≤ u)
include hlo

/-- The significand of a normal magnitude has 24 bits. -/
theorem significand_bounds :
    2 ^ 23 ≤ u / 2 ^ (lnExp u - 23) ∧ u / 2 ^ (lnExp u - 23) < 2 ^ 24 := by
  obtain ⟨hlt, hge⟩ := spacingExp_bounds u 1
  have hexp : spacingExp u 1 = lnExp u - 23 := by rw [spacingExp, Nat.div_one, lnExp]
  have hlog : 24 ≤ lnExp u := (Nat.le_log2 (by omega)).2 hlo
  rw [hexp, Nat.one_mul] at hlt hge
  exact ⟨hge (by omega), hlt⟩

/-- The significand m is at most 2 - 2^-23, so (m - 1)/(m + 1) stays below 1/3. -/
theorem toRat_lnArg_bounds : 0 ≤ (lnArg u).toRat ∧ (lnArg u).toRat + 1 / 2 ^ 26 ≤ 1 / 3 := by
  obtain ⟨h1, h2⟩ := significand_bounds hlo
  simp only [Frac.toRat, lnArg]
  generalize u / 2 ^ (lnExp u - 23) = m at *
  have hm1 : (2 : ℚ) ^ 23 ≤ m := by exact_mod_cast h1
  have hm2 : (m : ℚ) ≤ 2 ^ 24 - 1 := by
    have : m ≤ 2 ^ 24 - 1 := by omega
    have h : ((m : Nat) : ℚ) ≤ ((2 ^ 24 - 1 : Nat) : ℚ) := by exact_mod_cast this
    norm_num at h ⊢; exact h
  push_cast
  constructor
  · exact div_nonneg (by linarith) (by linarith)
  · rw [← le_sub_iff_add_le, div_le_iff₀ (by linarith)]
    linarith

/-- The logarithm's series falls short of ln 2 by at least 2^-25. -/
theorem lnSeries_lnArg_bounds :
    0 ≤ (lnSeries (lnArg u)).toRat ∧ (lnSeries (lnArg u)).toRat + 1 / 2 ^ 25 ≤ ln2Lower.toRat := by
  obtain ⟨h0, h3⟩ := toRat_lnArg_bounds hlo
  refine ⟨lnSeries_nonneg (den_lnArg_pos u) h0, ?_⟩
  have := lnSeries_sub_le (t := ⟨1, 3⟩) (den_lnArg_pos u) (by norm_num) h0
    (by rw [toRat_oneThird]; linarith)
  rw [toRat_oneThird] at this
  rw [ln2Lower]
  linarith

variable (hhi : u < 2 ^ 149)
include hhi

theorem lnExp_lt : lnExp u < 149 := (Nat.log2_lt (by omega)).2 hhi

theorem den_lnLower_pos : 0 < (lnLower u).den := by
  rw [lnLower, if_pos (lnExp_lt hlo hhi)]
  exact den_fracAdd_pos (den_lnSeries_pos (den_lnArg_pos u))
    (den_fracMul_pos one_pos den_ln2Upper_pos)

theorem den_lnUpper_pos : 0 < (lnUpper u).den := by
  rw [lnUpper, if_pos (lnExp_lt hlo hhi)]
  exact den_fracAdd_pos (den_fracAdd_pos (den_lnSeries_pos (den_lnArg_pos u)) (Nat.two_pow_pos 250))
    (den_fracMul_pos one_pos den_ln2Lower_pos)

theorem toRat_lnLower : (lnLower u).toRat =
    (lnSeries (lnArg u)).toRat + ((lnExp u : ℚ) - 149) * ln2Upper.toRat := by
  rw [lnLower, if_pos (lnExp_lt hlo hhi), toRat_fracAdd (den_lnSeries_pos (den_lnArg_pos u))
    (den_fracMul_pos one_pos den_ln2Upper_pos), toRat_fracMul, toRat_fracInt]
  push_cast; rfl

theorem toRat_lnUpper : (lnUpper u).toRat =
    (lnSeries (lnArg u)).toRat + 1 / 2 ^ 250 + ((lnExp u : ℚ) - 149) * ln2Lower.toRat := by
  have hs := den_lnSeries_pos (den_lnArg_pos u)
  rw [lnUpper, if_pos (lnExp_lt hlo hhi), toRat_fracAdd (den_fracAdd_pos hs (Nat.two_pow_pos 250))
    (den_fracMul_pos one_pos den_ln2Lower_pos), toRat_fracAdd hs (Nat.two_pow_pos 250),
    toRat_fracMul, toRat_fracInt, toRat_lnSlack]
  push_cast; rfl

/-- Both ends of the enclosure of ln x are well below 0 for x below 1. -/
theorem toRat_ln_le : (lnLower u).toRat ≤ -(1 / 2 ^ 26) ∧ (lnUpper u).toRat ≤ -(1 / 2 ^ 26) := by
  obtain ⟨h0, hS⟩ := lnSeries_lnArg_bounds hlo
  have he : (lnExp u : ℚ) - 149 ≤ -1 := by
    have : ((lnExp u + 1 : Nat) : ℚ) ≤ (149 : Nat) := by exact_mod_cast lnExp_lt hlo hhi
    push_cast at this; linarith
  rw [toRat_lnLower hlo hhi, toRat_lnUpper hlo hhi, toRat_ln2Upper]
  generalize (lnSeries (lnArg u)).toRat = S at *
  generalize ln2Lower.toRat = L at *
  have hL : (lnExp u - 149 : ℚ) * L ≤ -1 * L :=
    mul_le_mul_of_nonneg_right he (by linarith [show (0 : ℚ) < 1 / 2 ^ 25 by norm_num])
  have hslack : (lnExp u - 149 : ℚ) * (1 / 2 ^ 250) ≤ 0 :=
    mul_nonpos_of_nonpos_of_nonneg (by linarith) (by positivity)
  have hsmall : (1 : ℚ) / 2 ^ 250 + 1 / 2 ^ 26 ≤ 1 / 2 ^ 25 := by norm_num
  rw [mul_add]
  have h250 : (0 : ℚ) ≤ 1 / 2 ^ 250 := by positivity
  constructor <;> linarith

end BelowOne

/-! ## Rounding outward keeps a value below 0 -/

theorem le_roundQuotient (mode : Rounding) (p d : Nat) : p / d ≤ roundQuotient mode p d := by
  cases mode with
  | nearestEven => exact (roundQuotient_bounds p d).1
  | towardZero => exact le_rfl
  | awayFromZero => simp only [roundQuotient]; split <;> omega

/-- At least one unit does not round to 0, whatever the mode. -/
theorem roundMag_pos (mode : Rounding) {p q : Nat} (hq : 0 < q) (h : q ≤ p) :
    0 < roundMag mode p q := by
  have htop : 0 < topMag mode := by cases mode <;> decide
  refine lt_min ?_ htop
  by_cases he : spacingExp p q = 0
  · have h1 : 1 ≤ p / q := (Nat.one_le_div_iff hq).2 h
    have := le_roundQuotient mode p (q * 2 ^ spacingExp p q)
    rw [he, pow_zero, Nat.mul_one] at this ⊢
    omega
  · omega

theorem roundMag_le_infMag (mode : Rounding) (p q : Nat) : roundMag mode p q ≤ infMag :=
  (Nat.min_le_right _ _).trans (by cases mode <;> decide)

/-- A negative value of any magnitude up to infinity is below 0. -/
theorem flt_ofMag_true {m : Nat} (h0 : 0 < m) (h : m ≤ infMag) :
    flt (ofMag true m) posZero = true := by
  rw [flt_iff (isNaN_ofMag h) (by decide), val_signed true (lt_of_le_of_lt h (by decide))]
  have : unitsOfMag 0 < unitsOfMag m := unitsOfMag_strictMono h0
  rw [unitsOfMag_zero] at this
  simpa [show val posZero = 0 from by decide] using this

/-- A fraction of at most -2^-26 is negative and at least one unit of 2^-149 in magnitude. -/
theorem frac_of_le {a : Frac} (hd : 0 < a.den) (h : a.toRat ≤ -(1 / 2 ^ 26)) :
    a.num < 0 ∧ a.den ≤ a.num.natAbs * 2 ^ 149 := by
  have hn : a.num < 0 := (num_neg_iff hd).2 (h.trans_lt (by norm_num))
  refine ⟨hn, ?_⟩
  rw [Frac.toRat, div_le_iff₀ (by exact_mod_cast hd)] at h
  have h2 : (a.den : ℚ) ≤ -a.num * 2 ^ 26 := by linarith
  have h3 : (a.den : Int) ≤ -a.num * 2 ^ 26 := by exact_mod_cast h2
  omega

theorem flt_faithful {up : Bool} {lo hi : Frac} (hdl : 0 < lo.den) (hdh : 0 < hi.den)
    (hl : lo.toRat ≤ -(1 / 2 ^ 26)) (hh : hi.toRat ≤ -(1 / 2 ^ 26)) :
    flt (faithful up lo hi) posZero = true := by
  obtain ⟨hln, hlm⟩ := frac_of_le hdl hl
  obtain ⟨hhn, hhm⟩ := frac_of_le hdh hh
  cases up
  · show flt (roundDown lo) posZero = true
    rw [roundDown, decide_eq_true hln]
    exact flt_ofMag_true (roundMag_pos _ hdl hlm) (roundMag_le_infMag _ _ _)
  · show flt (roundUp hi) posZero = true
    rw [roundUp, decide_eq_true hhn]
    exact flt_ofMag_true (roundMag_pos _ hdh hhm) (roundMag_le_infMag _ _ _)

/-- FN_LN is below 0 on (0, 1): by the enclosure's ends from 2^-24 on, and by the choice of the free
result below (R21(e)). -/
theorem flt_fnLn {x : F32} (h0 : flt posZero x = true) (h1 : flt x one = true) :
    flt (fnLn x) posZero = true := by
  obtain ⟨hnan, hnone⟩ := isNaN_of_flt h1
  have hpos : 0 < val x := (flt_iff (by decide) hnan).1 h0
  have hlt : val x < 2 ^ 149 := (flt_iff hnan hnone).1 h1
  obtain ⟨-, hu⟩ := val_eq_units_of_pos hpos
  have hne : x ≠ one := by rintro rfl; exact absurd hlt (by decide)
  have hfin : isFinite x = true := by
    rw [isFinite_iff]
    refine unitsOfMag_strictMono.lt_iff_lt.1 ?_
    rw [unitsOfMag_infMag]
    change units x < _
    omega
  cases hf : fle lnFloor x with
  | true =>
    have hfloor : 2 ^ 125 ≤ val x := (fle_iff (by decide) hnan).1 hf
    rw [fnLn, if_neg (by simp [hnan]), if_neg hne, if_pos (by simp [hfin, hf])]
    have hlo : 2 ^ 24 ≤ units x := by omega
    have hhi : units x < 2 ^ 149 := by omega
    obtain ⟨hlower, hupper⟩ := toRat_ln_le hlo hhi
    exact flt_faithful (den_lnLower_pos hlo hhi) (den_lnUpper_pos hlo hhi) hlower hupper
  | false =>
    have hfloor : flt x lnFloor = true := by
      rw [flt_iff hnan (by decide), ← not_le, ← fle_iff (by decide) hnan, hf]; simp
    rw [fnLn, if_neg (by simp [hnan]), if_neg hne, if_neg (by simp [hf]),
      if_pos (by simp [h0, hfloor])]
    have : Config.lnBelow x % infMag < infMag := Nat.mod_lt _ (by decide)
    exact flt_ofMag_true (by omega) (by omega)

end Sys2Proof.Machine

namespace Sys2Proof
open Machine

/-- Settles O48: the exact points are tested first, and FN_LN's enclosure and its free result are
below 0. -/
theorem transcendentalPoints : Obligations.TranscendentalPoints := by
  unfold Obligations.TranscendentalPoints
  exact ⟨rfl, rfl, rfl, rfl, fun x => flt_fnLn⟩

end Sys2Proof
end

section
/-! What a completing command leaves alone, and the bookkeeping of STATUS and the PRNG over a step
(O10, O13, O51). -/

namespace Sys2Proof.Machine

/-! ## Frames of commands -/

/-- ARG0, CTRL, the knobs and the ENV_* registers: what only the host and RESET write. -/
def State.hostRegs (s : State) : Word × Ctrl × Knobs × EnvRegs :=
  (s.arg0, s.ctrl, s.knobs, s.envRegs)

/-- SAMPLE_RATE, MAX_BLOCK and PREPARED: what PREPARE sets. -/
def State.prepareRegs (s : State) : F32 × Word × Bool :=
  (s.sampleRate, s.maxBlock, s.status.prepared)

/-- The model's own fields on the host's side (log entry 13). -/
def State.hostSide (s : State) : List HostEvent × Word × Nat := (s.host, s.readData, s.draws)

/-- ERR with CAUSE. -/
def Status.errCause (st : Status) : Bool × Cause := (st.err, st.cause)

/-- A view of the state that neither completion nor a recorded error changes is left alone by every
command whose effect leaves it alone. -/
theorem exec_keeps {α : Type} {view : State → α} {i : Instr} {s t : State}
    (hdone : ∀ u : State, view u.complete = view u)
    (herr : ∀ (u : State) c, view (u.recordError c) = view u)
    (hfault : ∀ (u : State) c, view (u.recordFault c) = view u)
    (heffect : ∀ u, Effect s i u → view u = view s) (h : exec i s = .next t) :
    view t = view s := by
  rcases exec_answers h with ⟨c, _, _, rfl⟩ | ⟨_, _, rfl⟩ | ⟨u, hu, rfl⟩
  · rw [hdone, herr]
  · rw [hdone, hfault]
  · rw [hdone, heffect u hu]

theorem Effect.hostRegs_eq {i : Instr} {s u : State} (h : Effect s i u) (hr : i ≠ .reset) :
    u.hostRegs = s.hostRegs := by
  cases h with
  | reset => exact absurd rfl hr
  | _ => simp [State.hostRegs, State.setEnv]

theorem Effect.prepareRegs_eq {i : Instr} {s u : State} (h : Effect s i u) (hr : i ≠ .reset)
    (hp : ∀ m, i ≠ .prepare m) : u.prepareRegs = s.prepareRegs := by
  cases h with
  | reset => exact absurd rfl hr
  | prepare m => exact absurd rfl (hp m)
  | _ => simp [State.prepareRegs, State.setEnv]

theorem Effect.hostSide_eq {i : Instr} {s u : State} (h : Effect s i u) :
    u.hostSide = s.hostSide := by
  cases h <;> simp [State.hostSide, State.setEnv]

/-- What a command's effect does to the PRNG: nothing, unless the command fills noise or is RESET. -/
theorem Effect.rng_cases {i : Instr} {s u : State} (h : Effect s i u) :
    u.rng = s.rng ∨ (i = .reset ∧ u.rng = Config.seedReset) ∨
    (i.drawsNoise = true ∧ ∃ uniform n, u.rng = (noiseFill uniform n s.rng).2) := by
  cases h with
  | reset => exact .inr (.inl ⟨rfl, rfl⟩)
  | noiseUniform n => exact .inr (.inr ⟨rfl, true, n.toNat, s.fillNoise_rng _ _⟩)
  | noiseGauss n => exact .inr (.inr ⟨rfl, false, n.toNat, s.fillNoise_rng _ _⟩)
  | block n => exact .inr (.inr ⟨rfl, s.operands.ctrl.noiseMode, n.toNat, by simp⟩)
  | _ => exact .inl (by simp [State.setEnv])

/-- No effect but RESET's touches ERR or CAUSE. -/
theorem Effect.errCause_eq {i : Instr} {s u : State} (h : Effect s i u) (hr : i ≠ .reset) :
    u.status.errCause = s.status.errCause := by
  cases h with
  | reset => exact absurd rfl hr
  | _ => simp [Status.errCause, State.setEnv]

/-! ## ERR with CAUSE -/

theorem Status.causeOk_congr {st st' : Status} (h : st'.errCause = st.errCause) (hok : st.CauseOk) :
    st'.CauseOk := by
  obtain ⟨herr, hcause⟩ := Prod.mk.inj h
  rwa [Status.CauseOk, herr, hcause]

theorem Status.causeOk_recordError {st : Status} {c : Cause} (hc : c ≠ .none) (h : st.CauseOk) :
    (st.recordError c).CauseOk := by
  unfold Status.CauseOk at h ⊢
  cases he : st.err <;> simp_all

theorem Status.causeOk_writeClear {st : Status} (w : Word) (h : st.CauseOk) :
    (st.writeClear w).CauseOk := by
  unfold Status.CauseOk at h ⊢
  cases hw : w.getLsbD 3 <;> simp_all [Status.writeClear]

/-- With ERR set, recording an error keeps ERR and the cause. -/
theorem Status.errCause_recordError {st : Status} (c : Cause) (h : st.err = true) :
    (st.recordError c).errCause = st.errCause := by
  simp [Status.errCause, h]

theorem Status.errCause_recordFault {st : Status} (c : Cause) (h : st.err = true) :
    (st.recordFault c).errCause = st.errCause := by
  simp [Status.errCause, h]

theorem Status.errCause_writeClear {st : Status} {w : Word} (h : w.getLsbD 3 = false) :
    (st.writeClear w).errCause = st.errCause := by
  unfold Status.errCause Status.writeClear
  rw [h]
  simp

theorem causeOf_ne_none (e : DecodeError) : causeOf e ≠ .none := by cases e <;> decide

/-! ## The PRNG state is never 0 (R200) -/

/-- A word that a left shift by at least one bit gives back is 0. -/
theorem eq_zero_of_shiftLeft {a : Word} {k : Nat} (hk : 0 < k) (h : a = a <<< k) : a = 0#32 := by
  refine BitVec.eq_of_getLsbD_eq fun i _ => ?_
  induction i using Nat.strong_induction_on with
  | _ i ih =>
    rw [h, BitVec.getLsbD_shiftLeft]
    by_cases hik : i < k
    · simp [hik]
    · rw [ih (i - k) (by omega) (by omega)]
      simp

theorem eq_zero_of_ushiftRight {a : Word} {k : Nat} (hk : 0 < k) (h : a = a >>> k) : a = 0#32 := by
  by_contra hne
  have hpos : 0 < a.toNat := Nat.pos_of_ne_zero fun h0 => hne (BitVec.eq_of_toNat_eq h0)
  have hdiv : a.toNat / 2 ^ k < a.toNat := Nat.div_lt_self hpos (Nat.one_lt_two_pow hk.ne')
  rw [← Nat.shiftRight_eq_div_pow, ← BitVec.toNat_ushiftRight, ← h] at hdiv
  exact absurd hdiv (lt_irrefl _)

theorem xorshift_ne_zero {x : Word} (hx : x ≠ 0#32) : xorshift x ≠ 0#32 := by
  intro h
  have hb := eq_zero_of_shiftLeft (by decide) (BitVec.xor_eq_zero_iff.1 h)
  have ha := eq_zero_of_ushiftRight (by decide) (BitVec.xor_eq_zero_iff.1 hb)
  exact hx (eq_zero_of_shiftLeft (by decide) (BitVec.xor_eq_zero_iff.1 ha))

theorem drawU1_ne_zero (n : Nat) {x : Word} (hx : x ≠ 0#32) : (drawU1 n x).2 ≠ 0#32 := by
  induction n generalizing x with
  | zero => exact hx
  | succ n ih =>
    rw [drawU1]
    split
    · exact xorshift_ne_zero hx
    · exact ih (xorshift_ne_zero hx)

theorem gaussPair_ne_zero (retries : Nat) {x : Word} (hx : x ≠ 0#32) :
    (gaussPair retries x).2 ≠ 0#32 :=
  xorshift_ne_zero (drawU1_ne_zero retries hx)

/-- Either fill iterates a draw that keeps the state nonzero. -/
theorem noiseFill_ne_zero (uniform : Bool) (n : Nat) {x : Word} (hx : x ≠ 0#32) :
    (noiseFill uniform n x).2 ≠ 0#32 := by
  cases uniform
  · rw [noiseFill, if_neg (by decide), (gaussFill_spec _ n x).1]
    exact Function.Iterate.rec (· ≠ 0#32) hx (fun _ => gaussPair_ne_zero _) _
  · rw [noiseFill, if_pos rfl, (uniformFill_spec n x).1]
    exact Function.Iterate.rec (· ≠ 0#32) hx (fun _ => xorshift_ne_zero) _

theorem seedOf_ne_zero (w : Word) : seedOf w ≠ 0#32 := by
  unfold seedOf
  split
  · decide
  · assumption

/-- What a host action can do to the PRNG: nothing, or store a seed (a reset stores SEED_RESET, the
seed of 0). -/
theorem State.hostAct_rng (s : State) (a : HostAction) :
    (s.hostAct a).rng = s.rng ∨ ∃ w, (s.hostAct a).rng = seedOf w := by
  cases a with
  | hardReset => exact .inr ⟨0#32, rfl⟩
  | read w a =>
    change (s.busRead w a).rng = _ ∨ _
    rcases s.busRead_cases w a with ⟨_, h⟩ | ⟨_, _, _, _, h⟩ | ⟨_, _, _, h⟩ <;>
      exact .inl (by simp [h])
  | write w a v =>
    change (s.busWrite w a v).rng = _ ∨ ∃ x, (s.busWrite w a v).rng = seedOf x
    rw [State.busWrite]
    split
    · rename_i t _
      cases t with
      | reg r =>
        cases r with
        | cmd =>
          change (s.issue v).rng = _ ∨ _
          rcases s.issue_cases v with ⟨_, h⟩ | ⟨_, h⟩ <;> exact .inl (by simp [h])
        | noiseSeed =>
          change (s.writeIdle _).rng = _ ∨ ∃ x, (s.writeIdle _).rng = seedOf x
          rcases s.writeIdle_cases { s with rng := seedOf v } with ⟨_, h⟩ | ⟨_, h⟩
          · exact .inr ⟨v, by rw [h]⟩
          · exact .inl (by simp [h])
        | _ => exact .inl rfl
      | buf b i =>
        change (s.writeIdle _).rng = _ ∨ _
        rcases s.writeIdle_cases { s with mem := s.mem.writeWord (bufBase b + 4 * i) v } with
          ⟨_, h⟩ | ⟨_, h⟩ <;> exact .inl (by simp [h])
      | dlm i => exact .inl rfl
    · exact .inl rfl

/-! ## The engine's invariant over each kind of step -/

theorem State.engineInv_resetCore (s : State) : s.resetCore.EngineInv :=
  ⟨⟨fun _ => rfl, fun _ => rfl⟩, by rw [State.resetCore_rng]; decide⟩

theorem State.EngineInv.hostAct {s : State} (h : s.EngineInv) (a : HostAction) :
    (s.hostAct a).EngineInv := by
  obtain ⟨hcause, hrng⟩ := h
  have hrng' : (s.hostAct a).rng ≠ 0#32 := by
    rcases s.hostAct_rng a with h | ⟨w, h⟩ <;> rw [h]
    · exact hrng
    · exact seedOf_ne_zero w
  refine ⟨?_, hrng'⟩
  rcases s.hostAct_status a with rfl | ⟨v, _, h⟩ | h | ⟨c, hc, h⟩
  · exact s.engineInv_resetCore.1
  · rw [h]; exact Status.causeOk_writeClear v hcause
  · rw [h]; exact hcause
  · rw [h]; exact Status.causeOk_recordError hc hcause

theorem State.EngineInv.effect {i : Instr} {s u : State} (h : s.EngineInv) (he : Effect s i u) :
    u.EngineInv := by
  obtain ⟨hcause, hrng⟩ := h
  by_cases hi : i = .reset
  · subst hi
    cases he
    exact s.engineInv_resetCore
  refine ⟨Status.causeOk_congr (he.errCause_eq hi) hcause, ?_⟩
  rcases he.rng_cases with h | ⟨hreset, _⟩ | ⟨_, uniform, n, h⟩
  · rwa [h]
  · exact absurd hreset hi
  · rw [h]; exact noiseFill_ne_zero uniform n hrng

theorem State.EngineInv.complete {s : State} (h : s.EngineInv) : s.complete.EngineInv := h

theorem State.EngineInv.recordError {s : State} {c : Cause} (hc : c ≠ .none) (h : s.EngineInv) :
    (s.recordError c).EngineInv :=
  ⟨Status.causeOk_recordError hc h.1, h.2⟩

/-- A fault is recorded as an error is, with FAULT set beside ERR and CAUSE. -/
theorem State.EngineInv.recordFault {s : State} {c : Cause} (hc : c ≠ .none) (h : s.EngineInv) :
    (s.recordFault c).EngineInv :=
  h.recordError hc

theorem State.EngineInv.exec {i : Instr} {s t : State} (h : s.EngineInv)
    (he : exec i s = .next t) : t.EngineInv := by
  rcases exec_answers he with ⟨c, hc, _, rfl⟩ | ⟨_, _, rfl⟩ | ⟨u, hu, rfl⟩
  · exact (h.recordError hc).complete
  · exact (h.recordFault (by decide)).complete
  · exact (h.effect hu).complete

/-! ## The first cause over a host action and over a command -/

/-- With ERR set, a host action keeps ERR and CAUSE, but for the reset and a STATUS write of bit 3. -/
theorem State.hostAct_errCause {s : State} (h : s.status.err = true) (a : HostAction) :
    (s.hostAct a).status.errCause = s.status.errCause ∨ a = .hardReset ∨
    ∃ v, a = .write .word 0x00008#20 v ∧ v.getLsbD 3 = true := by
  rcases s.hostAct_status a with ha | ⟨v, ha, hs⟩ | hs | ⟨c, _, hs⟩
  · exact .inr (.inl ha)
  · cases hv : v.getLsbD 3 with
    | true => exact .inr (.inr ⟨v, ha, hv⟩)
    | false => exact .inl (by rw [hs]; exact Status.errCause_writeClear hv)
  · exact .inl (by rw [hs])
  · exact .inl (by rw [hs]; exact Status.errCause_recordError c h)

/-- With ERR set, a command other than RESET keeps ERR and CAUSE. -/
theorem exec_errCause {i : Instr} {s t : State} (h : s.status.err = true) (hi : i ≠ .reset)
    (he : exec i s = .next t) : t.status.errCause = s.status.errCause := by
  rcases exec_answers he with ⟨c, _, _, rfl⟩ | ⟨_, _, rfl⟩ | ⟨u, hu, rfl⟩
  · exact Status.errCause_recordError c h
  · exact Status.errCause_recordFault _ h
  · exact hu.errCause_eq hi

end Sys2Proof.Machine

namespace Sys2Proof
open Machine

/-- Settles O51: each kind of step keeps the engine's invariant. -/
theorem engineInvKept : Obligations.EngineInvKept := by
  unfold Obligations.EngineInvKept
  intro s t hs h
  rcases step_cases h with ⟨e, es, _, _, rfl⟩ | ⟨r, i, _, _, _, he⟩ | ⟨r, e, _, _, _, rfl⟩ |
    ⟨_, _, rfl⟩
  · exact State.EngineInv.hostAct (s := { s with host := es }) hs e.action
  · exact hs.exec he
  · exact (hs.recordError (causeOf_ne_none e)).complete
  · exact hs

/-- Settles O10: each clause is a view of the state that only its own commands' effects change. -/
theorem registersWrittenOnlyByTheirCommands : Obligations.RegistersWrittenOnlyByTheirCommands := by
  unfold Obligations.RegistersWrittenOnlyByTheirCommands
  intro i s t h
  refine ⟨fun hr => ?_, fun hr hp => ?_, fun hr hd => ?_, ?_⟩
  · simpa [State.hostRegs] using exec_keeps (view := State.hostRegs) (fun _ => rfl)
      (fun _ _ => rfl) (fun _ _ => rfl) (fun _ hu => hu.hostRegs_eq hr) h
  · simpa [State.prepareRegs] using exec_keeps (view := State.prepareRegs) (fun _ => rfl)
      (fun _ _ => rfl) (fun _ _ => rfl) (fun _ hu => hu.prepareRegs_eq hr hp) h
  · refine exec_keeps (view := State.rng) (fun _ => rfl) (fun _ _ => rfl) (fun _ _ => rfl)
      (fun u hu => ?_) h
    rcases hu.rng_cases with hrng | ⟨hreset, _⟩ | ⟨hdraws, _⟩
    · exact hrng
    · exact absurd hreset hr
    · exact absurd hdraws (by simp [hd])
  · simpa [State.hostSide] using exec_keeps (view := State.hostSide) (fun _ => rfl)
      (fun _ _ => rfl) (fun _ _ => rfl) (fun _ hu => hu.hostSide_eq) h

/-- Settles O13: with ERR set, only the three exceptions change ERR with CAUSE. -/
theorem firstCauseKept : Obligations.FirstCauseKept := by
  unfold Obligations.FirstCauseKept
  intro s t h herr
  have kept (ht : t.status.errCause = s.status.errCause) :
      t.status.err = true ∧ t.status.cause = s.status.cause := by
    obtain ⟨herr', hcause⟩ := Prod.mk.inj ht
    exact ⟨herr'.trans herr, hcause⟩
  rcases step_cases h with ⟨e, es, hh, _, rfl⟩ | ⟨r, i, _, hr, hd, he⟩ | ⟨r, e, _, _, _, rfl⟩ |
    ⟨_, _, rfl⟩
  · rcases State.hostAct_errCause (s := { s with host := es }) herr e.action with
      hk | ha | ⟨v, ha, hv⟩
    · exact .inl (kept hk)
    · exact .inr (.inr ⟨e, es, hh, .inl ha⟩)
    · exact .inr (.inr ⟨e, es, hh, .inr ⟨v, ha, hv⟩⟩)
  · by_cases hi : i = .reset
    · exact .inr (.inl ⟨r, hr, hi ▸ hd⟩)
    · exact .inl (kept (exec_errCause herr hi he))
  · exact .inl (kept (Status.errCause_recordError _ herr))
  · exact .inl ⟨herr, rfl⟩

end Sys2Proof
end

section
/-! The register bus: what each address names, register reads and writes, the STATUS and CTRL words, and
the busy rules (O54 to O57, O60). -/

namespace Sys2Proof.Machine

/-! ## Which address names what (R83) -/

/-- A full word at a register's offset reaches the register. -/
theorem targetOf_offset (r : Reg) : targetOf .word (BitVec.ofNat 20 r.offset) = some (.reg r) := by
  cases r <;> rfl

/-- No register lies at or above the first buffer's window. -/
theorem find?_allRegs_eq_none {a : Nat} (h : bufBase .out0 ≤ a) :
    allRegs.find? (fun r => r.offset == a) = none := by
  have hbelow : ∀ r ∈ allRegs, r.offset < bufBase .out0 := by decide
  exact List.find?_eq_none.2 fun r hr => by simpa using ((hbelow r hr).trans_le h).ne

theorem windowIndex_mem {base n i : Nat} (h : i < n) : windowIndex base n (base + 4 * i) = some i := by
  rw [windowIndex, if_pos (by omega)]
  congr 1
  omega

theorem windowIndex_outside {base n a : Nat} (h : a < base ∨ base + 4 * n ≤ a) :
    windowIndex base n a = none := by
  rw [windowIndex, if_neg (by omega)]

theorem targetOf_aligned {a : Addr} (h : a.toNat % 4 = 0) : targetOf .word a = targetAt a.toNat := by
  rw [targetOf, if_pos ⟨rfl, h⟩]

/-- Word i of a buffer's window is word i of the buffer. -/
theorem targetOf_buf {b : Buf} {i : Nat} {a : Addr} (hi : i < Config.bufSize)
    (ha : a.toNat = bufBase b + 4 * i) : targetOf .word a = some (.buf b i) := by
  have hbase : bufBase b % 4 = 0 := by cases b <;> decide
  have hlow : bufBase .out0 ≤ bufBase b := by cases b <;> decide
  rw [targetOf_aligned (by omega), ha, targetAt, find?_allRegs_eq_none (by omega)]
  have apart {b' : Buf} (hb : b' ≠ b) :
      windowIndex (bufBase b') Config.bufSize (bufBase b + 4 * i) = none :=
    windowIndex_outside (by rcases bufBase_apart hb with h | h <;> omega)
  cases b with
  | out0 => simp only [windowIndex_mem hi]
  | out1 => simp only [windowIndex_mem hi, apart (b' := .out0) nofun]
  | noise => simp only [windowIndex_mem hi, apart (b' := .out0) nofun, apart (b' := .out1) nofun]

/-- Word i of the DLM window is word i of DLM. -/
theorem targetOf_dlm {i : Nat} {a : Addr} (hi : i < Config.delayCap)
    (ha : a.toNat = dlmBase + 4 * i) : targetOf .word a = some (.dlm i) := by
  have hbase : dlmBase % 4 = 0 := by decide
  have hlow : bufBase .out0 ≤ dlmBase := by decide
  have outside (b : Buf) : windowIndex (bufBase b) Config.bufSize (dlmBase + 4 * i) = none :=
    windowIndex_outside (.inr ((bufBase_below_dlm b).trans (Nat.le_add_right _ _)))
  rw [targetOf_aligned (by omega), ha, targetAt, find?_allRegs_eq_none (by omega)]
  simp only [outside, windowIndex_mem hi]

/-! ## Register transactions -/

theorem State.busy_eq_false {s : State} (h : s.running = none) : s.busy = false := by
  rw [State.busy, h]; rfl

theorem State.busy_eq_true {s : State} (h : s.running ≠ none) : s.busy = true :=
  Option.isSome_iff_ne_none.2 h

/-- A read returns the content on an idle core, and of a target that R87(g) does not list. -/
theorem State.busRead_content {s : State} {a : Addr} {t : Target} (ht : targetOf .word a = some t)
    (h : s.busy = false ∨ t.openWhileBusy = false) :
    s.busRead .word a = { s with readData := s.readTarget t } := by
  rw [State.busRead, ht]
  exact if_neg (by rcases h with h | h <;> simp [h])

/-- A read while a command runs of a target that R87(g) lists returns a free value. -/
theorem State.busRead_open {s : State} {a : Addr} {t : Target} (ht : targetOf .word a = some t)
    (h : s.running ≠ none) (ho : t.openWhileBusy = true) :
    s.busRead .word a = { s with readData := Config.busyRead s.draws, draws := s.draws + 1 } := by
  rw [State.busRead, ht]
  exact if_pos (by simp [State.busy_eq_true h, ho])

theorem State.busWrite_target {s : State} {a : Addr} {t : Target} (ht : targetOf .word a = some t)
    (v : Word) : s.busWrite .word a v = s.writeTarget t v := by
  rw [State.busWrite, ht]

theorem State.busRead_reg {s : State} (r : Reg) (h : s.busy = false ∨ r.openWhileBusy = false) :
    s.busRead .word (BitVec.ofNat 20 r.offset) = { s with readData := s.readReg r } :=
  State.busRead_content (targetOf_offset r) h

theorem State.busWrite_reg (s : State) (r : Reg) (v : Word) :
    s.busWrite .word (BitVec.ofNat 20 r.offset) v = s.writeReg r v :=
  State.busWrite_target (targetOf_offset r) v

/-- The addresses of registers with their contents. -/
def State.readTable (s : State) (rs : List Reg) : List (Addr × Word) :=
  rs.map fun r => (BitVec.ofNat 20 r.offset, s.readReg r)

/-- The addresses of registers with the states after a write to them. -/
def State.writeTable (s : State) (v : Word) (rs : List Reg) : List (Addr × State) :=
  rs.map fun r => (BitVec.ofNat 20 r.offset, s.writeReg r v)

theorem State.busRead_readTable {s : State} {rs : List Reg}
    (h : ∀ r ∈ rs, s.busy = false ∨ r.openWhileBusy = false) :
    ∀ p ∈ s.readTable rs, s.busRead .word p.1 = { s with readData := p.2 } :=
  List.forall_mem_map.2 fun r hr => State.busRead_reg r (h r hr)

theorem State.busWrite_writeTable (s : State) (v : Word) (rs : List Reg) :
    ∀ p ∈ s.writeTable v rs, s.busWrite .word p.1 v = p.2 :=
  List.forall_mem_map.2 fun r _ => s.busWrite_reg r v

/-- A write to state the engine owns is ignored while a command runs. -/
theorem State.writeIdle_busy {s : State} (h : s.running ≠ none) (idle : State) :
    s.writeIdle idle = s.recordError .busyWrite :=
  if_pos (State.busy_eq_true h)

theorem State.writeIdle_idle {s : State} (h : s.running = none) (idle : State) :
    s.writeIdle idle = idle :=
  if_neg (by simp [State.busy_eq_false h])

/-- What R87(g) lists: nine registers, and every word of the buffers and of DLM. -/
theorem exists_target_open {a : Addr}
    (h : a.toNat ∈ [0x014, 0x018, 0x01C, 0x020, 0x024, 0x028, 0x02C, 0x03C, 0x070] ∨
      (a.toNat % 4 = 0 ∧
        ((∃ b : Buf, bufBase b ≤ a.toNat ∧ a.toNat < bufBase b + 4 * Config.bufSize) ∨
          (dlmBase ≤ a.toNat ∧ a.toNat < dlmBase + 4 * Config.delayCap)))) :
    ∃ t, targetOf .word a = some t ∧ t.openWhileBusy = true := by
  rcases h with h | ⟨h4, ⟨b, hlo, hhi⟩ | ⟨hlo, hhi⟩⟩
  · have hoffsets : [0x014, 0x018, 0x01C, 0x020, 0x024, 0x028, 0x02C, 0x03C, 0x070] =
        (allRegs.filter Reg.openWhileBusy).map Reg.offset := by decide
    rw [hoffsets] at h
    obtain ⟨r, hmem, hr⟩ := List.mem_map.1 h
    have ho := (List.mem_filter.1 hmem).2
    refine ⟨.reg r, ?_, ho⟩
    rw [← targetOf_offset r, hr, BitVec.ofNat_toNat, BitVec.setWidth_eq]
  · have hbase : bufBase b % 4 = 0 := by cases b <;> decide
    exact ⟨.buf b ((a.toNat - bufBase b) / 4), targetOf_buf (by omega) (by omega), rfl⟩
  · have hbase : dlmBase % 4 = 0 := by decide
    exact ⟨.dlm ((a.toNat - dlmBase) / 4), targetOf_dlm (by omega) (by omega), rfl⟩

/-! ## VOICE_ACTIVE -/

/-- The number whose bits below k are those of p. -/
theorem testBit_foldl_range (p : Nat → Bool) (k : Nat) :
    (List.range k).foldl (fun n v => if p v then n + 2 ^ v else n) 0 < 2 ^ k ∧
    ∀ v, v < k →
      ((List.range k).foldl (fun n v => if p v then n + 2 ^ v else n) 0).testBit v = p v := by
  induction k with
  | zero => simp
  | succ k ih =>
    rw [List.range_succ, List.foldl_concat]
    generalize (List.range k).foldl (fun n v => if p v then n + 2 ^ v else n) 0 = m at ih ⊢
    obtain ⟨hlt, hbits⟩ := ih
    have hpow : 2 ^ (k + 1) = 2 ^ k + 2 ^ k := by omega
    cases hk : p k with
    | false =>
      refine ⟨by simp; omega, fun v hv => ?_⟩
      rcases Nat.lt_succ_iff_lt_or_eq.1 hv with hv | rfl
      · simpa using hbits v hv
      · simpa [hk] using Nat.testBit_lt_two_pow hlt
    | true =>
      refine ⟨by simp; omega, fun v hv => ?_⟩
      rw [if_pos rfl, Nat.add_comm]
      rcases Nat.lt_succ_iff_lt_or_eq.1 hv with hv | rfl
      · rw [Nat.testBit_two_pow_add_gt hv, hbits v hv]
      · rw [Nat.testBit_two_pow_add_eq, Nat.testBit_lt_two_pow hlt, hk]; rfl

/-- Bit v of a voice-activity word is the playing flag of its voice, and 0 past the bank (R39). -/
theorem getLsbD_activeBits (xs : List Voice) (base : Nat) {v : Nat} (h : v < 32) :
    (activeBits xs base).getLsbD v = ((xs[base + v]?).map (·.playing)).getD false := by
  have hbit :=
    (testBit_foldl_range (fun v => ((xs[base + v]?).map (·.playing)).getD false) 32).2 v h
  rw [activeBits, BitVec.getLsbD_ofNat, hbit]
  simp [h]

/-! ## The STATUS and CTRL words -/

theorem Status.getLsbD_word (busy : Bool) (st : Status) :
    (st.word busy).getLsbD 0 = busy ∧ (st.word busy).getLsbD 1 = st.done ∧
    (st.word busy).getLsbD 2 = st.prepared ∧ (st.word busy).getLsbD 3 = st.err ∧
    (st.word busy).getLsbD 4 = st.fault ∧ (st.word busy).getLsbD 5 = st.noteDrop := by
  unfold Status.word bit
  simp only [BitVec.getLsbD_append]
  simp

/-- The fields of STATUS of more than one bit: CAUSE and the reserved bits. -/
theorem Status.extractLsb'_word (busy : Bool) (st : Status) :
    (st.word busy).extractLsb' 6 2 = 0#2 ∧ (st.word busy).extractLsb' 8 8 = st.cause.code ∧
    (st.word busy).extractLsb' 16 16 = 0#16 := by
  unfold Status.word
  refine ⟨?_, ?_, ?_⟩
  · simp (disch := decide) only [BitVec.extractLsb'_append_eq_of_le,
      BitVec.extractLsb'_append_eq_of_add_le]
    decide
  · simp (disch := decide) only [BitVec.extractLsb'_append_eq_of_le,
      BitVec.extractLsb'_append_eq_of_add_le]
    exact BitVec.extractLsb'_eq_self
  · simp (disch := decide) only [BitVec.extractLsb'_append_eq_of_le]
    decide

theorem Ctrl.getLsbD_word (c : Ctrl) :
    c.word.getLsbD 0 = c.irqEn ∧ c.word.getLsbD 1 = c.noiseMode ∧
    ∀ i, c.word.getLsbD (i + 2) = false := by
  unfold Ctrl.word bit
  simp only [BitVec.getLsbD_append]
  simp

/-- A CTRL write stores bits 1:0 and ignores the others (R32). -/
theorem Ctrl.word_ofWord (w : Word) : (Ctrl.ofWord w).word = w &&& 3#32 := by
  obtain ⟨hirq, hmode, hrest⟩ := Ctrl.getLsbD_word (Ctrl.ofWord w)
  have hmask : ∀ i < 32, (3#32).getLsbD i = decide (i < 2) := by decide
  refine BitVec.eq_of_getLsbD_eq fun i hi => ?_
  rw [BitVec.getLsbD_and, hmask i hi]
  match i with
  | 0 => rw [hirq]; simp [Ctrl.ofWord]
  | 1 => rw [hmode]; simp [Ctrl.ofWord]
  | i + 2 => rw [hrest]; simp

end Sys2Proof.Machine

namespace Sys2Proof
open Machine

/-- Settles O54: each flag goes out by its own bit, and CAUSE with ERR. -/
theorem statusWriteOneToClear : Obligations.StatusWriteOneToClear := by
  unfold Obligations.StatusWriteOneToClear
  intro s w
  refine ⟨s.status.writeClear w, s.busWrite_reg .status w, ?_⟩
  have clears (b c : Bool) : (b && !c) = if c then false else b := by cases c <;> simp
  exact ⟨clears _ _, clears _ _, clears _ _, clears _ _, rfl, rfl⟩

/-- Settles O55: the words are appended bit fields, so each bit is read off its field. -/
theorem statusWordLayout : Obligations.StatusWordLayout := by
  unfold Obligations.StatusWordLayout
  intro s
  obtain ⟨hbusy, hdone, hprepared, herr, hfault, hdrop⟩ := Status.getLsbD_word s.busy s.status
  obtain ⟨hlow, hcause, hhigh⟩ := Status.extractLsb'_word s.busy s.status
  obtain ⟨hirq, hmode, hrest⟩ := Ctrl.getLsbD_word s.ctrl
  refine ⟨hbusy, hdone, hprepared, herr, hfault, hdrop, hlow, ?_, hhigh, hirq, hmode, ?_,
    fun w => ⟨Ctrl.ofWord w, s.busWrite_reg .ctrl w, Ctrl.word_ofWord w⟩, rfl⟩
  · refine hcause.trans ?_
    cases s.status.cause <;> rfl
  · refine BitVec.eq_of_getLsbD_eq fun i hi => ?_
    rw [BitVec.getLsbD_extractLsb', Nat.add_comm, hrest]
    simp

/-- Settles O56: by the rule for a write to what the engine owns. -/
theorem noiseSeedRegister : Obligations.NoiseSeedRegister := by
  unfold Obligations.NoiseSeedRegister
  intro s w
  have hw := s.busWrite_reg .noiseSeed w
  refine ⟨fun h => State.busRead_reg .noiseSeed (.inl (State.busy_eq_false h)), fun h => ?_,
    fun h => ?_⟩
  · exact hw.trans (State.writeIdle_idle h _)
  · exact hw.trans (State.writeIdle_busy h _)

/-- Settles O57: on an idle core a read at a register's offset returns its content. -/
theorem registerReads : Obligations.RegisterReads := by
  unfold Obligations.RegisterReads
  intro s h
  have hidle := State.busy_eq_false h
  refine ⟨State.busRead_readTable (rs := [.id, .ctrl, .status, .cmd, .arg0, .result0, .result1,
      .noiseSeed, .sampleRate, .maxBlock, .numVoices, .bufSize, .dlCapacity, .dlSize])
      fun _ _ => .inl hidle,
    State.busRead_readTable (rs := [.pDetune, .pNoise, .pRate, .pBits, .pDetuneOn, .pDetuneMix,
      .pLfoSpeed, .tailLen, .envAttack, .envDecay, .envSustain, .envRelease, .dlFeedback])
      fun _ _ => .inl hidle,
    activeBits s.voices 0, activeBits s.voices 32,
    State.busRead_reg .voiceActiveLo (.inl hidle), State.busRead_reg .voiceActiveHi (.inl hidle),
    fun v hv => ⟨?_, getLsbD_activeBits s.voices 32 hv⟩⟩
  simpa using getLsbD_activeBits s.voices 0 hv

/-- Settles O60: each clause is the rule of its target. -/
theorem busyRules : Obligations.BusyRules := by
  unfold Obligations.BusyRules
  refine ⟨fun s c h => ?_, fun s c v b i a h hi ha => ⟨?_, ?_⟩,
    fun s v => ⟨s.busWrite_writeTable v [.ctrl, .arg0, .pDetune, .pNoise, .pRate, .pBits],
      s.busWrite_writeTable v [.pDetuneOn, .pDetuneMix, .pLfoSpeed, .envAttack, .envDecay,
        .envSustain, .envRelease]⟩,
    fun s h => ⟨?_, ?_, fun a ha => ?_⟩⟩
  · exact (s.busWrite_reg .cmd c).trans (if_neg (by simp [State.busy_eq_false h]))
  · exact (s.busWrite_reg .cmd c).trans (if_pos (State.busy_eq_true h))
  · exact (State.busWrite_target (targetOf_buf hi ha) v).trans (State.writeIdle_busy h _)
  · exact State.busRead_readTable (rs := [.id, .ctrl, .status, .cmd, .arg0, .numVoices, .bufSize,
      .dlCapacity, .tailLen]) fun r hr => .inr (by revert r; decide)
  · exact State.busRead_readTable (rs := [.pDetune, .pNoise, .pRate, .pBits, .pDetuneOn,
      .pDetuneMix, .pLfoSpeed, .envAttack, .envDecay, .envSustain, .envRelease])
      fun r hr => .inr (by revert r; decide)
  · obtain ⟨t, ht, ho⟩ := exists_target_open ha
    exact State.busRead_open ht h ho

end Sys2Proof
end

section
/-! The read-back commands (O20). -/

namespace Sys2Proof.Machine

/-- A field shifted to its place in a word loses no bit where it fits. -/
theorem toNat_zeroExtend_shiftLeft {n k : Nat} (x : BitVec n) (h : n + k ≤ 32) :
    ((x.zeroExtend 32 : Word) <<< k).toNat = x.toNat <<< k := by
  have hn : x.toNat < 2 ^ 32 := x.isLt.trans_le (Nat.pow_le_pow_right (by decide) (by omega))
  have hk : x.toNat <<< k < 2 ^ 32 := by
    rw [Nat.shiftLeft_eq]
    calc x.toNat * 2 ^ k < 2 ^ n * 2 ^ k := Nat.mul_lt_mul_of_pos_right x.isLt (Nat.two_pow_pos k)
      _ = 2 ^ (n + k) := (pow_add ..).symm
      _ ≤ 2 ^ 32 := Nat.pow_le_pow_right (by decide) h
  rw [BitVec.toNat_shiftLeft, BitVec.toNat_setWidth, Nat.mod_eq_of_lt hn, Nat.mod_eq_of_lt hk]

theorem Voice.toNat_readWord (x : Voice) :
    x.readWord.toNat = ((x.env.stage.code.toNat <<< 16 ||| x.note.toNat <<< 8) |||
      (bit x.releasing).toNat <<< 1) ||| (bit x.playing).toNat := by
  unfold Voice.readWord
  simp only [BitVec.toNat_append, BitVec.toNat_ofNat, Nat.shiftLeft_or_distrib, ← Nat.shiftLeft_add,
    Nat.zero_mod, Nat.zero_shiftLeft, Nat.or_zero, Nat.zero_or]

/-- RESULT0 of VOICE_READ is the or of its four fields, each at its place (R277). -/
theorem Voice.readWord_eq_or (x : Voice) :
    x.readWord = ((bit x.playing).zeroExtend 32 ||| ((bit x.releasing).zeroExtend 32 <<< 1)) |||
      ((x.note.zeroExtend 32 <<< 8) ||| (x.env.stage.code.zeroExtend 32 <<< 16)) := by
  refine BitVec.eq_of_toNat_eq ?_
  rw [← BitVec.shiftLeft_zero ((bit x.playing).zeroExtend 32), x.toNat_readWord]
  simp only [BitVec.toNat_or, toNat_zeroExtend_shiftLeft _ (show 1 + 0 ≤ 32 by decide),
    toNat_zeroExtend_shiftLeft _ (show 1 + 1 ≤ 32 by decide),
    toNat_zeroExtend_shiftLeft _ (show 7 + 8 ≤ 32 by decide),
    toNat_zeroExtend_shiftLeft _ (show 3 + 16 ≤ 32 by decide), Nat.shiftLeft_zero]
  rw [Nat.or_assoc, Nat.or_comm, Nat.or_comm (_ <<< 1), Nat.or_comm (_ <<< 16)]

end Sys2Proof.Machine

namespace Sys2Proof
open Machine

/-- Settles O20: each command answers what it reads, and nothing else changes. -/
theorem readCommands : Obligations.ReadCommands := by
  unfold Obligations.ReadCommands
  refine ⟨fun s => rfl, fun v s x stage hv hx hstage => ?_⟩
  have hcode : stage = x.env.stage.code.zeroExtend 32 := by
    rw [hstage]
    cases x.env.stage <;> rfl
  subst hcode
  refine ⟨fun k => withVoice_of _ hv hx, withVoice_of _ hv hx, ?_⟩
  rw [← Voice.readWord_eq_or]
  exact withVoice_of _ hv hx

end Sys2Proof
end

section
/-! BLOCK, sample by sample (O41): its eight steps as lists of the first n words of the buffers, then one
word of each list. -/

namespace Sys2Proof.Machine

/-! ## The buffers' first words over a run of buffer writes -/

/-- Three lists, one a buffer. -/
def bufLists (out0 out1 noise : List F32) : Buf → List F32
  | .out0 => out0
  | .out1 => out1
  | .noise => noise

@[simp] theorem bufLists_out0 (out0 out1 noise : List F32) :
    bufLists out0 out1 noise .out0 = out0 := rfl
@[simp] theorem bufLists_out1 (out0 out1 noise : List F32) :
    bufLists out0 out1 noise .out1 = out1 := rfl
@[simp] theorem bufLists_noise (out0 out1 noise : List F32) :
    bufLists out0 out1 noise .noise = noise := rfl

/-- Words 0..n-1 of the buffers are the lists, and every other byte is as it was in m₀. -/
structure State.Shows (m₀ : Memory) (n : Nat) (s : State) (ls : Buf → List F32) : Prop where
  wf : s.mem.wf = true
  words : ∀ b, s.buf b n = ls b
  frame : ∀ a, (∀ b : Buf, a < bufBase b ∨ bufBase b + 4 * n ≤ a) →
    s.mem.readByte a = m₀.readByte a

section Steps
variable {m₀ : Memory} {n : Nat} {s : State} {ls : Buf → List F32} {out0 out1 noise : List F32}

theorem State.shows_self (h : s.mem.wf = true) :
    s.Shows s.mem n (bufLists (s.buf .out0 n) (s.buf .out1 n) (s.buf .noise n)) :=
  ⟨h, fun b => by cases b <;> rfl, fun _ _ => rfl⟩

theorem State.Shows.length (h : s.Shows m₀ n ls) (b : Buf) : (ls b).length = n := by
  rw [← h.words b, State.length_buf]

/-- The word at i of a buffer is that of its list. -/
theorem State.Shows.readWord (h : s.Shows m₀ n ls) {b : Buf} {i : Nat} {w : F32}
    (hw : (ls b)[i]? = some w) : s.mem.readWord (bufBase b + 4 * i) = w := by
  rw [← h.words b] at hw
  obtain ⟨hi, hw⟩ := List.getElem?_eq_some_iff.1 hw
  rw [← hw, State.getElem_buf]

/-- Rewriting the first n words of one buffer changes its list only. -/
theorem State.Shows.setBuf (hn : n ≤ Config.bufSize) (h : s.Shows m₀ n ls) (b : Buf)
    {ws : List F32} (hw : ws.length = n) : (s.setBuf b ws).Shows m₀ n (Function.update ls b ws) where
  wf := s.wf_setBuf b ws h.wf
  words b' := by
    by_cases hb : b' = b
    · subst hb
      rw [Function.update_self, ← hw, State.buf_setBuf_self h.wf]
    · rw [Function.update_of_ne hb, State.buf_setBuf_ne s (Ne.symm hb) (hw.trans_le hn) hn, h.words]
  frame a ha := by
    rw [State.readByte_setBuf s b ws (hw ▸ ha b), h.frame a ha]

@[simp] theorem update_bufLists_out0 (ws : List F32) :
    Function.update (bufLists out0 out1 noise) .out0 ws = bufLists ws out1 noise := by
  funext b; cases b <;> rfl

@[simp] theorem update_bufLists_out1 (ws : List F32) :
    Function.update (bufLists out0 out1 noise) .out1 ws = bufLists out0 ws noise := by
  funext b; cases b <;> rfl

@[simp] theorem update_bufLists_noise (ws : List F32) :
    Function.update (bufLists out0 out1 noise) .noise ws = bufLists out0 out1 ws := by
  funext b; cases b <;> rfl

variable (hn : n ≤ Config.bufSize) (h : s.Shows m₀ n (bufLists out0 out1 noise))
include hn h

theorem State.Shows.clearBuffers : (s.clearBuffers n).Shows m₀ n
    (bufLists (List.replicate n posZero) (List.replicate n posZero) (List.replicate n posZero)) := by
  have hz := List.length_replicate (n := n) (a := posZero)
  rw [State.clearBuffers]
  simpa using ((h.setBuf hn .out0 hz).setBuf hn .out1 hz).setBuf hn .noise hz

theorem State.Shows.fillNoise (uniform : Bool) : (s.fillNoise uniform n).Shows m₀ n
    (bufLists out0 out1 (noiseFill uniform n s.rng).1) := by
  have hf := h.setBuf hn .noise (length_noiseFill uniform n s.rng)
  rw [update_bufLists_noise] at hf
  exact ⟨hf.wf, hf.words, hf.frame⟩

theorem State.Shows.scaleNoise (g : F32) : (s.scaleNoise n g).Shows m₀ n
    (bufLists out0 out1 (noise.map fun w => fmul w g)) := by
  rw [State.scaleNoise, h.words .noise, bufLists_noise]
  simpa using h.setBuf hn .noise (ws := noise.map fun w => fmul w g)
    (by simpa using h.length .noise)

omit hn in
theorem State.Shows.pushParams (k : KnobValues) :
    (s.pushParams k).Shows m₀ n (bufLists out0 out1 noise) :=
  ⟨h.wf, h.words, h.frame⟩

theorem State.Shows.renderBank : (s.renderBank n).Shows m₀ n
    (bufLists (renderVoices n s.voices (out0, out1)).2.1 (renderVoices n s.voices (out0, out1)).2.2
      noise) := by
  obtain ⟨_, h0, h1⟩ := length_renderVoices n s.voices (out0, out1)
  have hv : ({ s with voices := (renderVoices n s.voices (out0, out1)).1 } : State).Shows m₀ n
    (bufLists out0 out1 noise) := ⟨h.wf, h.words, h.frame⟩
  rw [State.renderBank, h.words .out0, h.words .out1, bufLists_out0, bufLists_out1]
  simpa using (hv.setBuf hn .out0 (h0.trans (h.length .out0))).setBuf hn .out1
    (h1.trans (h.length .out1))

theorem State.Shows.mixNoise : (s.mixNoise n).Shows m₀ n
    (bufLists (mixedOut noise out0) out1 (mixedNoise noise out0)) := by
  have h0 : out0.length = n := h.length .out0
  have hN : noise.length = n := h.length .noise
  rw [State.mixNoise, h.words .noise, h.words .out0, bufLists_noise, bufLists_out0]
  simpa using (h.setBuf hn .noise (ws := mixedNoise noise out0) (by simp [mixedNoise, h0, hN])).setBuf
    hn .out0 (ws := mixedOut noise out0) (by simp [mixedOut, mixedNoise, h0, hN])

theorem State.Shows.quantizeOut (b : Nat) : (s.quantizeOut n b).Shows m₀ n
    (bufLists (out0.map fun w => quant w b) out1 noise) := by
  rw [State.quantizeOut, h.words .out0, bufLists_out0]
  simpa using h.setBuf hn .out0 (ws := out0.map fun w => quant w b) (by simpa using h.length .out0)

theorem State.Shows.decimateOut (R : Nat) : (s.decimateOut n R).Shows m₀ n
    (bufLists (holdSamples out0 R) out1 noise) := by
  rw [State.decimateOut, h.words .out0, bufLists_out0]
  simpa using h.setBuf hn .out0 (ws := holdSamples out0 R) (by simpa using h.length .out0)

theorem State.Shows.copyOut : (s.copyOut n).Shows m₀ n (bufLists out0 out0 noise) := by
  rw [State.copyOut, h.words .out0, bufLists_out0]
  simpa using h.setBuf hn .out1 (h.length .out0)

/-- Steps 5 to 8 of R315. -/
theorem State.Shows.blockPost (k : KnobValues) : (s.blockPost n k).Shows m₀ n
    (bufLists (holdSamples ((mixedOut noise out0).map fun w => quant w k.bits) k.rate)
      (holdSamples ((mixedOut noise out0).map fun w => quant w k.bits) k.rate)
      (mixedNoise noise out0)) :=
  (((h.mixNoise hn).quantizeOut hn k.bits).decimateOut hn k.rate).copyOut hn

/-- Steps 1 to 4 of R315. -/
theorem State.Shows.blockRender (p : Snapshot) : (s.blockRender n p).Shows m₀ n
    (bufLists
      (renderVoices n (s.voices.map (·.push p.knobs.convert))
        (List.replicate n posZero, List.replicate n posZero)).2.1
      (renderVoices n (s.voices.map (·.push p.knobs.convert))
        (List.replicate n posZero, List.replicate n posZero)).2.2
      ((noiseFill p.ctrl.noiseMode n s.rng).1.map fun w =>
        fmul w (noiseGain p.knobs.convert.noise))) := by
  have hpushed := ((((h.clearBuffers hn).fillNoise hn p.ctrl.noiseMode).scaleNoise hn
    (noiseGain p.knobs.convert.noise)).pushParams p.knobs.convert)
  rw [State.blockRender]
  simpa using hpushed.renderBank hn

end Steps

/-! ## One word of each list -/

/-- The sum so far with voice x's sample i, where it still plays then. -/
def addSampleAt (i : Nat) (acc : F32) (x : Voice) : F32 :=
  if ((fun y : Voice => y.renderSample.voice)^[i] x).playing then
    fadd acc ((fun y : Voice => y.renderSample.voice)^[i] x).renderSample.sample
  else acc

theorem getElem?_addSamples {a : List F32} {i : Nat} {w : F32} (h : a[i]? = some w)
    (b : List F32) : (addSamples a b)[i]? = some ((b[i]?).elim w (fadd w)) := by
  obtain ⟨hi, rfl⟩ := List.getElem?_eq_some_iff.1 h
  rw [List.getElem?_eq_getElem (by simpa using hi), getElem_addSamples a b i hi]
  cases b[i]? <;> rfl

/-- Sample i of one voice, added to a word. -/
theorem elim_renderRun {n i : Nat} (hi : i < n) (x : Voice) (w : F32) :
    ((Voice.renderRun n x).2[i]?).elim w (fadd w) = addSampleAt i w x := by
  rw [(Voice.renderRun_spec n x).2 i hi, addSampleAt]
  split <;> rfl

/-- Voice-major rendering adds, at each index, the voices' samples in order (R276). -/
theorem getElem?_renderVoices {n i : Nat} (hi : i < n) (xs : List Voice)
    {o : List F32 × List F32} {w : F32} (h : o.1[i]? = some w) :
    (renderVoices n xs o).2.1[i]? = some (xs.foldl (addSampleAt i) w) := by
  induction xs generalizing o w with
  | nil => exact h
  | cons x xs ih =>
    rw [List.foldl_cons, ← elim_renderRun hi x w]
    exact ih (getElem?_addSamples h _)

/-- Rendering n samples of the bank renders each voice n times (R276). -/
theorem voices_renderVoices (n : Nat) (xs : List Voice) (o : List F32 × List F32) :
    (renderVoices n xs o).1 = xs.map ((fun y : Voice => y.renderSample.voice)^[n]) := by
  induction xs generalizing o with
  | nil => rfl
  | cons x xs ih => rw [renderVoices, List.map_cons, ← (Voice.renderRun_spec n x).1, ← ih]

/-- Raw noise value i from a PRNG state, by NOISE_MODE (R32, R206, R207). -/
def rawNoise (uniform : Bool) (x : Word) (i : Nat) : F32 :=
  if uniform = true then uniformOf (top24 (xorshift^[i + 1] x))
  else if i % 2 = 0 then
    (gaussPair Config.retryMax ((fun y => (gaussPair Config.retryMax y).2)^[i / 2] x)).1.1
  else (gaussPair Config.retryMax ((fun y => (gaussPair Config.retryMax y).2)^[i / 2] x)).1.2

theorem getElem?_noiseFill (uniform : Bool) {n i : Nat} (hi : i < n) (x : Word) :
    (noiseFill uniform n x).1[i]? = some (rawNoise uniform x i) := by
  rw [noiseFill, rawNoise]
  split
  · rw [(uniformFill_spec n x).2 i hi]
  · rw [(gaussFill_spec Config.retryMax n x).2 i hi]

theorem noiseFill_snd (uniform : Bool) (n : Nat) (x : Word) :
    (noiseFill uniform n x).2 = if uniform = true then xorshift^[n] x
      else (fun y => (gaussPair Config.retryMax y).2)^[(n + 1) / 2] x := by
  rw [noiseFill]
  split
  · rw [(uniformFill_spec n x).1]
  · rw [(gaussFill_spec Config.retryMax n x).1]

theorem getElem?_mixedNoise {noise out : List F32} {i : Nat} {a b : F32} (ha : noise[i]? = some a)
    (hb : out[i]? = some b) : (mixedNoise noise out)[i]? = some (fmul a b) := by
  rw [mixedNoise, List.getElem?_zipWith, ha, hb]

theorem getElem?_mixedOut {noise out : List F32} {i : Nat} {a b : F32} (ha : noise[i]? = some a)
    (hb : out[i]? = some b) : (mixedOut noise out)[i]? = some (fadd b (fmul a b)) := by
  rw [mixedOut, List.getElem?_zipWith, hb, getElem?_mixedNoise ha hb]

/-- A held word is the word at the last multiple of R (R302). -/
theorem getElem?_holdSamples {ws : List F32} {q : Nat → F32} {n R : Nat} (hl : ws.length = n)
    (hq : ∀ i, i < n → ws[i]? = some (q i)) {i : Nat} (hi : i < n) :
    (holdSamples ws R)[i]? = some (q (if R ≤ 1 then i else i - i % R)) := by
  unfold holdSamples
  split
  · exact hq i hi
  · rw [List.getElem?_map, List.getElem?_range (hl ▸ hi), Option.map_some, List.getD_eq_getElem?_getD,
      hq _ (by omega), Option.getD_some]

/-! ## The knobs of the snapshot (R43) -/

theorem val_clamp_bounds {lo hi : F32} (x : F32) (h : fle lo hi = true) :
    val lo ≤ val (clamp x lo hi) ∧ val (clamp x lo hi) ≤ val hi := by
  obtain ⟨hlo, hhi⟩ := clamp_mem_range (x := x) h
  exact ⟨(fle_iff (isNaN_of_fle hlo).1 (isNaN_of_fle hlo).2).1 hlo,
    (fle_iff (isNaN_of_fle hhi).1 (isNaN_of_fle hhi).2).1 hhi⟩

/-- A clamp between integers a and b lies in a unit interval from an integer between them. -/
theorem int_bounds_of_clamp {x lo hi : F32} {a b k : Nat} (h : fle lo hi = true)
    (ha : val lo = a * 2 ^ 149) (hb : val hi = b * 2 ^ 149)
    (hlo : (k : Int) * 2 ^ 149 ≤ val (clamp x lo hi))
    (hhi : val (clamp x lo hi) < ((k : Int) + 1) * 2 ^ 149) : a ≤ k ∧ k ≤ b := by
  obtain ⟨hge, hle⟩ := val_clamp_bounds x h
  omega

/-- The integer whose unit interval holds a value is the value truncated (R17). -/
theorem toNat_truncInt {x : F32} {k : Nat} (hlo : (k : Int) * 2 ^ 149 ≤ val x)
    (hhi : val x < ((k : Int) + 1) * 2 ^ 149) : (truncInt x).toNat = k := by
  have hpos : (0 : Int) < 2 ^ 149 := by positivity
  have hnn : 0 ≤ val x := (Int.mul_nonneg (Int.natCast_nonneg k) hpos.le).trans hlo
  have hge := Int.le_ediv_of_mul_le hpos hlo
  have hlt := Int.ediv_lt_of_lt_mul hpos hhi
  rw [truncInt, Int.tdiv_eq_ediv_of_nonneg hnn]
  omega

/-! ## The command -/

/-- Sample i of the noise, scaled by the gain (steps 1 and 2 of R315). -/
def State.scaledNoiseAt (s : State) (p : Snapshot) (i : Nat) : F32 :=
  fmul (rawNoise p.ctrl.noiseMode s.rng i) (noiseGain p.knobs.convert.noise)

/-- The sum of the pushed voices' samples i (steps 3 and 4 of R315). -/
def State.bankSumAt (s : State) (p : Snapshot) (i : Nat) : F32 :=
  (s.voices.map (·.push p.knobs.convert)).foldl (addSampleAt i) posZero

/-- The noise mixed into sample i, and what is left in NOISE[i] (step 5 of R315). -/
def State.mixedNoiseAt (s : State) (p : Snapshot) (i : Nat) : F32 :=
  fmul (s.scaledNoiseAt p i) (s.bankSumAt p i)

/-- Sample i quantized (step 6 of R315). -/
def State.quantizedAt (s : State) (p : Snapshot) (i : Nat) : F32 :=
  quant (fadd (s.bankSumAt p i) (s.mixedNoiseAt p i)) p.knobs.convert.bits

/-- The index whose sample is held at i (step 7 of R315). -/
def heldIndex (R i : Nat) : Nat := if R ≤ 1 then i else i - i % R

/-- What BLOCK's eight steps leave in word i of each buffer, and that they touch no byte past the
buffers' first n words. -/
theorem State.block_words {s : State} {n : Nat} (hwf : s.mem.wf = true) (hn : n ≤ Config.bufSize)
    (p : Snapshot) {t : State} (ht : t = (s.blockRender n p).blockPost n p.knobs.convert) :
    (∀ i, i < n → t.mem.readWord (bufBase .noise + 4 * i) = s.mixedNoiseAt p i ∧
      t.mem.readWord (bufBase .out0 + 4 * i) =
        s.quantizedAt p (heldIndex p.knobs.convert.rate i) ∧
      t.mem.readWord (bufBase .out1 + 4 * i) =
        s.quantizedAt p (heldIndex p.knobs.convert.rate i)) ∧
    ∀ a, (∀ b : Buf, a < bufBase b ∨ bufBase b + 4 * n ≤ a) →
      t.mem.readByte a = s.mem.readByte a := by
  subst ht
  have hrender := (State.shows_self hwf).blockRender hn p
  have hpost := hrender.blockPost hn p.knobs.convert
  have hsum : ∀ i, i < n → (renderVoices n (s.voices.map (·.push p.knobs.convert))
      (List.replicate n posZero, List.replicate n posZero)).2.1[i]? = some (s.bankSumAt p i) :=
    fun i hi => getElem?_renderVoices hi _ (by simp [hi])
  have hnoise : ∀ i, i < n → ((noiseFill p.ctrl.noiseMode n s.rng).1.map fun w =>
      fmul w (noiseGain p.knobs.convert.noise))[i]? = some (s.scaledNoiseAt p i) := fun i hi => by
    rw [List.getElem?_map, getElem?_noiseFill _ hi]; rfl
  have hquant : ∀ i, i < n → ((mixedOut _ _).map fun w => quant w p.knobs.convert.bits)[i]? =
      some (s.quantizedAt p i) := fun i hi => by
    rw [List.getElem?_map, getElem?_mixedOut (hnoise i hi) (hsum i hi)]; rfl
  have hlen := ((hrender.mixNoise hn).quantizeOut hn p.knobs.convert.bits).length .out0
  refine ⟨fun i hi => ⟨?_, ?_, ?_⟩, hpost.frame⟩
  · exact hpost.readWord (getElem?_mixedNoise (hnoise i hi) (hsum i hi))
  · exact hpost.readWord (b := .out0) (getElem?_holdSamples hlen hquant hi)
  · exact hpost.readWord (b := .out1) (getElem?_holdSamples hlen hquant hi)

theorem voices_blockRender (s : State) (n : Nat) (p : Snapshot) :
    (s.blockRender n p).voices = (s.voices.map (·.push p.knobs.convert)).map
      ((fun y : Voice => y.renderSample.voice)^[n]) := by
  rw [State.blockRender, State.renderBank_voices, voices_renderVoices]
  simp

/-- BLOCK on a prepared state within MAX_BLOCK: the whole next state (R315). -/
theorem exec_block {n : BitVec 16} {s : State} (hp : s.status.prepared = true)
    (hn : n.toNat ≤ s.maxBlock.toNat) :
    exec (.block n) s = .next { s with
      voices := (s.blockRender n.toNat s.operands).voices
      mem := ((s.blockRender n.toNat s.operands).blockPost n.toNat s.operands.knobs.convert).mem
      rng := (noiseFill s.operands.ctrl.noiseMode n.toNat s.rng).2
      result0 := BitVec.ofNat 32 ((s.blockRender n.toNat s.operands).voices.countP (·.playing))
      result1 := noiseGain s.operands.knobs.convert.noise
      running := none, status := { s.status with done := true } } := by
  refine (whenPrepared_of _ hp).trans ((whenInRange_of _ (by simpa using hn)).trans ?_)
  rw [finish2_eq]
  simp [State.complete, State.playingCount]

end Sys2Proof.Machine

namespace Sys2Proof
open Machine

/-- Settles O41: the statement's numbers are the model's, and the steps' lists give each word. -/
theorem blockPerSample : Obligations.BlockPerSample := by
  unfold Obligations.BlockPerSample
  intro n s bits rate f db g pair raw ns r nm q pushed hp hn hmax hwf hb1 hb2 hr1 hr2 hdb hg hf
    hpushed hpair hraw hns hr hnm hq
  obtain ⟨hbits1, hbits32⟩ := int_bounds_of_clamp (a := 1) (b := 32) (by decide) (by decide)
    (by decide) hb1 hb2
  obtain ⟨-, hrate50⟩ := int_bounds_of_clamp (a := 0) (b := 50) (by decide) (by decide)
    (by decide) hr1 hr2
  have hbits : s.operands.knobs.convert.bits = bits := toNat_truncInt hb1 hb2
  have hrate : s.operands.knobs.convert.rate = rate := toNat_truncInt hr1 hr2
  have hgain : noiseGain s.operands.knobs.convert.noise = g := by rw [hg, hdb]; rfl
  have hpush : s.voices.map (·.push s.operands.knobs.convert) = pushed := by rw [hpushed, hf]; rfl
  have hns' (i : Nat) : ns i = s.scaledNoiseAt s.operands i := by
    rw [hns, hraw, hpair, State.scaledNoiseAt, hgain]; rfl
  have hr' (i : Nat) : r i = s.bankSumAt s.operands i := by
    rw [hr, State.bankSumAt, hpush]; rfl
  have hnm' (i : Nat) : nm i = s.mixedNoiseAt s.operands i := by
    rw [hnm, hns', hr', State.mixedNoiseAt]
  have hq' (i : Nat) : q i = s.quantizedAt s.operands i := by
    rw [hq, hnm', hr', State.quantizedAt, hbits]
  have hafter := voices_blockRender s n.toNat s.operands
  rw [hpush] at hafter
  obtain ⟨hwords, hframe⟩ := State.block_words hwf (hn.trans hmax) s.operands rfl
  refine ⟨hbits1, hbits32, hrate50, _, _, hafter, ?_, fun i hi => ?_, hframe⟩
  · rw [exec_block hp hn, noiseFill_snd, hgain, hpair]
  · rw [hnm', hq', ← hrate]
    exact hwords i hi

end Sys2Proof
end

section
/-! The snapshot hides the host's register writes (O9): overwriting ARG0, CTRL, the knobs and the ENV_*
registers commutes with every operation of a running command. -/

namespace Sys2Proof.Machine

/-- s with ARG0, CTRL, the knobs and the ENV_* registers as the host has rewritten them. -/
def State.overwrite (p : Snapshot) (s : State) : State :=
  { s with arg0 := p.arg0, ctrl := p.ctrl, knobs := p.knobs, envRegs := p.env }

/-- s with the command r running. -/
def State.runningAs (r : Running) (s : State) : State := { s with running := some r }

/-- The same overwriting of the next state an answer gives. -/
def Result.overwrite (p : Snapshot) : Result → Result
  | .next s => .next (s.overwrite p)
  | .fault r => .fault r
  | .refused r => .refused r

/-! ## Updates and checks of an overwritten state -/

section Overwritten
variable {p : Snapshot} {s : State}

@[simp] theorem State.overwrite_voices : (s.overwrite p).voices = s.voices := rfl

@[simp] theorem State.buf_overwrite (b : Buf) (n : Nat) : (s.overwrite p).buf b n = s.buf b n := rfl

@[simp] theorem State.setBuf_overwrite (b : Buf) (ws : List F32) :
    (s.overwrite p).setBuf b ws = (s.setBuf b ws).overwrite p := rfl

theorem State.clearBuffers_overwrite (n : Nat) :
    (s.overwrite p).clearBuffers n = (s.clearBuffers n).overwrite p := by
  rw [State.clearBuffers, State.setBuf_overwrite, State.setBuf_overwrite, State.setBuf_overwrite,
    ← State.clearBuffers]

theorem State.fillNoise_overwrite (uniform : Bool) (n : Nat) :
    (s.overwrite p).fillNoise uniform n = (s.fillNoise uniform n).overwrite p := rfl

theorem State.scaleNoise_overwrite (n : Nat) (g : F32) :
    (s.overwrite p).scaleNoise n g = (s.scaleNoise n g).overwrite p := rfl

theorem State.pushParams_overwrite (k : KnobValues) :
    (s.overwrite p).pushParams k = (s.pushParams k).overwrite p := rfl

theorem State.renderBank_overwrite (n : Nat) :
    (s.overwrite p).renderBank n = (s.renderBank n).overwrite p := rfl

theorem State.mixNoise_overwrite (n : Nat) :
    (s.overwrite p).mixNoise n = (s.mixNoise n).overwrite p := by
  rw [State.mixNoise, State.buf_overwrite, State.buf_overwrite, State.setBuf_overwrite,
    State.setBuf_overwrite, ← State.mixNoise]

theorem State.quantizeOut_overwrite (n b : Nat) :
    (s.overwrite p).quantizeOut n b = (s.quantizeOut n b).overwrite p := rfl

theorem State.decimateOut_overwrite (n R : Nat) :
    (s.overwrite p).decimateOut n R = (s.decimateOut n R).overwrite p := rfl

theorem State.copyOut_overwrite (n : Nat) :
    (s.overwrite p).copyOut n = (s.copyOut n).overwrite p := rfl

theorem State.blockRender_overwrite (n : Nat) (q : Snapshot) :
    (s.overwrite p).blockRender n q = (s.blockRender n q).overwrite p := by
  rw [State.blockRender, State.clearBuffers_overwrite, State.fillNoise_overwrite,
    State.scaleNoise_overwrite, State.pushParams_overwrite, State.renderBank_overwrite,
    ← State.blockRender]

theorem State.blockPost_overwrite (n : Nat) (k : KnobValues) :
    (s.overwrite p).blockPost n k = (s.blockPost n k).overwrite p := by
  rw [State.blockPost, State.mixNoise_overwrite, State.quantizeOut_overwrite,
    State.decimateOut_overwrite, State.copyOut_overwrite, ← State.blockPost]

@[simp] theorem State.playingCount_overwrite : (s.overwrite p).playingCount = s.playingCount := rfl

/-- A running command's operands are its snapshot, whatever the registers hold now (R110, R393). -/
theorem State.operands_overwrite (r : Running) :
    ((s.runningAs r).overwrite p).operands = (s.runningAs r).operands := rfl

theorem finish_overwrite : finish (s.overwrite p) = Result.overwrite p (finish s) := rfl

theorem finish2_overwrite (r0 r1 : Word) :
    finish2 r0 r1 (s.overwrite p) = Result.overwrite p (finish2 r0 r1 s) := rfl

theorem ite_overwrite {b : Bool} {k k' l l' : Result}
    (hk : k' = Result.overwrite p k) (hl : l' = Result.overwrite p l) :
    (if b then k' else l') = Result.overwrite p (if b then k else l) := by
  rw [hk, hl]
  cases b <;> rfl

theorem whenPrepared_overwrite {k k' : Result} (hk : k' = Result.overwrite p k) :
    whenPrepared (s.overwrite p) k' = Result.overwrite p (whenPrepared s k) :=
  ite_overwrite hk rfl

theorem whenInRange_overwrite {ok : Bool} {k k' : Result} (hk : k' = Result.overwrite p k) :
    whenInRange ok (s.overwrite p) k' = Result.overwrite p (whenInRange ok s k) :=
  ite_overwrite hk rfl

theorem whenCount_overwrite {n : BitVec 16} {k k' : Result} (hk : k' = Result.overwrite p k) :
    whenCount n (s.overwrite p) k' = Result.overwrite p (whenCount n s k) :=
  whenInRange_overwrite hk

theorem withVoice_overwrite {v : VoiceNo} {f f' : Voice → Result}
    (hf : ∀ x, f' x = Result.overwrite p (f x)) :
    withVoice v (s.overwrite p) f' = Result.overwrite p (withVoice v s f) := by
  obtain rfl : f' = fun x => Result.overwrite p (f x) := funext hf
  rw [withVoice, withVoice, State.overwrite_voices]
  split
  · cases s.voices[v.toNat]? <;> rfl
  · rfl

/-! ## Commands -/

/-- Of the commands, RESET alone writes these registers; every other one commutes with their
overwriting, since its operands are the snapshot in `running`. -/
theorem exec_overwrite {i : Instr} (hi : i ≠ .reset) (r : Running) :
    exec i ((s.runningAs r).overwrite p) = Result.overwrite p (exec i (s.runningAs r)) := by
  cases i with
  | reset => exact absurd rfl hi
  | nop => rfl
  | prepare m => exact whenInRange_overwrite (whenInRange_overwrite rfl)
  | pushParams => exact whenPrepared_overwrite rfl
  | oscSetSr v k => exact withVoice_overwrite fun _ => whenInRange_overwrite rfl
  | oscSetFreq v k => exact withVoice_overwrite fun _ => rfl
  | oscProcess v k => exact withVoice_overwrite fun _ => rfl
  | oscSetPw v k => exact withVoice_overwrite fun _ => rfl
  | oscSetWave v k w => exact withVoice_overwrite fun _ => rfl
  | oscRead v k => exact withVoice_overwrite fun _ => rfl
  | dlSetSize => exact whenInRange_overwrite rfl
  | dlSetDelay => exact whenInRange_overwrite rfl
  | dlSetFeedback => rfl
  | dlProcess => exact ite_overwrite rfl rfl
  | dlRead => rfl
  | noiseUniform n => exact whenCount_overwrite rfl
  | noiseGauss n => exact whenCount_overwrite rfl
  | envNoteOn v => exact withVoice_overwrite fun _ => rfl
  | envNoteOff v => exact withVoice_overwrite fun _ => rfl
  | envNext v => exact withVoice_overwrite fun _ => rfl
  | envRead v => exact withVoice_overwrite fun _ => rfl
  | envReset v => exact withVoice_overwrite fun _ => rfl
  | noteOn note velocity =>
    refine whenPrepared_overwrite ?_
    simp only [State.overwrite_voices]
    rcases allocVoice (s.runningAs r).voices with _ | ⟨v, stolen⟩ <;> rfl
  | noteOff note => exact whenPrepared_overwrite rfl
  | voiceRender v => exact withVoice_overwrite fun _ => whenPrepared_overwrite rfl
  | bankRender n => exact whenPrepared_overwrite (whenCount_overwrite rfl)
  | voiceRead v => exact withVoice_overwrite fun _ => rfl
  | quantize b => rfl
  | decimate n => exact whenCount_overwrite rfl
  | noiseMix n =>
    exact whenCount_overwrite ((congrArg finish (State.mixNoise_overwrite _)).trans finish_overwrite)
  | noiseScale n => exact whenCount_overwrite rfl
  | block n =>
    refine whenPrepared_overwrite (whenInRange_overwrite ?_)
    dsimp only
    rw [State.operands_overwrite, State.blockRender_overwrite, State.blockPost_overwrite,
      State.playingCount_overwrite]
    exact finish2_overwrite _ _

end Overwritten

end Sys2Proof.Machine

namespace Sys2Proof
open Machine

/-- Settles O9: every command but RESET commutes with the overwriting of the host's registers. -/
theorem snapshotHidesRegisterWrites : Obligations.SnapshotHidesRegisterWrites := by
  unfold Obligations.SnapshotHidesRegisterWrites
  intro i s t a c k e hi hr h
  obtain ⟨r, hr⟩ := Option.ne_none_iff_exists'.1 hr
  have hs : s = s.runningAs r := by rw [State.runningAs, ← hr]
  rw [hs] at h
  have ho := exec_overwrite (p := ⟨a, c, k, e⟩) hi r (s := s)
  rw [h, ← hs] at ho
  exact ho

end Sys2Proof
end

section
/-! What commands and host actions do to the memory, and the two claims that rest on it: the delay line's
stand-alone unit (O11) and the store invariant (O50). -/

namespace Sys2Proof.Machine

/-! ## Writes within the block buffers -/

/-- m' is m after one write of at most N_MAX words from the start of a block buffer. -/
def Memory.BufWrite (m m' : Memory) : Prop :=
  ∃ (b : Buf) (ws : List Word), ws.length ≤ Config.bufSize ∧ m' = m.writeBlock (bufBase b) ws

/-- m' is m after any number of writes within the block buffers. -/
abbrev Memory.BufWrites : Memory → Memory → Prop := Relation.ReflTransGen Memory.BufWrite

/-- Writes within the buffers leave DLM alone. -/
theorem Memory.BufWrites.readByte_dlm {m m' : Memory} (h : m.BufWrites m') {a : Nat}
    (ha : dlmBase ≤ a) : m'.readByte a = m.readByte a := by
  induction h with
  | refl => rfl
  | tail _ hw ih =>
    obtain ⟨b, ws, hl, rfl⟩ := hw
    have hb := bufBase_below_dlm b
    rw [Memory.readByte_writeBlock_outside ws _ (by omega), ih]

section Steps
variable {m : Memory} {s : State} {n : Nat}

theorem State.bufWrites_setBuf (h : m.BufWrites s.mem) (b : Buf) {ws : List F32}
    (hl : ws.length ≤ Config.bufSize) : m.BufWrites (s.setBuf b ws).mem :=
  h.tail ⟨b, ws, hl, rfl⟩

variable (h : m.BufWrites s.mem) (hn : n ≤ Config.bufSize)
include h hn

theorem State.bufWrites_clearBuffers : m.BufWrites (s.clearBuffers n).mem := by
  have hz : (List.replicate n posZero).length ≤ Config.bufSize := by simpa using hn
  exact State.bufWrites_setBuf (State.bufWrites_setBuf (State.bufWrites_setBuf h .out0 hz) .out1 hz)
    .noise hz

theorem State.bufWrites_fillNoise (uniform : Bool) : m.BufWrites (s.fillNoise uniform n).mem :=
  State.bufWrites_setBuf h .noise ((length_noiseFill uniform n s.rng).trans_le hn)

theorem State.bufWrites_scaleNoise (g : F32) : m.BufWrites (s.scaleNoise n g).mem :=
  State.bufWrites_setBuf h .noise (by simpa using hn)

theorem State.bufWrites_renderBank : m.BufWrites (s.renderBank n).mem := by
  obtain ⟨_, h0, h1⟩ := length_renderVoices n s.voices (s.buf .out0 n, s.buf .out1 n)
  exact State.bufWrites_setBuf
    (State.bufWrites_setBuf (s := { s with voices := _ }) h .out0 (h0.trans_le (by simpa using hn)))
    .out1 (h1.trans_le (by simpa using hn))

theorem State.bufWrites_mixNoise : m.BufWrites (s.mixNoise n).mem :=
  State.bufWrites_setBuf
    (State.bufWrites_setBuf h .noise (ws := mixedNoise _ _) (by simpa [mixedNoise] using hn))
    .out0 (ws := mixedOut _ _) (by simpa [mixedOut, mixedNoise] using hn)

theorem State.bufWrites_quantizeOut (b : Nat) : m.BufWrites (s.quantizeOut n b).mem :=
  State.bufWrites_setBuf h .out0 (by simpa using hn)

theorem State.bufWrites_decimateOut (R : Nat) : m.BufWrites (s.decimateOut n R).mem :=
  State.bufWrites_setBuf h .out0 (by simpa using hn)

theorem State.bufWrites_copyOut : m.BufWrites (s.copyOut n).mem :=
  State.bufWrites_setBuf h .out1 (by simpa using hn)

theorem State.bufWrites_blockRender (p : Snapshot) : m.BufWrites (s.blockRender n p).mem := by
  have hfilled := State.bufWrites_fillNoise (State.bufWrites_clearBuffers h hn) hn p.ctrl.noiseMode
  have hscaled := State.bufWrites_scaleNoise hfilled hn (noiseGain p.knobs.convert.noise)
  exact State.bufWrites_renderBank (s := State.pushParams _ p.knobs.convert) hscaled hn

theorem State.bufWrites_blockPost (k : KnobValues) : m.BufWrites (s.blockPost n k).mem :=
  State.bufWrites_copyOut (State.bufWrites_decimateOut
    (State.bufWrites_quantizeOut (State.bufWrites_mixNoise h hn) hn k.bits) hn k.rate) hn

end Steps

/-! ## Effects of commands -/

/-- No effect of a command outside DL_* and RESET touches the delay line's indices or gain. -/
theorem Effect.dl_eq {i : Instr} {s u : State} (h : Effect s i u) (hd : i.isDelay = false)
    (hr : i ≠ .reset) : u.dl = s.dl := by
  cases h with
  | reset => exact absurd rfl hr
  | dlSetSize | dlSetDelay | dlSetFeedback | dlProcess => exact absurd hd (by decide)
  | _ => simp [State.setEnv]

/-- Such an effect only writes within the block buffers. -/
theorem Effect.bufWrites {i : Instr} {s u : State} (h : Effect s i u) (hd : i.isDelay = false)
    (hr : i ≠ .reset) (hmax : s.maxBlock.toNat ≤ Config.bufSize) : s.mem.BufWrites u.mem := by
  have hself : s.mem.BufWrites s.mem := .refl
  cases h with
  | reset => exact absurd rfl hr
  | dlSetSize | dlProcess => exact absurd hd (by decide)
  | noiseUniform n hn => exact State.bufWrites_fillNoise hself hn true
  | noiseGauss n hn => exact State.bufWrites_fillNoise hself hn false
  | bankRender n _ hn => exact State.bufWrites_renderBank hself hn
  | decimate n hn => exact State.bufWrites_decimateOut hself hn _
  | noiseMix n hn => exact State.bufWrites_mixNoise hself hn
  | noiseScale n hn => exact State.bufWrites_scaleNoise hself hn _
  | block n _ hn =>
    have hrendered := State.bufWrites_blockRender hself (hn.trans hmax) s.operands
    have hposted := State.bufWrites_blockPost hrendered (hn.trans hmax) s.operands.knobs.convert
    exact hposted
  | _ => exact hself

/-- What a command's effect can do to the memory: empty it, write within the block buffers, zero DLM, or
write DLM's word at the write index. -/
theorem Effect.mem_cases {i : Instr} {s u : State} (h : Effect s i u)
    (hmax : s.maxBlock.toNat ≤ Config.bufSize) :
    u.mem = [] ∨ s.mem.BufWrites u.mem ∨ u.mem = s.mem.clearRange dlmBase dlmEnd ∨
    ∃ w, u.mem = s.mem.writeWord (dlmBase + 4 * s.dl.widx) w := by
  by_cases hr : i = .reset
  · subst hr
    cases h
    exact .inl rfl
  cases hd : i.isDelay with
  | false => exact .inr (.inl (h.bufWrites hd hr hmax))
  | true =>
    cases h with
    | dlSetSize => exact .inr (.inr (.inl rfl))
    | dlProcess => exact .inr (.inr (.inr ⟨_, rfl⟩))
    | dlSetDelay | dlSetFeedback | dlRead => exact .inr (.inl .refl)
    | _ => exact absurd hd (by simp [Instr.isDelay])

/-! ## The memory stays canonical and inside the windows (R83) -/

/-- A canonical memory that lists no address outside the windows. -/
def Memory.Stored (m : Memory) : Prop := m.wf = true ∧ ∀ c ∈ m, inWindows c.1

theorem inWindows_of_buf {b : Buf} {a : Nat} (hlo : bufBase b ≤ a)
    (hhi : a < bufBase b + 4 * Config.bufSize) : inWindows a := by
  cases b with
  | out0 => exact .inl ⟨hlo, hhi⟩
  | out1 => exact .inr (.inl ⟨hlo, hhi⟩)
  | noise => exact .inr (.inr (.inl ⟨hlo, hhi⟩))

theorem inWindows_of_dlm {a : Nat} (hlo : dlmBase ≤ a) (hhi : a < dlmEnd) : inWindows a :=
  .inr (.inr (.inr ⟨hlo, hhi⟩))

theorem Memory.Stored.nil : Memory.Stored [] := ⟨rfl, nofun⟩

theorem Memory.Stored.writeWord {m : Memory} (h : m.Stored) {a : Nat} (w : Word)
    (ha : ∀ x, a ≤ x → x < a + 4 → inWindows x) : (m.writeWord a w).Stored := by
  refine ⟨Memory.wf_writeWord a w h.1, fun c hc => ?_⟩
  rcases Memory.mem_writeWord hc with hc | ⟨hlo, hhi⟩
  · exact h.2 c hc
  · exact ha c.1 hlo hhi

theorem Memory.Stored.writeWord_buf {m : Memory} (h : m.Stored) (b : Buf) {i : Nat}
    (hi : i < Config.bufSize) (w : Word) : (m.writeWord (bufBase b + 4 * i) w).Stored :=
  h.writeWord w fun _ hlo hhi => inWindows_of_buf (b := b) (by omega) (by omega)

theorem Memory.Stored.writeWord_dlm {m : Memory} (h : m.Stored) {i : Nat}
    (hi : i < Config.delayCap) (w : Word) : (m.writeWord (dlmBase + 4 * i) w).Stored :=
  h.writeWord w fun _ hlo hhi => inWindows_of_dlm (by omega) (by rw [dlmEnd]; omega)

theorem Memory.Stored.clearRange {m : Memory} (h : m.Stored) (lo hi : Nat) :
    (m.clearRange lo hi).Stored :=
  ⟨Memory.wf_clearRange lo hi h.1, fun c hc => h.2 c (Memory.mem_clearRange hc)⟩

theorem Memory.Stored.bufWrites {m m' : Memory} (h : m.Stored) (hw : m.BufWrites m') :
    m'.Stored := by
  induction hw with
  | refl => exact h
  | tail _ hw ih =>
    obtain ⟨b, ws, hl, rfl⟩ := hw
    refine ⟨Memory.wf_writeBlock ws _ ih.1, fun c hc => ?_⟩
    rcases Memory.mem_writeBlock ws hc with hc | ⟨hlo, hhi⟩
    · exact ih.2 c hc
    · exact inWindows_of_buf hlo (by omega)

/-! ## The store invariant over an effect -/

theorem Delay.widx_lt_size {dl : Delay} (h : dl.geomOk = true) : dl.widx < dl.size := by
  simp only [Delay.geomOk, Bool.and_eq_true, decide_eq_true_eq] at h
  obtain ⟨⟨⟨⟨-, hw⟩, -⟩, -⟩, -⟩ := h
  exact hw

theorem Delay.widx_advance_lt {dl : Delay} (h : dl.geomOk = true) : dl.advance.widx < dl.size := by
  have hw := Delay.widx_lt_size h
  rw [Delay.advance]
  dsimp only
  split <;> omega

theorem Effect.stored {i : Instr} {s u : State} (h : Effect s i u) (hs : s.StoreInv) :
    u.mem.Stored := by
  obtain ⟨hwf, hin, hmax, hsize, hwidx⟩ := hs
  have hm : s.mem.Stored := ⟨hwf, hin⟩
  rcases h.mem_cases hmax with he | hw | he | ⟨w, he⟩
  · rw [he]; exact .nil
  · exact hm.bufWrites hw
  · rw [he]; exact hm.clearRange _ _
  · rw [he]; exact hm.writeWord_dlm hwidx w

/-- PREPARE alone sets MAX_BLOCK, to a count in 1..N_MAX, and a reset sets it to 0. -/
theorem Effect.maxBlock_le {i : Instr} {s u : State} (h : Effect s i u)
    (hmax : s.maxBlock.toNat ≤ Config.bufSize) : u.maxBlock.toNat ≤ Config.bufSize := by
  by_cases hr : i = .reset
  · subst hr
    cases h
    exact Nat.zero_le _
  by_cases hp : ∃ m, i = .prepare m
  · obtain ⟨m, rfl⟩ := hp
    cases h with
    | prepare _ _ _ hm => exact (BitVec.toNat_setWidth_of_le (by decide)).trans_le hm
  · have hkept := h.prepareRegs_eq hr fun m hi => hp ⟨m, hi⟩
    obtain ⟨-, hkept⟩ := Prod.mk.inj hkept
    obtain ⟨hkept, -⟩ := Prod.mk.inj hkept
    rwa [hkept]

/-- The size and the write index stay within DLM (R170). -/
def Delay.InBounds (dl : Delay) : Prop := dl.size ≤ Config.delayCap ∧ dl.widx < Config.delayCap

/-- Stated for any index, so that no use of it computes one. -/
theorem Delay.InBounds.setRidx {dl : Delay} (h : dl.InBounds) (r : F32) :
    ({ dl with ridx := r } : Delay).InBounds := h

theorem Delay.InBounds.setFb {dl : Delay} (h : dl.InBounds) (g : F32) :
    ({ dl with fb := g } : Delay).InBounds := h

theorem Delay.InBounds.advance {dl : Delay} (h : dl.InBounds) (hg : dl.geomOk = true) :
    dl.advance.InBounds :=
  ⟨h.1, (Delay.widx_advance_lt hg).trans_le h.1⟩

theorem Effect.dl_inBounds {i : Instr} {s u : State} (h : Effect s i u) (hs : s.dl.InBounds) :
    u.dl.InBounds := by
  by_cases hr : i = .reset
  · subst hr
    cases h
    exact ⟨Nat.zero_le _, (by decide : 0 < Config.delayCap)⟩
  cases hd : i.isDelay with
  | false => rwa [h.dl_eq hd hr]
  | true =>
    cases h with
    | dlSetSize hn => exact ⟨hn, hs.2⟩
    | dlSetDelay => exact hs.setRidx _
    | dlSetFeedback => exact hs.setFb _
    | dlProcess hg => exact hs.advance hg
    | dlRead => exact hs
    | _ => exact absurd hd (by simp [Instr.isDelay])

theorem State.StoreInv.effect {i : Instr} {s u : State} (hs : s.StoreInv) (h : Effect s i u) :
    u.StoreInv := by
  obtain ⟨hwf, hin⟩ := h.stored hs
  obtain ⟨-, -, hmax, hsize, hwidx⟩ := hs
  exact ⟨hwf, hin, h.maxBlock_le hmax, h.dl_inBounds ⟨hsize, hwidx⟩⟩

theorem State.StoreInv.complete {s : State} (hs : s.StoreInv) : s.complete.StoreInv := hs

/-- Recording an error or a fault leaves every field of the invariant, as completing does. -/
theorem State.StoreInv.exec {i : Instr} {s t : State} (hs : s.StoreInv)
    (h : exec i s = .next t) : t.StoreInv := by
  rcases exec_answers h with ⟨c, _, _, rfl⟩ | ⟨_, _, rfl⟩ | ⟨u, hu, rfl⟩
  · exact State.StoreInv.complete (s := s.recordError c) hs
  · exact State.StoreInv.complete (s := s.recordFault _) hs
  · exact (hs.effect hu).complete

/-! ## The store invariant over a host action -/

theorem windowIndex_lt {base n a i : Nat} (h : windowIndex base n a = some i) : i < n := by
  unfold windowIndex at h
  split at h
  · cases h; omega
  · cases h

/-- A word of a buffer's window that an address names is one of the buffer's. -/
theorem targetAt_buf_lt {a : Nat} {b : Buf} {i : Nat} (h : targetAt a = some (.buf b i)) :
    i < Config.bufSize := by
  unfold targetAt at h
  split at h
  · cases h
  · split at h
    · rename_i hi; cases h; exact windowIndex_lt hi
    · split at h
      · rename_i hi; cases h; exact windowIndex_lt hi
      · split at h
        · rename_i hi; cases h; exact windowIndex_lt hi
        · split at h <;> cases h

/-- The memory, MAX_BLOCK and the delay line: what the store invariant speaks of. -/
def State.store (s : State) : Memory × Word × Delay := (s.mem, s.maxBlock, s.dl)

theorem State.StoreInv.congr {s t : State} (hs : s.StoreInv) (h : t.store = s.store) :
    t.StoreInv := by
  obtain ⟨hmem, hrest⟩ := Prod.mk.inj h
  obtain ⟨hmax, hdl⟩ := Prod.mk.inj hrest
  rwa [State.StoreInv, hmem, hmax, hdl]

/-- What a host action can do to the store: reset it, write a word of a block buffer, or nothing. -/
theorem State.hostAct_store (s : State) (a : HostAction) :
    a = .hardReset ∨ (s.hostAct a).store = s.store ∨
    ∃ (b : Buf) (i : Nat) (w : Word), i < Config.bufSize ∧
      s.hostAct a = { s with mem := s.mem.writeWord (bufBase b + 4 * i) w } := by
  cases a with
  | hardReset => exact .inl rfl
  | read w a =>
    change _ ∨ (s.busRead w a).store = _ ∨ _
    rcases s.busRead_cases w a with ⟨_, h⟩ | ⟨_, _, _, _, h⟩ | ⟨_, _, _, h⟩ <;>
      exact .inr (.inl (by rw [h]; rfl))
  | write w a v =>
    cases ht : targetOf w a with
    | none => exact .inr (.inl (by simp [State.hostAct, State.busWrite, ht, State.store]))
    | some t =>
      have hw : s.hostAct (.write w a v) = s.writeTarget t v := by
        simp [State.hostAct, State.busWrite, ht]
      rw [hw]
      cases t with
      | reg r =>
        refine .inr (.inl ?_)
        cases r with
        | cmd =>
          change (s.issue v).store = _
          rcases s.issue_cases v with ⟨_, h⟩ | ⟨_, h⟩ <;> rw [h] <;> rfl
        | noiseSeed =>
          change (s.writeIdle _).store = _
          rcases s.writeIdle_cases { s with rng := seedOf v } with ⟨_, h⟩ | ⟨_, h⟩ <;> rw [h] <;> rfl
        | _ => rfl
      | buf b i =>
        obtain ⟨_, _, ht⟩ := targetOf_some ht
        change _ ∨ (s.writeIdle _).store = _ ∨ ∃ b' j x, _ ∧ s.writeIdle _ = _
        rcases s.writeIdle_cases { s with mem := s.mem.writeWord (bufBase b + 4 * i) v } with
          ⟨_, h⟩ | ⟨_, h⟩
        · exact .inr (.inr ⟨b, i, v, targetAt_buf_lt ht, h⟩)
        · exact .inr (.inl (by rw [h]; rfl))
      | dlm i => exact .inr (.inl rfl)

theorem State.StoreInv.hostAct {s : State} (hs : s.StoreInv) (a : HostAction) :
    (s.hostAct a).StoreInv := by
  rcases s.hostAct_store a with rfl | h | ⟨b, i, w, hi, h⟩
  · exact ⟨rfl, nofun, Nat.zero_le _, Nat.zero_le _, (by decide : 0 < Config.delayCap)⟩
  · exact hs.congr h
  · obtain ⟨hwf, hin, hbounds⟩ := hs
    obtain ⟨hwf', hin'⟩ := Memory.Stored.writeWord_buf ⟨hwf, hin⟩ b hi w
    rw [h]
    exact ⟨hwf', hin', hbounds⟩

end Sys2Proof.Machine

namespace Sys2Proof
open Machine

/-- Settles O11: outside DL_* and RESET the delay line is kept, and every write is within the buffers,
below DLM. -/
theorem onlyDelayCommandsTouchDelayLine : Obligations.OnlyDelayCommandsTouchDelayLine := by
  unfold Obligations.OnlyDelayCommandsTouchDelayLine
  intro i s t hd hr hmax h
  refine ⟨exec_keeps (view := State.dl) (fun _ => rfl) (fun _ _ => rfl) (fun _ _ => rfl)
    (fun _ hu => hu.dl_eq hd hr) h, fun a ha => ?_⟩
  exact exec_keeps (view := fun u => u.mem.readByte a) (fun _ => rfl) (fun _ _ => rfl)
    (fun _ _ => rfl) (fun _ hu => (hu.bufWrites hd hr hmax).readByte_dlm ha) h

/-- Settles O50: each kind of step keeps the store invariant. -/
theorem storeInvKept : Obligations.StoreInvKept := by
  unfold Obligations.StoreInvKept
  intro s t hs h
  rcases step_cases h with ⟨e, es, _, _, rfl⟩ | ⟨r, i, _, _, _, he⟩ | ⟨r, e, _, _, _, rfl⟩ |
    ⟨_, _, rfl⟩
  · exact State.StoreInv.hostAct (s := { s with host := es }) hs e.action
  · exact hs.exec he
  · exact hs
  · exact hs

end Sys2Proof
end

section
/-! BANK_RENDER, sample by sample (O34). -/

namespace Sys2Proof.Machine

/-- OUT1 gets the additions that OUT0 gets: with the buffers exchanged, so are the sums. -/
theorem renderVoices_swap (n : Nat) (xs : List Voice) (o : List F32 × List F32) :
    (renderVoices n xs o.swap).2 = (renderVoices n xs o).2.swap := by
  induction xs generalizing o with
  | nil => rfl
  | cons x xs ih =>
    exact ih (addSamples o.1 (Voice.renderRun n x).2, addSamples o.2 (Voice.renderRun n x).2)

/-- The same sums in OUT1 as in OUT0 (R276). -/
theorem getElem?_renderVoices_snd {n i : Nat} (hi : i < n) (xs : List Voice)
    {o : List F32 × List F32} {w : F32} (h : o.2[i]? = some w) :
    (renderVoices n xs o).2.2[i]? = some (xs.foldl (addSampleAt i) w) := by
  have hswap := getElem?_renderVoices hi xs (o := o.swap) h
  rwa [renderVoices_swap] at hswap

/-- Word i of OUT0 and of OUT1 after the bank's render. -/
theorem State.readWord_renderBank {s : State} {n i : Nat} (hwf : s.mem.wf = true)
    (hn : n ≤ Config.bufSize) (hi : i < n) {b : Buf} (hb : b = .out0 ∨ b = .out1) :
    (s.renderBank n).mem.readWord (bufBase b + 4 * i) =
      s.voices.foldl (addSampleAt i) (s.mem.readWord (bufBase b + 4 * i)) := by
  have hshows := (State.shows_self hwf).renderBank hn
  have hold (b' : Buf) : (s.buf b' n)[i]? = some (s.mem.readWord (bufBase b' + 4 * i)) := by
    rw [List.getElem?_eq_getElem (by simpa using hi), State.getElem_buf]
  rcases hb with rfl | rfl
  · exact hshows.readWord (b := .out0) (getElem?_renderVoices hi _ (hold .out0))
  · exact hshows.readWord (b := .out1) (getElem?_renderVoices_snd hi _ (hold .out1))

/-- The bank's render touches no byte outside the first n words of OUT0 and of OUT1. -/
theorem State.readByte_renderBank (s : State) (n : Nat) {a : Nat}
    (h0 : a < bufBase .out0 ∨ bufBase .out0 + 4 * n ≤ a)
    (h1 : a < bufBase .out1 ∨ bufBase .out1 + 4 * n ≤ a) :
    (s.renderBank n).mem.readByte a = s.mem.readByte a := by
  obtain ⟨_, hl0, hl1⟩ := length_renderVoices n s.voices (s.buf .out0 n, s.buf .out1 n)
  rw [State.length_buf] at hl0 hl1
  exact (State.readByte_setBuf _ .out1 _ (by rwa [hl1])).trans
    (State.readByte_setBuf _ .out0 _ (by rwa [hl0]))

/-- BANK_RENDER on a prepared state: the whole next state (R276). -/
theorem exec_bankRender {n : BitVec 16} {s : State} (hp : s.status.prepared = true)
    (hn : n.toNat ≤ Config.bufSize) :
    exec (.bankRender n) s = .next { s with
      voices := s.voices.map ((fun x => x.renderSample.voice)^[n.toNat])
      mem := (s.renderBank n.toNat).mem
      running := none, status := { s.status with done := true } } := by
  refine (whenPrepared_of _ hp).trans ((whenCount_of _ hn).trans ?_)
  rw [finish_eq, ← voices_renderVoices n.toNat s.voices (s.buf .out0 n.toNat, s.buf .out1 n.toNat)]
  rfl

end Sys2Proof.Machine

namespace Sys2Proof
open Machine

/-- Settles O34: the render adds each voice's samples to a word in the voices' order. -/
theorem bankRenderSums : Obligations.BankRenderSums := by
  unfold Obligations.BankRenderSums
  intro n s hp hn hwf
  exact ⟨(s.renderBank n.toNat).mem, exec_bankRender hp hn,
    fun b hb i hi => State.readWord_renderBank hwf hn hi hb,
    fun a h0 h1 => s.readByte_renderBank n.toNat h0 h1⟩

end Sys2Proof
end

section
/-! Buffer words on the bus (O58) and bus errors (O59). -/

namespace Sys2Proof.Machine

/-! ## Buffer words -/

/-- A word written to a buffer of an idle core reads back (R88). -/
theorem State.busRead_after_write {s : State} {b : Buf} {i : Nat} {a : Addr} {w : Word}
    (hr : s.running = none) (hwf : s.mem.wf = true) (ht : targetOf .word a = some (.buf b i))
    {m : Memory} (hm : m = s.mem.writeWord (bufBase b + 4 * i) w) :
    ({ s with mem := m } : State).busRead .word a = { s with mem := m, readData := w } := by
  have hword : ({ s with mem := m } : State).readTarget (.buf b i) = w := by
    subst hm
    exact Memory.readWord_writeWord_self hwf _ w
  rw [State.busRead_content (s := { s with mem := m }) ht (.inl (State.busy_eq_false hr)), hword]

/-! ## Bus errors (R84) -/

/-- No register lies above the last one's word. -/
theorem find?_allRegs_eq_none_of_ge {a : Nat} (h : 0x74 ≤ a) :
    allRegs.find? (fun r => r.offset == a) = none := by
  have hbelow : ∀ r ∈ allRegs, r.offset < 0x74 := by decide
  exact List.find?_eq_none.2 fun r hr => by simpa using ((hbelow r hr).trans_le h).ne

/-- An address past the registers and outside every window is unmapped (R83). -/
theorem targetAt_eq_none {a : Nat} (hreg : 0x74 ≤ a)
    (hbuf : ∀ b, a < bufBase b ∨ bufBase b + 4 * Config.bufSize ≤ a)
    (hdlm : a < dlmBase ∨ dlmBase + 4 * Config.delayCap ≤ a) : targetAt a = none := by
  rw [targetAt, find?_allRegs_eq_none_of_ge hreg]
  simp only [windowIndex_outside (hbuf _), windowIndex_outside hdlm]

theorem targetOf_eq_none {w : Width} {a : Addr}
    (h : w ≠ .word ∨ a.toNat % 4 ≠ 0 ∨ targetAt a.toNat = none) : targetOf w a = none := by
  rw [targetOf]
  split
  · next hw =>
    obtain ⟨hw, ha⟩ := hw
    rcases h with h | h | h
    · exact absurd hw h
    · exact absurd ha h
    · exact h
  · rfl

theorem State.busRead_unmapped (s : State) {w : Width} {a : Addr} (h : targetOf w a = none) :
    s.busRead w a = { s.recordError .busErr with readData := 0#32 } := by
  rw [State.busRead, h]

theorem State.busWrite_unmapped (s : State) {w : Width} {a : Addr} (h : targetOf w a = none)
    (v : Word) : s.busWrite w a v = s.recordError .busErr := by
  rw [State.busWrite, h]

/-- The holes before, between and past the windows of the map are unmapped (R83). -/
theorem targetAt_hole {a : Nat}
    (h : (0x74 ≤ a ∧ a < bufBase .out0) ∨
      (bufBase .out0 + 4 * Config.bufSize ≤ a ∧ a < bufBase .out1) ∨
      (bufBase .out1 + 4 * Config.bufSize ≤ a ∧ a < bufBase .noise) ∨
      (bufBase .noise + 4 * Config.bufSize ≤ a ∧ a < dlmBase) ∨
      dlmBase + 4 * Config.delayCap ≤ a) : targetAt a = none := by
  simp only [bufBase, dlmBase, Config.bufSize, Config.delayCap] at h
  refine targetAt_eq_none (by omega) (fun b => ?_) ?_
  · cases b <;> simp only [bufBase, Config.bufSize] <;> omega
  · simp only [dlmBase, Config.delayCap]; omega

/-- The registers whose writes are bus errors (R84). -/
def readOnlyRegs : List Reg :=
  [.id, .result0, .result1, .voiceActiveLo, .voiceActiveHi, .sampleRate, .maxBlock, .numVoices,
    .bufSize, .dlCapacity, .dlSize, .tailLen, .dlFeedback]

theorem State.writeReg_readOnly (s : State) {r : Reg} (h : r ∈ readOnlyRegs) (v : Word) :
    s.writeReg r v = s.recordError .busErr := by
  cases r with
  | ctrl | status | cmd | arg0 | noiseSeed => exact absurd h (by decide)
  | pDetune | pNoise | pRate | pBits | pDetuneOn | pDetuneMix | pLfoSpeed =>
    exact absurd h (by decide)
  | envAttack | envDecay | envSustain | envRelease => exact absurd h (by decide)
  | _ => rfl

/-- A write to a read-only register or to DLM is a bus error, of whatever width. -/
theorem State.busWrite_readOnly (s : State) {w : Width} {a : Addr}
    (h : a.toNat ∈ readOnlyRegs.map Reg.offset ∨
      (dlmBase ≤ a.toNat ∧ a.toNat < dlmBase + 4 * Config.delayCap)) (v : Word) :
    s.busWrite w a v = s.recordError .busErr := by
  cases ht : targetOf w a with
  | none => exact s.busWrite_unmapped ht v
  | some t =>
    obtain ⟨rfl, h4, -⟩ := targetOf_some ht
    rcases h with h | ⟨hlo, hhi⟩
    · obtain ⟨r, hr, hoffset⟩ := List.mem_map.1 h
      have ha : a = BitVec.ofNat 20 r.offset := by
        rw [hoffset, BitVec.ofNat_toNat, BitVec.setWidth_eq]
      rw [ha, s.busWrite_reg, s.writeReg_readOnly hr]
    · have hbase : dlmBase % 4 = 0 := by decide
      exact State.busWrite_target
        (targetOf_dlm (i := (a.toNat - dlmBase) / 4) (by omega) (by omega)) v

end Sys2Proof.Machine

namespace Sys2Proof
open Machine

/-- Settles O58: both windows' words are reached at their addresses. -/
theorem bufferWriteThenRead : Obligations.BufferWriteThenRead := by
  unfold Obligations.BufferWriteThenRead
  refine ⟨fun s b i a w hr hwf hi ha => ?_, fun s i a hr hi ha => ?_⟩
  · have ht := targetOf_buf hi ha
    refine ⟨s.mem.writeWord (bufBase b + 4 * i) w, ?_, Memory.wf_writeWord _ _ hwf,
      fun x hx => Memory.readByte_writeWord_outside s.mem w hx,
      State.busRead_after_write hr hwf ht rfl⟩
    exact (State.busWrite_target ht w).trans (State.writeIdle_idle hr _)
  · exact State.busRead_content (targetOf_dlm hi ha) (.inl (State.busy_eq_false hr))

/-- Settles O59: where no target is reached, and at a read-only one, BUS_ERR is recorded. -/
theorem busErrors : Obligations.BusErrors := by
  unfold Obligations.BusErrors
  rintro s w a v bad rfl
  refine ⟨fun h => ?_, fun h => ?_⟩
  · have ht : targetOf w a = none :=
      targetOf_eq_none (h.imp_right (Or.imp_right targetAt_hole))
    exact ⟨s.busRead_unmapped ht, s.busWrite_unmapped ht v⟩
  · exact s.busWrite_readOnly h v

end Sys2Proof
end

section
/-! Command words (O1 to O4): the fields of a word, what each form's decoder answers, and from these the
decoder's answer on every word; the step that an illegal word takes. -/

namespace Sys2Proof.Machine

/-! ## Recorded errors -/

theorem State.complete_recordError (s : State) (c : Cause) :
    (s.recordError c).complete = s.rejected c := rfl

/-- An illegal word's completion, with no host action due, is the step. -/
theorem step_illegal {s : State} {r : Running} {e : DecodeError} (hr : s.running = some r)
    (hn : s.nextAction = none) (hd : decode r.word = .error e) :
    step s = .next (s.rejected (causeOf e)) := by
  simp [step, hn, hr, fetch, hd, State.complete_recordError]

end Sys2Proof.Machine

namespace Sys2Proof
open Machine

/-! ## Fields (R111) -/

theorem append_inj_iff {v w : Nat} {x x' : BitVec v} {y y' : BitVec w} :
    x ++ y = x' ++ y' ↔ x = x' ∧ y = y' := by
  refine ⟨fun h => ⟨?_, ?_⟩, fun ⟨hx, hy⟩ => by rw [hx, hy]⟩
  · rw [← BitVec.extractLsb'_append_eq_left (a := x) (b := y), h, BitVec.extractLsb'_append_eq_left]
  · rw [← BitVec.extractLsb'_append_eq_right (a := x) (b := y), h, BitVec.extractLsb'_append_eq_right]

theorem append_eq_zero_iff {v w : Nat} {x : BitVec v} {y : BitVec w} :
    x ++ y = 0#(v + w) ↔ x = 0#v ∧ y = 0#w := by
  rw [← BitVec.zero_append_zero, append_inj_iff]

/-- Adjacent fields make up the field that spans them. -/
theorem extract_append (c : Word) (start len len' : Nat) :
    c.extractLsb' (start + len) len' ++ c.extractLsb' start len = c.extractLsb' start (len' + len) :=
  BitVec.extractLsb'_append_extractLsb'_eq_extractLsb' rfl

section Fields
variable (op : BitVec 8) (v : VoiceNo) (k : BitVec 2) (imm : BitVec 16)

@[simp] theorem fieldImm_encodeFields : fieldImm (encodeFields op v k imm) = imm :=
  BitVec.extractLsb'_append_eq_right

@[simp] theorem fieldK_encodeFields : fieldK (encodeFields op v k imm) = k := by
  simp (disch := decide) only [fieldK, encodeFields, BitVec.extractLsb'_append_eq_of_le]
  exact BitVec.extractLsb'_append_eq_right

@[simp] theorem fieldV_encodeFields : fieldV (encodeFields op v k imm) = v := by
  simp (disch := decide) only [fieldV, encodeFields, BitVec.extractLsb'_append_eq_of_le]
  exact BitVec.extractLsb'_append_eq_right

@[simp] theorem fieldOp_encodeFields : fieldOp (encodeFields op v k imm) = op := by
  simp (disch := decide) only [fieldOp, encodeFields, BitVec.extractLsb'_append_eq_of_le]
  exact BitVec.extractLsb'_eq_self

end Fields

theorem fieldW_eq (c : Word) : fieldW c = (fieldImm c).extractLsb' 0 2 :=
  (BitVec.extractLsb'_extractLsb'_of_le (by decide)).symm

theorem fieldNote_eq (c : Word) : fieldNote c = (fieldImm c).extractLsb' 0 7 :=
  (BitVec.extractLsb'_extractLsb'_of_le (by decide)).symm

theorem fieldVelocity_eq (c : Word) : fieldVelocity c = (fieldImm c).extractLsb' 8 7 :=
  (BitVec.extractLsb'_extractLsb'_of_le (by decide)).symm

/-- A word is made of its fields. -/
theorem encodeFields_fields (c : Word) :
    encodeFields (fieldOp c) (fieldV c) (fieldK c) (fieldImm c) = c := by
  have hv : fieldOp c ++ fieldV c = c.extractLsb' 18 14 := extract_append c 18 6 8
  have hk : c.extractLsb' 18 14 ++ fieldK c = c.extractLsb' 16 16 := extract_append c 16 2 14
  have himm : c.extractLsb' 16 16 ++ fieldImm c = c.extractLsb' 0 32 := extract_append c 0 16 16
  rw [encodeFields, hv, hk, himm, BitVec.extractLsb'_eq_self]

theorem fieldOp_toNat (c : Word) : (fieldOp c).toNat = c.toNat / 2 ^ 24 := by
  rw [fieldOp, BitVec.extractLsb'_toNat, Nat.shiftRight_eq_div_pow]
  omega

theorem oscKindOfBits_bitsOfOscKind (k : OscKind) : oscKindOfBits (bitsOfOscKind k) = some k := by
  cases k <;> rfl

theorem waveOfBits_bitsOfWave (w : Wave) : waveOfBits (bitsOfWave w) = some w := by
  cases w <;> rfl

theorem bitsOfOscKind_of_oscKindOfBits {b : BitVec 2} {k : OscKind} (h : oscKindOfBits b = some k) :
    bitsOfOscKind k = b := by
  revert b
  cases k <;> decide

theorem bitsOfWave_of_waveOfBits {b : BitVec 2} {w : Wave} (h : waveOfBits b = some w) :
    bitsOfWave w = b := by
  revert b
  cases w <;> decide

theorem oscKindOfBits_eq_none_iff {b : BitVec 2} : oscKindOfBits b = none ↔ b.toNat = 3 := by
  revert b
  decide

theorem waveOfBits_eq_none_iff {b : BitVec 2} : waveOfBits b = none ↔ b.toNat = 3 := by
  revert b
  decide

/-! ## Bits a form marks 0 (R112), as the fields that hold them -/

theorem formZ_zero_iff (c : Word) :
    c.extractLsb' 0 24 = 0#24 ↔ (fieldV c = 0#6 ∧ fieldK c = 0#2) ∧ fieldImm c = 0#16 := by
  have hk : fieldV c ++ fieldK c = c.extractLsb' 16 8 := extract_append c 16 2 6
  have himm : c.extractLsb' 16 8 ++ fieldImm c = c.extractLsb' 0 24 := extract_append c 0 16 8
  rw [← himm, ← hk]
  exact append_eq_zero_iff.trans (and_congr_left' append_eq_zero_iff)

theorem formN_zero_iff (c : Word) :
    c.extractLsb' 16 8 = 0#8 ↔ fieldV c = 0#6 ∧ fieldK c = 0#2 := by
  have hk : fieldV c ++ fieldK c = c.extractLsb' 16 8 := extract_append c 16 2 6
  rw [← hk]
  exact append_eq_zero_iff

theorem formV_zero_iff (c : Word) :
    c.extractLsb' 0 18 = 0#18 ↔ fieldK c = 0#2 ∧ fieldImm c = 0#16 := by
  have himm : fieldK c ++ fieldImm c = c.extractLsb' 0 18 := extract_append c 0 16 2
  rw [← himm]
  exact append_eq_zero_iff

theorem formVKW_zero_iff (c : Word) :
    c.extractLsb' 2 14 = 0#14 ↔ fieldImm c = 0#14 ++ fieldW c := by
  have hw : c.extractLsb' 2 14 ++ fieldW c = fieldImm c := extract_append c 0 2 14
  rw [← hw, append_inj_iff, and_iff_left rfl]

theorem formNote_zero_iff (c : Word) :
    c.extractLsb' 15 9 = 0#9 ∧ c.extractLsb' 7 1 = 0#1 ↔ (fieldV c = 0#6 ∧ fieldK c = 0#2) ∧
      fieldImm c = ((0#1 ++ fieldVelocity c) ++ 0#1) ++ fieldNote c := by
  have htop : c.extractLsb' 16 8 ++ c.extractLsb' 15 1 = c.extractLsb' 15 9 := extract_append c 15 1 8
  have hvel : c.extractLsb' 15 1 ++ fieldVelocity c = c.extractLsb' 8 8 := extract_append c 8 7 1
  have hgap : c.extractLsb' 8 8 ++ c.extractLsb' 7 1 = c.extractLsb' 7 9 := extract_append c 7 1 8
  have hnote : c.extractLsb' 7 9 ++ fieldNote c = fieldImm c := extract_append c 0 7 9
  have hzero : c.extractLsb' 15 9 = 0#9 ↔ c.extractLsb' 16 8 = 0#8 ∧ c.extractLsb' 15 1 = 0#1 := by
    rw [← htop]
    exact append_eq_zero_iff
  rw [hzero, formN_zero_iff, and_assoc, ← hnote, ← hgap, ← hvel, append_inj_iff,
    append_inj_iff, append_inj_iff, and_iff_left rfl, and_iff_left rfl]

theorem formNoteOff_zero_iff (c : Word) :
    c.extractLsb' 7 17 = 0#17 ↔ (fieldV c = 0#6 ∧ fieldK c = 0#2) ∧
      fieldImm c = 0#9 ++ fieldNote c := by
  have htop : c.extractLsb' 16 8 ++ c.extractLsb' 7 9 = c.extractLsb' 7 17 := extract_append c 7 9 8
  have hnote : c.extractLsb' 7 9 ++ fieldNote c = fieldImm c := extract_append c 0 7 9
  rw [← formN_zero_iff, ← htop, ← hnote, append_inj_iff, and_iff_left rfl]
  exact append_eq_zero_iff

/-! ## Decoding what the encoder writes, form by form -/

section DecodeEncode
variable (op : BitVec 8)

theorem fieldOp_encodeZ : fieldOp (encodeZ op) = op := fieldOp_encodeFields ..

theorem fieldOp_encodeN (n : BitVec 16) : fieldOp (encodeN op n) = op := fieldOp_encodeFields ..

theorem fieldOp_encodeV (v : VoiceNo) : fieldOp (encodeV op v) = op := fieldOp_encodeFields ..

theorem fieldOp_encodeVK (v : VoiceNo) (k : OscKind) : fieldOp (encodeVK op v k) = op :=
  fieldOp_encodeFields ..

theorem fieldOp_encodeVKW (v : VoiceNo) (k : OscKind) (w : Wave) :
    fieldOp (encodeVKW op v k w) = op :=
  fieldOp_encodeFields ..

theorem decodeZ_encodeZ (i : Instr) : decodeZ (encodeZ op) i = .ok i := by
  rw [decodeZ, if_pos ((formZ_zero_iff _).2 (by simp [encodeZ]))]

theorem decodeN_encodeN (mk : BitVec 16 → Instr) (n : BitVec 16) :
    decodeN (encodeN op n) mk = .ok (mk n) := by
  rw [decodeN, if_pos ((formN_zero_iff _).2 (by simp [encodeN])), encodeN, fieldImm_encodeFields]

theorem decodeV_encodeV (mk : VoiceNo → Instr) {v : VoiceNo} (hv : voiceOk v = true) :
    decodeV (encodeV op v) mk = .ok (mk v) := by
  rw [decodeV, if_pos ((formV_zero_iff _).2 (by simp [encodeV])), encodeV, fieldV_encodeFields,
    if_pos hv]

/-- The shared checks of forms VK and VKW pass on a word with a voice of the bank and a kind. -/
theorem decodeVoiceKind_encodeFields (mk : VoiceNo → OscKind → Except DecodeError Instr)
    {v : VoiceNo} (hv : voiceOk v = true) (k : OscKind) (imm : BitVec 16) :
    decodeVoiceKind (encodeFields op v (bitsOfOscKind k) imm) mk = mk v k := by
  simp only [decodeVoiceKind, fieldV_encodeFields, fieldK_encodeFields, oscKindOfBits_bitsOfOscKind,
    hv, if_true]

theorem decodeVK_encodeVK (mk : VoiceNo → OscKind → Instr) {v : VoiceNo} (hv : voiceOk v = true)
    (k : OscKind) : decodeVK (encodeVK op v k) mk = .ok (mk v k) := by
  rw [decodeVK, encodeVK, if_pos (fieldImm_encodeFields ..), decodeVoiceKind_encodeFields _ _ hv]

theorem decodeVKW_encodeVKW (mk : VoiceNo → OscKind → Wave → Instr) {v : VoiceNo}
    (hv : voiceOk v = true) (k : OscKind) (w : Wave) :
    decodeVKW (encodeVKW op v k w) mk = .ok (mk v k w) := by
  have hw : fieldW (encodeVKW op v k w) = bitsOfWave w := by
    rw [fieldW_eq, encodeVKW, fieldImm_encodeFields]
    exact BitVec.extractLsb'_append_eq_right
  rw [decodeVKW, if_pos ((formVKW_zero_iff _).2 (by rw [hw]; exact fieldImm_encodeFields ..)), hw,
    encodeVKW, decodeVoiceKind_encodeFields _ _ hv, waveOfBits_bitsOfWave]

/-- The word of NOTE_ON decodes to its note and velocity. -/
theorem decodeNote_encodeFields (mk : BitVec 7 → BitVec 7 → Instr) (note vel : BitVec 7) :
    decodeNote (encodeFields op 0#6 0#2 (((0#1 ++ vel) ++ 0#1) ++ note)) mk = .ok (mk note vel) := by
  have hnote : fieldNote (encodeFields op 0#6 0#2 (((0#1 ++ vel) ++ 0#1) ++ note)) = note := by
    rw [fieldNote_eq, fieldImm_encodeFields]
    exact BitVec.extractLsb'_append_eq_right
  have hvel : fieldVelocity (encodeFields op 0#6 0#2 (((0#1 ++ vel) ++ 0#1) ++ note)) = vel := by
    rw [fieldVelocity_eq, fieldImm_encodeFields]
    simp (disch := decide) only [BitVec.extractLsb'_append_eq_of_le]
    exact BitVec.extractLsb'_append_eq_right
  rw [decodeNote, if_pos ((formNote_zero_iff _).2 (by simp [hnote, hvel])), hnote, hvel]

/-- The word of NOTE_OFF decodes to its note. -/
theorem decodeNoteOff_encodeFields (mk : BitVec 7 → Instr) (note : BitVec 7) :
    decodeNoteOff (encodeFields op 0#6 0#2 (0#9 ++ note)) mk = .ok (mk note) := by
  have hnote : fieldNote (encodeFields op 0#6 0#2 (0#9 ++ note)) = note := by
    rw [fieldNote_eq, fieldImm_encodeFields]
    exact BitVec.extractLsb'_append_eq_right
  rw [decodeNoteOff, if_pos ((formNoteOff_zero_iff _).2 (by simp [hnote])), hnote]

end DecodeEncode

/-- Settles O1: the opcode selects the form's decoder, which undoes the form's encoder. -/
theorem decodeOfEncode : Obligations.DecodeOfEncode := by
  intro i hwf
  rw [decode]
  cases i with rw [encode]
  | nop | reset | pushParams | dlSetSize | dlSetDelay | dlSetFeedback | dlProcess | dlRead =>
    rw [fieldOp_encodeZ]
    exact decodeZ_encodeZ _ _
  | prepare n | noiseUniform n | noiseGauss n | bankRender n | quantize n | decimate n | noiseMix n
  | noiseScale n | block n =>
    rw [fieldOp_encodeN]
    exact decodeN_encodeN _ _ n
  | oscSetSr v k | oscSetFreq v k | oscProcess v k | oscSetPw v k | oscRead v k =>
    rw [fieldOp_encodeVK]
    exact decodeVK_encodeVK _ _ hwf k
  | oscSetWave v k w =>
    rw [fieldOp_encodeVKW]
    exact decodeVKW_encodeVKW _ _ hwf k w
  | envNoteOn v | envNoteOff v | envNext v | envRead v | envReset v | voiceRender v | voiceRead v =>
    rw [fieldOp_encodeV]
    exact decodeV_encodeV _ _ hwf
  | noteOn note vel =>
    rw [fieldOp_encodeFields]
    exact decodeNote_encodeFields _ _ note vel
  | noteOff note =>
    rw [fieldOp_encodeFields]
    exact decodeNoteOff_encodeFields _ _ note

/-! ## Field errors (R118(b)-(e)) in the words of the decoder's checks -/

/-- A run of bits is 0 exactly when masking it out of the word gives 0. -/
theorem and_mask_eq_zero_iff (c : Word) (start len : Nat) :
    c &&& (BitVec.allOnes len).setWidth 32 <<< start = 0#32 ↔ c.extractLsb' start len = 0#len := by
  simp only [BitVec.eq_of_getLsbD_eq_iff, BitVec.getLsbD_and, BitVec.getLsbD_shiftLeft,
    BitVec.getLsbD_setWidth, BitVec.getLsbD_allOnes, BitVec.getLsbD_extractLsb', BitVec.getLsbD_zero]
  refine ⟨fun h i hi => ?_, fun h i hi => ?_⟩
  · rcases Nat.lt_or_ge (start + i) 32 with hlt | hge
    · simpa [hlt, hi, show i < 32 by omega] using h (start + i) hlt
    · simp [BitVec.getLsbD_of_ge c _ hge]
  · rcases Nat.lt_or_ge i start with hlt | hge
    · simp [hlt]
    · rcases Nat.lt_or_ge (i - start) len with hin | hout
      · have hbit := h (i - start) hin
        rw [Nat.add_sub_cancel' hge] at hbit
        simp_all
      · simp [Nat.not_lt.2 hout]

theorem fieldV_toNat (c : Word) : (fieldV c).toNat = c.toNat / 2 ^ 18 % 2 ^ 6 := by
  rw [fieldV, BitVec.extractLsb'_toNat, Nat.shiftRight_eq_div_pow]

theorem fieldK_toNat (c : Word) : (fieldK c).toNat = c.toNat / 2 ^ 16 % 2 ^ 2 := by
  rw [fieldK, BitVec.extractLsb'_toNat, Nat.shiftRight_eq_div_pow]

theorem fieldW_toNat (c : Word) : (fieldW c).toNat = c.toNat % 2 ^ 2 := by
  rw [fieldW, BitVec.extractLsb'_toNat, Nat.shiftRight_zero]

/-- R118(b)-(e) by the fields and by the checks that the form decoders make. -/
theorem fieldError_iff (f : Form) (c : Word) :
    fieldError f c ↔ c &&& f.zeroMask ≠ 0#32 ∨
      (f.usesVoice = true ∧ voiceOk (fieldV c) = false) ∨
      (f.usesKind = true ∧ oscKindOfBits (fieldK c) = none) ∨
      (f = .vkw ∧ waveOfBits (fieldW c) = none) := by
  rw [fieldError, oscKindOfBits_eq_none_iff, waveOfBits_eq_none_iff, fieldK_toNat, fieldW_toNat,
    voiceOk, decide_eq_false_iff_not, fieldV_toNat, Nat.not_lt]

/-- In a form with neither a voice nor a kind the only field errors are the bits marked 0. -/
theorem fieldError_iff_of_no_voice {f : Form} (c : Word) (hv : f.usesVoice = false)
    (hk : f.usesKind = false) : fieldError f c ↔ c &&& f.zeroMask ≠ 0#32 := by
  have hw : f ≠ .vkw := by
    rintro rfl
    cases hk
  simp [fieldError_iff, hv, hk, hw]

theorem fieldError_z_iff (c : Word) : fieldError .z c ↔ ¬ c.extractLsb' 0 24 = 0#24 := by
  rw [← and_mask_eq_zero_iff]
  exact fieldError_iff_of_no_voice c rfl rfl

theorem fieldError_n_iff (c : Word) : fieldError .n c ↔ ¬ c.extractLsb' 16 8 = 0#8 := by
  rw [← and_mask_eq_zero_iff]
  exact fieldError_iff_of_no_voice c rfl rfl

theorem fieldError_v_iff (c : Word) :
    fieldError .v c ↔ ¬ c.extractLsb' 0 18 = 0#18 ∨ voiceOk (fieldV c) = false := by
  have hmask : c &&& Form.v.zeroMask = 0#32 ↔ c.extractLsb' 0 18 = 0#18 := and_mask_eq_zero_iff c 0 18
  simp [fieldError_iff, hmask, Form.usesVoice, Form.usesKind]

theorem fieldError_vk_iff (c : Word) :
    fieldError .vk c ↔ ¬ fieldImm c = 0#16 ∨ voiceOk (fieldV c) = false ∨
      oscKindOfBits (fieldK c) = none := by
  have hmask : c &&& Form.vk.zeroMask = 0#32 ↔ fieldImm c = 0#16 := and_mask_eq_zero_iff c 0 16
  simp [fieldError_iff, hmask, Form.usesVoice, Form.usesKind]

theorem fieldError_vkw_iff (c : Word) :
    fieldError .vkw c ↔ ¬ c.extractLsb' 2 14 = 0#14 ∨ voiceOk (fieldV c) = false ∨
      oscKindOfBits (fieldK c) = none ∨ waveOfBits (fieldW c) = none := by
  have hmask : c &&& Form.vkw.zeroMask = 0#32 ↔ c.extractLsb' 2 14 = 0#14 :=
    and_mask_eq_zero_iff c 2 14
  simp [fieldError_iff, hmask, Form.usesVoice, Form.usesKind]

theorem fieldError_note_iff (c : Word) :
    fieldError .note c ↔ ¬ (c.extractLsb' 15 9 = 0#9 ∧ c.extractLsb' 7 1 = 0#1) := by
  rw [← and_mask_eq_zero_iff, ← and_mask_eq_zero_iff, ← BitVec.or_eq_zero_iff,
    ← BitVec.and_or_distrib_left]
  exact fieldError_iff_of_no_voice c rfl rfl

theorem fieldError_noteOff_iff (c : Word) :
    fieldError .noteOff c ↔ ¬ c.extractLsb' 7 17 = 0#17 := by
  rw [← and_mask_eq_zero_iff]
  exact fieldError_iff_of_no_voice c rfl rfl

/-! ## What each form's decoder answers -/

/-- What a decoder answers a word c of the form f: the command that the encoder writes as c, or
ILLEGAL_FIELD where R118 names a field error. -/
inductive FormAnswer (f : Form) (c : Word) : Except DecodeError Instr → Prop where
  | ok (i : Instr) (henc : encode i = c) (hwf : i.wf = true) (hf : ¬ fieldError f c) :
      FormAnswer f c (.ok i)
  | error (hf : fieldError f c) : FormAnswer f c (.error .illegalField)

section FormAnswers
variable {c : Word} {op : BitVec 8}

theorem encodeFields_eq {v : VoiceNo} {k : BitVec 2} {imm : BitVec 16}
    (hop : (fieldOp c).toNat = op.toNat) (hv : fieldV c = v) (hk : fieldK c = k)
    (himm : fieldImm c = imm) : encodeFields op v k imm = c := by
  rw [← BitVec.eq_of_toNat_eq hop, ← hv, ← hk, ← himm, encodeFields_fields]

theorem decodeZ_answer {i : Instr} (he : encode i = encodeZ op) (hw : i.wf = true)
    (hop : (fieldOp c).toNat = op.toNat) : FormAnswer .z c (decodeZ c i) := by
  have hf := fieldError_z_iff c
  rw [decodeZ]
  split
  · next hz =>
    obtain ⟨⟨hv, hk⟩, himm⟩ := (formZ_zero_iff c).1 hz
    exact .ok i (he.trans (encodeFields_eq hop hv hk himm)) hw (by simp [hf, hz])
  · next hz => exact .error (hf.2 hz)

theorem decodeN_answer {mk : BitVec 16 → Instr} (he : ∀ n, encode (mk n) = encodeN op n)
    (hw : ∀ n, (mk n).wf = true) (hop : (fieldOp c).toNat = op.toNat) :
    FormAnswer .n c (decodeN c mk) := by
  have hf := fieldError_n_iff c
  rw [decodeN]
  split
  · next hz =>
    obtain ⟨hv, hk⟩ := (formN_zero_iff c).1 hz
    exact .ok _ ((he _).trans (encodeFields_eq hop hv hk rfl)) (hw _) (by simp [hf, hz])
  · next hz => exact .error (hf.2 hz)

theorem decodeV_answer {mk : VoiceNo → Instr} (he : ∀ v, encode (mk v) = encodeV op v)
    (hw : ∀ v, (mk v).wf = voiceOk v) (hop : (fieldOp c).toNat = op.toNat) :
    FormAnswer .v c (decodeV c mk) := by
  have hf := fieldError_v_iff c
  rw [decodeV]
  split
  · next hz =>
    obtain ⟨hk, himm⟩ := (formV_zero_iff c).1 hz
    split
    · next hv =>
      exact .ok _ ((he _).trans (encodeFields_eq hop rfl hk himm)) ((hw _).trans hv)
        (by simp [hf, hz, hv])
    · next hv => exact .error (by simp [hf, hv])
  · next hz => exact .error (by simp [hf, hz])

theorem decodeVK_answer {mk : VoiceNo → OscKind → Instr}
    (he : ∀ v k, encode (mk v k) = encodeVK op v k) (hw : ∀ v k, (mk v k).wf = voiceOk v)
    (hop : (fieldOp c).toNat = op.toNat) : FormAnswer .vk c (decodeVK c mk) := by
  have hf := fieldError_vk_iff c
  rw [decodeVK, decodeVoiceKind]
  split
  · next himm =>
    split
    · next hv =>
      split
      · next k hk =>
        have hbits := bitsOfOscKind_of_oscKindOfBits hk
        exact .ok _ ((he _ _).trans (encodeFields_eq hop rfl hbits.symm himm)) ((hw _ _).trans hv)
          (by simp [hf, himm, hv, hk])
      · next hk => exact .error (by simp [hf, hk])
    · next hv => exact .error (by simp [hf, hv])
  · next himm => exact .error (by simp [hf, himm])

theorem decodeVKW_answer {mk : VoiceNo → OscKind → Wave → Instr}
    (he : ∀ v k w, encode (mk v k w) = encodeVKW op v k w)
    (hw : ∀ v k w, (mk v k w).wf = voiceOk v)
    (hop : (fieldOp c).toNat = op.toNat) : FormAnswer .vkw c (decodeVKW c mk) := by
  have hf := fieldError_vkw_iff c
  rw [decodeVKW, decodeVoiceKind]
  split
  · next hz =>
    have himm := (formVKW_zero_iff c).1 hz
    split
    · next hv =>
      split
      · next k hk =>
        have hkind := bitsOfOscKind_of_oscKindOfBits hk
        split
        · next w hwave =>
          rw [← bitsOfWave_of_waveOfBits hwave] at himm
          exact .ok _ ((he _ _ _).trans (encodeFields_eq hop rfl hkind.symm himm))
            ((hw _ _ _).trans hv) (by simp [hf, hz, hv, hk, hwave])
        · next hwave => exact .error (by simp [hf, hwave])
      · next hk => exact .error (by simp [hf, hk])
    · next hv => exact .error (by simp [hf, hv])
  · next hz => exact .error (by simp [hf, hz])

theorem decodeNote_answer {mk : BitVec 7 → BitVec 7 → Instr}
    (he : ∀ note vel, encode (mk note vel) =
      encodeFields op 0#6 0#2 (((0#1 ++ vel) ++ 0#1) ++ note))
    (hw : ∀ note vel, (mk note vel).wf = true)
    (hop : (fieldOp c).toNat = op.toNat) : FormAnswer .note c (decodeNote c mk) := by
  have hf := fieldError_note_iff c
  rw [decodeNote]
  split
  · next hz =>
    obtain ⟨⟨hv, hk⟩, himm⟩ := (formNote_zero_iff c).1 hz
    exact .ok _ ((he _ _).trans (encodeFields_eq hop hv hk himm)) (hw _ _) (by simp [hf, hz])
  · next hz => exact .error (hf.2 hz)

theorem decodeNoteOff_answer {mk : BitVec 7 → Instr}
    (he : ∀ note, encode (mk note) = encodeFields op 0#6 0#2 (0#9 ++ note))
    (hw : ∀ note, (mk note).wf = true)
    (hop : (fieldOp c).toNat = op.toNat) : FormAnswer .noteOff c (decodeNoteOff c mk) := by
  have hf := fieldError_noteOff_iff c
  rw [decodeNoteOff]
  split
  · next hz =>
    obtain ⟨⟨hv, hk⟩, himm⟩ := (formNoteOff_zero_iff c).1 hz
    exact .ok _ ((he _).trans (encodeFields_eq hop hv hk himm)) (hw _) (by simp [hf, hz])
  · next hz => exact .error (hf.2 hz)

end FormAnswers

/-! ## The decoder -/

/-- What the decoder answers, for every word: ILLEGAL_OPCODE where the opcode has no form, else the
answer of its form. The cases are decode's lines in order, grouped by form. -/
theorem decode_answer (c : Word) :
    (formOf (fieldOp c).toNat = none ∧ decode c = .error .illegalOpcode) ∨
    ∃ f, formOf (fieldOp c).toNat = some f ∧ FormAnswer f c (decode c) := by
  rw [decode]
  split
  case h_1 h | h_3 h | h_4 h | h_11 h | h_12 h | h_13 h | h_14 h | h_15 h =>
    exact .inr ⟨.z, congrArg formOf h, decodeZ_answer rfl rfl h⟩
  case h_2 h | h_16 h | h_17 h | h_26 h | h_28 h | h_29 h | h_30 h | h_31 h | h_32 h =>
    exact .inr ⟨.n, congrArg formOf h, decodeN_answer (fun _ => rfl) (fun _ => rfl) h⟩
  case h_5 h | h_6 h | h_7 h | h_8 h | h_10 h =>
    exact .inr ⟨.vk, congrArg formOf h, decodeVK_answer (fun _ _ => rfl) (fun _ _ => rfl) h⟩
  case h_9 h =>
    exact .inr ⟨.vkw, congrArg formOf h, decodeVKW_answer (fun _ _ _ => rfl) (fun _ _ _ => rfl) h⟩
  case h_18 h | h_19 h | h_20 h | h_21 h | h_22 h | h_25 h | h_27 h =>
    exact .inr ⟨.v, congrArg formOf h, decodeV_answer (fun _ => rfl) (fun _ => rfl) h⟩
  case h_23 h =>
    exact .inr ⟨.note, congrArg formOf h, decodeNote_answer (fun _ _ => rfl) (fun _ _ => rfl) h⟩
  case h_24 h =>
    exact .inr ⟨.noteOff, congrArg formOf h, decodeNoteOff_answer (fun _ => rfl) (fun _ => rfl) h⟩
  case h_33 => exact .inl ⟨by simp_all [formOf], rfl⟩

/-- Settles O2: only the answer of a form is a command. -/
theorem encodeOfDecode : Obligations.EncodeOfDecode := by
  intro c i hd
  rcases decode_answer c with ⟨_, hnone⟩ | ⟨f, _, ha⟩
  · cases hnone.symm.trans hd
  · rw [hd] at ha
    cases ha with
    | ok _ henc hwf _ => exact ⟨henc, hwf⟩

/-! ## Which words are illegal (R118) -/

theorem decode_illegalOpcode_iff (c : Word) :
    decode c = .error .illegalOpcode ↔ formOf (fieldOp c).toNat = none := by
  rcases decode_answer c with ⟨hform, hd⟩ | ⟨f, hform, ha⟩
  · exact iff_of_true hd hform
  · refine iff_of_false (fun hd => ?_) (by simp [hform])
    rw [hd] at ha
    cases ha

theorem decode_illegalField_iff (c : Word) :
    decode c = .error .illegalField ↔ ∃ f, formOf (fieldOp c).toNat = some f ∧ fieldError f c := by
  rcases decode_answer c with ⟨hform, hd⟩ | ⟨f, hform, ha⟩
  · exact iff_of_false (by simp [hd]) (by simp [hform])
  · simp only [hform, Option.some.injEq, exists_eq_left']
    generalize decode c = d at ha
    cases ha with
    | ok i _ _ hf => exact iff_of_false nofun hf
    | error hf => exact iff_of_true rfl hf

/-- Settles O3: the answer of each form, and the one step that an illegal word takes. -/
theorem illegalWords : Obligations.IllegalWords := by
  refine ⟨fun c => ?_, fun c => ?_, fun s r hr hn => ⟨step_illegal hr hn, step_illegal hr hn⟩⟩
  · rw [decode_illegalOpcode_iff, fieldOp_toNat]
  · rw [decode_illegalField_iff, fieldOp_toNat]

/-- Settles O4: the words are the encoder's, so they decode by the round trip; the assembler runs. -/
theorem sampleWords : Obligations.SampleWords := by
  have hdec {i : Instr} {c : Word} (hwf : i.wf = true) (henc : encode i = c) : decode c = .ok i :=
    henc ▸ decodeOfEncode i hwf
  refine ⟨hdec rfl rfl, hdec rfl rfl, hdec rfl rfl, hdec rfl rfl, hdec rfl rfl, hdec rfl rfl,
    hdec rfl rfl, hdec rfl rfl, ?_⟩
  decide +kernel

end Sys2Proof
end

section
/-! The checks before execution (O15): what each check answers where it fails, and that a count of 0
touches no buffer word. -/

namespace Sys2Proof.Machine

/-! ## Failed checks -/

theorem withVoice_rejected {v : VoiceNo} {s : State} (f : Voice → Result)
    (hv : Config.numVoices ≤ v.toNat) : withVoice v s f = .next (s.rejected .illegalField) := by
  rw [withVoice, if_neg (Nat.not_lt.2 hv), raise_eq, State.complete_recordError]

theorem whenPrepared_rejected {s : State} (k : Result) (h : s.status.prepared = false) :
    whenPrepared s k = .next (s.rejected .notPrepared) := by
  rw [whenPrepared, if_neg (Bool.eq_false_iff.1 h), raise_eq, State.complete_recordError]

theorem whenInRange_rejected {ok : Bool} (s : State) (k : Result) (h : ok = false) :
    whenInRange ok s k = .next (s.rejected .argRange) := by
  rw [whenInRange, if_neg (Bool.eq_false_iff.1 h), raise_eq, State.complete_recordError]

theorem whenCount_rejected {n : BitVec 16} (s : State) (k : Result) (h : Config.bufSize < n.toNat) :
    whenCount n s k = .next (s.rejected .argRange) :=
  whenInRange_rejected s k (by simpa using h)

theorem rateOk_eq_false {x : F32} (h : isFinite x = false ∨ flt posZero x = false) :
    rateOk x = false := by
  rcases h with h | h <;> simp [rateOk, fgt, h]

/-! ## Commands -/

/-- A voice from NV on is ILLEGAL_FIELD before anything else (R118(c), R119). -/
theorem exec_illFormed {i : Instr} (s : State) (h : i.wf = false) :
    exec i s = .next (s.rejected .illegalField) := by
  have hout {v : VoiceNo} (hv : voiceOk v = false) : Config.numVoices ≤ v.toNat := by
    simpa [voiceOk] using hv
  cases i with
  | oscSetSr | oscSetFreq | oscProcess | oscSetPw | oscSetWave | oscRead | envNoteOn | envNoteOff
  | envNext | envRead | envReset | voiceRender | voiceRead => exact withVoice_rejected _ (hout h)
  | _ => cases h

/-- PREPARED is checked next, on a voice that the bank holds (R119). -/
theorem exec_notPrepared {i : Instr} {s : State} (hwf : i.wf = true) (hi : i.needsPrepared = true)
    (hp : s.status.prepared = false) (hl : s.voices.length = Config.numVoices) :
    exec i s = .next (s.rejected .notPrepared) := by
  cases i with
  | pushParams | noteOn | noteOff | bankRender | block => exact whenPrepared_rejected _ hp
  | voiceRender v =>
    have hv : v.toNat < Config.numVoices := of_decide_eq_true hwf
    have hx := List.getElem?_eq_getElem (hv.trans_eq hl.symm)
    exact (withVoice_of _ hv hx).trans (whenPrepared_rejected _ hp)
  | _ => cases hi

theorem exec_prepare_rejected {m : BitVec 16} {s : State}
    (h : m.toNat = 0 ∨ Config.bufSize < m.toNat ∨ isFinite s.operands.arg0 = false ∨
      flt posZero s.operands.arg0 = false) :
    exec (.prepare m) s = .next (s.rejected .argRange) := by
  change whenInRange _ s _ = _
  cases hr : rateOk s.operands.arg0 with
  | false => exact whenInRange_rejected s _ rfl
  | true =>
    rw [whenInRange_of _ rfl]
    refine whenInRange_rejected s _ ?_
    rcases h with h | h | h
    · simp [h]
    · simp [h]
    · exact absurd hr (by simp [rateOk_eq_false h])

/-! ## A count of 0 -/

@[simp] theorem Memory.writeBlock_nil (m : Memory) (base : Nat) : m.writeBlock base [] = m := rfl

@[simp] theorem noiseFill_zero (uniform : Bool) (x : Word) : (noiseFill uniform 0 x).1 = [] :=
  List.length_eq_zero_iff.1 (length_noiseFill uniform 0 x)

/-- Writing no words leaves the memory alone. -/
theorem State.mem_setBuf_of_length_eq_zero (s : State) (b : Buf) {ws : List F32}
    (h : ws.length = 0) : (s.setBuf b ws).mem = s.mem := by
  rw [List.length_eq_zero_iff.1 h, State.setBuf_mem, Memory.writeBlock_nil]

section NoSamples
variable (s : State)

@[simp] theorem State.mem_clearBuffers_zero : (s.clearBuffers 0).mem = s.mem := rfl

@[simp] theorem State.mem_scaleNoise_zero (g : F32) : (s.scaleNoise 0 g).mem = s.mem := rfl

@[simp] theorem State.mem_renderBank_zero : (s.renderBank 0).mem = s.mem := by
  obtain ⟨_, h0, h1⟩ := length_renderVoices 0 s.voices (s.buf .out0 0, s.buf .out1 0)
  exact (State.mem_setBuf_of_length_eq_zero _ _ h1).trans
    (State.mem_setBuf_of_length_eq_zero _ _ h0)

@[simp] theorem State.mem_mixNoise_zero : (s.mixNoise 0).mem = s.mem := rfl

@[simp] theorem State.mem_quantizeOut_zero (b : Nat) : (s.quantizeOut 0 b).mem = s.mem := rfl

@[simp] theorem State.mem_decimateOut_zero (R : Nat) : (s.decimateOut 0 R).mem = s.mem :=
  s.mem_setBuf_of_length_eq_zero _ (by simp)

@[simp] theorem State.mem_copyOut_zero : (s.copyOut 0).mem = s.mem := rfl

@[simp] theorem State.mem_blockRender_zero (p : Snapshot) : (s.blockRender 0 p).mem = s.mem := by
  simp [State.blockRender]

@[simp] theorem State.mem_blockPost_zero (k : KnobValues) : (s.blockPost 0 k).mem = s.mem := by
  simp [State.blockPost]

end NoSamples

/-- The commands with a sample count, with a count of 0. -/
theorem Effect.mem_eq_of_zero_count {i : Instr} {s u : State} (h : Effect s i u)
    (hi : i ∈ ([.noiseUniform 0#16, .noiseGauss 0#16, .decimate 0#16, .noiseMix 0#16,
      .noiseScale 0#16, .bankRender 0#16, .block 0#16] : List Instr)) : u.mem = s.mem := by
  simp only [List.mem_cons, List.not_mem_nil, or_false] at hi
  rcases hi with rfl | rfl | rfl | rfl | rfl | rfl | rfl <;> cases h <;> simp

theorem Answers.mem_eq {i : Instr} {s t : State} (h : Answers i s t)
    (he : ∀ u, Effect s i u → u.mem = s.mem) : t.mem = s.mem := by
  rcases h with ⟨c, _, _, rfl⟩ | ⟨_, _, rfl⟩ | ⟨u, hu, rfl⟩
  · simp
  · simp
  · simpa using he u hu

end Sys2Proof.Machine

namespace Sys2Proof
open Machine

/-- Settles O15: each check that fails answers the rejected state, and an effect of no samples writes no
word. -/
theorem checksBeforeExecution : Obligations.ChecksBeforeExecution := by
  refine ⟨fun i s h => exec_illFormed s h, fun i s hwf hi hp hl => exec_notPrepared hwf hi hp hl,
    fun n s hn => ?counts, fun n s hp hn => ?block, fun m s h => exec_prepare_rejected h,
    fun v k s x hv hx hr => ?rate, fun s hn => ?size, fun s r hr hout => ?delay,
    fun i s t hi h => ?zero⟩
  case counts =>
    have hc (k : Result) : whenCount n s k = .next (s.rejected .argRange) := whenCount_rejected s k hn
    exact ⟨hc _, hc _, hc _, hc _, hc _, fun hp => (whenPrepared_of _ hp).trans (hc _)⟩
  case block =>
    exact (whenPrepared_of _ hp).trans (whenInRange_rejected s _ (by simpa using hn))
  case rate => exact (withVoice_of _ hv hx).trans (whenInRange_rejected s _ (rateOk_eq_false hr))
  case size => exact whenInRange_rejected s _ (by simpa using hn)
  case delay =>
    subst hr
    exact whenInRange_rejected s _ hout
  case zero => exact (exec_answers h).mem_eq fun u hu => hu.mem_eq_of_zero_count hi

end Sys2Proof
end

section
/-! The order of binary32 values over one rounding: a rounded result stays on the side of a bound on
which the exact result lies (R11, R13). -/

namespace Sys2Proof.Machine

/-! ## The order of the comparisons -/

theorem val_le_of_fle {a b : F32} (h : fle a b = true) : val a ≤ val b :=
  (fle_iff (isNaN_of_fle h).1 (isNaN_of_fle h).2).1 h

theorem val_lt_of_flt {a b : F32} (h : flt a b = true) : val a < val b :=
  (flt_iff (isNaN_of_flt h).1 (isNaN_of_flt h).2).1 h

theorem fle_of_flt {a b : F32} (h : flt a b = true) : fle a b = true :=
  (fle_iff (isNaN_of_flt h).1 (isNaN_of_flt h).2).2 (val_lt_of_flt h).le

theorem fle_trans {a b c : F32} (hab : fle a b = true) (hbc : fle b c = true) : fle a c = true :=
  (fle_iff (isNaN_of_fle hab).1 (isNaN_of_fle hbc).2).2
    ((val_le_of_fle hab).trans (val_le_of_fle hbc))

theorem flt_of_fle_of_flt {a b c : F32} (hab : fle a b = true) (hbc : flt b c = true) :
    flt a c = true :=
  (flt_iff (isNaN_of_fle hab).1 (isNaN_of_flt hbc).2).2
    ((val_le_of_fle hab).trans_lt (val_lt_of_flt hbc))

theorem fle_eq_false_iff {a b : F32} (ha : isNaN a = false) (hb : isNaN b = false) :
    fle a b = false ↔ flt b a = true := by
  rw [← Bool.not_eq_true, fle_iff ha hb, flt_iff hb ha, not_le]

theorem isFinite_of_fle {lo x hi : F32} (hlo : isFinite lo = true) (hhi : isFinite hi = true)
    (h1 : fle lo x = true) (h2 : fle x hi = true) : isFinite x = true := by
  have key1 := val_le_val.1 (val_le_of_fle h1)
  have key2 := val_le_val.1 (val_le_of_fle h2)
  rw [isFinite_iff] at hlo hhi ⊢
  unfold orderKey at key1 key2
  omega

theorem orderKey_fneg (x : F32) : orderKey (fneg x) = -orderKey x := by
  unfold orderKey
  rw [mag_fneg, isNeg_fneg]
  cases isNeg x <;> simp

theorem fle_fneg (a b : F32) : fle (fneg a) (fneg b) = fle b a := by
  simp [fle, isNaN_fneg, orderKey_fneg, Bool.and_comm]

theorem fneg_fneg (x : F32) : fneg (fneg x) = x := by
  rw [fneg, fneg, BitVec.xor_assoc, BitVec.xor_self, BitVec.xor_zero]

theorem val_posZero : val posZero = 0 := rfl

/-- Not NaN and without a sign means from 0 up. -/
theorem posZero_fle {x : F32} (hx : isNaN x = false) (hn : isNeg x = false ∨ mag x = 0) :
    fle posZero x = true := by
  have hval : (0 : Int) ≤ val x := by
    rcases hn with hn | hm
    · simp [val_eq_signed, hn]
    · exact (val_eq_zero.2 hm).ge
  exact (fle_iff (by decide) hx).2 (by rwa [val_posZero])

/-- A value above 0 is no NaN, has no sign and is not a zero. -/
theorem parts_of_pos {x : F32} (h : flt posZero x = true) :
    isNaN x = false ∧ isNeg x = false ∧ mag x ≠ 0 := by
  have hval : 0 < val x := val_lt_of_flt h
  exact ⟨(isNaN_of_flt h).2, (val_eq_units_of_pos hval).1, mt val_eq_zero.2 hval.ne'⟩

/-- A value from 0 up is a zero or above 0. -/
theorem mag_eq_zero_or_pos {x : F32} (h : fle posZero x = true) :
    mag x = 0 ∨ flt posZero x = true := by
  by_cases h0 : mag x = 0
  · exact .inl h0
  · have hne : val x ≠ 0 := mt val_eq_zero.1 h0
    have hle : 0 ≤ val x := val_le_of_fle h
    exact .inr ((flt_iff (by decide) (isNaN_of_fle h).2).2 (lt_of_le_of_ne hle hne.symm))

theorem isInf_of_not_isFinite {x : F32} (hn : isNaN x = false) (hf : ¬ isFinite x = true) :
    isInf x = true := by
  simp only [isNaN, decide_eq_false_iff_not] at hn
  rw [isFinite_iff] at hf
  rw [isInf_iff]
  omega

/-- Positive infinity is above every finite value. -/
theorem fle_of_isInf {a b : F32} (ha : isFinite a = true) (hb : isInf b = true)
    (hn : isNeg b = false) : fle a b = true := by
  refine (fle_iff (isNaN_of_isFinite ha) (isNaN_of_isInf hb)).2 ?_
  rw [isFinite_iff] at ha
  rw [isInf_iff] at hb
  rw [val_le_val, orderKey, orderKey, hn, hb, if_neg Bool.false_ne_true]
  split <;> omega

/-! ## Rounding keeps bounds -/

theorem abs_val_lt_of_isFinite {c : F32} (h : isFinite c = true) :
    |val c| < (2 ^ 25 - 1) * 2 ^ 252 := by
  have hle : units c ≤ unitsOfMag (infMag - 1) :=
    unitsOfMag_strictMono.monotone (Nat.le_sub_one_of_lt (isFinite_iff.1 h))
  rw [unitsOfMag_maxMag] at hle
  rw [abs_val]
  omega

/-- A finite lower bound of the exact result is one of the rounded result, infinities included. -/
theorem Rounded.fle_of_le {r c : F32} {exact scale : Int} (h : Rounded r exact scale)
    (hs : 0 < scale) (hc : isFinite c = true) (hle : val c * scale ≤ exact) : fle c r = true := by
  obtain ⟨hnan, hsign, hfin, hnear⟩ := h
  refine (fle_iff (isNaN_of_isFinite hc) hnan).2 ?_
  by_cases hr : isFinite r = true
  · have hnearest := (hnear hr c hc).1
    by_contra hlt
    have hscaled : val r * scale < val c * scale := mul_lt_mul_of_pos_right (not_le.1 hlt) hs
    rw [abs_of_neg (by omega), abs_of_nonpos (by omega)] at hnearest
    omega
  · have hbig : (2 ^ 25 - 1) * 2 ^ 252 * scale ≤ |exact| := not_lt.1 (mt hfin.2 hr)
    have hclow : -((2 ^ 25 - 1) * 2 ^ 252 * scale) < val c * scale := by
      rw [← neg_mul]
      exact mul_lt_mul_of_pos_right (abs_lt.1 (abs_val_lt_of_isFinite hc)).1 hs
    have hpos : 0 < exact := by
      by_contra hneg
      rw [abs_of_nonpos (not_lt.1 hneg)] at hbig
      omega
    have hrneg : isNeg r = false := by rw [hsign hpos.ne', decide_eq_false hpos.le.not_gt]
    exact val_le_of_fle (fle_of_isInf hc (isInf_of_not_isFinite hnan hr) hrneg)

theorem Rounded.fneg {r : F32} {exact scale : Int} (h : Rounded r exact scale) :
    Rounded (fneg r) (-exact) scale := by
  obtain ⟨hnan, hsign, hfin, hnear⟩ := h
  have hflip (v : Int) : |-v * scale - -exact| = |v * scale - exact| := by
    rw [← abs_neg]; congr 1; ring
  refine ⟨by rwa [isNaN_fneg], fun h0 => ?_, by rwa [isFinite_fneg, abs_neg], fun hf y hy => ?_⟩
  · have hne : exact ≠ 0 := neg_ne_zero.1 h0
    rw [isNeg_fneg, hsign hne, ← decide_not, decide_eq_decide]
    omega
  · have hn := hnear (by rwa [isFinite_fneg] at hf) (Machine.fneg y) (by rwa [isFinite_fneg])
    rw [(val_fneg y).1] at hn
    rw [(val_fneg r).1, mag_fneg, hflip, ← neg_neg (val y), hflip]
    exact ⟨hn.1, fun he hne => hn.2 he fun hv => hne (by rw [hv])⟩

/-- A finite upper bound of the exact result is one of the rounded result, infinities included. -/
theorem Rounded.fle_of_ge {r c : F32} {exact scale : Int} (h : Rounded r exact scale)
    (hs : 0 < scale) (hc : isFinite c = true) (hle : exact ≤ val c * scale) : fle r c = true := by
  rw [← fle_fneg]
  exact h.fneg.fle_of_le hs (by rwa [isFinite_fneg]) (by rw [(val_fneg c).1, neg_mul]; omega)

section Sums
variable {a b c : F32} (ha : isFinite a = true) (hb : isFinite b = true) (hc : isFinite c = true)
include ha hb hc

theorem fle_fadd (h : val c ≤ val a + val b) : fle c (fadd a b) = true :=
  (rounded_fadd ha hb).fle_of_le one_pos hc (by rwa [mul_one])

theorem fadd_fle (h : val a + val b ≤ val c) : fle (fadd a b) c = true :=
  (rounded_fadd ha hb).fle_of_ge one_pos hc (by rwa [mul_one])

theorem fle_fsub (h : val c ≤ val a - val b) : fle c (fsub a b) = true :=
  (rounded_fsub ha hb).fle_of_le one_pos hc (by rwa [mul_one])

theorem fsub_fle (h : val a - val b ≤ val c) : fle (fsub a b) c = true :=
  (rounded_fsub ha hb).fle_of_ge one_pos hc (by rwa [mul_one])

end Sums

/-- A sum from 0 up has no sign, unless both operands have one. -/
theorem isNeg_fadd {a b : F32} (ha : isFinite a = true) (hb : isFinite b = true)
    (h : 0 ≤ val a + val b) (hn : (isNeg a && isNeg b) = false) : isNeg (fadd a b) = false := by
  by_cases h0 : val a + val b = 0
  · rw [fadd_zero ha hb h0, hn]
    rfl
  · rw [fadd_eq_roundNE ha hb h0, (roundNE_parts _ _ _).1, decide_eq_false h.not_gt]

theorem posInf_of_not_isFinite {b : F32} (hb : fle posZero b = true) (hf : ¬ isFinite b = true) :
    isInf b = true ∧ isNeg b = false := by
  have hinf := isInf_of_not_isFinite (isNaN_of_fle hb).2 hf
  have hpos := (mag_eq_zero_or_pos hb).resolve_left (by rw [isInf_iff.1 hinf]; decide)
  exact ⟨hinf, (parts_of_pos hpos).2.1⟩

/-- Adding a value from 0 up, infinity included, does not lower the sum. -/
theorem fle_fadd_self {a b : F32} (ha : isFinite a = true) (hb : fle posZero b = true) :
    fle a (fadd a b) = true := by
  by_cases hf : isFinite b = true
  · have hval : 0 ≤ val b := val_le_of_fle hb
    exact fle_fadd ha hf ha (by omega)
  · obtain ⟨hinf, hneg⟩ := posInf_of_not_isFinite hb hf
    rw [fadd_finite_inf hinf ha]
    exact fle_of_isInf ha hinf hneg

/-- Subtracting a value from 0 up, infinity included, does not raise the difference. -/
theorem fsub_fle_self {a b : F32} (ha : isFinite a = true) (hb : fle posZero b = true) :
    fle (fsub a b) a = true := by
  by_cases hf : isFinite b = true
  · have hval : 0 ≤ val b := val_le_of_fle hb
    exact fsub_fle ha hf ha (by omega)
  · obtain ⟨hinf, hneg⟩ := posInf_of_not_isFinite hb hf
    rw [fsub, fadd_finite_inf (by rwa [isInf_fneg]) ha, ← fneg_fneg a, fle_fneg]
    exact fle_of_isInf (by rwa [isFinite_fneg]) hinf hneg

end Sys2Proof.Machine
end

section
/-! The oscillators (O16 to O19): the setters, OSC_PROCESS, the range of the phase over an advance and the
range of the triangle. -/

namespace Sys2Proof.Machine

/-! ## Results of the commands -/

section
variable {v : VoiceNo} {s : State} {x : Voice} (k : OscKind) (hv : v.toNat < Config.numVoices)
  (hx : s.voices[v.toNat]? = some x)
include hv hx

theorem exec_oscSetSr (hr : rateOk s.operands.arg0 = true) :
    exec (.oscSetSr v k) s =
      .next (s.setVoice v (x.setOsc k ((x.osc k).setSr s.operands.arg0))).complete :=
  (withVoice_of _ hv hx).trans (whenInRange_of _ hr)

theorem exec_oscSetFreq :
    exec (.oscSetFreq v k) s =
      .next (s.setVoice v (x.setOsc k ((x.osc k).setFreq s.operands.arg0))).complete :=
  withVoice_of _ hv hx

theorem exec_oscSetPw :
    exec (.oscSetPw v k) s =
      .next (s.setVoice v (x.setOsc k { x.osc k with pw := s.operands.arg0 })).complete :=
  withVoice_of _ hv hx

theorem exec_oscSetWave (w : Wave) :
    exec (.oscSetWave v k w) s =
      .next (s.setVoice v (x.setOsc k { x.osc k with wave := w })).complete :=
  withVoice_of _ hv hx

theorem exec_oscProcess :
    exec (.oscProcess v k) s =
      .next { s with
        voices := s.voices.set v.toNat (x.setOsc k (x.osc k).advance)
        result0 := (x.osc k).advance.shape
        result1 := (x.osc k).advance.phase
        running := none
        status := { s.status with done := true } } :=
  withVoice_of _ hv hx

end

/-! ## The range of the phase (R144) -/

/-- The binary32 value next below 1.0. -/
def belowOne : F32 := 0x3F7FFFFF#32

/-- The binary32 value next below 2.0. -/
def belowTwo : F32 := 0x3FFFFFFF#32

theorem val_one : val one = 2 ^ 149 := by decide +kernel

theorem val_half : val half = 2 ^ 148 := by decide +kernel

theorem val_negHalf : val negHalf = -2 ^ 148 := by decide +kernel

theorem val_belowOne : val belowOne = 2 ^ 149 - 2 ^ 125 := by decide +kernel

theorem val_belowTwo : val belowTwo = 2 ^ 150 - 2 ^ 126 := by decide +kernel

/-- No binary32 value lies between `belowOne` and 1.0. -/
theorem val_le_belowOne {x : F32} (h : flt x one = true) : val x ≤ val belowOne := by
  have hkey := val_lt_val.1 (val_lt_of_flt h)
  rw [val_le_val]
  rw [show orderKey one = orderKey belowOne + 1 by decide] at hkey
  omega

theorem phaseOk_of_isNeg {p : F32} (hlo : fle posZero p = true) (hhi : flt p one = true)
    (hn : isNeg p = false) : phaseOk p :=
  ⟨hlo, hhi, fun h => by rw [h] at hn; exact absurd hn (by decide)⟩

theorem isNeg_of_phaseOk {p : F32} (h : phaseOk p) : isNeg p = false := by
  obtain ⟨hlo, _, hz⟩ := h
  rcases mag_eq_zero_or_pos hlo with hm | hpos
  · refine Bool.eq_false_iff.2 fun hn => hz ?_
    rw [← ofMag_isNeg_mag p, hn, hm]
    rfl
  · exact (parts_of_pos hpos).2.1

/-- One wrap step takes a sum in [-1, 2) that is not -0.0 back into [0, 1). -/
theorem phaseOk_wrapPhase {s : F32} (hlo : fle (fneg one) s = true) (hhi : fle s belowTwo = true)
    (hz : s ≠ negZero) : phaseOk (wrapPhase s) := by
  have hone : isFinite one = true := by decide
  have hfin : isFinite s = true := isFinite_of_fle (by decide) (by decide) hlo hhi
  have hnan := isNaN_of_isFinite hfin
  have hvlo := val_le_of_fle hlo
  have hvhi := val_le_of_fle hhi
  rw [(val_fneg one).1, val_one] at hvlo
  rw [val_belowTwo] at hvhi
  unfold wrapPhase fge
  split
  case isTrue h1 =>
    have hv1 := val_le_of_fle h1
    rw [val_one] at hv1
    have hrange : fle posZero (fsub s one) = true ∧ fle (fsub s one) belowOne = true :=
      ⟨fle_fsub hfin hone (by decide) (by rw [val_one, val_posZero]; omega),
        fsub_fle hfin hone (by decide) (by rw [val_one, val_belowOne]; omega)⟩
    have hsign : isNeg s = false := (val_eq_units_of_pos (lt_of_lt_of_le (by norm_num) hv1)).1
    refine phaseOk_of_isNeg hrange.1 (flt_of_fle_of_flt hrange.2 (by decide)) ?_
    refine isNeg_fadd hfin (by decide) ?_ (by rw [hsign]; rfl)
    rw [(val_fneg one).1, val_one]
    omega
  case isFalse h1 =>
    split
    case isTrue h0 =>
      have hsum : 0 ≤ val s + val one := by rw [val_one]; omega
      have hnonneg : fle posZero (fadd s one) = true := fle_fadd hfin hone (by decide) hsum
      split
      case isTrue => exact phaseOk_of_isNeg (by decide) (by decide) (by decide)
      case isFalse h2 =>
        refine phaseOk_of_isNeg hnonneg ?_ (isNeg_fadd hfin hone hsum (Bool.and_false _))
        exact (fle_eq_false_iff (by decide) (isNaN_of_fle hnonneg).2).1 (Bool.eq_false_iff.2 h2)
    case isFalse h0 =>
      exact ⟨(flt_eq_false_iff hnan (by decide)).1 (Bool.eq_false_iff.2 h0),
        (fle_eq_false_iff (by decide) hnan).1 (Bool.eq_false_iff.2 h1), hz⟩

/-- The sum of a phase and a delta between -1 and 1 lies in [-1, 2), and is not -0.0: an exact sum below 0
is at least one unit away from it. -/
theorem phase_add_delta_range {p d : F32} (hp : phaseOk p) (hlo : flt (fneg one) d = true)
    (hhi : flt d one = true) :
    fle (fneg one) (fadd p d) = true ∧ fle (fadd p d) belowTwo = true ∧ fadd p d ≠ negZero := by
  have hpn := isNeg_of_phaseOk hp
  obtain ⟨hp0, hp1, _⟩ := hp
  have hpf : isFinite p = true := isFinite_of_fle (by decide) (by decide) hp0 (fle_of_flt hp1)
  have hdf : isFinite d = true :=
    isFinite_of_fle (by decide) (by decide) (fle_of_flt hlo) (fle_of_flt hhi)
  have hvp0 : 0 ≤ val p := val_le_of_fle hp0
  have hvp1 := val_le_belowOne hp1
  have hvd0 := val_lt_of_flt hlo
  have hvd1 := val_le_belowOne hhi
  rw [(val_fneg one).1, val_one] at hvd0
  rw [val_belowOne] at hvp1 hvd1
  refine ⟨fle_fadd hpf hdf (by decide) (by rw [(val_fneg one).1, val_one]; omega),
    fadd_fle hpf hdf (by decide) (by rw [val_belowTwo]; omega), fun hz => ?_⟩
  by_cases hsum : 0 ≤ val p + val d
  · have hn := isNeg_fadd hpf hdf hsum (by rw [hpn]; rfl)
    rw [hz] at hn
    exact absurd hn (by decide)
  · have hle : fle (fadd p d) (fneg 1#32) = true :=
      fadd_fle hpf hdf (by decide) (by rw [show val (fneg 1#32) = -1 by decide]; omega)
    rw [hz] at hle
    exact absurd hle (by decide)

/-! ## The range of the triangle (R145) -/

theorem mag_fabs (x : F32) : mag (fabs x) = mag x := by
  have hmod : (fabs x).toNat = x.toNat % 2 ^ 31 := by
    rw [fabs, BitVec.toNat_and]
    exact Nat.and_two_pow_sub_one_eq_mod x.toNat 31
  rw [mag, hmod, Nat.mod_mod, mag]

theorem isNeg_fabs (x : F32) : isNeg (fabs x) = false := by
  unfold isNeg fabs
  rw [BitVec.msb_and]
  exact Bool.and_false _

theorem val_fabs (x : F32) : val (fabs x) = |val x| := by
  rw [abs_val, val_eq_signed, isNeg_fabs, units, mag_fabs]
  rfl

theorem isFinite_fabs (x : F32) : isFinite (fabs x) = isFinite x := by
  rw [isFinite, isFinite, mag_fabs]

theorem shapeTri_range {p : F32} (hlo : fle posZero p = true) (hhi : flt p one = true) :
    fle negHalf (shapeTri p) = true ∧ fle (shapeTri p) posZero = true := by
  have hhalf : isFinite half = true := by decide
  have hpf : isFinite p = true := isFinite_of_fle (by decide) (by decide) hlo (fle_of_flt hhi)
  have hv0 : 0 ≤ val p := val_le_of_fle hlo
  have hv1 := val_lt_of_flt hhi
  rw [val_one] at hv1
  have hqlo : fle negHalf (fsub p half) = true :=
    fle_fsub hpf hhalf (by decide) (by rw [val_half, val_negHalf]; omega)
  have hqhi : fle (fsub p half) half = true :=
    fsub_fle hpf hhalf hhalf (by rw [val_half]; omega)
  have hqf : isFinite (fabs (fsub p half)) = true := by
    rw [isFinite_fabs]
    exact isFinite_of_fle (by decide) hhalf hqlo hqhi
  have habs : |val (fsub p half)| ≤ 2 ^ 148 :=
    abs_le.2 ⟨val_negHalf ▸ val_le_of_fle hqlo, val_half ▸ val_le_of_fle hqhi⟩
  have habs0 := abs_nonneg (val (fsub p half))
  unfold shapeTri
  constructor
  · exact fle_fsub hqf hhalf (by decide) (by rw [val_fabs, val_half, val_negHalf]; omega)
  · exact fsub_fle hqf hhalf (by decide) (by rw [val_fabs, val_half, val_posZero]; omega)

end Sys2Proof.Machine

namespace Sys2Proof
open Machine

/-- Settles O16: each setter is its own update of osc(V,K), completed. -/
theorem oscillatorSetters : Obligations.OscillatorSetters := by
  unfold Obligations.OscillatorSetters
  intro v k s x hv hx
  refine ⟨fun hfin hpos => ?_, exec_oscSetFreq k hv hx, exec_oscSetPw k hv hx,
    fun w => exec_oscSetWave k hv hx w⟩
  exact exec_oscSetSr k hv hx (by rw [rateOk, fgt, hfin, hpos]; rfl)

/-- Settles O17, waveform by waveform. -/
theorem oscProcessResult : Obligations.OscProcessResult := by
  unfold Obligations.OscProcessResult
  intro v k s x sum p y hv hx hsum hp hy
  have hphase : (x.osc k).advance = { x.osc k with phase := p } := by
    rw [hp, hsum]
    rfl
  have hshape : (x.osc k).advance.shape = y := by
    rw [hphase, hy]
    cases h : (x.osc k).wave <;> simp only [Osc.shape, h] <;> rfl
  rw [exec_oscProcess k hv hx, hshape, hphase]

/-- Settles O18: the sum lies in [-1, 2), from where one wrap step is enough. -/
theorem phaseInvariantKept : Obligations.PhaseInvariantKept := by
  unfold Obligations.PhaseInvariantKept
  intro o hp hlo hhi
  obtain ⟨hge, hle, hz⟩ := phase_add_delta_range hp hlo hhi
  exact phaseOk_wrapPhase hge hle hz

/-- Settles O19: both differences stay within bounds that are binary32 values. -/
theorem triangleShape : Obligations.TriangleShape := by
  unfold Obligations.TriangleShape
  exact ⟨fun _ => rfl, fun _ => shapeTri_range, by decide, by decide⟩

end Sys2Proof
end

section
/-! The voices' promises over a step (O52): what the envelope's operations, a voice's and the bank's do to
them, then each command and each host action. -/

namespace Sys2Proof.Machine

/-! ## Rates (R232, R233) -/

/-- A product of values above 0 is no NaN and has no sign. -/
theorem fmul_of_pos {a b : F32} (ha : flt posZero a = true) (hb : flt posZero b = true) :
    isNaN (fmul a b) = false ∧ isNeg (fmul a b) = false := by
  obtain ⟨hna, hsa, hma⟩ := parts_of_pos ha
  obtain ⟨hnb, hsb, hmb⟩ := parts_of_pos hb
  have hinf : isNaN (infOf false) = false ∧ isNeg (infOf false) = false := by decide
  unfold fmul
  rw [if_neg (by simp [hna, hnb]), if_neg hmb, if_neg hma, hsa, hsb]
  split
  · exact hinf
  · split
    · exact hinf
    · exact ⟨isNaN_roundNE _ _ _, (roundNE_parts _ _ _).1⟩

/-- A zero divided by anything is a zero or NaN. -/
theorem fdiv_of_mag_eq_zero {a : F32} (b : F32) (ha : mag a = 0) :
    isNaN (fdiv a b) = true ∨ mag (fdiv a b) = 0 := by
  have hfin := isFinite_of_mag_eq_zero ha
  have hzero (neg : Bool) : mag (if neg then negZero else posZero) = 0 := by cases neg <;> rfl
  by_cases hnan : isNaN b = true
  · rw [fdiv_of_isNaN (.inr hnan)]
    exact .inl rfl
  by_cases hb0 : mag b = 0
  · rw [fdiv_by_zero (isNaN_of_isFinite hfin) hb0, if_pos ha]
    exact .inl rfl
  by_cases hb : isFinite b = true
  · rw [fdiv_zero hb (val_eq_zero.2 ha) hb0]
    exact .inr (hzero _)
  · rw [fdiv_finite_inf (isInf_of_not_isFinite (Bool.eq_false_iff.2 hnan) hb) hfin]
    exact .inr (hzero _)

/-- A value from 0 up divided by one without a sign is from 0 up or NaN. -/
theorem fdiv_of_nonneg {a b : F32} (ha : fle posZero a = true) (hfin : isFinite a = true)
    (hb : isNaN b = false) (hs : isNeg b = false) :
    isNaN (fdiv a b) = true ∨ fle posZero (fdiv a b) = true := by
  rcases mag_eq_zero_or_pos ha with h0 | hpos
  · cases hnan : isNaN (fdiv a b) with
    | true => exact .inl rfl
    | false =>
      exact .inr (posZero_fle hnan (.inr ((fdiv_of_mag_eq_zero b h0).resolve_left (by simp [hnan]))))
  obtain ⟨hna, hsa, hma⟩ := parts_of_pos hpos
  refine .inr ?_
  by_cases hb0 : mag b = 0
  · rw [fdiv_by_zero hna hb0, if_neg hma, hsa, hs]
    decide
  by_cases hbf : isFinite b = true
  · rw [fdiv_eq_roundNE hfin hbf hb0, hsa, hs]
    exact posZero_fle (isNaN_roundNE _ _ _) (.inl (roundNE_parts _ _ _).1)
  · rw [fdiv_finite_inf (isInf_of_not_isFinite hb hbf) hfin, hsa, hs]
    decide

theorem isFinite_of_inUnit {x : F32} (h : inUnit x) : isFinite x = true :=
  isFinite_of_fle (by decide) (by decide) h.1 h.2

theorem inUnit_posZero : inUnit posZero := ⟨by decide, by decide⟩

theorem inUnit_one : inUnit one := ⟨by decide, by decide⟩

theorem inUnit_sustainLevel (r : EnvRegs) : inUnit r.sustainLevel :=
  clamp_mem_range (by decide)

/-- A decay rate above 0 has somewhere to decay to: with the sustain level at 1.0, R232's numerator is
+0.0. -/
theorem sustainLevel_lt_one {r : EnvRegs} {sr : F32} (h : fgt (decayRate r sr) posZero = true) :
    flt r.sustainLevel one = true := by
  obtain ⟨hlo, hhi⟩ := inUnit_sustainLevel r
  have hfin := isFinite_of_inUnit ⟨hlo, hhi⟩
  have hone : isFinite one = true := by decide
  by_contra hlt
  have hge : fle one r.sustainLevel = true :=
    (flt_eq_false_iff (isNaN_of_fle hhi).1 (by decide)).1 (Bool.eq_false_iff.2 hlt)
  have hval : val one - val r.sustainLevel = 0 :=
    sub_eq_zero.2 (le_antisymm (val_le_of_fle hge) (val_le_of_fle hhi))
  have hnum : mag (fsub one r.sustainLevel) = 0 := by
    rw [fsub_zero hone hfin hval]
    rfl
  unfold decayRate fgt at h
  split at h
  · obtain ⟨hnan, _, hmag⟩ := parts_of_pos h
    rcases fdiv_of_mag_eq_zero (fmul r.decayTime sr) hnum with hn | hm
    · exact Bool.false_ne_true (hnan.symm.trans hn)
    · exact hmag hm
  · exact absurd h (by decide)

/-! ## Envelopes (R235) -/

/-- What the stage adds to what holds of an envelope in every stage. -/
def Env.StageOk (e : Env) : Prop :=
  match e.stage with
  | .idle => e.level = posZero
  | .attack => fgt e.aRate posZero = true
  | .decay => fgt e.dRate posZero = true ∧ fgt e.level e.sus = true
  | .sustain => e.level = e.sus ∨ (e.level = one ∧ fgt e.dRate posZero = false)
  | .release => isNaN e.rRate = true ∨ fle posZero e.rRate = true

theorem Env.ok_iff {e : Env} :
    e.Ok ↔ inUnit e.level ∧ inUnit e.sus ∧ (fgt e.dRate posZero = true → flt e.sus one = true) ∧
      e.StageOk := by
  unfold Env.Ok Env.StageOk
  cases e.stage <;> simp <;> tauto

theorem Env.Ok.toIdle {e : Env} (h : e.Ok) : e.toIdle.Ok := by
  obtain ⟨_, hsus, hdecay, _⟩ := Env.ok_iff.1 h
  exact Env.ok_iff.2 ⟨inUnit_posZero, hsus, hdecay, rfl⟩

theorem Env.Ok.trigger {e : Env} (h : e.Ok) (r : EnvRegs) (sr : F32) : (e.trigger r sr).Ok := by
  obtain ⟨hlevel, _, _, _⟩ := Env.ok_iff.1 h
  have hsus := inUnit_sustainLevel r
  have hdecay := sustainLevel_lt_one (r := r) (sr := sr)
  unfold Env.trigger
  simp only
  split
  case isTrue ha => exact Env.ok_iff.2 ⟨hlevel, hsus, hdecay, ha⟩
  case isFalse =>
    split
    case isTrue hd => exact Env.ok_iff.2 ⟨inUnit_one, hsus, hdecay, hd, hdecay hd⟩
    case isFalse => exact Env.ok_iff.2 ⟨hsus, hsus, hdecay, .inl rfl⟩

theorem Env.Ok.noteOff {e : Env} (h : e.Ok) (r : EnvRegs) {sr : F32} (hr : rateOk sr = true) :
    (e.noteOff r sr).Ok := by
  obtain ⟨hlevel, hsus, hdecay, _⟩ := Env.ok_iff.1 h
  unfold Env.noteOff
  split
  · exact h
  · split
    case isTrue ht =>
      obtain ⟨hnan, hsign⟩ := fmul_of_pos ht (Bool.and_eq_true_iff.1 hr).2
      exact Env.ok_iff.2 ⟨hlevel, hsus, hdecay,
        fdiv_of_nonneg hlevel.1 (isFinite_of_inUnit hlevel) hnan hsign⟩
    case isFalse => exact h.toIdle

theorem Env.Ok.stepAttack {e : Env} (h : e.Ok) (hst : e.stage = .attack) : e.stepAttack.Ok := by
  obtain ⟨hlevel, hsus, hdecay, hstage⟩ := Env.ok_iff.1 h
  have hrate : fgt e.aRate posZero = true := by simpa [Env.StageOk, hst] using hstage
  have hup := fle_fadd_self (isFinite_of_inUnit hlevel) (fle_of_flt hrate)
  unfold Env.stepAttack
  simp only
  split
  case isTrue =>
    by_cases hd : fgt e.dRate posZero = true
    · rw [if_pos hd]
      exact Env.ok_iff.2 ⟨inUnit_one, hsus, hdecay, hd, hdecay hd⟩
    · rw [if_neg hd]
      exact Env.ok_iff.2 ⟨inUnit_one, hsus, hdecay, .inr ⟨rfl, Bool.eq_false_iff.2 hd⟩⟩
  case isFalse hl =>
    have hlt := (fle_eq_false_iff (by decide) (isNaN_of_fle hup).2).1 (Bool.eq_false_iff.2 hl)
    refine Env.ok_iff.2 ⟨⟨fle_trans hlevel.1 hup, fle_of_flt hlt⟩, hsus, hdecay, ?_⟩
    simpa [Env.StageOk, hst] using hrate

theorem Env.Ok.stepDecay {e : Env} (h : e.Ok) (hst : e.stage = .decay) : e.stepDecay.Ok := by
  obtain ⟨hlevel, hsus, hdecay, hstage⟩ := Env.ok_iff.1 h
  have hrate : fgt e.dRate posZero = true ∧ fgt e.level e.sus = true := by
    simpa [Env.StageOk, hst] using hstage
  have hdown := fsub_fle_self (isFinite_of_inUnit hlevel) (fle_of_flt hrate.1)
  unfold Env.stepDecay
  simp only
  split
  case isTrue => exact Env.ok_iff.2 ⟨hsus, hsus, hdecay, .inl rfl⟩
  case isFalse hl =>
    have habove := (fle_eq_false_iff (isNaN_of_fle hdown).1 (isNaN_of_fle hsus.1).2).1
      (Bool.eq_false_iff.2 hl)
    refine Env.ok_iff.2
      ⟨⟨fle_trans hsus.1 (fle_of_flt habove), fle_trans hdown hlevel.2⟩, hsus, hdecay, ?_⟩
    simpa [Env.StageOk, hst] using (⟨hrate.1, habove⟩ : _ ∧ fgt _ e.sus = true)

theorem Env.Ok.stepRelease {e : Env} (h : e.Ok) (hst : e.stage = .release) : e.stepRelease.Ok := by
  obtain ⟨hlevel, hsus, hdecay, hstage⟩ := Env.ok_iff.1 h
  have hrate : isNaN e.rRate = true ∨ fle posZero e.rRate = true := by
    simpa [Env.StageOk, hst] using hstage
  unfold Env.stepRelease
  simp only
  split
  case isTrue hl =>
    have hnonneg : fle posZero e.rRate = true := hrate.resolve_left fun hn => by
      rw [fsub_of_isNaN (.inr hn)] at hl
      exact absurd hl (by decide)
    have hdown := fsub_fle_self (isFinite_of_inUnit hlevel) hnonneg
    refine Env.ok_iff.2 ⟨⟨fle_of_flt hl, fle_trans hdown hlevel.2⟩, hsus, hdecay, ?_⟩
    simpa [Env.StageOk, hst] using hrate
  case isFalse => exact h.toIdle

theorem Env.Ok.advance {e : Env} (h : e.Ok) : e.advance.Ok := by
  cases hst : e.stage with
  | idle => simpa [Env.advance, hst] using h
  | attack => simpa [Env.advance, hst] using h.stepAttack hst
  | decay => simpa [Env.advance, hst] using h.stepDecay hst
  | sustain =>
    obtain ⟨_, hsus, hdecay, _⟩ := Env.ok_iff.1 h
    have hnext : ({ e with level := e.sus } : Env).Ok :=
      Env.ok_iff.2 ⟨hsus, hsus, hdecay, by simp [Env.StageOk, hst]⟩
    simpa [Env.advance, hst] using hnext
  | release => simpa [Env.advance, hst] using h.stepRelease hst

/-! ## Voices -/

/-- What `State.VoiceInv` promises of one voice. -/
def Voice.Ok (x : Voice) : Prop :=
  (x.releasing = true → x.playing = true) ∧ x.RatesOk ∧ x.env.Ok

theorem Voice.Ok.env_ok {x : Voice} (h : x.Ok) : x.env.Ok := h.2.2

theorem Voice.Ok.rateOk_sr {x : Voice} (h : x.Ok) : rateOk x.sr = true := h.2.1.1

theorem Voice.Ok.setEnv {x : Voice} (h : x.Ok) {e : Env} (he : e.Ok) :
    ({ x with env := e } : Voice).Ok := by
  obtain ⟨hflags, hrates, _⟩ := h
  exact ⟨hflags, hrates, he⟩

theorem Voice.Ok.setOsc {x : Voice} (h : x.Ok) (k : OscKind) {o : Osc} (ho : rateOk o.sr = true) :
    (x.setOsc k o).Ok := by
  obtain ⟨hflags, ⟨hsr, hpri, hdet, hlfo⟩, henv⟩ := h
  cases k with
  | pri => exact ⟨hflags, ⟨hsr, ho, hdet, hlfo⟩, henv⟩
  | det => exact ⟨hflags, ⟨hsr, hpri, ho, hlfo⟩, henv⟩
  | lfo => exact ⟨hflags, ⟨hsr, hpri, hdet, ho⟩, henv⟩

theorem Voice.Ok.rateOk_osc {x : Voice} (h : x.Ok) (k : OscKind) : rateOk (x.osc k).sr = true := by
  obtain ⟨_, ⟨_, hpri, hdet, hlfo⟩, _⟩ := h
  cases k with
  | pri => exact hpri
  | det => exact hdet
  | lfo => exact hlfo

theorem Voice.Ok.setRate {x : Voice} (h : x.Ok) {sr : F32} (hr : rateOk sr = true) :
    (x.setRate sr).Ok := by
  obtain ⟨hflags, _, henv⟩ := h
  exact ⟨hflags, ⟨hr, hr, hr, hr⟩, henv⟩

theorem Voice.Ok.push {x : Voice} (h : x.Ok) (k : KnobValues) : (x.push k).Ok := h

theorem Voice.Ok.noteOn {x : Voice} (h : x.Ok) (n : BitVec 7) (r : EnvRegs) : (x.noteOn n r).Ok := by
  obtain ⟨_, hrates, henv⟩ := h
  exact ⟨fun _ => rfl, hrates, henv.toIdle.trigger r x.sr⟩

theorem Voice.Ok.noteOff {x : Voice} (h : x.Ok) {n : BitVec 7} (hm : x.matchesOff n = true)
    (r : EnvRegs) : (x.noteOff r).Ok := by
  obtain ⟨_, hrates, henv⟩ := h
  have hplay : x.playing = true := by
    simp only [Voice.matchesOff, Bool.and_eq_true] at hm
    exact hm.1.1
  exact ⟨fun _ => hplay, hrates, henv.noteOff r hrates.1⟩

theorem Voice.Ok.deactivate {x : Voice} (h : x.Ok) : x.deactivate.Ok := by
  obtain ⟨_, hrates, henv⟩ := h
  exact ⟨nofun, hrates, henv.toIdle⟩

theorem Voice.Ok.renderSample {x : Voice} (h : x.Ok) : x.renderSample.voice.Ok := by
  unfold Voice.renderSample
  split
  case isFalse => exact h
  case isTrue =>
    have hadvanced := h.setEnv h.env_ok.advance
    unfold Voice.renderPlaying
    simp only
    split
    · exact Voice.Ok.deactivate hadvanced
    · exact hadvanced

theorem Voice.Ok.render {x : Voice} (h : x.Ok) (n : Nat) :
    ((fun y : Voice => y.renderSample.voice)^[n] x).Ok := by
  induction n generalizing x with
  | zero => exact h
  | succ n ih => exact ih h.renderSample

/-! ## The bank -/

/-- What `State.VoiceInv` promises of the list of voices. -/
def BankOk (xs : List Voice) : Prop := xs.length = Config.numVoices ∧ ∀ x ∈ xs, x.Ok

theorem State.voiceInv_iff {s : State} :
    s.VoiceInv ↔ rateOk s.sampleRate = true ∧ BankOk s.voices := by
  constructor
  · rintro ⟨⟨hlen, hflags⟩, ⟨hrate, hrates⟩, henvs⟩
    exact ⟨hrate, hlen, fun x hx => ⟨hflags x hx, hrates x hx, (henvs x hx).1⟩⟩
  · rintro ⟨hrate, hlen, hall⟩
    refine ⟨⟨hlen, fun x hx => ?_⟩, ⟨hrate, fun x hx => ?_⟩, fun x hx => ?_⟩ <;>
      obtain ⟨hflags, hrates, henv⟩ := hall x hx
    · exact hflags
    · exact hrates
    · exact ⟨henv, hrates.1⟩

theorem BankOk.of_getElem? {xs : List Voice} (h : BankOk xs) {i : Nat} {x : Voice}
    (hx : xs[i]? = some x) : x.Ok :=
  h.2 x (List.mem_of_getElem? hx)

theorem BankOk.set {xs : List Voice} (h : BankOk xs) (i : Nat) {y : Voice} (hy : y.Ok) :
    BankOk (xs.set i y) := by
  refine ⟨by rw [List.length_set, h.1], fun x hx => ?_⟩
  rcases List.mem_or_eq_of_mem_set hx with hmem | rfl
  · exact h.2 x hmem
  · exact hy

theorem BankOk.setOsc {xs : List Voice} (h : BankOk xs) {i : Nat} {x : Voice} (hx : xs[i]? = some x)
    (k : OscKind) {o : Osc} (ho : rateOk o.sr = true) : BankOk (xs.set i (x.setOsc k o)) :=
  h.set i ((h.of_getElem? hx).setOsc k ho)

theorem BankOk.rateOk_osc {xs : List Voice} (h : BankOk xs) {i : Nat} {x : Voice}
    (hx : xs[i]? = some x) (k : OscKind) : rateOk (x.osc k).sr = true :=
  (h.of_getElem? hx).rateOk_osc k

theorem BankOk.setEnv {xs : List Voice} (h : BankOk xs) {i : Nat} {x : Voice} (hx : xs[i]? = some x)
    {e : Env} (he : e.Ok) : BankOk (xs.set i { x with env := e }) :=
  h.set i ((h.of_getElem? hx).setEnv he)

theorem BankOk.env_ok {xs : List Voice} (h : BankOk xs) {i : Nat} {x : Voice}
    (hx : xs[i]? = some x) : x.env.Ok :=
  (h.of_getElem? hx).env_ok

theorem BankOk.map {xs : List Voice} (h : BankOk xs) {f : Voice → Voice}
    (hf : ∀ x : Voice, x.Ok → (f x).Ok) : BankOk (xs.map f) := by
  refine ⟨by rw [List.length_map, h.1], fun y hy => ?_⟩
  obtain ⟨x, hx, rfl⟩ := List.mem_map.1 hy
  exact hf x (h.2 x hx)

theorem BankOk.modify {xs : List Voice} (h : BankOk xs) (i : Nat) {f : Voice → Voice}
    (hf : ∀ x : Voice, x.Ok → (f x).Ok) : BankOk (xs.modify i f) := by
  rw [List.modify_eq_set_getElem?]
  cases hx : xs[i]? with
  | none => exact h
  | some x => exact h.set i (hf x (h.of_getElem? hx))

/-! ## Commands and host actions -/

theorem voiceInv_reset : State.reset.VoiceInv := by
  have hrate : rateOk Config.srReset = true := by decide
  have hvoice : Voice.reset.Ok :=
    ⟨nofun, ⟨hrate, hrate, hrate, hrate⟩,
      Env.ok_iff.2 ⟨inUnit_posZero, inUnit_posZero, by decide, rfl⟩⟩
  refine State.voiceInv_iff.2 ⟨hrate, List.length_replicate, fun x hx => ?_⟩
  rw [List.eq_of_mem_replicate hx]
  exact hvoice

/-- The voices and SAMPLE_RATE: what `State.VoiceInv` speaks of. -/
def State.bank (s : State) : List Voice × F32 := (s.voices, s.sampleRate)

theorem State.VoiceInv.congr {s t : State} (hs : s.VoiceInv) (h : t.bank = s.bank) : t.VoiceInv := by
  obtain ⟨hvoices, hrate⟩ := Prod.mk.inj h
  rw [State.voiceInv_iff] at hs ⊢
  rwa [hvoices, hrate]

theorem State.VoiceInv.withVoices {s t : State} (hs : s.VoiceInv) (hr : t.sampleRate = s.sampleRate)
    (hb : BankOk t.voices) : t.VoiceInv :=
  State.voiceInv_iff.2 ⟨hr ▸ (State.voiceInv_iff.1 hs).1, hb⟩

theorem State.VoiceInv.effect {i : Instr} {s u : State} (hs : s.VoiceInv) (h : Effect s i u) :
    u.VoiceInv := by
  have hb := (State.voiceInv_iff.1 hs).2
  cases h with
  | prepare m hr =>
    exact State.voiceInv_iff.2 ⟨hr, hb.map fun x hx => hx.setRate hr⟩
  | reset => exact voiceInv_reset
  | pushParams => exact hs.withVoices rfl (hb.map fun x hx => hx.push _)
  | oscSetSr v k x hx hr => exact hs.withVoices rfl (hb.setOsc hx k hr)
  | oscSetFreq v k x hx => exact hs.withVoices rfl (hb.setOsc hx k (hb.rateOk_osc hx k))
  | oscProcess v k x hx => exact hs.withVoices rfl (hb.setOsc hx k (hb.rateOk_osc hx k))
  | oscSetPw v k x hx => exact hs.withVoices rfl (hb.setOsc hx k (hb.rateOk_osc hx k))
  | oscSetWave v k w x hx => exact hs.withVoices rfl (hb.setOsc hx k (hb.rateOk_osc hx k))
  | envNoteOn v x hx => exact hs.withVoices rfl (hb.setEnv hx ((hb.env_ok hx).trigger _ _))
  | envNoteOff v x hx =>
    have hrate := (hb.of_getElem? hx).rateOk_sr
    exact hs.withVoices rfl (hb.setEnv hx ((hb.env_ok hx).noteOff _ hrate))
  | envNext v x hx => exact hs.withVoices rfl (hb.setEnv hx (hb.env_ok hx).advance)
  | envReset v x hx => exact hs.withVoices rfl (hb.setEnv hx (hb.env_ok hx).toIdle)
  | noteOn note _ v => exact hs.withVoices rfl (hb.modify v fun x hx => hx.noteOn note _)
  | noteOff note =>
    refine hs.withVoices rfl (hb.map fun x hx => ?_)
    split
    case isTrue hm => exact hx.noteOff hm _
    case isFalse => exact hx
  | voiceRender v x hx => exact hs.withVoices rfl (hb.set _ (hb.of_getElem? hx).renderSample)
  | bankRender n =>
    refine hs.withVoices (by simp) ?_
    rw [State.renderBank_voices, voices_renderVoices]
    exact hb.map fun x hx => hx.render _
  | block n =>
    refine hs.withVoices (by simp) ?_
    dsimp only
    rw [State.blockPost_voices, voices_blockRender]
    exact (hb.map fun x hx => hx.push _).map fun x hx => hx.render _
  | _ => exact hs.congr (by simp [State.bank])

theorem State.VoiceInv.complete {s : State} (hs : s.VoiceInv) : s.complete.VoiceInv := hs

theorem State.VoiceInv.exec {i : Instr} {s t : State} (hs : s.VoiceInv)
    (h : Machine.exec i s = .next t) : t.VoiceInv := by
  rcases exec_answers h with ⟨c, _, _, rfl⟩ | ⟨_, _, rfl⟩ | ⟨u, hu, rfl⟩
  · exact hs
  · exact hs
  · exact (hs.effect hu).complete

/-- A host action resets the machine or leaves the bank as it is. -/
theorem State.hostAct_bank (s : State) (a : HostAction) :
    a = .hardReset ∨ (s.hostAct a).bank = s.bank := by
  have idle {u : State} (hu : u.bank = s.bank) : (s.writeIdle u).bank = s.bank := by
    rcases s.writeIdle_cases u with ⟨_, h⟩ | ⟨_, h⟩ <;> rw [h]
    · exact hu
    · rfl
  cases a with
  | hardReset => exact .inl rfl
  | read w a =>
    change _ ∨ (s.busRead w a).bank = _
    rcases s.busRead_cases w a with ⟨_, h⟩ | ⟨_, _, _, _, h⟩ | ⟨_, _, _, h⟩ <;>
      exact .inr (by rw [h]; rfl)
  | write w a v =>
    refine .inr ?_
    change (s.busWrite w a v).bank = _
    rw [State.busWrite]
    split
    case h_1 t _ =>
      cases t with
      | reg r =>
        cases r with
        | cmd =>
          change (s.issue v).bank = _
          rcases s.issue_cases v with ⟨_, h⟩ | ⟨_, h⟩ <;> rw [h] <;> rfl
        | noiseSeed => exact idle rfl
        | _ => rfl
      | buf b i => exact idle rfl
      | dlm i => rfl
    case h_2 => rfl

theorem State.VoiceInv.hostAct {s : State} (hs : s.VoiceInv) (a : HostAction) :
    (s.hostAct a).VoiceInv := by
  rcases s.hostAct_bank a with rfl | h
  · exact voiceInv_reset
  · exact hs.congr h

end Sys2Proof.Machine

namespace Sys2Proof
open Machine

/-- Settles O52: each kind of step keeps what the voices promise. -/
theorem voiceInvKept : Obligations.VoiceInvKept := by
  unfold Obligations.VoiceInvKept
  intro s t hs h
  rcases step_cases h with ⟨e, es, _, _, rfl⟩ | ⟨r, i, _, _, _, he⟩ | ⟨r, e, _, _, _, rfl⟩ |
    ⟨_, _, rfl⟩
  · exact State.VoiceInv.hostAct (s := { s with host := es }) hs e.action
  · exact hs.exec he
  · exact hs
  · exact hs

end Sys2Proof
end

section
/-! The delay line (O21 to O24): the geometry as an order on the read index, what an advance does to that
index, and the results of the DL_* commands. -/

namespace Sys2Proof.Machine

/-! ## Indices as binary32 values (R18) -/

theorem isFinite_i2f {n : Nat} (h : n ≤ 2 ^ 24) : isFinite (i2f n) = true := by
  obtain ⟨hfin, -, -⟩ := i2f_spec h
  exact hfin

theorem val_i2f {n : Nat} (h : n ≤ 2 ^ 24) : val (i2f n) = n * 2 ^ 149 := by
  obtain ⟨-, hneg, hunits⟩ := i2f_spec h
  rw [val_eq_signed, hneg, hunits]
  push_cast
  rfl

theorem i2f_zero : i2f 0 = posZero := by decide

theorem i2f_one : i2f 1 = one := by decide

theorem fle_i2f {m n : Nat} (hmn : m ≤ n) (hn : n ≤ 2 ^ 24) : fle (i2f m) (i2f n) = true := by
  have hm := hmn.trans hn
  rw [fle_iff (isNaN_of_isFinite (isFinite_i2f hm)) (isNaN_of_isFinite (isFinite_i2f hn)),
    val_i2f hm, val_i2f hn]
  omega

theorem flt_i2f {m n : Nat} (hmn : m < n) (hn : n ≤ 2 ^ 24) : flt (i2f m) (i2f n) = true := by
  have hm := hmn.le.trans hn
  rw [flt_iff (isNaN_of_isFinite (isFinite_i2f hm)) (isNaN_of_isFinite (isFinite_i2f hn)),
    val_i2f hm, val_i2f hn]
  omega

theorem flt_of_flt_of_fle {a b c : F32} (hab : flt a b = true) (hbc : fle b c = true) :
    flt a c = true :=
  (flt_iff (isNaN_of_flt hab).1 (isNaN_of_fle hbc).2).2
    ((val_lt_of_flt hab).trans_le (val_le_of_fle hbc))

/-- A value is fixed by its number, but for the sign of a zero. -/
theorem eq_of_val_eq {x y : F32} (h : val x = val y) (hy : 0 < val y) : x = y := by
  obtain ⟨hnx, hux⟩ := val_eq_units_of_pos (h ▸ hy)
  obtain ⟨hny, huy⟩ := val_eq_units_of_pos hy
  have hmag : mag x = mag y := unitsOfMag_strictMono.injective (by
    change units x = units y
    omega)
  rw [← ofMag_isNeg_mag x, ← ofMag_isNeg_mag y, hnx, hny, hmag]

/-! ## The geometry (R171, R173) -/

theorem delayCap_succ_le : Config.delayCap + 1 ≤ 2 ^ 24 := by decide

theorem Delay.indexOk_iff {dl : Delay} {r : F32} :
    dl.indexOk r = true ↔ fle posZero r = true ∧ flt r (i2f dl.size) = true := by
  rw [Delay.indexOk, Bool.and_eq_true]

/-- An index in [0, S) is a number, so the predicate's own check for NaN adds nothing. -/
theorem Delay.geomOk_iff {dl : Delay} :
    dl.geomOk = true ↔ 1 ≤ dl.size ∧ dl.widx < dl.size ∧ dl.indexOk dl.ridx = true := by
  rw [Delay.indexOk_iff]
  simp only [Delay.geomOk, Bool.and_eq_true, decide_eq_true_eq, Bool.not_eq_true']
  constructor
  · rintro ⟨⟨⟨⟨hsize, hw⟩, -⟩, hlo⟩, hhi⟩
    exact ⟨hsize, hw, hlo, hhi⟩
  · rintro ⟨hsize, hw, hlo, hhi⟩
    exact ⟨⟨⟨⟨hsize, hw⟩, (isNaN_of_fle hlo).2⟩, hlo⟩, hhi⟩

/-- The index of a delay time is W - d, wrapped once or not. -/
theorem Delay.indexFor_cases (dl : Delay) (d : F32) :
    dl.indexFor d = fadd (fsub (i2f dl.widx) d) (i2f dl.size) ∨
    dl.indexFor d = fsub (i2f dl.widx) d :=
  ite_eq_or_eq _ _ _

/-- A line of size 0 holds no index. -/
theorem Delay.indexOk_of_size_zero {dl : Delay} (h : dl.size = 0) (r : F32) :
    dl.indexOk r = false := by
  refine Bool.eq_false_iff.2 fun hok => ?_
  obtain ⟨hlo, hhi⟩ := Delay.indexOk_iff.1 hok
  rw [h, i2f_zero, flt_eq_false_of_fle hlo] at hhi
  exact Bool.false_ne_true hhi

/-- An index in the line is finite. -/
theorem Delay.isFinite_of_indexOk {dl : Delay} {r : F32} (hcap : dl.size ≤ Config.delayCap)
    (h : dl.indexOk r = true) : isFinite r = true := by
  obtain ⟨hlo, hhi⟩ := Delay.indexOk_iff.1 h
  have hbound := delayCap_succ_le
  exact isFinite_of_fle (by decide) (isFinite_i2f (by omega)) hlo (fle_of_flt hhi)

/-- The lower cell of an index in the line is a cell of the line. -/
theorem Delay.cellA_lt_size {dl : Delay} (hcap : dl.size ≤ Config.delayCap)
    (h : dl.indexOk dl.ridx = true) : dl.cellA < dl.size := by
  obtain ⟨hlo, hhi⟩ := Delay.indexOk_iff.1 h
  have hbound := delayCap_succ_le
  have hvlo : 0 ≤ val dl.ridx := val_le_of_fle hlo
  have hvhi := val_lt_of_flt hhi
  rw [val_i2f (by omega)] at hvhi
  rw [Delay.cellA, ffloor, units_eq_natAbs, Nat.div_lt_iff_lt_mul (by positivity)]
  omega

/-- A sum with a NaN or an infinity is not finite. -/
theorem isFinite_fadd_eq_false {a b : F32} (h : isFinite a = false ∨ isFinite b = false) :
    isFinite (fadd a b) = false := by
  by_cases hnan : isNaN a = true ∨ isNaN b = true
  · rw [fadd_of_isNaN hnan]
    decide
  obtain ⟨hna, hnb⟩ : isNaN a = false ∧ isNaN b = false := by simpa using hnan
  by_cases ha : isFinite a = true
  · have hb : isFinite b = false := by simpa [ha] using h
    rw [fadd_finite_inf (isInf_of_not_isFinite hnb (Bool.eq_false_iff.1 hb)) ha]
    exact hb
  have hinfa := isInf_of_not_isFinite hna ha
  by_cases hb : isFinite b = true
  · rw [fadd_inf_finite hinfa hb]
    exact Bool.eq_false_iff.2 ha
  · rw [fadd_inf_inf hinfa (isInf_of_not_isFinite hnb hb)]
    by_cases hsign : isNeg a = isNeg b
    · rw [if_pos hsign]
      exact Bool.eq_false_iff.2 ha
    · rw [if_neg hsign]
      decide

/-- A delay time that is NaN or infinite gives an index that is neither finite nor, therefore, in the
line. -/
theorem Delay.indexOk_indexFor_of_not_isFinite {dl : Delay} (hcap : dl.size ≤ Config.delayCap)
    {d : F32} (hd : isFinite d = false) : dl.indexOk (dl.indexFor d) = false := by
  have hsub : isFinite (fsub (i2f dl.widx) d) = false :=
    isFinite_fadd_eq_false (.inr (by rwa [isFinite_fneg]))
  have hindex : isFinite (dl.indexFor d) = false := by
    rcases dl.indexFor_cases d with heq | heq <;> rw [heq]
    · exact isFinite_fadd_eq_false (.inl hsub)
    · exact hsub
  refine Bool.eq_false_iff.2 fun hok => ?_
  rw [Delay.isFinite_of_indexOk hcap hok] at hindex
  exact Bool.false_ne_true hindex.symm

/-! ## The read index over an advance (R176, R178) -/

theorem Delay.advance_ridx (dl : Delay) :
    dl.advance.ridx = if fle (i2f dl.size) (fadd dl.ridx one)
      then fsub (fadd dl.ridx one) (i2f dl.size) else fadd dl.ridx one := by
  rw [Delay.advance, ← fge]

section Advance
variable {dl : Delay} (hcap : dl.size ≤ Config.delayCap) (h : dl.indexOk dl.ridx = true)
include hcap h

/-- The index moved on by one lies from 1 up to S + 1, rounding included. -/
theorem Delay.ridx_add_one_range :
    fle one (fadd dl.ridx one) = true ∧ fle (fadd dl.ridx one) (i2f (dl.size + 1)) = true := by
  obtain ⟨hlo, hhi⟩ := Delay.indexOk_iff.1 h
  have hbound := delayCap_succ_le
  have hfin := Delay.isFinite_of_indexOk hcap h
  have hvlo : 0 ≤ val dl.ridx := val_le_of_fle hlo
  have hvhi := val_lt_of_flt hhi
  rw [val_i2f (by omega)] at hvhi
  refine ⟨fle_fadd hfin (by decide) (by decide) (by omega),
    fadd_fle hfin (by decide) (isFinite_i2f (by omega)) ?_⟩
  rw [val_i2f (by omega), val_one]
  omega

/-- Where the advance wraps, it leaves an index from 0 up to 1. -/
theorem Delay.ridx_wrapped_range (hwrap : fle (i2f dl.size) (fadd dl.ridx one) = true) :
    fle posZero (fsub (fadd dl.ridx one) (i2f dl.size)) = true ∧
    fle (fsub (fadd dl.ridx one) (i2f dl.size)) one = true := by
  obtain ⟨hlo, hhi⟩ := Delay.ridx_add_one_range hcap h
  have hbound := delayCap_succ_le
  have hS : isFinite (i2f dl.size) = true := isFinite_i2f (by omega)
  have hfin : isFinite (fadd dl.ridx one) = true :=
    isFinite_of_fle (by decide) (isFinite_i2f (by omega)) hlo hhi
  have hvlo := val_le_of_fle hwrap
  have hvhi := val_le_of_fle hhi
  rw [val_i2f (by omega)] at hvlo hvhi
  refine ⟨fle_fsub hfin hS (by decide) ?_, fsub_fle hfin hS (by decide) ?_⟩
  · rw [val_posZero, val_i2f (by omega)]
    omega
  · rw [val_one, val_i2f (by omega)]
    omega

/-- What an advance does to the read index: it wraps it, to 1 at most, or leaves it in the line. -/
theorem Delay.advance_ridx_cases :
    (dl.advance.ridx = fsub (fadd dl.ridx one) (i2f dl.size) ∧
      fle posZero dl.advance.ridx = true ∧ fle dl.advance.ridx one = true) ∨
    dl.indexOk dl.advance.ridx = true := by
  have hbound := delayCap_succ_le
  cases hwrap : fle (i2f dl.size) (fadd dl.ridx one) with
  | true =>
    have heq : dl.advance.ridx = fsub (fadd dl.ridx one) (i2f dl.size) := by
      rw [Delay.advance_ridx, if_pos hwrap]
    rw [heq]
    exact .inl ⟨rfl, Delay.ridx_wrapped_range hcap h hwrap⟩
  | false =>
    obtain ⟨hlo, -⟩ := Delay.ridx_add_one_range hcap h
    have heq : dl.advance.ridx = fadd dl.ridx one := by
      rw [Delay.advance_ridx, if_neg (Bool.eq_false_iff.1 hwrap)]
    have hS := isNaN_of_isFinite (isFinite_i2f (n := dl.size) (by omega))
    rw [heq]
    exact .inr (Delay.indexOk_iff.2 ⟨fle_trans (by decide) hlo,
      (fle_eq_false_iff hS (isNaN_of_fle hlo).2).1 hwrap⟩)

/-- A line of two cells or more keeps its index, since 1 lies below S. -/
theorem Delay.indexOk_advance_of_two_le (hsize : 2 ≤ dl.size) :
    dl.indexOk dl.advance.ridx = true := by
  have hbound := delayCap_succ_le
  rcases Delay.advance_ridx_cases hcap h with ⟨-, hlo, hhi⟩ | hok
  · rw [← i2f_one] at hhi
    exact Delay.indexOk_iff.2 ⟨hlo, flt_of_fle_of_flt hhi (flt_i2f hsize (by omega))⟩
  · exact hok

end Advance

/-- The binary32 value next below `belowOne`. -/
def belowBelowOne : F32 := 0x3F7FFFFE#32

theorem val_belowBelowOne : val belowBelowOne = 2 ^ 149 - 2 ^ 126 := by decide

/-- An index below 1.0 other than `belowOne` leaves room for the sum with 1.0 to round below 2.0. -/
theorem val_le_belowBelowOne {x : F32} (hx : flt x one = true) (hne : x ≠ belowOne) :
    val x ≤ val belowBelowOne := by
  have hle := val_le_val.1 (val_le_belowOne hx)
  have hkey : orderKey x ≠ orderKey belowOne := fun hk =>
    hne (eq_of_val_eq (val_eq_val.2 hk) (by rw [val_belowOne]; norm_num))
  rw [val_le_val]
  rw [show orderKey belowOne = orderKey belowBelowOne + 1 by decide] at hle hkey
  omega

/-- A line of one cell keeps its index, unless it is `belowOne`: the sum with 1.0 then stays below 2.0, and
the wrapped index below 1.0. -/
theorem Delay.indexOk_advance_of_size_one {dl : Delay} (hsize : dl.size = 1)
    (h : dl.indexOk dl.ridx = true) (hne : dl.ridx ≠ belowOne) :
    dl.indexOk dl.advance.ridx = true := by
  have hcap : dl.size ≤ Config.delayCap := by rw [hsize]; decide
  obtain ⟨-, hlt⟩ := Delay.indexOk_iff.1 h
  have hfin := Delay.isFinite_of_indexOk hcap h
  rcases Delay.advance_ridx_cases hcap h with ⟨heq, hlo, -⟩ | hok
  · rw [Delay.indexOk_iff, heq]
    rw [heq] at hlo
    rw [hsize, i2f_one] at hlt hlo ⊢
    have hval := val_le_belowBelowOne hlt hne
    rw [val_belowBelowOne] at hval
    have hsum : fle (fadd dl.ridx one) belowTwo = true :=
      fadd_fle hfin (by decide) (by decide) (by rw [val_one, val_belowTwo]; omega)
    obtain ⟨hone, -⟩ := Delay.ridx_add_one_range hcap h
    have hsumfin : isFinite (fadd dl.ridx one) = true :=
      isFinite_of_fle (by decide) (by decide) hone hsum
    have hvsum := val_le_of_fle hsum
    rw [val_belowTwo] at hvsum
    have hwrapped : fle (fsub (fadd dl.ridx one) one) belowOne = true :=
      fsub_fle hsumfin (by decide) (by decide) (by rw [val_one, val_belowOne]; omega)
    exact ⟨hlo, flt_of_fle_of_flt hwrapped (by decide)⟩
  · exact hok

/-- An advance keeps the geometry valid, but at the one index of a line of one cell that the rounded sum
takes to S. -/
theorem Delay.geomOk_advance {dl : Delay} (hg : dl.geomOk = true) (hcap : dl.size ≤ Config.delayCap)
    (hne : dl.size = 1 → dl.ridx ≠ belowOne) : dl.advance.geomOk = true := by
  obtain ⟨hsize, -, hok⟩ := Delay.geomOk_iff.1 hg
  refine Delay.geomOk_iff.2 ⟨hsize, Delay.widx_advance_lt hg, ?_⟩
  change dl.indexOk dl.advance.ridx = true
  rcases hsize.eq_or_lt with h1 | h2
  · exact Delay.indexOk_advance_of_size_one h1.symm hok (hne h1.symm)
  · exact Delay.indexOk_advance_of_two_le hcap hok h2

/-- The one exception: the sum with 1.0 rounds to 2.0, so the wrapped index is S (log entry 18). -/
theorem Delay.advance_corner {dl : Delay} (hsize : dl.size = 1) (hw : dl.widx = 0)
    (hr : dl.ridx = belowOne) :
    dl.geomOk = true ∧ dl.advance.ridx = one ∧ dl.advance.geomOk = false := by
  have hadv : dl.advance.ridx = one := by
    rw [Delay.advance_ridx, hsize, hr]
    decide
  refine ⟨Delay.geomOk_iff.2 ⟨hsize.ge, by omega, Delay.indexOk_iff.2 ?_⟩, hadv,
    Bool.eq_false_iff.2 fun hg => ?_⟩
  · rw [hsize, hr, i2f_one]
    exact ⟨by decide, by decide⟩
  · obtain ⟨-, -, hok⟩ := Delay.geomOk_iff.1 hg
    obtain ⟨-, hlt⟩ := Delay.indexOk_iff.1 hok
    change flt dl.advance.ridx (i2f dl.size) = true at hlt
    rw [hadv, hsize, i2f_one] at hlt
    exact absurd hlt (by decide)

/-! ## Results of the commands -/

/-- Clearing DLM's range zeroes every byte of it. -/
theorem Memory.readByte_clearRange_dlm (m : Memory) {a : Nat} (hlo : dlmBase ≤ a)
    (hhi : a < dlmBase + 4 * Config.delayCap) : (m.clearRange dlmBase dlmEnd).readByte a = 0#8 := by
  rw [Memory.readByte_clearRange, if_pos ⟨hlo, hhi⟩]
  rfl

theorem exec_dlSetSize {s : State} (hn : s.operands.arg0.toNat ≤ Config.delayCap) :
    exec .dlSetSize s =
      .next ({ s with
        dl := { s.dl with size := s.operands.arg0.toNat }
        mem := s.mem.clearRange dlmBase dlmEnd } : State).complete :=
  whenInRange_of _ (decide_eq_true hn)

theorem exec_dlSetDelay {s : State} (h : s.dl.indexOk (s.dl.indexFor s.operands.arg0) = true) :
    exec .dlSetDelay s =
      .next ({ s with
        dl := { s.dl with ridx := s.dl.indexFor s.operands.arg0 } } : State).complete :=
  whenInRange_of _ h

theorem exec_dlSetDelay_rejected {s : State}
    (h : s.dl.indexOk (s.dl.indexFor s.operands.arg0) = false) :
    exec .dlSetDelay s = .next (s.rejected .argRange) :=
  whenInRange_rejected s _ h

theorem exec_dlProcess {s : State} (hg : s.dl.geomOk = true) :
    exec .dlProcess s =
      .next ({ s.setDlm s.dl.widx (s.delayStored s.operands.arg0) with
        dl := s.dl.advance
        result0 := s.delayRead, result1 := s.delayStored s.operands.arg0 } : State).complete :=
  if_pos hg

theorem exec_dlProcess_fault {s : State} (hg : s.dl.geomOk = false) :
    exec .dlProcess s = .next (s.recordFault .dlGeometry).complete :=
  if_neg (by simp [hg])

/-- The delay line after a DL_PROCESS in a valid geometry. -/
theorem dl_of_exec_dlProcess {s t : State} (hg : s.dl.geomOk = true)
    (h : exec .dlProcess s = .next t) : t.dl = s.dl.advance := by
  rw [exec_dlProcess hg] at h
  cases h
  rfl

end Sys2Proof.Machine

namespace Sys2Proof
open Machine

/-- Settles O21: the memory is DLM's range cleared. -/
theorem dlSetSizeClears : Obligations.DlSetSizeClears := by
  unfold Obligations.DlSetSizeClears
  intro s hn
  refine ⟨s.mem.clearRange dlmBase dlmEnd, exec_dlSetSize hn,
    fun a hlo hhi => s.mem.readByte_clearRange_dlm hlo hhi, fun a ha => ?_⟩
  have hout : ¬(dlmBase ≤ a ∧ a < dlmEnd) := fun ⟨hlo, hhi⟩ =>
    ha.elim hlo.not_gt hhi.not_ge
  rw [Memory.readByte_clearRange, if_neg hout]

/-- Settles O22: an index is stored exactly where `Delay.indexOk` holds of it, which NaN, the infinities
and a size of 0 exclude; the gain is a clamp to [0, 1]. -/
theorem delaySetters : Obligations.DelaySetters := by
  unfold Obligations.DelaySetters
  refine ⟨fun s r hr => ?_, fun s hcap _ h => ?_, fun s g hg => ?_⟩
  · have hindex : r = s.dl.indexFor s.operands.arg0 := hr
    change _ = Host.Outcome.next (if s.dl.indexOk r = true then _ else _)
    rw [hindex]
    cases hok : s.dl.indexOk (s.dl.indexFor s.operands.arg0) with
    | true => exact exec_dlSetDelay hok
    | false => exact exec_dlSetDelay_rejected hok
  · refine exec_dlSetDelay_rejected ?_
    rcases h with hzero | hd
    · exact Delay.indexOk_of_size_zero hzero _
    · exact Delay.indexOk_indexFor_of_not_isFinite hcap hd
  · have hclamp : g = clamp s.operands.arg0 posZero one := hg
    rw [hclamp]
    exact ⟨clamp_mem_range (by decide), rfl⟩

/-- Settles O23: the new state is DL_PROCESS's equation with the read and the stored word written out; the
geometry fails exactly where one of its bounds does. -/
theorem dlProcessResult : Obligations.DlProcessResult := by
  unfold Obligations.DlProcessResult
  constructor
  · rintro s a b frac out stored r hsize hcap hw hlo hhi rfl rfl rfl rfl rfl rfl
    have hok : s.dl.indexOk s.dl.ridx = true := Delay.indexOk_iff.2 ⟨hlo, hhi⟩
    have hg : s.dl.geomOk = true := Delay.geomOk_iff.2 ⟨hsize, hw, hok⟩
    refine ⟨Delay.cellA_lt_size hcap hok,
      s.mem.writeWord (dlmBase + 4 * s.dl.widx) (s.delayStored s.operands.arg0),
      exec_dlProcess hg, fun a ha => ?_, fun hwf => ?_⟩
    · exact Memory.readByte_writeWord_outside s.mem _ ha
    · exact Memory.readWord_writeWord_self hwf _ _
  · intro s h
    refine exec_dlProcess_fault (Bool.eq_false_iff.2 fun hg => ?_)
    obtain ⟨hsize, hw, hok⟩ := Delay.geomOk_iff.1 hg
    obtain ⟨hlo, hhi⟩ := Delay.indexOk_iff.1 hok
    rcases h with h0 | hwidx | hnlo | hnhi
    · omega
    · omega
    · exact Bool.false_ne_true (hnlo.symm.trans hlo)
    · exact Bool.false_ne_true (hnhi.symm.trans hhi)

/-- Settles O24: an advance keeps the geometry, and at S = 1 takes 1 - 2^-24 to 1.0. -/
theorem geometryKept : Obligations.GeometryKept := by
  unfold Obligations.GeometryKept
  refine ⟨fun s t hg hcap hne h => ?_, fun s t hsize hw hr h => ?_⟩
  · rw [dl_of_exec_dlProcess hg h]
    exact Delay.geomOk_advance hg hcap hne
  · obtain ⟨hg, hadv, hbad⟩ := Delay.advance_corner hsize hw hr
    rw [dl_of_exec_dlProcess hg h]
    exact ⟨hg, hadv, hbad⟩

end Sys2Proof
end

section
/-! The delay line's promises over a step (O53). -/

namespace Sys2Proof.Machine

/-! ## The delay line's promises (R170, R174, R176) -/

/-- The part of `State.DelayInv` that speaks of the gain and the read index. -/
def Delay.Ranges (dl : Delay) : Prop :=
  inUnit dl.fb ∧ fle posZero dl.ridx = true ∧ flt dl.ridx (i2f Config.delayCap) = true

/-- The part that speaks of the cells that take no part in processing. -/
def State.TailZero (s : State) : Prop :=
  ∀ i, s.dl.size ≤ i → i < Config.delayCap → s.dlm i = 0#32

theorem State.delayInv_iff {s : State} : s.DelayInv ↔ s.dl.Ranges ∧ s.TailZero :=
  ⟨fun ⟨hfb, hlo, hhi, htail⟩ => ⟨⟨hfb, hlo, hhi⟩, htail⟩,
    fun ⟨⟨hfb, hlo, hhi⟩, htail⟩ => ⟨hfb, hlo, hhi, htail⟩⟩

theorem Delay.Ranges.setFb {dl : Delay} (h : dl.Ranges) {g : F32} (hg : inUnit g) :
    ({ dl with fb := g } : Delay).Ranges :=
  ⟨hg, h.2⟩

/-- An index in the line is one up to the capacity. -/
theorem Delay.Ranges.setRidx {dl : Delay} (h : dl.Ranges) (hcap : dl.size ≤ Config.delayCap) {r : F32}
    (hr : dl.indexOk r = true) : ({ dl with ridx := r } : Delay).Ranges := by
  obtain ⟨hlo, hhi⟩ := Delay.indexOk_iff.1 hr
  exact ⟨h.1, hlo, flt_of_flt_of_fle hhi (fle_i2f hcap (by decide))⟩

/-- An index that an advance takes to S = 1 is still below the capacity. -/
theorem Delay.Ranges.advance {dl : Delay} (h : dl.Ranges) (hcap : dl.size ≤ Config.delayCap)
    (hg : dl.geomOk = true) : dl.advance.Ranges := by
  obtain ⟨-, -, hok⟩ := Delay.geomOk_iff.1 hg
  rcases Delay.advance_ridx_cases hcap hok with ⟨-, hlo, hhi⟩ | hok'
  · rw [← i2f_one] at hhi
    exact ⟨h.1, hlo, flt_of_fle_of_flt hhi (flt_i2f (by decide) (by decide))⟩
  · exact h.setRidx hcap hok'

/-- Only the bytes of DLM and the size matter to the cells from S on. -/
theorem State.TailZero.congr {s t : State} (h : s.TailZero) (hsize : t.dl.size = s.dl.size)
    (hmem : ∀ a, dlmBase ≤ a → t.mem.readByte a = s.mem.readByte a) : t.TailZero := by
  intro i hlo hhi
  rw [← h i (hsize ▸ hlo) hhi]
  exact Memory.readWord_congr fun a ha _ => hmem a (by omega)

/-- Stated for any indices and gain of the same size, so that no use of it computes one. -/
theorem State.TailZero.setDl {s : State} (h : s.TailZero) {dl : Delay} (hsize : dl.size = s.dl.size) :
    ({ s with dl := dl } : State).TailZero :=
  h.congr hsize fun _ _ => rfl

/-- A word of four bytes 0 is +0.0. -/
theorem Memory.readWord_eq_zero {m : Memory} {a : Nat}
    (h : ∀ x, a ≤ x → x < a + 4 → m.readByte x = 0#8) : m.readWord a = 0#32 := by
  rw [Memory.readWord, h (a + 3) (by omega) (by omega), h (a + 2) (by omega) (by omega),
    h (a + 1) (by omega) (by omega), h a (by omega) (by omega)]
  rfl

theorem Delay.ranges_reset : Delay.reset.Ranges :=
  ⟨inUnit_posZero, by decide, by decide⟩

/-- An empty memory holds +0.0 everywhere. -/
theorem State.dlm_of_mem_nil {s : State} (h : s.mem = []) (i : Nat) : s.dlm i = 0#32 := by
  rw [State.dlm, h]
  exact Memory.readWord_eq_zero fun _ _ _ => rfl

theorem State.delayInv_resetCore (s : State) : s.resetCore.DelayInv :=
  State.delayInv_iff.2 ⟨Delay.ranges_reset, fun i _ _ => State.dlm_of_mem_nil rfl i⟩

theorem State.DelayInv.effect {i : Instr} {s u : State} (hstore : s.StoreInv) (hs : s.DelayInv)
    (h : Effect s i u) : u.DelayInv := by
  obtain ⟨-, -, hmax, hcap, -⟩ := hstore
  obtain ⟨hranges, htail⟩ := State.delayInv_iff.1 hs
  by_cases hr : i = .reset
  · subst hr
    cases h
    exact s.delayInv_resetCore
  cases hd : i.isDelay with
  | false =>
    have hdl := h.dl_eq hd hr
    exact State.delayInv_iff.2 ⟨by rwa [hdl],
      htail.congr (by rw [hdl]) fun a ha => (h.bufWrites hd hr hmax).readByte_dlm ha⟩
  | true =>
    cases h with
    | dlSetSize =>
      refine State.delayInv_iff.2 ⟨hranges, fun i _ hi => Memory.readWord_eq_zero fun x hlo hhi => ?_⟩
      exact Memory.readByte_clearRange_dlm s.mem (by omega) (by omega)
    | dlSetDelay hok => exact State.delayInv_iff.2 ⟨hranges.setRidx hcap hok, htail.setDl rfl⟩
    | dlSetFeedback =>
      exact State.delayInv_iff.2 ⟨hranges.setFb (clamp_mem_range (by decide)), htail.setDl rfl⟩
    | dlProcess hg =>
      refine State.delayInv_iff.2 ⟨hranges.advance hcap hg, fun i hlo hhi => ?_⟩
      have hw := Delay.widx_lt_size hg
      change s.dl.size ≤ i at hlo
      rw [← htail i hlo hhi]
      exact Memory.readWord_writeWord_disjoint s.mem _ (.inr (by omega))
    | dlRead => exact hs
    | _ => exact absurd hd (by simp [Instr.isDelay])

theorem State.DelayInv.complete {s : State} (hs : s.DelayInv) : s.complete.DelayInv := hs

theorem State.DelayInv.exec {i : Instr} {s t : State} (hstore : s.StoreInv) (hs : s.DelayInv)
    (h : Machine.exec i s = .next t) : t.DelayInv := by
  rcases exec_answers h with ⟨c, _, _, rfl⟩ | ⟨_, _, rfl⟩ | ⟨u, hu, rfl⟩
  · exact hs
  · exact hs
  · exact (hs.effect hstore hu).complete

theorem State.DelayInv.hostAct {s : State} (hs : s.DelayInv) (a : HostAction) :
    (s.hostAct a).DelayInv := by
  obtain ⟨hranges, htail⟩ := State.delayInv_iff.1 hs
  rcases s.hostAct_store a with rfl | h | ⟨b, i, w, hi, h⟩
  · exact s.delayInv_resetCore
  · obtain ⟨hmem, hrest⟩ := Prod.mk.inj h
    obtain ⟨-, hdl⟩ := Prod.mk.inj hrest
    exact State.delayInv_iff.2 ⟨by rwa [hdl],
      htail.congr (by rw [hdl]) fun a _ => by rw [hmem]⟩
  · have hb := bufBase_below_dlm b
    rw [h]
    exact State.delayInv_iff.2 ⟨hranges, htail.congr rfl fun a ha =>
      Memory.readByte_writeWord_outside s.mem w (.inr (by omega))⟩

end Sys2Proof.Machine

namespace Sys2Proof
open Machine

/-- Settles O53: each kind of step keeps the gain and the read index in range and the cells from S on
at +0.0. -/
theorem delayInvKept : Obligations.DelayInvKept := by
  unfold Obligations.DelayInvKept
  intro s t hstore hs h
  rcases step_cases h with ⟨e, es, _, _, rfl⟩ | ⟨r, i, _, _, _, he⟩ | ⟨r, e, _, _, _, rfl⟩ |
    ⟨_, _, rfl⟩
  · exact State.DelayInv.hostAct (s := { s with host := es }) hs e.action
  · exact hs.exec hstore he
  · exact hs
  · exact hs

end Sys2Proof
end

section
/-! The generator (O27): each of its three steps can be undone, and a fixed point has no bit set. -/

namespace Sys2Proof.Machine

/-! ## One draw is a bijection (R200) -/

theorem xor_eq_xor_exchange {a b c d : Word} (h : a ^^^ b = c ^^^ d) : a ^^^ c = b ^^^ d := by
  rw [← BitVec.xor_eq_zero_iff] at h ⊢
  rw [← h]
  ac_rfl

/-- Two words with one image differ by a word that the shift gives back. -/
theorem xor_shiftLeft_injective {k : Nat} (hk : 0 < k) :
    Function.Injective fun x : Word => x ^^^ x <<< k := by
  intro x y h
  have hdiff : x ^^^ y = x <<< k ^^^ y <<< k := xor_eq_xor_exchange h
  rw [← BitVec.shiftLeft_xor_distrib] at hdiff
  exact BitVec.xor_eq_zero_iff.1 (eq_zero_of_shiftLeft hk hdiff)

theorem xor_ushiftRight_injective {k : Nat} (hk : 0 < k) :
    Function.Injective fun x : Word => x ^^^ x >>> k := by
  intro x y h
  have hdiff : x ^^^ y = x >>> k ^^^ y >>> k := xor_eq_xor_exchange h
  rw [← BitVec.ushiftRight_xor_distrib] at hdiff
  exact BitVec.xor_eq_zero_iff.1 (eq_zero_of_ushiftRight hk hdiff)

theorem xorshift_bijective : Function.Bijective xorshift :=
  Finite.injective_iff_bijective.1 <|
    (xor_shiftLeft_injective (k := 5) (by decide)).comp <|
      (xor_ushiftRight_injective (k := 17) (by decide)).comp
        (xor_shiftLeft_injective (k := 13) (by decide))

theorem xorshift_eq_zero_iff {x : Word} : xorshift x = 0#32 ↔ x = 0#32 :=
  xorshift_bijective.injective.eq_iff' rfl

/-! ## The fixed point (R200) -/

/-- The shift by 17 is undone by itself, as 34 exceeds the width. -/
theorem xor_ushiftRight_17_involutive (a : Word) :
    (a ^^^ a >>> 17) ^^^ (a ^^^ a >>> 17) >>> 17 = a := by
  have hgone : a >>> 17 >>> 17 = 0#32 := by
    rw [← BitVec.shiftRight_add, BitVec.ushiftRight_eq_zero (by decide)]
  rw [BitVec.ushiftRight_xor_distrib, hgone, BitVec.xor_zero, BitVec.xor_assoc, BitVec.xor_self,
    BitVec.xor_zero]

/-- Of a draw that gives its own state back, the word b before the last step: the last step takes it
to that state, and undoing the middle step takes it to what the first step makes of that state. -/
theorem exists_of_xorshift_eq_self {x : Word} (h : xorshift x = x) :
    ∃ b : Word, x = b ^^^ b <<< 5 ∧ b >>> 17 = b <<< 5 ^^^ (b <<< 13 ^^^ b <<< 18) := by
  obtain ⟨a, ha⟩ : ∃ a, a = x ^^^ x <<< 13 := ⟨_, rfl⟩
  obtain ⟨b, hb⟩ : ∃ b, b = a ^^^ a >>> 17 := ⟨_, rfl⟩
  have hx : x = b ^^^ b <<< 5 := by
    rw [hb, ha]
    exact h.symm
  have hundone : b ^^^ b >>> 17 = x ^^^ x <<< 13 := by
    rw [hb, xor_ushiftRight_17_involutive, ha]
  have hshifts : x <<< 13 = b <<< 13 ^^^ b <<< 18 := by
    rw [hx, BitVec.shiftLeft_xor_distrib, ← BitVec.shiftLeft_add]
  rw [hshifts, hx, BitVec.xor_assoc] at hundone
  exact ⟨b, hx, (BitVec.xor_right_inj b).1 hundone⟩

section FixedBits
variable {b : Word} (h : b >>> 17 = b <<< 5 ^^^ (b <<< 13 ^^^ b <<< 18))
include h

theorem getLsbD_fixed {i : Nat} (hi : i < 32) :
    b.getLsbD (i + 17) = ((!decide (i < 5) && b.getLsbD (i - 5)) ^^
      ((!decide (i < 13) && b.getLsbD (i - 13)) ^^ (!decide (i < 18) && b.getLsbD (i - 18)))) := by
  have hbit := congrArg (fun w : Word => w.getLsbD i) h
  simpa only [BitVec.getLsbD_ushiftRight, BitVec.getLsbD_xor, BitVec.getLsbD_shiftLeft, hi,
    decide_true, Bool.true_and, Nat.add_comm 17 i] using hbit

theorem getLsbD_fixed_17_to_21 : ∀ j < 5, b.getLsbD (j + 17) = false := fun j hj => by
  simp [getLsbD_fixed h (i := j) (by omega), hj, show j < 13 by omega, show j < 18 by omega]

theorem getLsbD_fixed_22_to_29 : ∀ j < 8, b.getLsbD (j + 22) = b.getLsbD j := fun j hj => by
  rw [show j + 22 = j + 5 + 17 by omega, getLsbD_fixed h (i := j + 5) (by omega)]
  simp [show j + 5 < 13 by omega, show j + 5 < 18 by omega]

/-- Bits 32 to 34 are not there. -/
theorem getLsbD_fixed_10_to_12 : ∀ j < 3, b.getLsbD (j + 10) = b.getLsbD (j + 2) := fun j hj => by
  have hbit := getLsbD_fixed h (i := j + 15) (by omega)
  rw [BitVec.getLsbD_of_ge _ _ (by omega)] at hbit
  simpa [show ¬j + 15 < 5 by omega, show ¬j + 15 < 13 by omega,
    show j + 15 < 18 by omega] using hbit

/-- Bits 35 to 48 are not there. -/
theorem getLsbD_fixed_13_to_26 :
    ∀ j < 14, b.getLsbD (j + 13) = (b.getLsbD (j + 5) ^^ b.getLsbD j) := fun j hj => by
  have hbit := getLsbD_fixed h (i := j + 18) (by omega)
  rw [BitVec.getLsbD_of_ge _ _ (by omega)] at hbit
  simpa [show ¬j + 18 < 5 by omega, show ¬j + 18 < 13 by omega] using hbit

/-- Bits 17 to 21 are 0, so what they sum is equal. -/
theorem getLsbD_fixed_9_to_13 : ∀ j, 4 ≤ j → j < 9 → b.getLsbD (j + 5) = b.getLsbD j := by
  intro j hlo hhi
  have hsum := getLsbD_fixed_13_to_26 h j (by omega)
  rw [show j + 13 = j - 4 + 17 by omega, getLsbD_fixed_17_to_21 h _ (by omega)] at hsum
  simpa using hsum.symm

/-- Bits 0 to 8 all equal bit 4, and bit 13 equals bit 8; but bit 13 is the sum of bits 5 and 0. -/
theorem getLsbD_fixed_0_to_8 : ∀ j < 9, b.getLsbD j = false := by
  have hzero := getLsbD_fixed_17_to_21 h
  have hcopy := getLsbD_fixed_22_to_29 h
  have hsame := getLsbD_fixed_10_to_12 h
  have hsum := getLsbD_fixed_13_to_26 h
  have hchain := getLsbD_fixed_9_to_13 h
  have h7 : b.getLsbD 7 = b.getLsbD 4 := by
    rw [← hchain 7 (by decide) (by decide), hsame 2 (by decide)]
  have h3 : b.getLsbD 3 = b.getLsbD 4 := by
    rw [← hcopy 3 (by decide), hsum 12 (by decide), hzero 0 (by decide), hsame 2 (by decide),
      Bool.false_xor]
  have h8 : b.getLsbD 8 = b.getLsbD 4 := by
    rw [← hcopy 4 (by decide), hsum 13 (by decide), hzero 1 (by decide),
      hchain 8 (by decide) (by decide), Bool.false_xor]
  have h6 : b.getLsbD 6 = b.getLsbD 4 := by
    rw [← hchain 6 (by decide) (by decide), hsame 1 (by decide), h3]
  have h2 : b.getLsbD 2 = b.getLsbD 4 := by
    rw [← hcopy 2 (by decide), hsum 11 (by decide), hsum 3 (by decide), h8, h3,
      hchain 6 (by decide) (by decide), h6, Bool.xor_self, Bool.false_xor]
  have h5 : b.getLsbD 5 = b.getLsbD 4 := by
    rw [← hchain 5 (by decide) (by decide), hsame 0 (by decide), h2]
  have h1 : b.getLsbD 1 = b.getLsbD 4 := by
    rw [← hcopy 1 (by decide), hsum 10 (by decide), hsum 2 (by decide), h7, h2,
      hchain 5 (by decide) (by decide), h5, Bool.xor_self, Bool.false_xor]
  have h0 : b.getLsbD 0 = b.getLsbD 4 := by
    rw [← hcopy 0 (by decide), hsum 9 (by decide), hsum 1 (by decide), h6, h1,
      hchain 4 (by decide) (by decide), Bool.xor_self, Bool.false_xor]
  have h4 : b.getLsbD 4 = false := by
    rw [← h8, ← hchain 8 (by decide) (by decide), hsum 0 (by decide), h5, h0, Bool.xor_self]
  intro j hj
  interval_cases j <;> simp only [h0, h1, h2, h3, h4, h5, h6, h7, h8]

theorem eq_zero_of_fixed : b = 0#32 := by
  refine BitVec.eq_of_getLsbD_eq fun i hi => ?_
  rw [BitVec.getLsbD_zero]
  induction i using Nat.strong_induction_on with
  | _ i ih =>
    by_cases h9 : i < 9
    · exact getLsbD_fixed_0_to_8 h i h9
    by_cases h14 : i < 14
    · rw [← Nat.sub_add_cancel (show 5 ≤ i by omega),
        getLsbD_fixed_9_to_13 h _ (by omega) (by omega), ih (i - 5) (by omega) (by omega)]
    by_cases h17 : i < 17
    · rw [← Nat.sub_add_cancel (show 13 ≤ i by omega), getLsbD_fixed_13_to_26 h _ (by omega),
        ih (i - 13 + 5) (by omega) (by omega), ih (i - 13) (by omega) (by omega)]
      rfl
    · rw [← Nat.sub_add_cancel (show 17 ≤ i by omega), getLsbD_fixed h (by omega),
        ih (i - 17 - 5) (by omega) (by omega), ih (i - 17 - 13) (by omega) (by omega),
        ih (i - 17 - 18) (by omega) (by omega)]
      simp

end FixedBits

theorem xorshift_eq_self_iff {x : Word} : xorshift x = x ↔ x = 0#32 := by
  refine ⟨fun h => ?_, fun h => by rw [h]; rfl⟩
  obtain ⟨b, rfl, hb⟩ := exists_of_xorshift_eq_self h
  rw [eq_zero_of_fixed hb]
  rfl

end Sys2Proof.Machine

namespace Sys2Proof
open Machine

/-- Settles O27: the draw's three steps are injective; a fixed point meets one linear equation, which
leaves no bit set; the six draws are computed. -/
theorem generatorNeverZero : Obligations.GeneratorNeverZero := by
  unfold Obligations.GeneratorNeverZero
  exact ⟨xorshift_bijective, fun _ => xorshift_eq_zero_iff, fun _ => xorshift_eq_self_iff,
    by decide⟩

end Sys2Proof
end

section
/-! The variates (O28): exact results of the operations, the values of the scaled integers, and the
retries of u1. -/

namespace Sys2Proof.Machine

/-! ## Exact results -/

/-- An exact result that is a finite value's is that value: no rounding happens. -/
theorem Rounded.val_of_exact {r c : F32} {exact scale : Int} (h : Rounded r exact scale)
    (hs : 0 < scale) (hc : isFinite c = true) (he : exact = val c * scale) :
    isFinite r = true ∧ val r = val c := by
  obtain ⟨-, -, hfin, hnear⟩ := h
  have hr : isFinite r = true := by
    rw [hfin, he, abs_mul, abs_of_pos hs]
    exact mul_lt_mul_of_pos_right (abs_val_lt_of_isFinite hc) hs
  have hdist := (hnear hr c hc).1
  rw [he, sub_self, abs_zero, abs_nonpos_iff, ← sub_mul] at hdist
  exact ⟨hr, sub_eq_zero.1 ((mul_eq_zero.1 hdist).resolve_right hs.ne')⟩

/-- An integer of at most 24 bits times a power of two is a finite value. -/
theorem exists_val {z : Int} (hz : z.natAbs ≤ 2 ^ 24) {e : Nat} (he : e ≤ 252) :
    ∃ c : F32, isFinite c = true ∧ val c = z * 2 ^ e := by
  obtain ⟨c, hfin, hneg, hunits⟩ := exists_value (decide (z < 0)) z.natAbs e hz he
  refine ⟨c, hfin, ?_⟩
  rw [val_eq_signed, hneg, hunits]
  by_cases h : z < 0
  · rw [if_pos (decide_eq_true h)]
    push_cast
    rw [abs_of_neg h]
    ring
  · rw [if_neg (by simpa using h)]
    push_cast
    rw [abs_of_nonneg (not_lt.1 h)]

theorem pow2_exact {g : Nat} (hlo : 23 ≤ g) (hhi : g ≤ 252) :
    isFinite (pow2 ((g : Int) - 149)) = true ∧ val (pow2 ((g : Int) - 149)) = 2 ^ g := by
  have hmag : ((g : Int) - 149 + 127).toNat * 2 ^ 23 = (g - 23) * 2 ^ 23 + 2 ^ 23 := by omega
  have hinf : infMag = 255 * 2 ^ 23 := rfl
  have hlt : (g - 23) * 2 ^ 23 + 2 ^ 23 < infMag := by omega
  have h31 := hlt.trans (show infMag < 2 ^ 31 by decide)
  rw [pow2, hmag, isFinite_iff, mag_ofMag h31, val_signed false h31,
    unitsOfMag_scale (.inr ⟨le_rfl, by norm_num⟩), ← pow_add, Nat.add_sub_cancel' hlo]
  exact ⟨hlt, by push_cast; rfl⟩

/-- An integer of at most 24 bits times a power of two up to 1.0 is exact. -/
theorem fmul_i2f_pow2 {k g : Nat} (hk : k ≤ 2 ^ 24) (hlo : 23 ≤ g) (hhi : g ≤ 149) :
    isFinite (fmul (i2f k) (pow2 ((g : Int) - 149))) = true ∧
    val (fmul (i2f k) (pow2 ((g : Int) - 149))) = k * 2 ^ g := by
  have hg : g ≤ 252 := by omega
  obtain ⟨hfin, hval⟩ := pow2_exact hlo hg
  obtain ⟨c, hc, hvc⟩ := exists_val (z := k) (by simpa using hk) hg
  rw [← hvc]
  refine (rounded_fmul (isFinite_i2f hk) hfin).val_of_exact (by positivity) hc ?_
  rw [val_i2f hk, hval, hvc]
  ring

/-! ## Uniform variates (R201) -/

theorem uniformOf_exact {k : Nat} (hk : k < 2 ^ 24) :
    isFinite (uniformOf k) = true ∧ val (uniformOf k) = (k : Int) * 2 ^ 126 - 2 ^ 149 := by
  obtain ⟨hfin, hval⟩ := fmul_i2f_pow2 (g := 126) hk.le (by norm_num) (by norm_num)
  obtain ⟨c, hc, hvc⟩ := exists_val (z := (k : Int) - 2 ^ 23) (e := 126) (by omega) (by norm_num)
  have hexact : (k : Int) * 2 ^ 126 - 2 ^ 149 = val c := by
    rw [hvc]
    ring
  rw [hexact]
  refine (rounded_fsub hfin (by decide)).val_of_exact one_pos hc ?_
  rw [hval, val_one, hexact, mul_one]

/-! ## Box-Muller variates (R202, R203) -/

theorem top24_lt (x : Word) : top24 x < 2 ^ 24 := by
  have hlt := x.isLt
  unfold top24
  omega

/-- The candidate for u1 of a drawn 24-bit integer (R202). -/
def u1Of (k : Nat) : F32 := fmul (i2f (k + 1)) (pow2 (-24))

theorem u1Of_exact {k : Nat} (hk : k < 2 ^ 24) :
    isFinite (u1Of k) = true ∧ val (u1Of k) = (k + 1 : Nat) * 2 ^ 125 :=
  fmul_i2f_pow2 (g := 125) hk (by norm_num) (by norm_num)

theorem val_eps : val Config.eps = 2 ^ 126 :=
  (pow2_exact (g := 126) (by norm_num) (by norm_num)).2

/-- A candidate is rejected exactly where k is 0 or 1. -/
theorem eps_lt_u1Of_iff {k : Nat} (hk : k < 2 ^ 24) :
    flt Config.eps (u1Of k) = true ↔ 2 ≤ k := by
  obtain ⟨hfin, hval⟩ := u1Of_exact hk
  rw [flt_iff (by decide) (isNaN_of_isFinite hfin), val_eps, hval]
  omega

theorem u1Of_le_one {k : Nat} (hk : k < 2 ^ 24) : fle (u1Of k) one = true := by
  obtain ⟨hfin, hval⟩ := u1Of_exact hk
  rw [fle_iff (isNaN_of_isFinite hfin) (by decide), hval, val_one]
  omega

/-- A draw with k from 2 up is taken. -/
theorem drawU1_succ_of_take {n : Nat} {x : Word} (h : 2 ≤ top24 (xorshift x)) :
    drawU1 (n + 1) x = (u1Of (top24 (xorshift x)), xorshift x) :=
  if_pos ((eps_lt_u1Of_iff (top24_lt _)).2 h)

/-- A draw with k up to 1 costs one step and one try. -/
theorem drawU1_succ_of_reject {n : Nat} {x : Word} (h : top24 (xorshift x) ≤ 1) :
    drawU1 (n + 1) x = drawU1 n (xorshift x) :=
  if_neg (mt (eps_lt_u1Of_iff (top24_lt _)).1 (by omega))

/-- The first draw with k from 2 up within the budget is u1's. -/
theorem drawU1_first {n j : Nat} {x : Word} (hj : j < n)
    (hreject : ∀ i < j, top24 (xorshift^[i + 1] x) ≤ 1) (htake : 2 ≤ top24 (xorshift^[j + 1] x)) :
    drawU1 n x = (u1Of (top24 (xorshift^[j + 1] x)), xorshift^[j + 1] x) := by
  induction j generalizing n x with
  | zero =>
    obtain ⟨n, rfl⟩ := Nat.exists_eq_add_one.2 hj
    exact drawU1_succ_of_take htake
  | succ j ih =>
    obtain ⟨n, rfl⟩ := Nat.exists_eq_add_one.2 (Nat.zero_lt_of_lt hj)
    rw [drawU1_succ_of_reject (hreject 0 (Nat.succ_pos _))]
    exact ih (by omega) (fun i hi => hreject (i + 1) (by omega)) htake

/-- A budget whose draws are all passed over gives 1.0. -/
theorem drawU1_exhausted {n : Nat} {x : Word}
    (hreject : ∀ i < n, top24 (xorshift^[i + 1] x) ≤ 1) : drawU1 n x = (one, xorshift^[n] x) := by
  induction n generalizing x with
  | zero => rfl
  | succ n ih =>
    rw [drawU1_succ_of_reject (hreject 0 (Nat.succ_pos _))]
    exact ih fun i hi => hreject (i + 1) (by omega)

theorem drawU1_range (n : Nat) (x : Word) :
    flt Config.eps (drawU1 n x).1 = true ∧ fle (drawU1 n x).1 one = true := by
  induction n generalizing x with
  | zero => exact ⟨(by decide : flt Config.eps one = true), (by decide : fle one one = true)⟩
  | succ n ih =>
    rcases Nat.lt_or_ge 1 (top24 (xorshift x)) with htake | hreject
    · rw [drawU1_succ_of_take htake]
      exact ⟨(eps_lt_u1Of_iff (top24_lt _)).2 htake, u1Of_le_one (top24_lt _)⟩
    · rw [drawU1_succ_of_reject hreject]
      exact ih (xorshift x)

theorem drawU2_exact (x : Word) : isFinite (drawU2 x).1 = true ∧
    val (drawU2 x).1 = (top24 (xorshift x) : Nat) * 2 ^ 125 :=
  fmul_i2f_pow2 (g := 125) (top24_lt _).le (by norm_num) (by norm_num)

end Sys2Proof.Machine

namespace Sys2Proof
open Machine

/-- Settles O28: the scaled integers and their differences are binary32 values, so nothing is
rounded; the tries of u1 are its recursion on the budget. -/
theorem variateRanges : Obligations.VariateRanges := by
  unfold Obligations.VariateRanges
  refine ⟨fun _ => uniformOf_exact, rfl, fun n j x hj hreject htake => ?_,
    fun _ _ => drawU1_exhausted, drawU1_range, fun x => ⟨rfl, drawU2_exact x⟩⟩
  rw [drawU1_first hj hreject htake]
  exact ⟨rfl, u1Of_exact (top24_lt _)⟩

end Sys2Proof
end

section
/-! The noise commands (O25, O26). -/

namespace Sys2Proof.Machine

theorem rawNoise_uniform (x : Word) (i : Nat) :
    rawNoise true x i = uniformOf (top24 (xorshift^[i + 1] x)) := if_pos rfl

theorem rawNoise_gauss {x : Word} {i : Nat} {p : F32 × F32}
    (hp : p = (gaussPair Config.retryMax
      ((fun y => (gaussPair Config.retryMax y).2)^[i / 2] x)).1) :
    rawNoise false x i = if i % 2 = 0 then p.1 else p.2 := by
  rw [hp]
  exact if_neg Bool.false_ne_true

/-- NOISE_UNIFORM and NOISE_GAUSS fill the first n words of NOISE and no other byte (R206, R207). -/
theorem State.mem_fillNoise {s : State} {n : Nat} (hwf : s.mem.wf = true) (uniform : Bool) :
    sameOutside s.mem (s.fillNoise uniform n).mem (bufBase .noise) (4 * n) ∧
    ∀ i, i < n → (s.fillNoise uniform n).mem.readWord (bufBase .noise + 4 * i) =
      rawNoise uniform s.rng i := by
  have hlen := length_noiseFill uniform n s.rng
  obtain ⟨-, hwords, -⟩ := State.setBuf_spec hwf .noise (noiseFill uniform n s.rng).1
  refine ⟨fun a ha => ?_, fun i hi => (hwords i (hi.trans_eq hlen.symm)).trans ?_⟩
  · exact State.readByte_setBuf s .noise _ (by rwa [hlen])
  · exact (List.getElem_eq_iff _).2 (getElem?_noiseFill uniform hi s.rng)

section
variable {n : BitVec 16} (s : State) (hn : n.toNat ≤ Config.bufSize)
include hn

theorem exec_noiseUniform : exec (.noiseUniform n) s = .next { s with
    mem := (s.fillNoise true n.toNat).mem
    rng := xorshift^[n.toNat] s.rng
    running := none, status := { s.status with done := true } } := by
  refine (whenCount_of _ hn).trans ?_
  rw [finish_eq, ← (noiseFill_snd true n.toNat s.rng).trans (if_pos rfl)]
  rfl

theorem exec_noiseGauss : exec (.noiseGauss n) s = .next { s with
    mem := (s.fillNoise false n.toNat).mem
    rng := (fun x => (gaussPair Config.retryMax x).2)^[(n.toNat + 1) / 2] s.rng
    running := none, status := { s.status with done := true } } := by
  refine (whenCount_of _ hn).trans ?_
  rw [finish_eq, ← (noiseFill_snd false n.toNat s.rng).trans (if_neg Bool.false_ne_true)]
  rfl

end

end Sys2Proof.Machine

namespace Sys2Proof
open Machine

/-- Settles O25: the word at i is the uniform variate of draw i + 1. -/
theorem noiseUniformFills : Obligations.NoiseUniformFills := by
  unfold Obligations.NoiseUniformFills
  intro n s hn hwf
  obtain ⟨hframe, hwords⟩ := State.mem_fillNoise (n := n.toNat) hwf true
  exact ⟨_, exec_noiseUniform s hn, hframe,
    fun i hi => (hwords i hi).trans (rawNoise_uniform s.rng i)⟩

/-- Settles O26: the pair's steps are the model's, and the word at i is of pair i / 2. -/
theorem noiseGaussFills : Obligations.NoiseGaussFills := by
  unfold Obligations.NoiseGaussFills
  refine ⟨?_, fun n s hn hwf => ?_⟩
  · rintro x u1 u2 r th rfl rfl rfl rfl
    rfl
  · obtain ⟨hframe, hwords⟩ := State.mem_fillNoise (n := n.toNat) hwf false
    exact ⟨_, exec_noiseGauss s hn, hframe,
      fun i hi p hp => (hwords i hi).trans (rawNoise_gauss hp)⟩

end Sys2Proof
end

section
/-! The envelope commands (O29, O30): each is one operation of the envelope on env(V), completed. -/

namespace Sys2Proof.Machine

/-! ## The operations of the envelope -/

/-- The three ways a trigger ends differ in the stage and the level only (R232). -/
theorem Env.trigger_eq (e : Env) (r : EnvRegs) (sr : F32) :
    e.trigger r sr = { e with
      aRate := attackRate r sr, dRate := decayRate r sr, sus := r.sustainLevel
      stage := if flt posZero (attackRate r sr) then .attack
        else if flt posZero (decayRate r sr) then .decay else .sustain
      level := if flt posZero (attackRate r sr) then e.level
        else if flt posZero (decayRate r sr) then one else r.sustainLevel } := by
  unfold Env.trigger fgt
  by_cases ha : flt posZero (attackRate r sr) = true
  · simp only [if_pos ha]
  · by_cases hd : flt posZero (decayRate r sr) = true
    · simp only [if_neg ha, if_pos hd]
    · simp only [if_neg ha, if_neg hd]

/-- Outside IDLE the output is the level after the step (R234). -/
theorem Env.output_eq (e : Env) :
    e.output = if e.stage = .idle then posZero else e.advance.level := by
  unfold Env.output
  cases e.stage <;> rfl

/-! ## Results of the commands -/

section
variable {v : VoiceNo} {s : State} {x : Voice} (hv : v.toNat < Config.numVoices)
  (hx : s.voices[v.toNat]? = some x)
include hv hx

theorem exec_envNoteOn :
    exec (.envNoteOn v) s =
      .next (s.setEnv v x (x.env.trigger s.operands.env x.sr)).complete :=
  withVoice_of _ hv hx

theorem exec_envNoteOff :
    exec (.envNoteOff v) s =
      .next (s.setEnv v x (x.env.noteOff s.operands.env x.sr)).complete :=
  withVoice_of _ hv hx

theorem exec_envReset :
    exec (.envReset v) s = .next (s.setEnv v x x.env.toIdle).complete :=
  withVoice_of _ hv hx

theorem exec_envNext :
    exec (.envNext v) s =
      .next { s with
        voices := s.voices.set v.toNat { x with env := x.env.advance }
        result0 := x.env.output
        result1 := x.env.advance.stage.code.zeroExtend 32
        running := none
        status := { s.status with done := true } } :=
  withVoice_of _ hv hx

end

end Sys2Proof.Machine

namespace Sys2Proof
open Machine

/-- Settles O29: the conditioned ENV_* values and the rates are the model's, so each command's new
envelope is one operation of the model's. -/
theorem envelopeEvents : Obligations.EnvelopeEvents := by
  unfold Obligations.EnvelopeEvents
  intro v s x at' dt su rt ar dr on off hv hx hat hdt hsu hrt har hdr hon hoff
  have hattack : ar = attackRate s.operands.env x.sr := by rw [har, hat]; rfl
  have hsustain : su = s.operands.env.sustainLevel := hsu
  have hdecay : dr = decayRate s.operands.env x.sr := by rw [hdr, hdt, hsustain]; rfl
  have htrigger : on = x.env.trigger s.operands.env x.sr := by
    rw [hon, hattack, hdecay, hsustain, Env.trigger_eq]
  have hnoteOff : off = x.env.noteOff s.operands.env x.sr := by rw [hoff, hrt]; rfl
  rw [htrigger, hnoteOff]
  exact ⟨exec_envNoteOn hv hx, exec_envNoteOff hv hx, exec_envReset hv hx⟩

/-- Settles O30: stage by stage, the new envelope is the advanced one and RESULT1 its code. -/
theorem envNextResult : Obligations.EnvNextResult := by
  unfold Obligations.EnvNextResult
  intro v s x e up down fall hv hx hup hdown hfall he
  have hadvance : e = x.env.advance := by
    rw [he, hup, hdown, hfall, Env.advance]
    cases hstage : x.env.stage with
    | sustain => simp only [hstage]
    | idle | attack | decay | release => rfl
  rw [exec_envNext hv hx, Env.output_eq, hadvance]
  cases x.env.advance.stage <;> rfl

end Sys2Proof
end

section
/-! The note-frequency ROM (O35): each entry lies between the midpoints to its two neighbours, checked in
the lowest octave; an octave up doubles the entry, its neighbours and the exact frequency. -/

namespace Sys2Proof.Machine

/-- An octave up doubles the value of a normal magnitude. -/
theorem unitsOfMag_octave {m : Nat} (h : 2 ^ 23 ≤ m) :
    unitsOfMag (m + 2 ^ 23) = unitsOfMag m * 2 := by
  have hm : m = (m / 2 ^ 23 - 1) * 2 ^ 23 + (2 ^ 23 + m % 2 ^ 23) := by omega
  have hr : 2 ^ 23 + m % 2 ^ 23 ≤ 2 ^ 24 := by omega
  have hlow := unitsOfMag_scale (e := m / 2 ^ 23 - 1) (.inr ⟨Nat.le_add_right _ _, hr⟩)
  have hhigh := unitsOfMag_scale (e := m / 2 ^ 23 - 1 + 1) (.inr ⟨Nat.le_add_right _ _, hr⟩)
  rw [← hm] at hlow
  rw [hlow, mul_assoc, ← pow_succ, ← hhigh]
  congr 1
  omega

/-- The exact frequency 440 2^((r-69)/12) of note r lies strictly between the midpoints of magnitude m
and its two neighbours, in 12-th powers of twice the values (R260). -/
def NearestToNote (r m : Nat) : Prop :=
  (unitsOfMag (m - 1) + unitsOfMag m) ^ 12 * 2 ^ 69 < (2 * 440 * 2 ^ 149) ^ 12 * 2 ^ r ∧
  (2 * 440 * 2 ^ 149) ^ 12 * 2 ^ r < (unitsOfMag m + unitsOfMag (m + 1)) ^ 12 * 2 ^ 69

theorem NearestToNote.octave {r m : Nat} (hm : 2 ^ 23 < m) (h : NearestToNote r m) :
    NearestToNote (r + 12) (m + 2 ^ 23) := by
  obtain ⟨hlow, hhigh⟩ := h
  have hsum (a b c : Nat) : (a * 2 + b * 2) ^ 12 * c = (a + b) ^ 12 * c * 2 ^ 12 := by ring
  rw [NearestToNote, show m + 2 ^ 23 - 1 = m - 1 + 2 ^ 23 by omega, Nat.add_right_comm m,
    unitsOfMag_octave (by omega), unitsOfMag_octave hm.le, unitsOfMag_octave (by omega), hsum, hsum,
    pow_add, ← mul_assoc]
  exact ⟨Nat.mul_lt_mul_of_pos_right hlow (by positivity),
    Nat.mul_lt_mul_of_pos_right hhigh (by positivity)⟩

theorem NearestToNote.octaves {r m : Nat} (hm : 2 ^ 23 < m) (h : NearestToNote r m) (k : Nat) :
    NearestToNote (r + 12 * k) (m + k * 2 ^ 23) := by
  induction k with
  | zero => simpa using h
  | succ k ih =>
    have hnext := ih.octave (hm.trans_le (Nat.le_add_right _ _))
    rwa [Nat.add_assoc, Nat.add_assoc, ← Nat.mul_succ, ← Nat.succ_mul] at hnext

/-- The lowest octave, note by note: normal values, with room for ten octaves below infinity. -/
theorem nearestToNote_octave0 : ∀ r < 12, 2 ^ 23 < mag (noteRom.getD r 0#32) ∧
    mag (noteRom.getD r 0#32) + 10 * 2 ^ 23 < infMag ∧
    NearestToNote r (mag (noteRom.getD r 0#32)) := by
  unfold NearestToNote
  decide

/-- Each entry is its note's of the lowest octave, as many octaves up. -/
theorem noteRom_octaves : ∀ k ≤ 10, ∀ r < 12, r + 12 * k < 128 →
    noteRom.getD (r + 12 * k) 0#32 = ofMag false (mag (noteRom.getD r 0#32) + k * 2 ^ 23) := by
  decide

/-- NOTE_FREQ[n] has no sign, is finite, and is the nearest value to its note's frequency. -/
theorem noteFreq_spec (n : BitVec 7) : isNeg (noteFreq n) = false ∧ isFinite (noteFreq n) = true ∧
    NearestToNote n.toNat (mag (noteFreq n)) := by
  obtain ⟨r, k, hr, hk, hn⟩ : ∃ r k, r < 12 ∧ k ≤ 10 ∧ n.toNat = r + 12 * k :=
    ⟨n.toNat % 12, n.toNat / 12, by omega, by omega, (Nat.mod_add_div _ _).symm⟩
  obtain ⟨hnormal, hroom, hnear⟩ := nearestToNote_octave0 r hr
  have hentry : noteFreq n = ofMag false (mag (noteRom.getD r 0#32) + k * 2 ^ 23) := by
    rw [noteFreq, hn]
    exact noteRom_octaves k hk r hr (by omega)
  have hfin : mag (noteRom.getD r 0#32) + k * 2 ^ 23 < infMag :=
    (Nat.add_le_add_left (Nat.mul_le_mul_right _ hk) _).trans_lt hroom
  have hbits := hfin.trans (show infMag < 2 ^ 31 by decide)
  rw [hentry, isFinite_iff, isNeg_ofMag hbits, mag_ofMag hbits, hn]
  exact ⟨rfl, hfin, hnear.octaves hnormal k⟩

/-- The statement's test on integers: a value on either side is a neighbour's at best. -/
theorem nearest_of_nearestToNote {r : Nat} {x y : F32} (hx : isNeg x = false) (hy : 0 ≤ val y)
    (h : NearestToNote r (mag x)) :
    (val y < val x →
      (val y + val x) ^ 12 * 2 ^ 69 < (2 * 440 * 2 ^ 149 : Int) ^ 12 * 2 ^ r) ∧
    (val x < val y →
      (2 * 440 * 2 ^ 149 : Int) ^ 12 * 2 ^ r < (val y + val x) ^ 12 * 2 ^ 69) := by
  obtain ⟨hlow, hhigh⟩ := h
  have hvx : val x = unitsOfMag (mag x) := by simp [val_eq_signed, hx, units]
  have hvy : val y = unitsOfMag (mag y) := by
    rw [← Int.natAbs_of_nonneg hy, ← units_eq_natAbs, units]
  have hmono := unitsOfMag_strictMono
  rw [hvx, hvy]
  norm_cast
  refine ⟨fun hlt => ?_, fun hlt => ?_⟩
  · have hle := hmono.monotone (Nat.le_sub_one_of_lt (hmono.lt_iff_lt.1 hlt))
    exact lt_of_le_of_lt (by gcongr) hlow
  · have hle := hmono.monotone (Nat.succ_le_of_lt (hmono.lt_iff_lt.1 hlt))
    rw [Nat.add_comm] at hhigh
    exact lt_of_lt_of_le hhigh (by gcongr)

end Sys2Proof.Machine

namespace Sys2Proof
open Machine

/-- Settles O35: twelve entries are checked against the midpoints to their neighbours, and each octave up
is a doubling. -/
theorem noteFrequencies : Obligations.NoteFrequencies := by
  unfold Obligations.NoteFrequencies
  intro n y _ hy
  obtain ⟨hsign, hfin, hnear⟩ := noteFreq_spec n
  exact ⟨hfin, nearest_of_nearestToNote hsign hy hnear⟩

end Sys2Proof
end

section
/-! The pushed parameters (O12): a view of the voices that only the pushing commands change, and what a
push leaves in it. -/

namespace Sys2Proof.Machine

/-- damt, dmix and don of a voice: what a push writes of it, but for its LFO (R272). -/
def Voice.pushed (x : Voice) : F32 × F32 × Bool := (x.damt, x.dmix, x.don)

/-- The converted knobs that a push writes there (R43). -/
def KnobValues.pushed (k : KnobValues) : F32 × F32 × Bool := (k.detune, k.detuneMix, k.detuneOn)

@[simp] theorem Voice.pushed_setOsc (x : Voice) (k : OscKind) (o : Osc) :
    (x.setOsc k o).pushed = x.pushed := by
  cases k <;> rfl

@[simp] theorem Voice.pushed_noteOff (x : Voice) (r : EnvRegs) : (x.noteOff r).pushed = x.pushed := rfl

@[simp] theorem Voice.pushed_push (x : Voice) (k : KnobValues) :
    (x.push k).pushed = k.pushed := rfl

@[simp] theorem Voice.pushed_renderSample (x : Voice) : x.renderSample.voice.pushed = x.pushed := by
  unfold Voice.renderSample
  split
  · unfold Voice.renderPlaying
    simp only
    split <;> rfl
  · rfl

@[simp] theorem Voice.pushed_render (x : Voice) (n : Nat) :
    ((fun y : Voice => y.renderSample.voice)^[n] x).pushed = x.pushed := by
  induction n generalizing x with
  | zero => rfl
  | succ n ih => exact (ih _).trans x.pushed_renderSample

/-- The view of every voice. -/
def State.pushed (s : State) : List (F32 × F32 × Bool) := s.voices.map Voice.pushed

/-- Replacing a voice by one that looks the same leaves the view of the list. -/
theorem map_pushed_set {xs : List Voice} {i : Nat} {x y : Voice} (hx : xs[i]? = some x)
    (h : y.pushed = x.pushed) : (xs.set i y).map Voice.pushed = xs.map Voice.pushed := by
  obtain ⟨hi, rfl⟩ := List.getElem?_eq_some_iff.1 hx
  rw [List.map_set, h, ← List.getElem_map Voice.pushed (h := by simpa using hi),
    List.set_getElem_self]

theorem map_pushed_map {xs : List Voice} {f : Voice → Voice} (h : ∀ x, (f x).pushed = x.pushed) :
    (xs.map f).map Voice.pushed = xs.map Voice.pushed := by
  rw [List.map_map]
  exact List.map_congr_left fun x _ => h x

theorem map_pushed_modify {xs : List Voice} {i : Nat} {f : Voice → Voice}
    (h : ∀ x, (f x).pushed = x.pushed) :
    (xs.modify i f).map Voice.pushed = xs.map Voice.pushed := by
  rw [List.modify_eq_set_getElem?]
  cases hx : xs[i]? with
  | none => rfl
  | some x => exact map_pushed_set hx (h x)

/-- No effect outside RESET, PUSH_PARAMS and BLOCK touches a pushed parameter (R272). -/
theorem Effect.pushed_eq {i : Instr} {s u : State} (h : Effect s i u) (hr : i ≠ .reset)
    (hp : i ≠ .pushParams) (hb : ∀ n, i ≠ .block n) : u.pushed = s.pushed := by
  cases h with
  | reset => exact absurd rfl hr
  | pushParams => exact absurd rfl hp
  | block n => exact absurd rfl (hb n)
  | prepare => exact map_pushed_map fun _ => rfl
  | oscSetSr v k x hx | oscSetFreq v k x hx | oscProcess v k x hx | oscSetPw v k x hx
  | oscSetWave v k w x hx => exact map_pushed_set hx (x.pushed_setOsc k _)
  | envNoteOn v x hx | envNoteOff v x hx | envNext v x hx | envReset v x hx =>
    exact map_pushed_set hx rfl
  | noteOn => exact map_pushed_modify fun _ => rfl
  | noteOff => exact map_pushed_map fun x => by split <;> simp
  | voiceRender v x hx => exact map_pushed_set hx x.pushed_renderSample
  | bankRender n =>
    rw [State.pushed, State.renderBank_voices, voices_renderVoices]
    exact map_pushed_map fun x => x.pushed_render _
  | _ => simp [State.pushed]

/-- After a push every voice has the knobs pushed (R333). -/
theorem pushed_of_mem_pushParams {s : State} {k : KnobValues} {x : Voice}
    (hx : x ∈ (s.pushParams k).voices) : x.pushed = k.pushed := by
  obtain ⟨y, -, rfl⟩ := List.mem_map.1 hx
  exact y.pushed_push k

/-- BLOCK's renders keep what its push wrote (R315). -/
theorem pushed_of_mem_blockRender {s : State} {n : Nat} {p : Snapshot} {x : Voice}
    (hx : x ∈ (s.blockRender n p).voices) : x.pushed = p.knobs.convert.pushed := by
  rw [voices_blockRender] at hx
  obtain ⟨y, hy, rfl⟩ := List.mem_map.1 hx
  rw [Voice.pushed_render, pushed_of_mem_pushParams (s := s) hy]

/-- PUSH_PARAMS on a prepared state (R333). -/
theorem exec_pushParams {s : State} (hp : s.status.prepared = true) :
    exec .pushParams s = .next (s.pushParams s.operands.knobs.convert).complete :=
  whenPrepared_of _ hp

end Sys2Proof.Machine

namespace Sys2Proof
open Machine

/-- Settles O12: every other command's effect keeps the view of the voices, and both pushing commands end
with the snapshot's knobs in it. -/
theorem pushedParameters : Obligations.PushedParameters := by
  unfold Obligations.PushedParameters
  refine ⟨fun i s t h hr hp hb => ?_, fun i s t h hp hi x hx => ?_⟩
  · exact exec_keeps (view := State.pushed) (fun _ => rfl) (fun _ _ => rfl) (fun _ _ => rfl)
      (fun _ hu => hu.pushed_eq hr hp hb) h
  · have hpushed : x.pushed = s.operands.knobs.convert.pushed := by
      rcases hi with rfl | ⟨n, rfl, hn⟩
      · rw [exec_pushParams hp] at h
        cases h
        exact pushed_of_mem_pushParams hx
      · rw [exec_block hp hn] at h
        cases h
        exact pushed_of_mem_blockRender (s := s) (n := n.toNat) (p := s.operands) hx
    obtain ⟨hdamt, hrest⟩ := Prod.mk.inj hpushed
    obtain ⟨hdmix, hdon⟩ := Prod.mk.inj hrest
    exact ⟨hdamt, hdmix, hdon⟩

end Sys2Proof
end

section
/-! The voice commands (O31, O32, O33): what allocation chooses, the note-off test, and a playing voice's
render step. -/

namespace Sys2Proof.Machine

/-! ## Allocation (R268) -/

theorem firstIdle_cons (i : Nat) (x : Voice) (xs : List Voice) :
    firstIdle i (x :: xs) = if x.playing then firstIdle (i + 1) xs else some i := rfl

/-- The lowest idle voice is found where no earlier one is idle. -/
theorem firstIdle_eq_some {xs : List Voice} {v : Nat} {x : Voice} (hx : xs[v]? = some x)
    (hidle : x.playing = false)
    (hmin : ∀ (j : Nat) (y : Voice), j < v → xs[j]? = some y → y.playing = true) (i : Nat) :
    firstIdle i xs = some (i + v) := by
  induction xs generalizing v i with
  | nil => cases hx
  | cons y ys ih =>
    cases v with
    | zero =>
      cases hx
      rw [firstIdle_cons, if_neg (by simp [hidle]), Nat.add_zero]
    | succ v =>
      rw [firstIdle_cons, if_pos (hmin 0 y (Nat.succ_pos v) rfl),
        ih hx (fun j z hj hz => hmin (j + 1) z (Nat.succ_lt_succ hj) hz), Nat.add_right_comm,
        Nat.add_assoc]

theorem firstIdle_eq_none {xs : List Voice} (h : ∀ y ∈ xs, y.playing = true) (i : Nat) :
    firstIdle i xs = none := by
  induction xs generalizing i with
  | nil => rfl
  | cons y ys ih =>
    obtain ⟨hy, hys⟩ := List.forall_mem_cons.1 h
    rw [firstIdle_cons, if_pos hy, ih hys]

theorem nearestReleased_none_cons (i : Nat) (y : Voice) (ys : List Voice) :
    nearestReleased i none (y :: ys) = if y.playing && y.releasing then
      nearestReleased (i + 1) (some (i, y.env.level)) ys else nearestReleased (i + 1) none ys := rfl

theorem nearestReleased_some_cons (i k : Nat) (l : F32) (y : Voice) (ys : List Voice) :
    nearestReleased i (some (k, l)) (y :: ys) = if y.playing && y.releasing then
      nearestReleased (i + 1) (if flt y.env.level l then some (i, y.env.level) else some (k, l)) ys
      else nearestReleased (i + 1) (some (k, l)) ys := rfl

/-- A voice that is not releasing is passed over. -/
theorem nearestReleased_cons_skip {y : Voice} (h : y.releasing = false) (i : Nat)
    (best : Option (Nat × F32)) (ys : List Voice) :
    nearestReleased i best (y :: ys) = nearestReleased (i + 1) best ys := by
  have htest : ¬(y.playing && y.releasing) = true := by simp [h]
  cases best with
  | none => rw [nearestReleased_none_cons, if_neg htest]
  | some b => rw [nearestReleased_some_cons, if_neg htest]

/-- A releasing voice is the new choice if there is none yet or its level is below the choice's. -/
theorem nearestReleased_cons_releasing {y : Voice} (hp : y.playing = true) (hr : y.releasing = true)
    (i : Nat) (best : Option (Nat × F32)) (ys : List Voice) :
    nearestReleased i best (y :: ys) = nearestReleased (i + 1)
      (if ∀ b ∈ best, flt y.env.level b.2 = true then some (i, y.env.level) else best) ys := by
  have htest : (y.playing && y.releasing) = true := by simp [hp, hr]
  cases best with
  | none => rw [nearestReleased_none_cons, if_pos htest, if_pos nofun]
  | some b =>
    rw [nearestReleased_some_cons, if_pos htest]
    simp only [Option.mem_some_iff, forall_eq']

theorem nearestReleased_none {xs : List Voice} (h : ∀ y ∈ xs, y.releasing = false) (i : Nat)
    (best : Option (Nat × F32)) : nearestReleased i best xs = best := by
  induction xs generalizing i with
  | nil => rfl
  | cons y ys ih =>
    obtain ⟨hy, hys⟩ := List.forall_mem_cons.1 h
    rw [nearestReleased_cons_skip hy, ih hys]

/-- A choice is kept where no later releasing voice's level is below it. -/
theorem nearestReleased_keeps {xs : List Voice} {l : F32} (hplay : ∀ y ∈ xs, y.playing = true)
    (hle : ∀ y ∈ xs, y.releasing = true → flt y.env.level l = false) (i k : Nat) :
    nearestReleased i (some (k, l)) xs = some (k, l) := by
  induction xs generalizing i with
  | nil => rfl
  | cons y ys ih =>
    obtain ⟨hy, hys⟩ := List.forall_mem_cons.1 hplay
    obtain ⟨hley, hleys⟩ := List.forall_mem_cons.1 hle
    cases hr : y.releasing with
    | false => rw [nearestReleased_cons_skip hr, ih hys hleys]
    | true => rw [nearestReleased_cons_releasing hy hr, if_neg (by simp [hley hr]), ih hys hleys]

/-- The releasing voice whose level is below every earlier one's and at most every later one's is
chosen, whatever choice above it stood before. -/
theorem nearestReleased_eq_some {xs : List Voice} {v : Nat} {x : Voice}
    (hplay : ∀ y ∈ xs, y.playing = true) (hx : xs[v]? = some x) (hrel : x.releasing = true)
    (hmin : ∀ (j : Nat) (y : Voice), xs[j]? = some y → y.releasing = true →
      (j < v → flt x.env.level y.env.level = true) ∧
      (v < j → flt y.env.level x.env.level = false))
    (i : Nat) {best : Option (Nat × F32)} (hbest : ∀ b ∈ best, flt x.env.level b.2 = true) :
    nearestReleased i best xs = some (i + v, x.env.level) := by
  induction xs generalizing v i best with
  | nil => cases hx
  | cons y ys ih =>
    obtain ⟨hy, hys⟩ := List.forall_mem_cons.1 hplay
    cases v with
    | zero =>
      cases hx
      rw [nearestReleased_cons_releasing hy hrel, if_pos hbest, Nat.add_zero]
      refine nearestReleased_keeps hys (fun z hz hr => ?_) _ _
      obtain ⟨j, hj⟩ := List.mem_iff_getElem?.1 hz
      exact (hmin (j + 1) z hj hr).2 (Nat.succ_pos j)
    | succ v =>
      have hnext {best' : Option (Nat × F32)} (hb : ∀ b ∈ best', flt x.env.level b.2 = true) :
          nearestReleased (i + 1) best' ys = some (i + (v + 1), x.env.level) := by
        rw [ih hys hx (fun j z hz hr => ?_) (i + 1) hb, Nat.add_right_comm, Nat.add_assoc]
        obtain ⟨hbefore, hafter⟩ := hmin (j + 1) z hz hr
        exact ⟨fun hj => hbefore (Nat.succ_lt_succ hj), fun hj => hafter (Nat.succ_lt_succ hj)⟩
      cases hr : y.releasing with
      | false =>
        rw [nearestReleased_cons_skip hr]
        exact hnext hbest
      | true =>
        rw [nearestReleased_cons_releasing hy hr]
        split
        · refine hnext fun b hb => ?_
          cases hb
          exact (hmin 0 y rfl hr).1 (Nat.succ_pos v)
        · exact hnext hbest

/-! ## Results of the commands -/

section
variable {note velocity : BitVec 7} {s : State} {v : Nat} {x : Voice} {stolen : Bool}
  (hp : s.status.prepared = true)
include hp

/-- NOTE_ON with a voice allocated: the whole next state (R273). -/
theorem exec_noteOn (ha : allocVoice s.voices = some (v, stolen)) (hx : s.voices[v]? = some x) :
    exec (.noteOn note velocity) s = .next { s with
      voices := s.voices.set v (x.noteOn note s.operands.env)
      result0 := BitVec.ofNat 32 v, result1 := if stolen then 1#32 else 0#32
      running := none, status := { s.status with done := true } } := by
  refine (whenPrepared_of _ hp).trans ?_
  have hset (f : Voice → Voice) : s.voices.modify v f = s.voices.set v (f x) := by
    rw [List.modify_eq_set_getElem?, hx]
    rfl
  simp only [ha, hset]
  rfl

/-- NOTE_ON with no voice to allocate: the whole next state (R273). -/
theorem exec_noteOn_dropped (ha : allocVoice s.voices = none) :
    exec (.noteOn note velocity) s = .next { s with
      result0 := 0xFFFFFFFF#32, result1 := 0#32
      running := none, status := { s.status with done := true, noteDrop := true } } := by
  refine (whenPrepared_of _ hp).trans ?_
  rw [ha]
  rfl

/-- NOTE_OFF: the whole next state (R274). -/
theorem exec_noteOff :
    exec (.noteOff note) s = .next { s with
      voices := s.voices.map fun x => if x.matchesOff note then x.noteOff s.operands.env else x
      result0 := BitVec.ofNat 32 (s.voices.countP (Voice.matchesOff note))
      running := none, status := { s.status with done := true } } :=
  whenPrepared_of _ hp

/-- VOICE_RENDER: the whole next state (R275). -/
theorem exec_voiceRender {v : VoiceNo} (hv : v.toNat < Config.numVoices)
    (hx : s.voices[v.toNat]? = some x) :
    exec (.voiceRender v) s = .next { s with
      voices := s.voices.set v.toNat x.renderSample.voice
      result0 := x.renderSample.sample, result1 := x.renderSample.envValue
      running := none, status := { s.status with done := true } } :=
  (withVoice_of _ hv hx).trans (whenPrepared_of _ hp)

end

/-- The voices that a NOTE_OFF releases (R269). -/
theorem Voice.matchesOff_iff {n : BitVec 7} {x : Voice} :
    x.matchesOff n = true ↔ x.playing = true ∧ x.releasing = false ∧ x.note = n := by
  simp [Voice.matchesOff, and_assoc]

end Sys2Proof.Machine

namespace Sys2Proof
open Machine

/-- Settles O31: each of the three premises decides what allocation chooses. -/
theorem noteOnAllocates : Obligations.NoteOnAllocates := by
  unfold Obligations.NoteOnAllocates
  refine ⟨fun x n r => rfl, fun note velocity s hp => ⟨?idle, ?steal, ?drop⟩⟩
  case idle =>
    intro v x hx hidle hmin
    have halloc : allocVoice s.voices = some (v, false) := by
      rw [allocVoice, firstIdle_eq_some hx hidle hmin, Nat.zero_add]
    exact exec_noteOn hp halloc hx
  case steal =>
    intro v x hplay hx hrel hmin
    have hnearest : nearestReleased 0 none s.voices = some (0 + v, x.env.level) := by
      refine nearestReleased_eq_some hplay hx hrel (fun j y hy hr => ?_) 0 nofun
      obtain ⟨hbefore, hafter⟩ := hmin j y hy hr
      refine ⟨hbefore, fun hj => ?_⟩
      obtain ⟨hnx, hny⟩ := isNaN_of_fle (hafter hj)
      exact (flt_eq_false_iff hny hnx).2 (hafter hj)
    have halloc : allocVoice s.voices = some (v, true) := by
      rw [allocVoice, firstIdle_eq_none hplay, hnearest, Nat.zero_add]
    exact exec_noteOn hp halloc hx
  case drop =>
    intro hsounding
    have halloc : allocVoice s.voices = none := by
      rw [allocVoice, firstIdle_eq_none fun y hy => (hsounding y hy).1,
        nearestReleased_none fun y hy => (hsounding y hy).2]
    exact exec_noteOn_dropped hp halloc

/-- Settles O32: the model's test is the statement's, and a count is the length of the filtered list. -/
theorem noteOffReleases : Obligations.NoteOffReleases := by
  unfold Obligations.NoteOffReleases
  intro note s hp
  have htest : Voice.matchesOff note = fun x =>
      decide (x.playing = true ∧ x.releasing = false ∧ x.note = note) :=
    funext fun x => Bool.eq_iff_iff.2 (Voice.matchesOff_iff.trans decide_eq_true_iff.symm)
  rw [exec_noteOff hp, List.countP_eq_length_filter]
  simp only [htest, decide_eq_true_eq]
  rfl

/-- Settles O33: the render step's values are the statement's, and its deactivation is by the same test. -/
theorem voiceRenderResult : Obligations.VoiceRenderResult := by
  unfold Obligations.VoiceRenderResult
  intro v s x hp hv hx
  refine ⟨fun hidle => ?idle, fun l fd p d mixd e smp y hplay hl hfd hpri hd hmix he hsmp hy => ?plays⟩
  case idle =>
    obtain ⟨hlt, rfl⟩ := List.getElem?_eq_some_iff.1 hx
    rw [exec_voiceRender hp hv hx, Voice.renderSample_idle hidle, List.set_getElem_self]
  case plays =>
    have hrender : x.renderSample = ⟨if x.releasing && flt e Config.thr then y.deactivate else y,
        smp, e⟩ := by
      subst hl hfd hpri hd hmix he hsmp hy
      rw [Voice.renderSample, if_pos hplay]
      rfl
    rw [exec_voiceRender hp hv hx, hrender]
    simp only [Bool.and_eq_true]
    rfl

end Sys2Proof
end

section
/-! The post-processing commands and BLOCK 0 (O38, O39, O40, O42): the quantizer's exact truncation, then
each command as a rewrite of buffers' first n words. -/

namespace Sys2Proof.Machine

/-! ## Truncation (R301) -/

/-- A value truncated to a multiple of 2^g units is a value: it is itself where its own power of two is at
least 2^g, and else has no more significand bits than it. -/
theorem exists_val_truncated {x : F32} (hx : isFinite x = true) {g : Nat} (hg : g ≤ 252) :
    ∃ c : F32, isFinite c = true ∧ val c = (val x).tdiv (2 ^ g) * 2 ^ g := by
  obtain ⟨f, h, hf, hu⟩ := unitsOfMag_eq_mul (mag x)
  rcases Nat.le_total g h with hgh | hhg
  · have hdvd : (2 : Int) ^ g ∣ |val x| := by
      rw [abs_val, units, hu]
      exact_mod_cast (pow_dvd_pow 2 hgh).mul_left f
    exact ⟨x, hx, (Int.tdiv_mul_cancel ((dvd_abs _ _).1 hdvd)).symm⟩
  · refine exists_val ?_ hg
    have hle : f * 2 ^ h / 2 ^ g ≤ f :=
      Nat.div_le_of_le_mul (by
        rw [Nat.mul_comm]
        exact Nat.mul_le_mul_right f (Nat.pow_le_pow_right two_pos hhg))
    rw [Int.natAbs_tdiv, ← units_eq_natAbs, units, hu, Int.natAbs_pow]
    exact hle.trans hf.le

/-- The exact difference of a value and its remainder by 2^g units is the value truncated. -/
theorem val_sub_val_fmod {x y : F32} (hx : isFinite x = true) (hy : isFinite y = true) {g : Nat}
    (hval : val y = 2 ^ g) (h0 : mag y ≠ 0) :
    val x - val (fmod x y) = (val x).tdiv (2 ^ g) * 2 ^ g := by
  rw [val_fmod hx hy h0, hval, Int.tmod_def]
  ring

section
variable {x : F32} {b : Nat}

/-- The quantizer's step of 2^-b is a value above 0. -/
theorem quantStep_spec (h1 : 1 ≤ b) (h32 : b ≤ 32) :
    isFinite (pow2 (-(b : Int))) = true ∧ val (pow2 (-(b : Int))) = 2 ^ (149 - b) ∧
    mag (pow2 (-(b : Int))) ≠ 0 := by
  obtain ⟨hfin, hval⟩ := pow2_exact (g := 149 - b) (by omega) (by omega)
  rw [show ((149 - b : Nat) : Int) - 149 = -(b : Int) by omega] at hfin hval
  refine ⟨hfin, hval, fun h0 => ?_⟩
  rw [val_eq_zero.2 h0] at hval
  exact (show (0 : Int) < 2 ^ (149 - b) by positivity).ne hval

theorem quant_exact (h1 : 1 ≤ b) (h32 : b ≤ 32) (hx : isFinite x = true) :
    isFinite (quant x b) = true ∧
    val (quant x b) = (val x).tdiv (2 ^ (149 - b)) * 2 ^ (149 - b) := by
  obtain ⟨hfin, hval, h0⟩ := quantStep_spec h1 h32
  obtain ⟨c, hc, hvc⟩ := exists_val_truncated hx (g := 149 - b) (by omega)
  rw [← hvc]
  refine (rounded_fsub hx (fmod_spec hx hfin h0).1).val_of_exact one_pos hc ?_
  rw [val_sub_val_fmod hx hfin hval h0, hvc, mul_one]

/-- The remainder has the sign of x, so a difference of 0 is +0.0. -/
theorem quant_eq_posZero (h1 : 1 ≤ b) (h32 : b ≤ 32) (hx : isFinite x = true)
    (hz : mag (quant x b) = 0) : quant x b = posZero := by
  obtain ⟨hfin, hval, h0⟩ := quantStep_spec h1 h32
  obtain ⟨hmfin, hneg, -⟩ := fmod_spec hx hfin h0
  have hdiff : val x - val (fmod x (pow2 (-(b : Int)))) = 0 := by
    rw [val_sub_val_fmod hx hfin hval h0, ← (quant_exact h1 h32 hx).2, val_eq_zero.2 hz]
  rw [quant, fsub_zero hx hmfin hdiff, hneg, Bool.and_not_self]
  rfl

theorem quant_of_not_isFinite (b : Nat) (hx : isFinite x = false) : quant x b = qNaN := by
  rw [quant, fmod_of_not_isFinite _ hx]
  exact fsub_of_isNaN (.inr (by decide))

end

/-! ## Rewriting a buffer's first words -/

theorem State.getElem?_buf (s : State) (b : Buf) {n i : Nat} (hi : i < n) :
    (s.buf b n)[i]? = some (s.mem.readWord (bufBase b + 4 * i)) := by
  rw [List.getElem?_eq_getElem (by simpa using hi), State.getElem_buf]

/-- Writing n words to a buffer leaves them there, and every byte outside them alone. -/
theorem State.mem_setBuf_words {s : State} (hwf : s.mem.wf = true) (b : Buf) {ws : List F32} {n : Nat}
    {q : Nat → F32} (hlen : ws.length = n) (hq : ∀ i, i < n → ws[i]? = some (q i)) :
    sameOutside s.mem (s.setBuf b ws).mem (bufBase b) (4 * n) ∧
    ∀ i, i < n → (s.setBuf b ws).mem.readWord (bufBase b + 4 * i) = q i := by
  subst hlen
  obtain ⟨-, hwords, hframe⟩ := State.setBuf_spec hwf b ws
  exact ⟨hframe, fun i hi => (hwords i hi).trans ((List.getElem_eq_iff hi).2 (hq i hi))⟩

section
variable {s : State} (hwf : s.mem.wf = true)
include hwf

/-- Holding samples rewrites the first n words of OUT0 (R302). -/
theorem State.mem_decimateOut (n R : Nat) :
    sameOutside s.mem (s.decimateOut n R).mem (bufBase .out0) (4 * n) ∧
    ∀ i, i < n → (s.decimateOut n R).mem.readWord (bufBase .out0 + 4 * i) =
      s.mem.readWord (bufBase .out0 + 4 * heldIndex R i) :=
  State.mem_setBuf_words hwf .out0 (by simp) fun _ hi =>
    getElem?_holdSamples (q := fun i => s.mem.readWord (bufBase .out0 + 4 * i)) (s.length_buf .out0 n)
      (fun _ => s.getElem?_buf .out0) hi

/-- Scaling rewrites the first n words of NOISE (R314). -/
theorem State.mem_scaleNoise (n : Nat) (g : F32) :
    sameOutside s.mem (s.scaleNoise n g).mem (bufBase .noise) (4 * n) ∧
    ∀ i, i < n → (s.scaleNoise n g).mem.readWord (bufBase .noise + 4 * i) =
      fmul (s.mem.readWord (bufBase .noise + 4 * i)) g :=
  State.mem_setBuf_words hwf .noise (by simp) fun i hi => by
    rw [List.getElem?_map, s.getElem?_buf .noise hi, Option.map_some]

/-- The mix leaves the products in NOISE and the sums in OUT0 (R304). -/
theorem State.readWord_mixNoise {n i : Nat} (hn : n ≤ Config.bufSize) (hi : i < n) {u w : F32}
    (hu : u = s.mem.readWord (bufBase .noise + 4 * i))
    (hw : w = s.mem.readWord (bufBase .out0 + 4 * i)) :
    (s.mixNoise n).mem.readWord (bufBase .noise + 4 * i) = fmul u w ∧
    (s.mixNoise n).mem.readWord (bufBase .out0 + 4 * i) = fadd w (fmul u w) := by
  subst hu hw
  have hshows := (State.shows_self hwf).mixNoise hn
  have hnoise := s.getElem?_buf .noise hi
  have hout := s.getElem?_buf .out0 hi
  exact ⟨hshows.readWord (b := .noise) (getElem?_mixedNoise hnoise hout),
    hshows.readWord (b := .out0) (getElem?_mixedOut hnoise hout)⟩

end

/-- The mix touches no byte outside the first n words of OUT0 and of NOISE. -/
theorem State.readByte_mixNoise (s : State) (n : Nat) {a : Nat}
    (h0 : a < bufBase .out0 ∨ bufBase .out0 + 4 * n ≤ a)
    (hN : a < bufBase .noise ∨ bufBase .noise + 4 * n ≤ a) :
    (s.mixNoise n).mem.readByte a = s.mem.readByte a := by
  have hlenN : (mixedNoise (s.buf .noise n) (s.buf .out0 n)).length = n := by simp [mixedNoise]
  have hlen0 : (mixedOut (s.buf .noise n) (s.buf .out0 n)).length = n := by simp [mixedOut, hlenN]
  exact (State.readByte_setBuf _ .out0 _ (by rwa [hlen0])).trans
    (State.readByte_setBuf _ .noise _ (by rwa [hlenN]))

/-! ## Results of the commands -/

/-- QUANTIZE: the whole next state (R311). -/
theorem exec_quantize (b : BitVec 16) (s : State) :
    exec (.quantize b) s = .next { s with
      result0 := quant s.operands.arg0 (clampDepth b.toNat)
      running := none, status := { s.status with done := true } } := rfl

section
variable {n : BitVec 16} (s : State) (hn : n.toNat ≤ Config.bufSize)
include hn

/-- DECIMATE: the whole next state (R312). -/
theorem exec_decimate : exec (.decimate n) s = .next { s with
    mem := (s.decimateOut n.toNat s.operands.arg0.toNat).mem
    running := none, status := { s.status with done := true } } :=
  whenCount_of _ hn

/-- NOISE_MIX: the whole next state (R313). -/
theorem exec_noiseMix : exec (.noiseMix n) s = .next { s with
    mem := (s.mixNoise n.toNat).mem
    running := none, status := { s.status with done := true } } :=
  whenCount_of _ hn

/-- NOISE_SCALE: the whole next state (R314). -/
theorem exec_noiseScale {g : F32} (hg : g = noiseGain (clamp s.operands.arg0 posZero hundred)) :
    exec (.noiseScale n) s = .next { s with
      mem := (s.scaleNoise n.toNat g).mem, result0 := g
      running := none, status := { s.status with done := true } } := by
  subst hg
  exact whenCount_of _ hn

end

/-- No samples draw nothing (R206, R207). -/
theorem noiseFill_zero_snd (uniform : Bool) (x : Word) : (noiseFill uniform 0 x).2 = x := by
  cases uniform <;> rfl

theorem countP_playing_map_push (xs : List Voice) (k : KnobValues) :
    (xs.map (·.push k)).countP (·.playing) = xs.countP (·.playing) :=
  List.countP_map

end Sys2Proof.Machine

namespace Sys2Proof
open Machine

/-- Settles O38: the truncated value is a binary32 value, so the difference is not rounded; its zero has
two operands of one sign. -/
theorem quantizeTruncates : Obligations.QuantizeTruncates := by
  unfold Obligations.QuantizeTruncates
  refine ⟨exec_quantize, fun x b h1 h32 => ⟨rfl, fun hx => ?_, quant_of_not_isFinite b⟩⟩
  obtain ⟨hfin, hval⟩ := quant_exact h1 h32 hx
  exact ⟨hfin, hval, quant_eq_posZero h1 h32 hx⟩

/-- Settles O39: the word at i is the held one. -/
theorem decimateHolds : Obligations.DecimateHolds := by
  unfold Obligations.DecimateHolds
  intro n s hn hwf
  obtain ⟨hframe, hwords⟩ := State.mem_decimateOut hwf n.toNat s.operands.arg0.toNat
  refine ⟨_, exec_decimate s hn, hframe, fun i hi => ?_⟩
  rw [hwords i hi, heldIndex]
  split <;> rfl

/-- Settles O40: each command is its rewrite of the buffers, and the statement's gain is the model's. -/
theorem noiseMixAndScale : Obligations.NoiseMixAndScale := by
  unfold Obligations.NoiseMixAndScale
  intro n s hn hwf
  refine ⟨⟨_, exec_noiseMix s hn, fun i hi u w => State.readWord_mixNoise hwf hn hi,
    fun a => s.readByte_mixNoise n.toNat⟩, ?_⟩
  obtain ⟨hframe, hwords⟩ := State.mem_scaleNoise hwf n.toNat
    (noiseGain (clamp s.operands.arg0 posZero hundred))
  exact ⟨_, _, _, _, rfl, rfl, rfl, exec_noiseScale s hn rfl, hframe, hwords⟩

/-- Settles O42: with no samples every step of BLOCK but the push leaves the state alone. -/
theorem blockOfZero : Obligations.BlockOfZero := by
  unfold Obligations.BlockOfZero
  intro s hp
  have hvoices : (s.blockRender 0 s.operands).voices =
      s.voices.map (·.push s.operands.knobs.convert) := by
    rw [voices_blockRender, Function.iterate_zero, List.map_id]
  rw [exec_block hp (Nat.zero_le _), BitVec.toNat_ofNat, Nat.zero_mod, hvoices, noiseFill_zero_snd,
    State.mem_blockPost_zero, State.mem_blockRender_zero, countP_playing_map_push]
  rfl

end Sys2Proof
end

section
/-! The lifecycle and parameter-push commands and the reset state (O36, O37). -/

namespace Sys2Proof.Machine

/-! ## Results of the commands -/

/-- NOP completes and does nothing else (R330). -/
theorem exec_nop (s : State) : exec .nop s = .next s.complete := rfl

/-- RESET completes from the reset state (R332). -/
theorem exec_reset (s : State) : exec .reset s = .next s.resetCore.complete := rfl

/-- The statements' premises on a rate are the model's check of it (R116). -/
theorem rateOk_of {x : F32} (hfin : isFinite x = true) (hpos : flt posZero x = true) :
    rateOk x = true := by
  rw [rateOk, fgt, hfin, hpos, Bool.and_self]

/-- PREPARE with its rate and its block size in range (R331). -/
theorem exec_prepare {m : BitVec 16} {s : State} (hr : rateOk s.operands.arg0 = true)
    (h1 : 1 ≤ m.toNat) (hmax : m.toNat ≤ Config.bufSize) :
    exec (.prepare m) s =
      .next ({ (s.mapVoices fun x => x.setRate s.operands.arg0) with
        sampleRate := s.operands.arg0
        maxBlock := BitVec.ofNat 32 m.toNat
        status := { s.status with prepared := true } } : State).complete := by
  rw [BitVec.ofNat_toNat]
  exact (whenInRange_of _ hr).trans (whenInRange_of _ (by simp [h1, hmax]))

/-! ## The hardware reset and the reset state -/

/-- A hardware reset does not ask whether a command runs (R381). -/
theorem State.hostAct_hardReset (s : State) : s.hostAct .hardReset = s.resetCore := rfl

/-- The bank at reset holds NV voices, all as reset leaves a voice (R49, R380). -/
theorem State.voices_reset : State.reset.voices = List.replicate Config.numVoices Voice.reset := rfl

theorem State.length_voices_reset : State.reset.voices.length = Config.numVoices := by
  rw [State.voices_reset, List.length_replicate]

theorem State.eq_reset_of_mem_voices {x : Voice} (hx : x ∈ State.reset.voices) :
    x = Voice.reset := by
  rw [State.voices_reset] at hx
  exact List.eq_of_mem_replicate hx

/-- The memory at reset lists no byte, so each reads as an unlisted one (R50, R56). -/
theorem State.readByte_reset (a : Nat) : State.reset.mem.readByte a = unlistedByte := rfl

theorem State.irq_reset : State.reset.irq = false := by decide

end Sys2Proof.Machine

namespace Sys2Proof
open Machine

/-- Settles O36: each command's checks pass, and a voice's new rate and its push are written out. -/
theorem controlCommands : Obligations.ControlCommands := by
  unfold Obligations.ControlCommands
  refine ⟨exec_nop, fun m s hfin hpos h1 hmax => ?prepare, fun s f hp hf => ?push⟩
  case prepare =>
    exact exec_prepare (rateOk_of hfin hpos) h1 hmax
  case push =>
    subst hf
    exact exec_pushParams hp

/-- Settles O37: both resets go by way of `State.resetCore`, and each field's reset value is the
table's. -/
theorem resetTable : Obligations.ResetTable := by
  unfold Obligations.ResetTable
  refine ⟨exec_reset, State.hostAct_hardReset, rfl, rfl, rfl, rfl, rfl, rfl, rfl, rfl, rfl, rfl, rfl,
    State.length_voices_reset, fun x hx => ?voice, rfl, State.readByte_reset, State.irq_reset⟩
  case voice =>
    rw [State.eq_reset_of_mem_voices hx]
    exact ⟨rfl, rfl, rfl, rfl, rfl, rfl, rfl, rfl, rfl, rfl, rfl, rfl⟩

end Sys2Proof
end

section
/-! Errors, completion and reset (O6, O7, O8, O14, O49): what a command that records an error leaves, that
every command completes, and that the host's actions delay a completion but do not prevent it. -/

namespace Sys2Proof.Machine

/-! ## Recorded errors (R351, R352) -/

/-- From ERR 0, a command other than RESET ends with ERR 1 only by recording an error or the geometry
fault in the state it found. -/
theorem exec_err_cases {i : Instr} {s t : State} (hi : i ≠ .reset) (herr : s.status.err = false)
    (h : exec i s = .next t) (ht : t.status.err = true) :
    (∃ c, c ≠ Cause.none ∧ c ≠ Cause.dlGeometry ∧ t = (s.recordError c).complete) ∨
    t = (s.recordFault .dlGeometry).complete := by
  rcases exec_answers h with herror | ⟨_, _, hfault⟩ | ⟨u, hu, rfl⟩
  · exact .inl herror
  · exact .inr hfault
  · obtain ⟨hkept, -⟩ := Prod.mk.inj (hu.errCause_eq hi)
    rw [State.complete_status, hkept, herr] at ht
    cases ht

/-! ## Every command completes (R356) -/

/-- The answer of a command that completes: some state, finished. -/
def Completes (r : Result) : Prop := ∃ u, r = finish u

theorem Completes.finish (u : State) : Completes (finish u) := ⟨u, rfl⟩

theorem Completes.rejected (s : State) (c : Cause) : Completes (.next (s.rejected c)) :=
  .finish (s.recordError c)

theorem Completes.whenPrepared {s : State} {k : Result} (hk : Completes k) :
    Completes (whenPrepared s k) := by
  cases hp : s.status.prepared with
  | true => rwa [whenPrepared_of k hp]
  | false => rw [whenPrepared_rejected k hp]; exact .rejected s _

theorem Completes.whenInRange {ok : Bool} {s : State} {k : Result} (hk : Completes k) :
    Completes (whenInRange ok s k) := by
  cases hok : ok with
  | true => rwa [whenInRange_of k rfl]
  | false => rw [whenInRange_rejected s k rfl]; exact .rejected s _

theorem Completes.whenCount {n : BitVec 16} {s : State} {k : Result} (hk : Completes k) :
    Completes (whenCount n s k) :=
  hk.whenInRange

/-- With NV voices in the bank, a voice command finds its voice or rejects the number (R118). -/
theorem Completes.withVoice {v : VoiceNo} {s : State} {f : Voice → Result}
    (hs : s.voices.length = Config.numVoices) (hf : ∀ x, Completes (f x)) :
    Completes (withVoice v s f) := by
  by_cases hv : v.toNat < Config.numVoices
  · rw [withVoice_of f hv (List.getElem?_eq_getElem (hs ▸ hv))]
    exact hf _
  · rw [withVoice_rejected f (Nat.le_of_not_lt hv)]
    exact .rejected s _

theorem Completes.exists_next {r : Result} (h : Completes r) :
    ∃ t, r = .next t ∧ t.running = none ∧ t.status.done = true := by
  obtain ⟨u, rfl⟩ := h
  exact ⟨u.complete, rfl, rfl, rfl⟩

/-- A command's checks in their order, each of which goes on or raises; then its end. -/
theorem exec_completes (i : Instr) {s : State} (hs : s.voices.length = Config.numVoices) :
    Completes (exec i s) := by
  cases i
  case nop | reset | dlSetFeedback | dlRead | quantize => exact .finish _
  case dlSetSize | dlSetDelay => exact .whenInRange (.finish _)
  case prepare => exact .whenInRange (.whenInRange (.finish _))
  case noiseUniform | noiseGauss | decimate | noiseMix | noiseScale => exact .whenCount (.finish _)
  case pushParams | noteOff => exact .whenPrepared (.finish _)
  case bankRender => exact .whenPrepared (.whenCount (.finish _))
  case block => exact .whenPrepared (.whenInRange (.finish _))
  case oscSetFreq | oscProcess | oscSetPw | oscSetWave | oscRead | envNoteOn | envNoteOff | envNext |
      envRead | envReset | voiceRead =>
    exact .withVoice hs fun _ => .finish _
  case oscSetSr => exact .withVoice hs fun _ => .whenInRange (.finish _)
  case voiceRender => exact .withVoice hs fun _ => .whenPrepared (.finish _)
  case noteOn =>
    refine .whenPrepared ?_
    cases allocVoice s.voices <;> exact .finish _
  case dlProcess =>
    cases hg : s.dl.geomOk with
    | true => rw [exec_dlProcess hg]; exact .finish _
    | false => rw [exec_dlProcess_fault hg]; exact .finish (s.recordFault _)

theorem rejectWord_completes (e : DecodeError) (s : State) : Completes (rejectWord e s) :=
  .rejected s (causeOf e)

/-- Whatever a command answers, its next state is a completed one. -/
theorem exec_done {i : Instr} {s t : State} (h : exec i s = .next t) : t.status.done = true := by
  rcases exec_answers h with ⟨_, _, _, rfl⟩ | ⟨_, _, rfl⟩ | ⟨_, _, rfl⟩ <;> rfl

theorem State.nextAction_nil {s : State} (h : s.host = []) : s.nextAction = none := by
  rw [State.nextAction, h]

/-- With no host action due, the step completes the running command, of a legal word or an illegal
one. -/
theorem step_completes {s : State} (hs : s.voices.length = Config.numVoices) (hr : s.running ≠ none)
    (hn : s.nextAction = none) : Completes (step s) := by
  obtain ⟨r, hr⟩ := Option.ne_none_iff_exists'.1 hr
  cases hd : decode r.word with
  | ok i => rw [step_running hn hr hd]; exact exec_completes i hs
  | error e => rw [step_illegal hr hn hd]; exact rejectWord_completes e s

/-! ## The host beside the running command and DONE -/

/-- A host action other than a hardware reset leaves a running command, the voices and the other host
events as they are. -/
theorem State.hostAct_keeps_running {s : State} {a : HostAction} (hr : s.running ≠ none)
    (ha : a ≠ .hardReset) :
    (s.hostAct a).running = s.running ∧ (s.hostAct a).voices = s.voices ∧
      (s.hostAct a).host = s.host := by
  rcases s.hostAct_running a with ⟨hreset, _⟩ | ⟨_, hidle, _⟩ | hkept
  · exact absurd hreset ha
  · exact absurd hidle hr
  · exact hkept

/-- While a command runs, a write to CMD is dropped and recorded (R35). -/
theorem State.busWrite_cmd_busy {s : State} (hr : s.running ≠ none) (c : Word) :
    s.busWrite .word 0x0000C#20 c = s.recordError .cmdBusy := by
  rcases s.issue_cases c with ⟨hidle, _⟩ | ⟨_, hdrop⟩
  · exact absurd hidle hr
  · exact (s.busWrite_reg .cmd c).trans hdrop

theorem Status.writeClear_done {st : Status} {w : Word} (h : w.getLsbD 1 = false) :
    (st.writeClear w).done = st.done := by
  change (st.done && !w.getLsbD 1) = st.done
  rw [h, Bool.not_false, Bool.and_true]

/-- DONE survives a host action, but for the reset and a STATUS write of bit 1. -/
theorem State.hostAct_done {s : State} (h : s.status.done = true) (a : HostAction) :
    (s.hostAct a).status.done = true ∨ a = .hardReset ∨
    ∃ v, a = .write .word 0x00008#20 v ∧ v.getLsbD 1 = true := by
  rcases s.hostAct_status a with ha | ⟨v, ha, hs⟩ | hs | ⟨c, _, hs⟩
  · exact .inr (.inl ha)
  · cases hv : v.getLsbD 1 with
    | true => exact .inr (.inr ⟨v, ha, hv⟩)
    | false => exact .inl (by rw [hs, Status.writeClear_done hv, h])
  · exact .inl (by rw [hs, h])
  · exact .inl (by rw [hs, Status.recordError_done, h])

/-! ## Idle states and runs (R366, R395) -/

theorem State.getLsbD_statusWord_zero_iff {s : State} :
    s.statusWord.getLsbD 0 = false ↔ s.running = none := by
  obtain ⟨hbusy, -⟩ := s.status.getLsbD_word s.busy
  change (s.status.word s.busy).getLsbD 0 = false ↔ _
  rw [hbusy]
  exact Option.isSome_eq_false_iff.trans Option.isNone_iff_eq_none

theorem step_idle {s : State} (hr : s.running = none) (hh : s.host = []) : step s = .next s := by
  simp [step, State.nextAction_nil hh, hr]

theorem core_run_idle {s : State} (hr : s.running = none) (hh : s.host = []) (k : Nat) :
    Sys2Proof.core.run k s = .next s := by
  induction k with
  | zero => rfl
  | succ k ih => rw [core_run_succ (step_idle hr hh), ih]

/-- A step from idle to busy is a CMD write by the host's first event. -/
theorem issued_of_step {s t : State} (h : step s = .next t) (hs : s.running = none)
    (ht : t.running ≠ none) :
    ∃ early c es, s.host = ⟨early, .write .word 0x0000C#20 c⟩ :: es ∧
      t = { s with host := es, running := some ⟨c, s.snapNow⟩ } := by
  rcases step_cases h with ⟨⟨early, a⟩, es, hh, _, rfl⟩ | ⟨r, _, _, hr, _⟩ | ⟨r, _, _, hr, _⟩ |
    ⟨_, _, rfl⟩
  · rcases State.hostAct_running { s with host := es } a with ⟨_, hidle⟩ | ⟨c, _, rfl, hissue⟩ |
      ⟨hkept, _⟩
    · exact absurd hidle ht
    · exact ⟨early, c, es, hh, hissue⟩
    · exact absurd (hkept.trans hs) ht
  · cases hs.symm.trans hr
  · cases hs.symm.trans hr
  · exact absurd hs ht

/-- With no host action due, one step is enough. -/
theorem core_run_completes_of_not_due {s : State} (hs : s.voices.length = Config.numVoices)
    (hr : s.running ≠ none) (hn : s.nextAction = none) (n : Nat) :
    ∃ k t, k ≤ n + 1 ∧ Sys2Proof.core.run k s = .next t ∧
      t.running = none ∧ t.status.done = true := by
  obtain ⟨t, hstep, ht⟩ := (step_completes hs hr hn).exists_next
  exact ⟨1, t, by omega, core_run_succ hstep, ht⟩

/-- By induction on the host's events: each one either is due, and leaves the command running, or waits
for the completion, which is then the step. -/
theorem core_run_completes {es : List HostEvent} {s : State} (hh : s.host = es)
    (hs : s.voices.length = Config.numVoices) (hr : s.running ≠ none)
    (hes : ∀ e ∈ es, e.action ≠ .hardReset) :
    ∃ k t, k ≤ es.length + 1 ∧ Sys2Proof.core.run k s = .next t ∧
      t.running = none ∧ t.status.done = true := by
  induction es generalizing s with
  | nil => exact core_run_completes_of_not_due hs hr (State.nextAction_nil hh) _
  | cons e es ih =>
    obtain ⟨hfirst, hrest⟩ := List.forall_mem_cons.1 hes
    cases he : e.early with
    | true =>
      have hstep := step_hostAct (State.nextAction_eq_some hh (.inr he))
      obtain ⟨hrunning, hvoices, hhost⟩ :=
        State.hostAct_keeps_running (s := { s with host := es }) hr hfirst
      obtain ⟨k, t, hk, hrun, ht⟩ := ih hhost (by rwa [hvoices]) (by rwa [hrunning]) hrest
      exact ⟨k + 1, t, Nat.succ_le_succ hk, (core_run_succ hstep).trans hrun, ht⟩
    | false =>
      have hn : s.nextAction = none := by
        rw [State.nextAction_cons hh, State.busy_eq_true hr, he]; rfl
      exact core_run_completes_of_not_due hs hr hn _

/-! ## The reset state -/

theorem storeInv_reset : State.reset.StoreInv :=
  ⟨rfl, nofun, Nat.zero_le _, Nat.zero_le _, (by decide : 0 < Config.delayCap)⟩

theorem phaseOk_posZero : phaseOk posZero := ⟨by decide, by decide, by decide⟩

end Sys2Proof.Machine

namespace Sys2Proof
open Machine

/-- Settles O14: with ERR 0 before and 1 after, the command recorded an error or the geometry fault, and
neither record touches more than STATUS. -/
theorem refusedCommandsAreAtomic : Obligations.RefusedCommandsAreAtomic := by
  unfold Obligations.RefusedCommandsAreAtomic
  intro i s t hi herr h ht
  rcases exec_err_cases hi herr h ht with ⟨c, hnone, hgeom, rfl⟩ | rfl
  · have hcause : (s.recordError c).complete.status.cause = c := by simp [herr]
    exact ⟨rfl, hcause.trans_ne hnone, fun hc => absurd (hcause.symm.trans hc) hgeom, fun _ => rfl⟩
  · have hcause : (s.recordFault .dlGeometry).complete.status.cause = .dlGeometry := by simp [herr]
    exact ⟨rfl, hcause.trans_ne (by decide), fun _ => rfl, fun hc => absurd hcause hc⟩

/-- Settles O6: an idle core steps to itself or by the host's action alone, and a running command with no
host event left completes. -/
theorem idleHoldsState : Obligations.IdleHoldsState := by
  unfold Obligations.IdleHoldsState
  refine ⟨fun s => State.getLsbD_statusWord_zero_iff, fun s k hr hh => core_run_idle hr hh k,
    fun s t h hs ht => issued_of_step h hs ht, fun s hs hr hh => ?completes⟩
  case completes =>
    obtain ⟨t, hstep, hidle, -⟩ :=
      (step_completes hs hr (State.nextAction_nil hh)).exists_next
    exact ⟨t, hstep, hidle⟩

/-- Settles O7: every answer is a completion, a dropped CMD write records an error alone, and of the
steps only the host's clear DONE. -/
theorem everyCommandCompletes : Obligations.EveryCommandCompletes := by
  unfold Obligations.EveryCommandCompletes
  refine ⟨fun i s hs => (exec_completes i hs).exists_next,
    fun e s => (rejectWord_completes e s).exists_next, fun s c hr => ?dropped,
    fun s t h hdone ht => ?cleared⟩
  case dropped =>
    rw [State.busWrite_cmd_busy hr c]
    exact ⟨rfl, rfl⟩
  case cleared =>
    rcases step_cases h with ⟨e, es, hh, _, rfl⟩ | ⟨_, _, _, _, _, he⟩ | ⟨_, _, _, _, _, rfl⟩ |
      ⟨_, _, rfl⟩
    · refine ⟨e, es, hh, ?_⟩
      rcases State.hostAct_done (s := { s with host := es }) hdone e.action with hkept | hcause
      · cases hkept.symm.trans ht
      · exact hcause
    · cases (exec_done he).symm.trans ht
    · cases ht
    · cases hdone.symm.trans ht

/-- Settles O8: the host's events that come first leave the command running, and there are finitely
many. -/
theorem runningCommandCompletes : Obligations.RunningCommandCompletes := by
  unfold Obligations.RunningCommandCompletes
  intro s hs hr hes
  exact core_run_completes rfl hs hr hes

/-- Settles O49: the invariants' reset cases, and every phase of a reset voice is +0.0. -/
theorem resetMeetsInvariants : Obligations.ResetMeetsInvariants := by
  unfold Obligations.ResetMeetsInvariants
  refine ⟨storeInv_reset, State.reset.engineInv_resetCore, voiceInv_reset,
    State.reset.delayInv_resetCore, fun x hx => ?phases⟩
  case phases =>
    rw [State.eq_reset_of_mem_voices hx]
    exact ⟨phaseOk_posZero, phaseOk_posZero, phaseOk_posZero⟩

end Sys2Proof
end
